-- ==== Sys2Proof/Word.lean ====
section
/-! DEFINITION. The plain words of the model, and the operand types that the commands of `Syntax.lean` carry:
bytes, registers, indices of Table 00-2, the channels of R334 and the outcomes that only the outside world decides. -/

namespace Sys2Proof

/-- One byte. -/
abbrev Byte := BitVec 8
/-- A 64-bit register. -/
abbrev W64 := BitVec 64

/-- Partition P00 to P63 (R9). -/
abbrev PIx := Fin 64
/-- Tile T00 to T95 (R9). -/
abbrev TIx := Fin 96
/-- Scale-out port L00 to L23 (R9). -/
abbrev LIx := Fin 24

/-- A stream of a partition: SQF, SQB, SQU, or the teacher stream of a DISTIL partition (R97, R198). -/
inductive Strm where
  | sqf | sqb | squ | teacher
  deriving DecidableEq, Repr

/-- Where a command's envelope and body come from (R334, R335, R405). A mailbox request is the content of the
mailbox's request buffer in the state; a management request arrives with the command. `recovery` is the plain MCTP
message of ROM recovery (R378). -/
inductive Chan where
  | mailbox (m : Fin 2)
  | ethernet (sess : Nat) (req : List Byte)
  | sideband (sess : Nat) (req : List Byte)
  | recovery (req : List Byte)
  deriving DecidableEq, Repr

/-- The function a host access goes through: PF0, or the VF of a partition (R398). -/
inductive Fn where
  | pf0
  | vf (p : PIx)
  deriving DecidableEq, Repr

/-- What PCIe training settles on: the rate as GLB_STAT numbers it (3 for 16, 4 for 32, 5 for 64 GT/s), the lanes, and FLIT mode (R395). -/
structure LinkMode where
  rate : Nat
  width : Nat
  flit : Bool
  deriving DecidableEq, Repr
/-- The modes that the port trains to; at 64 GT/s in FLIT mode only. -/
def LinkMode.wf (m : LinkMode) : Bool :=
  [3, 4, 5].contains m.rate && [1, 2, 4, 8, 16].contains m.width && (m.flit || m.rate != 5)

/-- What the host sets a function up with: the function, the mode its link has trained to, and the base addresses in its BARs (R395,
R397). -/
structure HostSetup where
  fn : Fn
  link : LinkMode
  bars : List Nat
  deriving DecidableEq, Repr

/-- A vector's entry of an MSI-X table as the host has written it (R397, R416). -/
structure VecEntry where
  vec : Fin 32
  addr : Nat
  data : Nat
  deriving DecidableEq, Repr

/-- An IDE stream and the AES-GCM-256 key that IDE_KM brings for it (R342, R402). -/
structure KeyedStream where
  stream : Nat
  key : BitVec 256
  deriving DecidableEq, Repr

/-- A failure that an access meets and that no rule lets the model compute: which bytes fail their parity check, and
how a stack unit reads (Table 10-3, R91, R92, R147, R156, R261, R384). -/
inductive Glitch where
  /-- Bytes of a tile's SRAM whose parity check fails (R91). -/
  | sram (tile : TIx) (off : Nat) (len : Nat)
  /-- A 64-byte stack unit whose first read is corrected by ECC. -/
  | eccCorrected (pa : Nat)
  /-- A 64-byte stack unit whose first read fails and whose re-read is clean. -/
  | rereadClean (pa : Nat)
  /-- A 64-byte stack unit whose re-read is ECC uncorrectable. -/
  | rereadEcc (pa : Nat)
  /-- A 64-byte stack unit whose re-read is ECC clean but fails parity on the bytes of the mask. -/
  | rereadParity (pa : Nat) (mask : BitVec 64)
  /-- A page tag whose re-read fails (R261). -/
  | tag (page : Nat)
  /-- A parity failure on a control path of this partition, on a tile (R92, R147, R384). -/
  | control (tile : TIx)
  /-- A parity failure on a control path that carries several partitions' work, on a die 0 to 19 (R384). -/
  | device (die : Fin 20)
  /-- A parity failure on the stationary slice held in an array of this tile, found in work unit `unit` of the operation at
  row `row` of its row block (R92). -/
  | slice (tile : TIx) (unit row : Nat)
  deriving DecidableEq, Repr

/-- How the bits of a received codeword came out of the Reed-Solomon code (R281, R282, R284). -/
inductive Codeword where
  | clean | corrected | uncorrectable
  deriving DecidableEq, Repr

/-- Which key a rotation acts on: the memory key of a partition or the shared key of a base (R349). -/
inductive KeyRef where
  | part (p : PIx)
  | base (b : Fin 16)
  deriving DecidableEq, Repr

/-- The transport of an SPDM or management exchange (R334). -/
inductive Wire where
  | pf0 | ethernet | sideband
  deriving DecidableEq, Repr

/-- What the boot ROM meets after a release of RESET_N: the pins sampled, the seal loop, the junction maximum, and its count of ROOT edges
once the root has locked (R339, R367, R429, R442). -/
structure BootIn where
  sbMode : Bool
  presLow : Bool
  loopClosed : Bool
  presTmax : Nat
  rootCount : Nat
  deriving DecidableEq, Repr

end Sys2Proof
end

