-- ==== Sys2Proof/Syntax.lean ====
section
/-! DEFINITION. The commands of the block: one constructor per row of spec/opcode_table.json, in the table's order.
A command names an event or an operation and carries what the part cannot hold itself: which partition, stream, port or
register it concerns, and the bytes, pins and outcomes that come from outside. What the part already holds (the operation
at a stream's PC, a mailbox's request buffer, the queue entry in progress) is read from the state. -/

namespace Sys2Proof

/-- How a memory request of the host arrives: on an IDE stream or not (R402), and with a PASID prefix or not (R397). -/
structure Via where
  ide : Bool
  pasid : Bool
  deriving DecidableEq, Repr

/-- The commands. -/
inductive Instr where
  /-- TENSOR_FORWARD (R105). Leader issues a forward TENSOR operation (KIND 000b) computing C = A·B on the arrays the gang setting assigns. -/
  | tensorForward (p : PIx) (q : Strm)
  /-- TENSOR_PAIR (R72). Leader issues a pair operation producing dX and dW from one shared gradient feed. -/
  | tensorPair (p : PIx) (q : Strm)
  /-- TENSOR_DX_ONLY (R105). Leader issues a dX-only backward TENSOR operation on BX. -/
  | tensorDxOnly (p : PIx) (q : Strm)
  /-- TENSOR_DW_ONLY (R105). Leader issues a dW-only backward TENSOR operation on BW. -/
  | tensorDwOnly (p : PIx) (q : Strm)
  /-- ADAPTER_APPLY (R191). A forward TENSOR whose D1 lies in the pod-slot window applies each segment's adapter half to its token rows. -/
  | adapterApply (p : PIx) (q : Strm)
  /-- ATTENTION (R235). A forward TENSOR whose D1 lies in the KV window computes scores, soft-maximum and output over each row's KV positions. -/
  | attention (p : PIx) (q : Strm)
  /-- TEACHER_WINDOW_OP (R212). A teacher-window forward TENSOR computes a vocabulary chunk of soft targets and sends them into a periscope buffer slot. -/
  | teacherWindowOp (p : PIx) (q : Strm)
  /-- STUDENT_WINDOW_OP (R213). A student-window forward TENSOR computes a vocabulary chunk of logits and runs pass 1 or pass 2 of the distillation loss. -/
  | studentWindowOp (p : PIx) (q : Strm)
  /-- KV_APPEND (R234). A VEC COPY whose DDST lies in the KV window converts and writes each token row's K or V vector into its page block. -/
  | kvAppend (p : PIx) (q : Strm)
  /-- COPY (R129). VEC COPY converts each element of DSRC1 into the destination. -/
  | copy (p : PIx) (q : Strm)
  /-- FILL (R129). VEC FILL writes IMM converted into every destination element. -/
  | fill (p : PIx) (q : Strm)
  /-- ADD (R129). VEC ADD writes a + b element-wise. -/
  | add (p : PIx) (q : Strm)
  /-- SUB (R129). VEC SUB writes a − b element-wise. -/
  | sub (p : PIx) (q : Strm)
  /-- MUL (R129). VEC MUL writes a × b element-wise. -/
  | mul (p : PIx) (q : Strm)
  /-- DIV (R129). VEC DIV writes a ÷ b element-wise. -/
  | div (p : PIx) (q : Strm)
  /-- MAX (R129). VEC MAX writes the IEEE 754 maximum element-wise. -/
  | max (p : PIx) (q : Strm)
  /-- MIN (R129). VEC MIN writes the IEEE 754 minimum element-wise. -/
  | min (p : PIx) (q : Strm)
  /-- SCALE (R129). VEC SCALE writes a × IMM element-wise. -/
  | scale (p : PIx) (q : Strm)
  /-- AXPY (R129). VEC AXPY writes IMM × a + b element-wise. -/
  | axpy (p : PIx) (q : Strm)
  /-- ABS (R129). VEC ABS writes |a| element-wise. -/
  | abs (p : PIx) (q : Strm)
  /-- NEG (R129). VEC NEG writes −a element-wise. -/
  | neg (p : PIx) (q : Strm)
  /-- EXP (R139). VEC EXP writes the correctly rounded e^a element-wise. -/
  | exp (p : PIx) (q : Strm)
  /-- LN (R139). VEC LN writes the correctly rounded natural logarithm element-wise. -/
  | ln (p : PIx) (q : Strm)
  /-- RCP (R139). VEC RCP writes the correctly rounded reciprocal element-wise. -/
  | rcp (p : PIx) (q : Strm)
  /-- RSQRT (R139). VEC RSQRT writes the correctly rounded reciprocal square root element-wise. -/
  | rsqrt (p : PIx) (q : Strm)
  /-- RELU (R140). VEC RELU writes a where a > 0 and +0 otherwise. -/
  | relu (p : PIx) (q : Strm)
  /-- SILU (R140). VEC SILU writes a × sigmoid(a) by the stated steps. -/
  | silu (p : PIx) (q : Strm)
  /-- DRELU (R140). VEC DRELU writes the ReLU derivative times dy. -/
  | drelu (p : PIx) (q : Strm)
  /-- DSILU (R140). VEC DSILU writes the SiLU derivative times dy by the stated steps. -/
  | dsilu (p : PIx) (q : Strm)
  /-- RSUM (R136). VEC RSUM writes each row's canonical-order sum. -/
  | rsum (p : PIx) (q : Strm)
  /-- RSUMSQ (R136). VEC RSUMSQ writes each row's canonical-order sum of squares. -/
  | rsumsq (p : PIx) (q : Strm)
  /-- RDOT (R136). VEC RDOT writes each row's canonical-order dot product of a and b. -/
  | rdot (p : PIx) (q : Strm)
  /-- RMAX (R136). VEC RMAX writes each row's maximum. -/
  | rmax (p : PIx) (q : Strm)
  /-- RAMAX (R136). VEC RAMAX writes each row's maximum magnitude. -/
  | ramax (p : PIx) (q : Strm)
  /-- TSUM (R137). VEC TSUM writes the tensor's canonical sum to SDST. -/
  | tsum (p : PIx) (q : Strm)
  /-- TSUMSQ (R137). VEC TSUMSQ writes the tensor's canonical sum of squares to SDST. -/
  | tsumsq (p : PIx) (q : Strm)
  /-- TAMAX (R137). VEC TAMAX writes the tensor's maximum magnitude to SDST. -/
  | tamax (p : PIx) (q : Strm)
  /-- TNFCNT (R137). VEC TNFCNT writes the count of NaN and infinite elements to SDST. -/
  | tnfcnt (p : PIx) (q : Strm)
  /-- SMX (R142). VEC SMX computes a row-wise soft-maximum with optional length mask, log form and statistics. -/
  | smx (p : PIx) (q : Strm)
  /-- SMXB (R144). VEC SMXB computes the soft-maximum backward pass. -/
  | smxb (p : PIx) (q : Strm)
  /-- LNORM (R145). VEC LNORM computes layer normalisation and saves μ and r. -/
  | lnorm (p : PIx) (q : Strm)
  /-- RMSNORM (R145). VEC RMSNORM computes RMS normalisation and saves r. -/
  | rmsnorm (p : PIx) (q : Strm)
  /-- LNORMB (R146). VEC LNORMB computes dx and accumulates dγ and dβ of layer normalisation. -/
  | lnormb (p : PIx) (q : Strm)
  /-- RMSNORMB (R146). VEC RMSNORMB computes dx and accumulates dγ of RMS normalisation. -/
  | rmsnormb (p : PIx) (q : Strm)
  /-- SCALAR_ADD (R137). Scalar VOP 40h writes a + b to a summary register. -/
  | scalarAdd (p : PIx) (q : Strm)
  /-- SCALAR_SUB (R137). Scalar VOP 41h writes a − b to a summary register. -/
  | scalarSub (p : PIx) (q : Strm)
  /-- SCALAR_MUL (R137). Scalar VOP 42h writes a × b to a summary register. -/
  | scalarMul (p : PIx) (q : Strm)
  /-- SCALAR_DIV (R137). Scalar VOP 43h writes a ÷ b to a summary register. -/
  | scalarDiv (p : PIx) (q : Strm)
  /-- SCALAR_MIN (R137). Scalar VOP 44h writes min(a, b) to a summary register. -/
  | scalarMin (p : PIx) (q : Strm)
  /-- SCALAR_MAX (R137). Scalar VOP 45h writes max(a, b) to a summary register. -/
  | scalarMax (p : PIx) (q : Strm)
  /-- SCALAR_RCP (R137). Scalar VOP 46h writes RCP(a) to a summary register. -/
  | scalarRcp (p : PIx) (q : Strm)
  /-- SCALAR_RSQRT (R137). Scalar VOP 47h writes RSQRT(a) to a summary register. -/
  | scalarRsqrt (p : PIx) (q : Strm)
  /-- UPD (R158). Update-engine VOP 80h applies the optimizer recurrence to each parameter record with its gradient. -/
  | upd (p : PIx) (q : Strm)
  /-- EXPORT (R169). Update-engine VOP 82h rounds each master weight once into the target tensor's format. -/
  | exportOp (p : PIx) (q : Strm)
  /-- RINIT (R170). Update-engine VOP 83h initialises parameter records from a source tensor and IMM group flags. -/
  | rinit (p : PIx) (q : Strm)
  /-- ALLREDUCE (R292). COLL ALLREDUCE delivers the canonical-order root of a reduction to every member. -/
  | allreduce (p : PIx) (q : Strm)
  /-- REDSCAT (R292). COLL REDSCAT delivers each member its slice of the reduction root. -/
  | redscat (p : PIx) (q : Strm)
  /-- ALLGATHER (R298). COLL ALLGATHER copies every member's shard into the gathered tensor, optionally into the gather cache with version records. -/
  | allgather (p : PIx) (q : Strm)
  /-- BCAST (R292). COLL BCAST copies rank 0's source to every member. -/
  | bcast (p : PIx) (q : Strm)
  /-- PERMUTE (R301). COLL PERMUTE moves records and gradients from the old layout to the new and advances the layout epoch. -/
  | permute (p : PIx) (q : Strm)
  /-- DRAIN (R300). COLL DRAIN exchanges one cell with every member and sets DRAINED once all reductions of the epoch complete. -/
  | drain (p : PIx) (q : Strm)
  /-- WAITB (R118). The stream issues nothing further until the beat count reaches the target. -/
  | waitb (p : PIx) (q : Strm)
  /-- WAITS (R114). The stream waits until the semaphore reaches COUNT and then subtracts it. -/
  | waits (p : PIx) (q : Strm)
  /-- POST (R114). The stream queues an addition of COUNT to a semaphore, taking effect when earlier operations complete. -/
  | post (p : PIx) (q : Strm)
  /-- BR (R112). The sequencer compares two operands and branches on the result. -/
  | br (p : PIx) (q : Strm)
  /-- LOOP (R113). The sequencer pushes a loop entry and repeats the body COUNT times. -/
  | loop (p : PIx) (q : Strm)
  /-- CALL (R113). The sequencer pushes a return address and fetches from TARGET. -/
  | call (p : PIx) (q : Strm)
  /-- RET (R113). The sequencer pops loop entries and the latest CALL entry and returns. -/
  | ret (p : PIx) (q : Strm)
  /-- FENCE (R116). The sequencer stops issuing until every earlier operation of the stream completes. -/
  | fence (p : PIx) (q : Strm)
  /-- HALT (R119). The sequencer stops issuing until earlier operations complete, then ends the program. -/
  | halt (p : PIx) (q : Strm)
  /-- OP_START (R98). An issued engine operation starts on every tile once 24 ARR cycles have passed and its dependencies, hazards and engines allow. -/
  | opStart (p : PIx) (q : Strm) (ix : Nat) (gl : List Glitch)
  /-- TENSOR_COMPLETE (R98). A TENSOR operation completes on every tile and its outputs and counts take effect. -/
  | tensorComplete (p : PIx) (q : Strm) (ix : Nat)
  /-- VEC_COMPLETE (R111). A VEC operation completes, writing its outputs and its SDST summary. -/
  | vecComplete (p : PIx) (q : Strm) (ix : Nat)
  /-- UPDATE_OP_COMPLETE (R155). An update-engine operation completes 256 HUB cycles after its last turn. -/
  | updateOpComplete (p : PIx) (q : Strm) (ix : Nat)
  /-- COLL_COMPLETE (R293). A COLL operation completes when all cells are sent and received and outputs written. -/
  | collComplete (p : PIx) (q : Strm) (ix : Nat)
  /-- SEM_WAIT_SATISFIED (R114). A waiting WAITS finds its semaphore large enough, subtracts COUNT and its stream resumes. -/
  | semWaitSatisfied (p : PIx) (q : Strm)
  /-- BEAT_TARGET_REACHED (R118). The beat count reaches a WAITB target and the stream returns to RUN. -/
  | beatTargetReached (p : PIx) (q : Strm)
  /-- POST_TAKES_EFFECT (R114). A POST adds COUNT to its semaphore in the cycle all earlier operations of its stream have completed. -/
  | postTakesEffect (p : PIx) (q : Strm)
  /-- FENCE_REACHED (R116). A FENCE is reached: SQ_FENCE is set, ledgers are audited and a latched yield stops the stream. -/
  | fenceReached (p : PIx) (q : Strm)
  /-- HALT_REACHED (R119). A HALT is reached: the stream enters HALTED, stores HCODE and clears its control stack. -/
  | haltReached (p : PIx) (q : Strm)
  /-- LEDGER_AUDIT_PERIODIC (R329). Every 4,096 beats the part audits every ledger. -/
  | ledgerAuditPeriodic
  /-- STREAM_START (R410). A START doorbell write starts an IDLE or HALTED stream at the given address. -/
  | streamStart (p : PIx) (q : Strm) (value : W64)
  /-- STREAM_RESUME (R410). A RESUME doorbell write returns a STOPPED stream to RUN. -/
  | streamResume (p : PIx) (q : Strm) (value : W64)
  /-- SEM_DEADLOCK (R115). After 1,024 cycles with all streams blocked or stopped and one in WAIT_SEM, the partition stops. -/
  | semDeadlock (p : PIx)
  /-- PSC_DEADLOCK (R208). After 1,024 cycles of teacher credit wait with all student streams stopped, the partition stops. -/
  | pscDeadlock (p : PIx)
  /-- BW_RETURN (R88). A lent BW returns to the backward stream 16 ARR cycles after finishing its work unit or after the operation became pending. -/
  | bwReturn (p : PIx) (t : TIx) (cycles : Nat)
  /-- BW_LEND (R89). BW is lent to the forward stream again at the next forward work unit after BW-needing operations complete. -/
  | bwLend (p : PIx) (t : TIx)
  /-- BUBBLE_START (R326). At a bubble entry's first beat the guest's operations take the host's arrays and vector engines. -/
  | bubbleStart (ix : Nat)
  /-- BUBBLE_END (R326). At a bubble's end each array completes its work unit and returns to the host. -/
  | bubbleEnd (ix : Nat)
  /-- STEP (R224). A step from the VF queue checks, pauses and groups rows into waves and runs the serving program per wave. -/
  | step (p : PIx)
  /-- BIND_COMPLETE (R182). A bind's streaming ends and its tag, digest and format checks decide BOUND or EMPTY. -/
  | bindComplete (p : PIx) (k : Fin 16)
  /-- WAVE_START (R193). Once its binds are done, a wave compares KV tags, writes token lengths and registers, gathers inputs and starts SQF. -/
  | waveStart (p : PIx)
  /-- SCRUB (R243). A scrub command zeroes every page block and tag of the listed KV pages. -/
  | scrub (p : PIx)
  /-- BIND (R189). Slot command BIND binds a handle into a slot under the bind and eviction rules. -/
  | bind (p : PIx)
  /-- UNBIND (R189). Slot command UNBIND empties or marks UNBINDING the slot holding the handle. -/
  | unbind (p : PIx)
  /-- UNPIN (R189). Slot command UNPIN subtracts COUNT from the slot's pins. -/
  | unpin (p : PIx)
  /-- SEAL (R189). Slot command SEAL encrypts a plaintext image under a tenant key and creates a READY catalog entry. -/
  | sealSlot (p : PIx)
  /-- CAT_ADD (R179). Takes a FREE catalog entry into LOADING and copies ciphertext from host memory. -/
  | catAdd (ch : Chan)
  /-- CAT_ADD_STORED (R180). When the ciphertext is stored the entry becomes READY and the handle returns. -/
  | catAddStored (ix : Fin 16384) (cipher : List Byte) (dmaOk : Bool)
  /-- CAT_MASK (R179). Replaces an entry's PMASK. -/
  | catMask (ch : Chan)
  /-- CAT_REMOVE (R187). Moves a READY entry to REMOVING and stops new binds. -/
  | catRemove (ch : Chan)
  /-- CAT_REVOKE (R187). Moves an entry to REVOKING, forcing unbinds regardless of pins. -/
  | catRevoke (ch : Chan)
  /-- CAT_QUERY (R179). Returns a catalog entry. -/
  | catQuery (ch : Chan)
  /-- EXT_SET (R407). Sets or clears one extent entry of a partition, allocating and zero-filling physical ranges. -/
  | extSet (ch : Chan)
  /-- BAR2_ACCESS (R251). A host read or write through a VF's BAR2 reaches staging bytes or is refused byte by byte. -/
  | bar2Access (p : PIx) (addr : Nat) (wr : Option (List Byte)) (len : Nat) (via : Via) (gl : List Glitch)
  /-- BASE_DEFINE (R265). Allocates layer homes for a base and stores its authenticated shard table. -/
  | baseDefine (ch : Chan) (manifest : List Byte)
  /-- BASE_LOAD (R265). Starts receiving the base's unverified shards from the host or a chain port. -/
  | baseLoad (ch : Chan)
  /-- BASE_REPLACE (R270). Starts a replacement of a base under load with NBUF buffers. -/
  | baseReplace (ch : Chan) (manifest : List Byte)
  /-- BASE_ABORT (R273). Ends a replacement before the switch and frees its buffers. -/
  | baseAbort (ch : Chan)
  /-- BASE_REMOVE (R264). Returns an unused base to EMPTY, zeroing and freeing its homes. -/
  | baseRemove (ch : Chan)
  /-- SHARD_RECEIVED (R266). A shard arrives whole, is decrypted, digested and stored or requested again. -/
  | shardReceived (b : Fin 16) (header : List Byte) (cipher : List Byte)
  /-- LAYER_SWAP (R272). Once layer FRONT is staged and old waves have passed it, its home and buffer swap and FRONT advances. -/
  | layerSwap (b : Fin 16)
  /-- SHARD_RECHECK (R268). The scrubber re-reads a shard of a READY base and compares its digest. -/
  | shardRecheck (b : Fin 16) (shard : Nat) (late : Bool) (gl : List Glitch)
  /-- KEY_ROTATE (R349). Starts rotation of a partition memory key or shared key. -/
  | keyRotate (ch : Chan)
  /-- KEY_GEN_INSTALLED (R349). Heril installs the new generation, flips CUR and starts the sweep. -/
  | keyGenInstalled (k : KeyRef)
  /-- KEY_SWEEP_PAGE (R256). The sweep locks a page, re-encrypts it under the new generation, flips its tag and moves its use count. -/
  | keySweepPage (k : KeyRef)
  /-- KEY_ROTATION_COMPLETE (R349). With the sweep done and the old generation unused, it is zeroed and the key returns to STABLE. -/
  | keyRotationComplete (k : KeyRef)
  /-- BEAT_EDGE (R275). An accepted BEAT_IN edge starts a beat and advances the beat count. -/
  | beatEdge (since : Nat) (interfered : List (PIx × Fin 5))
  /-- FLYWHEEL_BEAT (R278). With no beat edge within 1,026 ROOT cycles the part inserts a flywheel beat. -/
  | flywheelBeat
  /-- BEAT_CONFIRM (R304). After 16 consecutive beat edges the device sets its count to the confirmation count its ports agree on. -/
  | beatConfirm
  /-- BEAT_LOAD (R277). A write of ARM in LNK_BEAT_LOAD arms a beat-count load. -/
  | beatLoad (value : W64)
  /-- PORT_TRAINED (R280). A port completes training, measures its link delay and comes up. -/
  | portTrained (l : LIx) (lanesOk : Bool) (fallback : Bool) (delay : Nat) (pdev pport : Nat)
  /-- LINK_DOWN (R279). A port loses training or exceeds 3 beats of delay. -/
  | linkDown (l : LIx)
  /-- FRAME_RECEIVED (R282). A received frame header is checked, aligned and its hold, credit and acknowledgement fields taken. -/
  | frameReceived (l : LIx) (header : List Byte) (cw : Codeword) (crcOk : Bool)
  /-- CELL_RECEIVED (R284). A received cell is corrected, discarded, poisoned, relayed or delivered by class. -/
  | cellReceived (l : LIx) (pos : Nat) (cell : List Byte) (cw : Codeword) (hcrcOk pcrcOk : Bool)
  /-- UNSCHED_REPLAY (R286). An unscheduled cell not acknowledged within 4 beats is resent with every later cell. -/
  | unschedReplay (l : LIx)
  /-- SCHED_CELL_EXPIRE (R287). A scheduled cell waiting 2 beats for its COLL is discarded and counted. -/
  | schedCellExpire (l : LIx) (ix : Nat)
  /-- SCHED_LOAD (R289). Validates and loads a schedule table to take effect at activation beat A. -/
  | schedLoad (ch : Chan) (table : List Byte)
  /-- SCHED_ACTIVATE (R305). At beat A an ARMED device enters RUN, or HOLD with a hold latched. -/
  | schedActivate
  /-- SCHED_CLEAR (R305). Removes the schedule and returns the link state to NOSCHED. -/
  | schedClear (ch : Chan)
  /-- PEER_LATE (R293). A COLL receive still incomplete at anchor + LEN + 64 beats stops the partition. -/
  | peerLate (p : PIx) (q : Strm) (ix : Nat)
  /-- PEER_SILENT (R302). A port with no good frame for 16 beats records PEER_SILENT and may raise a hold. -/
  | peerSilent (l : LIx)
  /-- HOLD_HOST (R302). A write of HOLD in LNK_HOLD raises a hold with cause HOST. -/
  | holdHost
  /-- HOLD_RESUME_ARM (R304). A write of ARM with a RESUME beat arms the hold release if RESUME lies ahead. -/
  | holdResumeArm (value : W64)
  /-- HOLD_RELEASE (R304). At the armed RESUME beat or the automatic release beat the device leaves HOLD or clears a latched hold. -/
  | holdRelease
  /-- PART_SET (R419). Writes a new partition entry, allocates its save area and performs a partition reset. -/
  | partSet (ch : Chan)
  /-- PART_RESIZE (R313). Starts a resize that clears leaving and joining tiles and moves ownership. -/
  | partResize (ch : Chan)
  /-- RESIZE_COMMIT (R313). The resize commits the new entry and audits the ledgers. -/
  | resizeCommit (p : PIx)
  /-- PART_YIELD (R320). Latches a yield so each stream stops at its next FENCE. -/
  | partYield (ch : Chan)
  /-- YIELD_STREAMS_STOPPED (R320). When every stream is stopped the partition moves to FLUSHING and its banks flush to the save area. -/
  | yieldStreamsStopped (p : PIx)
  /-- FLUSH_COMPLETE (R320). The save area is written, the partition is YIELDED and the yield interrupt raised. -/
  | flushComplete (p : PIx)
  /-- YIELD_TIMEOUT (R322). A yield not complete within YLIMIT beats stops the partition and completes with TIMEOUT. -/
  | yieldTimeout (p : PIx)
  /-- PART_RESUME (R310). Clears the yield latch of a YIELDED partition. -/
  | partResume (ch : Chan)
  /-- PART_RELEASE (R310). Releases the tiles of a YIELDED partition, which becomes PARKED. -/
  | partRelease (ch : Chan)
  /-- PART_PLACE (R323). Places a PARKED partition on new tiles and restores its save area by rank. -/
  | partPlace (ch : Chan)
  /-- RESTORE_COMPLETE (R323). The save area is read back and the partition becomes YIELDED. -/
  | restoreComplete (p : PIx)
  /-- PART_RESET (R310). Resets one partition: registers, keys, extents filled and banks cleared. -/
  | partReset (ch : Chan)
  /-- HERIL_PARTITION_KEYS (R351). Heril, taking partitions one at a time, zeroes keys, empties owned tenant slots, advances INST and generates generation 0. -/
  | herilPartitionKeys (p : PIx)
  /-- PARTITION_SETUP_COMPLETE (R311). With keys generated and extents filled, the partition becomes ACTIVE. -/
  | partitionSetupComplete (p : PIx)
  /-- PART_FREE (R311). Releases a partition's tiles, keys, extents, counter sets and save area and makes it UNUSED. -/
  | partFree (ch : Chan)
  /-- REG_SET (R421). Writes one regulator of a partition. -/
  | regSet (ch : Chan)
  /-- RECLAIM (R324). Yields every lent partition and places or sets up the plan's serving partitions. -/
  | reclaim (ch : Chan) (plan : List Byte)
  /-- RECLAIM_PLACE (R324). As a plan partition's tiles become free, Quinad places or sets it up. -/
  | reclaimPlace (p : PIx)
  /-- SLOW_WINDOW_END (R318). At each 4,096-beat window end the part writes each partition's slow-down ratio. -/
  | slowWindowEnd
  /-- KEY_PUT (R348). A broker's wrapped tenant key is checked and installed in a tenant key slot. -/
  | keyPut (sess : Nat) (body : List Byte)
  /-- TKEY_DELETE (R343). Empties one tenant key slot. -/
  | tkeyDelete (ch : Chan)
  /-- TKEY_CLEAR_ALL (R336). Empties every tenant key slot under physical presence. -/
  | tkeyClearAll (ch : Chan)
  /-- CRED_ENROLL (R337). Writes or replaces one credential slot under physical presence. -/
  | credEnroll (ch : Chan)
  /-- CRED_DELETE (R337). Empties one credential slot under physical presence. -/
  | credDelete (ch : Chan)
  /-- DEBUG_ENABLE (R341). Zeroes keys, stops partitions, empties bases and catalog, and sets DEBUG. -/
  | debugEnable (ch : Chan)
  /-- FW_STAGE (R353). Writes and verifies an image set into the inactive flash bank. -/
  | fwStage (ch : Chan) (image : List Byte)
  /-- FW_DISCARD (R353). Marks the inactive bank invalid and clears staging flags and permit. -/
  | fwDiscard (ch : Chan)
  /-- FW_ACTIVATE (R354). Marks the staged bank to boot at the next full reset. -/
  | fwActivate (ch : Chan)
  /-- FW_ROLLBACK (R355). Stages an image set without the floor check and records a one-time permit. -/
  | fwRollback (ch : Chan) (image : List Byte)
  /-- FW_FLOOR (R355). Raises the anti-rollback floors. -/
  | fwFloor (ch : Chan)
  /-- FULL_RESET (R373). Command that schedules a full reset in 10 ms, arms one on HOST_PERST_N, or cancels the arming. -/
  | fullReset (ch : Chan)
  /-- FULL_RESET_NOW_EXPIRY (R373). 10 ms after a FULL_RESET NOW response the full reset begins. -/
  | fullResetNowExpiry
  /-- PWR_SET (R361). Moves the device between RUN, SLEEP and DEEP. -/
  | pwrSet (ch : Chan)
  /-- SPDM_GET_MEASUREMENTS (R346). Returns signed measurement blocks from one snapshot. -/
  | spdmGetMeasurements (w : Wire) (sess : Option Nat) (indices : List Nat) (nonce : BitVec 256)
  /-- SPDM_KEY_EXCHANGE (R345). Opens an SPDM secured session, up to 8 at once. -/
  | spdmKeyExchange (w : Wire) (sess : Nat) (requester : Option (BitVec 768)) (secret : BitVec 256)
  /-- SPDM_GET_CERTIFICATE (R332). Returns the certificate chain of slot 0. -/
  | spdmGetCertificate (w : Wire)
  /-- SPDM_CHALLENGE (R345). Answers an SPDM challenge signed with the alias key. -/
  | spdmChallenge (w : Wire) (nonce : BitVec 256)
  /-- MGMT_SESSION_OPEN (R337). A TLS management session opens, authenticated against an E slot or unenrolled. -/
  | mgmtSessionOpen (sess : Nat) (anchor : Option (BitVec 768)) (secret : BitVec 256)
  /-- IDE_KM (R402). IDE_KM over SPDM programs the keys of an IDE stream. -/
  | ideKm (sess : Nat) (k : KeyedStream) (link : Bool) (ridLo ridHi : Nat)
  /-- IDE_INTEGRITY_FAIL (R402). An IDE stream failing integrity becomes Insecure and sets QERR on covered VF queues. -/
  | ideIntegrityFail (stream : Nat)
  /-- PLDM_REQUEST (R439). A PLDM platform monitoring request reads sensors and thresholds. -/
  | pldmRequest (w : Wire) (sensor : Nat)
  /-- MCTP_CONTROL (R438). An MCTP control message is answered, also on auxiliary power alone. -/
  | mctpControl (w : Wire)
  /-- PRES_RELEASE (R338). Release of PRES_N during a presence command ends it with PRESENCE_REQUIRED and undoes its effects. -/
  | presRelease
  /-- SEAL_CHECK (R339). Every 1,024 AON cycles the seal loop continuity is checked. -/
  | sealCheck (loopOpen : Bool)
  /-- POWER_ON_AUX (R357). The auxiliary supply is applied and the AON domain starts. -/
  | powerOnAux
  /-- AON_STABLE (R357). After 65,536 crystal cycles AONSTB is set. -/
  | aonStable
  /-- POWER_48V_APPLIED (R435). The 48 V input reaches 40 V and the hot-swap stage charges the input. -/
  | power48vApplied
  /-- PWR_GOOD (R435). All rails reach regulation and PWR_GOOD is released. -/
  | pwrGood
  /-- POWER_FAULT (R437). The 48 V input or a power stage leaves its limits for 1 ms and a DE is recorded. -/
  | powerFault
  /-- PLL_LOCK (R358). After 8,192 REFCLK cycles of lock indication the root lock is accepted. -/
  | pllLock
  /-- REFCLK_LOSS (R364). REFCLK out of range in two windows halts links, arrays, stacks and control clocks. -/
  | refclkLoss
  /-- ROOT_LOSS (R364). The PLL lock indication low for 2 REFCLK cycles takes the clock-loss actions. -/
  | rootLoss
  /-- CRYSTAL_LOSS (R365). No AON edge in 256 REFCLK cycles is treated as an open seal. -/
  | crystalLoss
  /-- REFCLK_RETURN (R364). After 1,024 windows in range REFCLK counts as returned and the firmware restarts. -/
  | refclkReturn
  /-- LOUPE_START (R366). A write of START begins a loupe measurement or sets ERR. -/
  | loupeStart (value : W64)
  /-- LOUPE_DONE (R366). After GATE reference cycles COUNT holds the measurement and DONE is set. -/
  | loupeDone (count : Nat)
  /-- LOUPE_ABORT (R366). A write of START 0 aborts a measurement. -/
  | loupeAbort (value : W64)
  /-- CDC_TIMEOUT (R370). A crossing request unacknowledged for 1,024 sender cycles is dropped and recorded. -/
  | cdcTimeout (crossing : BitVec 32)
  /-- RESET_N_ASSERT (R371). RESET_N low for 10 µs starts a full reset. -/
  | resetNAssert (us : Nat)
  /-- HOST_PERST (R400). HOST_PERST_N asserted resets the host link, or performs an armed full reset. -/
  | hostPerst
  /-- RESET_N_RELEASE (R380). Release of RESET_N with power good and AONSTB starts boot and candidate checks. -/
  | resetNRelease (b : BootIn)
  /-- STACK_TRAINING_COMPLETE (R380). Stacks are trained, reserved regions zeroed, PHASE MEM reached and the default plan applied. -/
  | stackTrainingComplete (record : BitVec 384)
  /-- PHASE_READY (R380). Port training windows end and the part reaches PHASE READY. -/
  | phaseReady (ms : Nat)
  /-- THERMAL_SAMPLE (R440). Every 1 ms the part samples the junction maximum and updates the array duty. -/
  | thermalSample (readings : List Int)
  /-- FW_WATCHDOG (R384). Quinad or Heril leaving its watchdog unserviced for 1 s is a DE. -/
  | fwWatchdog (quinad : Bool)
  /-- D2D_LINK_DOWN (R22). A die-to-die link that fails retraining is device-fatal. -/
  | d2dLinkDown (die : Fin 20)
  /-- D2D_CRC_RETRY (R22). A die-to-die CRC error is retried by the adapter and counted. -/
  | d2dCrcRetry
  /-- PEEL_ROUND_START (R392). Each tile starts a peel round once per PERIOD seconds. -/
  | peelRoundStart (t : TIx)
  /-- PEEL_TEST_BEAT (R391). The peel runs one beat of a test on an eligible tile, carrying its signature. -/
  | peelTestBeat (t : TIx) (signatureOk : Bool)
  /-- ERROR_RECORD_ACCEPT (R386). The aggregator accepts a detected record, stamps SEQ and queues, merges or drops it. -/
  | errorRecordAccept
  /-- ERROR_HANDLE (R388). Quinad takes the highest-class oldest unhandled record and handles it. -/
  | errorHandle
  /-- ERR_POP (R394). A write of POP removes the head error record. -/
  | errPop
  /-- ERR_CLRCNT (R394). A write of CLRCNT clears DROPPED and ERR_CNT. -/
  | errClrcnt
  /-- HC_CLEAR (R66). A write of CLEAR zeroes a format-health counter set. -/
  | hcClear (n : Fin 8192)
  /-- ARR_CLRCNT (R95). A write of CLRCNT clears a tile's array cycle and lending counters. -/
  | arrClrcnt (t : TIx)
  /-- VE_CLRCNT (R148). A write of CLRCNT clears the soft-maximum row counters. -/
  | veClrcnt (p : PIx)
  /-- UPD_CLRCNT (R171). A write of CLRCNT clears STALLS. -/
  | updClrcnt (p : PIx)
  /-- DIST_CLRCNT (R221). A write of CLRCNT clears NOLBL and DIST_STALL. -/
  | distClrcnt (p : PIx)
  /-- MEM_CLRCNT (R274). A write of CLRCNT clears a stack's CE and UE counts. -/
  | memClrcnt (k : Fin 16)
  /-- PORT_CLRCNT (R306). A write of CLRCNT clears a port's counters. -/
  | portClrcnt (l : LIx)
  /-- CKR_LOCK (R381). A write of 1 to CKR_STAT LOCK locks the CKR RWL fields. -/
  | ckrLock
  /-- GLB_LOCK (R416). A write of 1 to GLB_CTL LOCK locks the RWL fields of GLB and LNK. -/
  | glbLock
  /-- SQ_TAIL_WRITE (R411). The host writes Q_SQTAIL after adding entries, or sets QERR with an out-of-range value. -/
  | sqTailWrite (p : PIx) (value : W64)
  /-- SQE_FETCH (R411). When the previous command completes and room exists, the part fetches and starts the next SQE. -/
  | sqeFetch (p : PIx) (entry : List Byte) (pcieOk : Bool)
  /-- CQ_HEAD_WRITE (R411). The host writes Q_CQHEAD after consuming entries, freeing room for held CQEs. -/
  | cqHeadWrite (p : PIx) (value : W64)
  /-- QUEUE_ENABLE (R411). A write of EN 1 clears QERR and resets the queue pointers and phase. -/
  | queueEnable (p : PIx) (value : W64)
  /-- QUEUE_DISABLE (R411). A write of EN 0 stops fetching and discards the running command's CQE. -/
  | queueDisable (p : PIx) (value : W64)
  /-- VERR_POP (R413). A write of POP removes the oldest record of the VF error view. -/
  | verrPop (p : PIx)
  /-- FUNCTION_MASTER_RESTORED (R401). When a function can master the bus again, held CQEs are written and pending messages sent. -/
  | functionMasterRestored (f : HostSetup)
  /-- REGISTER_WRITE (R10). A host write to a register with no behaviour of its own stores or ignores fields by access code;
  with no value it is the host's read at that offset (R404). -/
  | registerWrite (f : Fn) (off size : Nat) (value : Option W64) (via : Via)
  /-- RECORD_HANDLED (R447). The handler finishes handling a record, HCLASS returns to the pre-empted class or none, and for a DE the DE handling becomes complete. -/
  | recordHandled
  /-- FW_STAGE_COMPLETE (R353). The inactive bank is written and its signatures checked, and STAGING clears with STAGED and index 7 set, or the bank is left invalid. -/
  | fwStageComplete
  /-- SCRUB_COMPLETE (R243). The regulated zeroing of the listed KV pages and tags ends and the scrub command completes OK. -/
  | scrubComplete (p : PIx)
  /-- DIST_CFG_WRITE (R206). A permitted write to DIST_CFG stores its fields and sets every periscope buffer slot to FREE, discarding their contents. -/
  | distCfgWrite (p : PIx) (value : W64)
  /-- MSIX_VECTOR_UNMASK (R416). The host unmasks an MSI-X vector whose pending bit is set, and B1 sends the pending message while A0 waits for the next event (erratum E1). -/
  | msixVectorUnmask (f : Fn) (vec : VecEntry)
  /-- PCIE_LINK_DOWN (R401). The host PCIe link goes down, LRATE reads link down, and the part stops fetching SQEs and writing CQEs and sets MSI-X messages pending. -/
  | pcieLinkDown
  /-- HOST_PERST_RELEASE (R400). HOST_PERST_N is released, and the PCIe controller leaves host-link reset and answers configuration requests within 100 ms. -/
  | hostPerstRelease
  /-- POWER_48V_REMOVED (R437). The 48 V input falls away in an orderly power-down with RESET_N low; PWR_GOOD is driven low and the module runs on auxiliary power alone (R438). -/
  | power48vRemoved
  /-- AUX_POWER_REMOVED (R339). The auxiliary supply is removed with the main supply absent, the AON domain stops, and everything except the persistent store is lost. -/
  | auxPowerRemoved
  /-- PRES_N_ASSERT (R338). PRES_N is driven low, starting the 100 ms hold that sets SEC_STAT PRES and lets presence-checked commands pass. -/
  | presNAssert (ms : Nat)
  /-- SESSION_END (R342). An SPDM secured session or a TLS management session ends, its session and wrap keys are cleared, and its slot under the eight-session limit is freed. -/
  | sessionEnd (sess : Nat)
  /-- JTAG_INSTRUCTION (R340). An instruction shifted in on the JTAG port is answered as BYPASS or IDCODE, and every other instruction acts as BYPASS until DEBUG is set. -/
  | jtagInstruction (ir : Nat)
  deriving DecidableEq, Repr

end Sys2Proof
end

