-- ==== Sys2Proof/Decode.lean ====
section
/-! DEFINITION. The command that a word spells by the bits of spec/opcode_table.json: no row of that table gives bits, so
no word spells a command. (The 16-byte operations that the part's own sequencers read from memory are decoded in
`Sys2Proof/Machine/Streams.lean`.) -/

namespace Sys2Proof

/-- None of the table's rows gives bits. -/
def decodeTableWord (_nbits _w : Nat) : Option Instr := none

end Sys2Proof
end

