-- ==== Sys2Proof/Machine/State.lean ====
section
/-! DEFINITION. The state of the block as plain data: every register, queue, buffer, counter, mode and pin the spec gives
the part, one structure per block of the register map, gathered in `Dev`; and the queue of commands that wait (`pending`).
`State.reset` is the part before any supply is applied, with the values the spec gives for reset. -/

namespace Sys2Proof.Machine

/-- A sparse table: keys strictly rising. -/
abbrev Tab (α : Type) := List (Nat × α)

/-! ## Streams (04) -/

/-- Stream states (Table 04-1); `code` of a state is its number in SQ_STAT STATE. -/
inductive SeqState where
  | idle | run | waitSem | waitBeat | stopped | halted | fault
  deriving DecidableEq, Repr

/-- An entry of a stream's control stack (R113): a LOOP with the address of its first body operation, the number of body
operations, COUNT and the iteration index; or the return address of a CALL. -/
inductive CtlEntry where
  | loop (first body count index : Nat)
  | call (ret : Nat)
  deriving DecidableEq, Repr

/-- A tensor descriptor as read once at issue (Table 04-5). `rsv` is true when a reserved bit or a field of an unused
dimension is nonzero. `addrOf` is where the descriptor itself lies. -/
structure Desc where
  addrOf : Nat
  addr : Nat
  fmt : Nat
  ndim : Nat
  lsel : Bool
  blk : Nat
  space : Nat
  conv : Nat
  hset : Nat
  walk : Nat
  sptr : Nat
  hptr : Nat
  lens : List Nat
  strides : List Int
  rsv : Bool
  deriving DecidableEq, Repr

/-- What kind of work an issued engine operation is: the row of the opcode table it was issued as. -/
inductive OpKind where
  | forward | pair | dxOnly | dwOnly | adapter | attention | teacherWin | studentWin
  | kvAppend | vec | scalar | upd | exportOp | rinit | coll
  deriving DecidableEq, Repr

/-- One resolved output byte of a running operation: where it goes, its value, and whether it carries poison. -/
structure OutByte where
  sram : Bool
  loc : Nat
  val : BitVec 8
  bad : Bool
  deriving DecidableEq, Repr

/-- The counts an operation adds to one format-health set at completion (Table 02-8): set (global), then ELEM, ZERO,
VANISH, SUBN, SAT, OVF, NAN. -/
structure HcAdd where
  set : Nat
  cats : List Nat
  deriving DecidableEq, Repr

/-- A span pair (mu, sigma) of R214, as F32 encodings, with the span it belongs to. -/
structure SpanPair where
  span : Nat
  mu : BitVec 32
  sigma : BitVec 32
  deriving DecidableEq, Repr

/-- A row of values resolved so far (R214): its span pairs, its counts of infinities (+∞) and of finite values, and whether
it holds a NaN. -/
structure RowAcc where
  pairs : List SpanPair
  infs : Nat
  fins : Nat
  nan : Bool
  deriving DecidableEq, Repr

/-- What one token of a token tile carries between the chunks of a pass (R212 to R218): its rows at temperature, of the entries
that are not recorded, at temperature 1 and of the teacher; the recorded entries with their values; its label; lq at the label;
and the span partials of k. -/
structure TokenRun where
  soft : RowAcc
  rest : RowAcc
  hard : RowAcc
  teach : RowAcc
  kept : List (Nat × BitVec 32)
  label : Option Nat
  lqy : BitVec 32
  ksum : List (BitVec 32)
  deriving DecidableEq, Repr

/-- A work unit of a started operation: the tile and array that compute it and its cycles there (R73, R80); the (row block, column
block) pair it belongs to, its span and the number of spans in the whole reduction (R78); and whether its array has begun it (R88). -/
structure UnitRun where
  tile : Nat
  arr : Nat
  cycles : Nat
  pair : Nat
  span : Nat
  total : Nat
  begun : Bool
  deriving DecidableEq, Repr

/-- What a started operation will do when it completes (R66, R98, R111, R155): the bytes it writes and the code of the first
byte that it cannot write (R250), counts, summaries, and for a window operation the state of its tokens (R212). -/
structure OpResult where
  bytes : List OutByte
  fault : Option Nat
  health : List HcAdd
  sums : List (Nat × BitVec 64)
  empties : Nat
  infs : Nat
  stalls : Nat
  nolbl : Nat
  cycles : List UnitRun
  stepInc : Bool
  tokens : List TokenRun
  deriving DecidableEq, Repr

/-- One cell's worth of data of a flow: index, payload, and whether the payload is poisoned (R283, R284). -/
structure FlowCell where
  flow : Nat
  seq : Nat
  payload : List (BitVec 8)
  bad : Bool
  deriving DecidableEq, Repr

/-- Flow and transfer entries of a schedule table (Table 11-6). -/
structure FlowEnt where
  flow : Nat
  tid : Nat
  src : Nat
  dst : Nat
  ncell : Nat
  part : Nat
  deriving DecidableEq, Repr
structure Transfer where
  tid : Nat
  ckind : Nat
  part : Nat
  rankMode : Bool
  epoch : Nat
  nmemb : Nat
  rank : Nat
  len : Nat
  slice0 : Nat
  slicen : Nat
  deriving DecidableEq, Repr
/-- The progress of a COLL operation (R293): its transfer and flows as the table named at issue gave them, that table's
activation beat, the cells still to send and those received, the beats of its deadline's extension, and until its send begins the place
of the version record in the bytes for each member (R298). -/
structure CollRun where
  tid : Nat
  ckind : Nat
  act : Nat
  anchor : Nat
  cache : Bool
  check : Bool
  trans : Transfer
  flows : List FlowEnt
  toSend : List FlowCell
  got : List FlowCell
  extend : Nat
  stamp : Option Nat
  deriving DecidableEq, Repr

/-- Periscope buffer slot states (Table 08-1). -/
inductive BufState where
  | free | filling | ready | pass1 | pass2
  deriving DecidableEq, Repr

/-- A periscope buffer slot: state and token count (R205, R206). Its bytes lie in the student leader's banks. -/
structure BufSlot where
  st : BufState
  tokens : Nat
  deriving DecidableEq, Repr

/-- Distillation registers and the periscope path of a partition (R205, R211, R221). `tWait` and `sWait` say that a window operation
has waited on the buffer in this beat (R207). -/
structure Dist where
  cfg : BitVec 64
  temp : BitVec 64
  win : BitVec 64
  lbl : BitVec 64
  tseq : BitVec 32
  sseq : BitVec 32
  srT : BitVec 64
  nolbl : Nat
  tstall : Nat
  sstall : Nat
  slots : List BufSlot
  head : Nat
  tail : Nat
  tV0 : Nat
  sV0 : Nat
  sPass2 : Bool
  tRun : List TokenRun
  sRun : List TokenRun
  sseq0 : Nat
  tWait : Bool
  sWait : Bool
  deriving DecidableEq, Repr

/-- An operation in flight (R98, R99): its address, its 16 bytes, the descriptors read at issue, the loop index an LSEL
descriptor selects, its stochastic-rounding ranges with the key K of its issue (R57), the hot-channel lists as it read them, by address
(R58), its issue number, the stamp of the event that made it ready (R101), whether it has started, the page tags that fail
under it (R261), what the regulators of stack reads, stack writes and the fabric must have served before it completes (R315), and its
result. What its start went by is kept for the races of R100: the glitches of its start, the bytes that it saw at the places its
descriptors name, and for a window operation the periscope path as it stood. -/
structure Flight where
  no : Nat
  pc : Nat
  word : BitVec 128
  kind : OpKind
  slots : List Nat
  descs : List (Nat × Desc)
  loopIx : Option Nat
  srBase : List Nat
  srKey : BitVec 64
  hotIn : Tab (List (BitVec 8))
  ready : Option Nat
  started : Bool
  tags : List Glitch
  mark : List Nat
  gl : List Glitch
  seen : List OutByte
  path : Option Dist
  imm : BitVec 32
  wave : Nat
  result : OpResult
  coll : Option CollRun
  deriving DecidableEq, Repr

/-- What a stream has issued and not completed, oldest first: engine operations and POSTs (R99, R114). -/
inductive Item where
  | op (f : Flight)
  | post (sem count pc : Nat)
  deriving DecidableEq, Repr

/-- What holds a stream's issue, beside its state: nothing, an unreached FENCE, or an unreached HALT (R116, R119). -/
inductive Hold where
  | none
  | fence (fid : Nat)
  | halt (code : Nat)
  deriving DecidableEq, Repr

/-- One sequencer (R126). -/
structure Seq where
  st : SeqState
  pc : Nat
  stack : List CtlEntry
  items : List Item
  hold : Hold
  waitSem : Nat × Nat
  waitBeat : Nat
  fenceValid : Bool
  fid : BitVec 32
  hcode : BitVec 32
  sums : Tab (BitVec 64)
  mapBuilt : Bool
  deriving DecidableEq, Repr

/-! ## Partitions (12) -/

/-- Partition states (Table 12-3). -/
inductive PState where
  | unused | setup | active | yielding | flushing | yielded | parked | restoring | resizing | resetting | faulted
  deriving DecidableEq, Repr

/-- Partition modes (Table 12-1). -/
inductive PMode where
  | serve | tune | distil | general
  deriving DecidableEq, Repr

/-- Gang settings (Table 03-3). -/
inductive Gang where
  | sequence | overlap | borrow
  deriving DecidableEq, Repr

/-- Results of a yield (PART_YIELD RESULT). -/
inductive YResult where
  | none | yielded | faulted | timeout
  deriving DecidableEq, Repr

/-- A partition table entry: the fields of PART_CTL, PART_TILES and PART_RES that Quinad writes (R307, R331). A guest's TILES and NTILE
are 0, since it owns no tile; its tiles are its host's (R325). -/
structure Entry where
  mode : PMode
  gang : Gang
  c0 : Bool
  lent : Bool
  guest : Bool
  hostp : Nat
  leader : Nat
  ntile : Nat
  tkd : Nat
  tiles : BitVec 96
  accb : Nat
  gbanks : Nat
  nteach : Nat
  hsbase : Nat
  hscount : Nat
  deriving DecidableEq, Repr

/-- The settings of one regulator: SHARE and CEIL (R314). -/
structure Regul where
  share : Nat
  ceil : Nat
  deriving DecidableEq, Repr

/-- The token buckets G and X of one regulator in 1/1,024 units, what its accesses have asked for in all, and what waits for a refill,
oldest first: of each request the part that is not served (R315). -/
structure Bucket where
  g : Int
  x : Int
  asked : Nat
  due : List Nat
  deriving DecidableEq, Repr

/-- SLOW and the counts of the window in progress (R318); `seen` says that an engine operation was in flight in this beat. -/
structure Slow where
  ratio : Nat
  active : Nat
  stall : Nat
  window : Nat
  curActive : Nat
  curStall : Nat
  seen : Bool
  deriving DecidableEq, Repr

/-- Update-engine registers of a partition (R171). -/
structure UpdRegs where
  ctab : BitVec 64
  tele : BitVec 64
  step : BitVec 32
  stalls : Nat
  deriving DecidableEq, Repr

/-- Pod slot states (Table 07-6). -/
inductive PodState where
  | empty | binding | bound | unbinding
  deriving DecidableEq, Repr

/-- One pod slot (R181 to R186). `use` orders last uses: larger is later; `code` is the code of a failed bind until its
row or command has been completed with it. -/
structure PodSlot where
  st : PodState
  held : Bool
  gen : BitVec 16
  pins : Nat
  handle : BitVec 32
  dtag : BitVec 64
  use : Nat
  revoked : Bool
  taken : Nat
  removed : Nat
  deriving DecidableEq, Repr

/-- A row of the running step (Tables 09-2, 09-3). -/
structure StepRow where
  bad : Bool
  kind : Nat
  cls : Nat
  keep : Bool
  vk : Nat
  tokens : Nat
  handle : BitVec 32
  len : Nat
  npage : Nat
  plist : Nat
  deadline : Nat
  pages : List Nat
  code : Option Nat
  newlen : Nat
  acc : Nat
  slot : Nat
  late : Bool
  pin : Bool
  gen : Nat
  pins : Nat
  wave : Nat
  shape : Bool
  deriving DecidableEq, Repr

/-- A token list entry (R229). -/
structure TokEntry where
  desc : Nat
  dim : Nat
  op : Nat
  desc2 : Nat
  rsv : Nat
  deriving DecidableEq, Repr

/-- The running step (R222 to R242). `phase` 0: binds of the current wave in progress; 1: the wave's program runs. `coefs` are
CT, CR, CW, CA and CB, `pods0` the pod slots as the step found them, and `undo` what the KV appends of the running wave have overwritten,
newest first, which an end of the step in mid-wave puts back (R241). -/
structure StepRun where
  rowsAt : Nat
  prog : Nat
  tlist : List TokEntry
  cpl : Nat
  acpt : Nat
  rows : List StepRow
  waves : List (List (BitVec 32))
  wave : Nat
  nwave : Nat
  phase : Nat
  overbudget : Bool
  abort : Bool
  coefs : List Nat
  pods0 : List PodSlot
  bstart : Nat
  baseGen : List (Nat × Nat)
  basePos : List (Nat × Nat)
  bindCodes : List (BitVec 32 × Nat)
  undo : List OutByte
  deriving DecidableEq, Repr

/-- A submission queue entry that the part has fetched and runs (R409). -/
structure Sqe where
  cmd : Nat
  tag : Nat
  body : List (BitVec 8)
  started : Bool
  deriving DecidableEq, Repr

/-- The queues, status and error view of a VF (R408 to R413). -/
structure Vf where
  sqBase : BitVec 64
  cqBase : BitVec 64
  en : Bool
  ien : Bool
  cqsz : Nat
  sqsz : Nat
  sqTail : Nat
  cqHead : Nat
  qerr : Bool
  phase : Bool
  lost : Nat
  cqTail : Nat
  sqHead : Nat
  cur : Option Sqe
  discard : Bool
  heldCqe : List (List (BitVec 8))
  vstat : BitVec 9
  view : List (List (BitVec 8))
  viewDropped : Nat
  deriving DecidableEq, Repr

/-- An extent table entry that is VALID (R247, R274). -/
structure Ext where
  kind : Nat
  base : Nat
  vbase : Nat
  pbase : Nat
  len : Nat
  deriving DecidableEq, Repr

/-- Key generation state (Table 13-7). -/
inductive KState where
  | none | stable | rotating
  deriving DecidableEq, Repr

/-- A key slot with two generations: state, CUR, the use counts, the two keys, and the sweep's position once it runs
(R256, R257, R349). -/
structure KGen where
  st : KState
  cur : Bool
  use0 : Nat
  use1 : Nat
  key0 : Option (BitVec 512)
  key1 : Option (BitVec 512)
  sweep : Option Nat
  deriving DecidableEq, Repr

/-- What a partition starts at the end of the beat in which the peel uses a tile of it (R392): a stream at an address, a stream that
resumes, a yield, or a reset. -/
inductive Later where
  | start (q a : Nat)
  | resume (q : Nat)
  | yield
  | reset
  deriving DecidableEq, Repr

/-- Everything the part holds for one partition. `gnspans` are the GNSPAN values of the node areas that its TENSOR operations
have written, by address and space: a node area's header does not hold it (Table 11-9), and its records carry it (R295). `shards` are
the shards that a PERMUTE has moved, by flow (own moves from 65,536 on), with the epochs of the layouts that own each (R301). `quietBeat`
says whether every stream was IDLE, HALTED or STOPPED at the start of the beat, and `later` is what waits for a peel beat's end (R392). -/
structure Part where
  st : PState
  entry : Entry
  regs : List Regul
  yResult : YResult
  yBeats : Nat
  yLatched : Bool
  yCount : Nat
  yAll : Nat
  slow : Slow
  target : Option Entry
  wasParked : Bool
  save : Option (Nat × Nat)
  saveNext : Option (Nat × Nat)
  saveTiles : Nat
  leaderRank : Nat
  inst : BitVec 32
  krot : BitVec 32
  keysDue : Bool
  reclaim : Bool
  sq : List Seq
  sem : Tab (BitVec 32)
  sqDesc : BitVec 64
  sqDescT : BitVec 64
  issueNo : Nat
  readyNo : Nat
  srKey : BitVec 64
  srCtr : List (BitVec 64)
  smxEmpty : Nat
  smxInf : Nat
  vePoison : Bool
  upd : UpdRegs
  dist : Dist
  podCfg : BitVec 64
  podWin : BitVec 64
  pods : List PodSlot
  kvCfg : BitVec 64
  kvBase : BitVec 64
  kvPages : BitVec 64
  kvTag : BitVec 64
  kvWin : BitVec 64
  step : Option StepRun
  vf : Vf
  epoch : BitVec 16
  gnspans : Tab Nat
  drained : Bool
  permuting : Option Nat
  shards : Tab (List Nat)
  bubble : Bool
  ext : Tab Ext
  kgen : KGen
  quietBeat : Bool
  later : List Later
  deriving DecidableEq, Repr

/-- The state a tile keeps of its own (R95), with BW's lending (R88) and its peel round (R391): `peelWin` are the beats of the last
4,096 that the peel has used, each as the number of beats since then: 0 is the present one (R392). -/
structure TileSt where
  poison : Bool
  cycFa : Nat
  cycBx : Nat
  cycBw : Nat
  lendMax : Nat
  lendCyc : Nat
  bwLent : Bool
  peelTest : Nat
  peelBeat : Nat
  peelRerun : Bool
  peelOn : Bool
  peelWin : List Nat
  deriving DecidableEq, Repr

/-- A format-health counter set (R66). -/
structure HcSet where
  cats : List Nat
  satf : Bool
  owner : Nat
  ops : Nat
  deriving DecidableEq, Repr

/-! ## Catalog, bases, memory (07, 10) -/

/-- Catalog entry states (Table 07-5). -/
inductive CatState where
  | free | loading | ready | removing | revoking
  deriving DecidableEq, Repr

/-- A catalog entry (Table 07-3) with its ciphertext; `range` is the part of the catalog region it takes (bytes). -/
structure CatEntry where
  st : CatState
  seq : Nat
  tenant : Nat
  pmask : BitVec 64
  length : Nat
  iv : BitVec 96
  tag : BitVec 128
  digest : BitVec 256
  cipher : List (BitVec 8)
  deriving DecidableEq, Repr

/-- Base states (Table 10-4). -/
inductive BaseState where
  | empty | loading | ready | failed
  deriving DecidableEq, Repr

/-- Replacement states (Table 10-6). -/
inductive RState where
  | idle | fill | front | failed
  deriving DecidableEq, Repr

/-- A shard table entry (R262) and where its delivery stands: stored and verified, BAD, failed deliveries. -/
structure Shard where
  layer : Nat
  offset : Nat
  length : Nat
  digest : BitVec 256
  stored : Bool
  bad : Bool
  fails : Nat
  deriving DecidableEq, Repr

/-- A base (R262 to R274). `homes` are the layer homes' PAs; `bufs` the replacement's free buffers and `staging` the buffer of each
layer being or already received; `waiters` the partitions whose waves wait at the barrier, each with the layer it waits for. -/
structure Base where
  st : BaseState
  gen : BitVec 16
  nlayer : Nat
  lbuf : Nat
  homes : List Nat
  shards : List Shard
  manifest : BitVec 256
  src : Nat
  port : Nat
  fwd : Nat
  loading : Bool
  rst : RState
  rprev : RState
  front : Nat
  nbuf : Nat
  bufs : List Nat
  staging : Tab Nat
  newShards : List Shard
  newManifest : BitVec 256
  switched : Bool
  bwait : Nat
  waiters : List (Nat × Nat)
  deriving DecidableEq, Repr

/-- What a physical range is allocated to (R246). -/
inductive Owner where
  | extent (p e : Nat)
  | home (b : Nat)
  | buffer (b : Nat)
  | save (p : Nat)
  deriving DecidableEq, Repr

/-- An allocated physical range (R246). -/
structure Range where
  lo : Nat
  len : Nat
  owner : Owner
  deriving DecidableEq, Repr

/-- The stacks and what the hubs keep of them (R245 to R261, R274). `tag1` are the page intervals tagged generation 1. -/
structure MemSt where
  bytes : List Host.Cell
  bad : List (Nat × Nat)
  tag1 : List (Nat × Nat)
  ranges : List Range
  ce : List Nat
  ue : List Nat
  lastValid : Bool
  lastKind : Nat
  lastOwner : Nat
  lastPa : Nat
  interval : Nat
  lag : Nat
  checked : Nat
  deriving DecidableEq, Repr

/-! ## Links (11) -/

/-- Link states (Table 11-10). -/
inductive LinkState where
  | nosched | armed | run | hold | beatlost
  deriving DecidableEq, Repr

/-- Slot run of a schedule table (Table 11-5). -/
structure SlotRun where
  port : Nat
  act : Nat
  beat0 : Nat
  nbeat : Nat
  cell0 : Nat
  ncell : Nat
  flow : Nat
  oport : Nat
  ocell0 : Nat
  next : Bool
  deriving DecidableEq, Repr
/-- Bubble entry (Table 11-7). -/
structure Bubble where
  host : Nat
  guest : Nat
  beat0 : Nat
  nbeat : Nat
  deriving DecidableEq, Repr

/-- A schedule table (R288) with its activation beat. -/
structure Sched where
  id : Nat
  period : Nat
  runs : List SlotRun
  flows : List FlowEnt
  trans : List Transfer
  bubs : List Bubble
  actBeat : Nat
  deriving DecidableEq, Repr

/-- An unscheduled cell held for replay: sequence, cell bytes, and the beat of its last sending (R286). -/
structure UCell where
  seq : Nat
  bytes : List (BitVec 8)
  sent : Nat
  deriving DecidableEq, Repr

/-- A scheduled cell that waits for its COLL operation (R287). -/
structure Waiting where
  cell : FlowCell
  arrived : Nat
  deriving DecidableEq, Repr

/-- One scale-out port (R279 to R290, R306). `st` 0 down, 1 training, 2 up, 3 up and aligned. `wasAligned` says that it has been aligned
since it came up (R302), `confirms` that it was so when BEATLOST began (R304); `schedHeld` are the scheduled credits held (R287), `peerOcc`
the peer receiver's occupancy as its last frame gave it, `unbal` the beats for which the unscheduled ledger has been out of balance (R327,
R328), and `shardOf` the base of the chain-load shard whose cells are arriving, none before its first cell (R267). -/
structure PortSt where
  st : Nat
  rate : Bool
  rateMax : Bool
  ldly : Nat
  pdev : Nat
  pport : Nat
  outOfMap : Bool
  beatErr : Nat
  schedErr : Nat
  crcErr : Nat
  fecCorr : Nat
  misRun : Nat
  silent : Nat
  peerHold : Bool
  peerCount : Option Nat
  txSeq : Nat
  txQueue : List (List (BitVec 8))
  replay : List UCell
  ucredSeen : Nat
  ucredits : Nat
  rxNext : Nat
  rxCells : List (List (BitVec 8))
  rxReturned : Nat
  waiting : List Waiting
  relay : List (Nat × Nat × List (BitVec 8))
  wasAligned : Bool
  confirms : Bool
  schedHeld : Nat
  peerOcc : Nat
  unbal : Nat
  shardOf : Option Nat
  deriving DecidableEq, Repr

/-- The LNK block (R306) and the hold machinery (R302 to R305). `hbeat` is the largest confirmation count seen; none before the first
(R304). -/
structure Lnk where
  devid : BitVec 10
  st : LinkState
  count : BitVec 48
  loadArm : Bool
  loadVal : BitVec 48
  holdArm : Bool
  resume : BitVec 48
  holdCause : Nat
  holdRaised : Bool
  beatOnly : Bool
  beatIn : Bool
  latched : Bool
  edgeErr : Nat
  flywheel : Nat
  flyRun : Nat
  edgeRun : Nat
  confirm : Option (BitVec 48)
  hbeat : Option (BitVec 48)
  ports : Tab PortSt
  linkMap : List (Nat × Nat)
  active : Option Sched
  armed : Option Sched
  slowAt : Option Nat
  deriving DecidableEq, Repr

/-! ## Clocks, boot, security (13, 14) -/

/-- One clock domain's CKR_DOM (R381): SRC 0 ROOT, 1 REF, 2 STOP. -/
structure Dom where
  src : Nat
  gated : Bool
  slpen : Bool
  switches : Nat
  deriving DecidableEq, Repr

/-- The CKR block (R381), the clock and reset chain, and the boot state: `aonRun` says that the AON domain has its clock (R357, R363),
`bootIn` what was sampled at the last release of RESET_N and what the boot ROM measures after it (R367), and `hotReset` that THERMAL_LIMIT
has stopped the part since it last booted (R442). -/
structure Ckr where
  lock : Bool
  pwr : Nat
  aonstb : Bool
  pllLock : Bool
  refOk : Bool
  perstArm : Bool
  refLoss : Nat
  cdcTmo : Nat
  doms : List Dom
  loupeStart : Bool
  loupeDone : Bool
  loupeErr : Bool
  loupeSel : BitVec 24
  loupeGate : BitVec 32
  loupeCount : Nat
  cause : Nat
  clkFail : Nat
  nfull : Nat
  phase : Nat
  reason : Nat
  bank : Bool
  fallbk : Bool
  tboot : Nat
  act : BitVec 32
  nowDue : Bool
  clockWait : Bool
  clockLost : Bool
  booting : Bool
  bootIn : BootIn
  aonRun : Bool
  hotReset : Bool
  deriving DecidableEq, Repr

/-- Supplies and single pins of Tables 17-1 and 17-3 (R426 to R438). A `...N` pin is true when it is driven high or
released. -/
structure Pins where
  aux : Bool
  v48 : Bool
  pwrGood : Bool
  resetN : Bool
  perstN : Bool
  presN : Bool
  presHeld : Bool
  faultN : Bool
  thermN : Bool
  beatOut : Bool
  sbMode : Bool
  deriving DecidableEq, Repr

/-- One image in a flash bank: its bytes are seen only through opaque digests, so its VERSION, SVN and compatibility
record are kept with it (R374, R375). -/
structure Bank where
  image : List (BitVec 8)
  valid : Bool
  act : BitVec 32
  deriving DecidableEq, Repr

/-- The persistent store (R372): credential slots E0-E3, S0-S3, the floors, the rollback permit and the copy of the seal
latch; the flash; and the fused unique secret (R332). -/
structure Persist where
  fuse : BitVec 256
  creds : List (Option (BitVec 768))
  floorH : Nat
  floorQ : Nat
  permit : Option (BitVec 384)
  sealed : Bool
  bankA : Bank
  bankB : Bank
  deriving DecidableEq, Repr

/-- A tenant key slot that is LIVE (R343). -/
structure TKey where
  model : Bool
  keyid : BitVec 32
  tkd : Nat
  ownerp : Nat
  base : Nat
  key : BitVec 256
  deriving DecidableEq, Repr

/-- An open secured session: SPDM over PF0 or the sideband, or TLS on the management Ethernet (R337, R345). `cred` is the
credential slot it was authenticated against; `quoted` the measurement indices that each signed response has returned (R348). -/
structure Session where
  wire : Wire
  cred : Option Nat
  secret : BitVec 256
  quoted : List (List Nat)
  deriving DecidableEq, Repr

/-- An IDE stream: its AES-GCM-256 key, link or selective, the VFs it covers, and whether it is Secure (R342, R402). -/
structure Ide where
  key : BitVec 256
  link : Bool
  ridLo : Nat
  ridHi : Nat
  secure : Bool
  deriving DecidableEq, Repr

/-- The security processor's state (13): `loopRun` counts the seal checks in a row that found the loop open, up to 2; `identity`,
`aliasKey` and `chain` are the device's key pairs and the certificate chain of slot 0 (R332, R342). -/
structure Sec where
  sealed : Bool
  debug : Bool
  staging : Bool
  staged : Bool
  permit : Bool
  loopRun : Nat
  recovery : Bool
  loaded : Bool
  identity : Option (BitVec 384)
  aliasKey : Option (BitVec 384)
  chain : List (BitVec 8)
  devKey : Option (BitVec 512)
  drbg : Nat
  drbgLive : Bool
  tkeys : Tab TKey
  shared : Tab KGen
  sessions : Tab Session
  ides : Tab Ide
  stageNext : Nat
  stageBank : Bool
  stageData : List (BitVec 8)
  stageRoll : Bool
  stageOld : Option Bank
  presCmd : Option Nat
  deriving DecidableEq, Repr

/-! ## Errors, peel, host interface (15, 16, 17) -/

/-- An error record (Table 15-3); `mover` marks the PE that moved its partition to FAULTED (R386). -/
structure ErrRec where
  code : Nat
  pv : Bool
  part : Nat
  av : Bool
  phys : Bool
  seq : Nat
  beat : Nat
  unit : Nat
  index : Nat
  bank : Nat
  rep : Nat
  addr : Nat
  aux : Nat
  mover : Bool
  deriving DecidableEq, Repr

/-- The ERR block (R394): queue, detected records not yet accepted, unhandled records, and the handler's stack. -/
structure ErrSt where
  queue : List ErrRec
  detected : List ErrRec
  todo : List ErrRec
  handling : List ErrRec
  dropped : Nat
  nextSeq : BitVec 16
  d2dRetry : Nat
  peFlt : Nat
  lastDe : List (BitVec 8)
  deOpen : Bool
  deDone : Bool
  holdst : Bool
  degraded : Bool
  peelEn : Bool
  peelPeriod : Nat
  peelPmask : BitVec 64
  peelRounds : Nat
  peelBeats : Nat
  peelFail : BitVec 96
  mism : BitVec 6
  abeat : BitVec 48
  ylimit : BitVec 32
  deriving DecidableEq, Repr

/-- A mailbox (R405). -/
structure Mbox where
  req : List (BitVec 8)
  resp : List (BitVec 8)
  busy : Bool
  done : Bool
  ovr : Bool
  discard : Bool
  deriving DecidableEq, Repr

/-- A command whose response is sent later: its code, a key of its own, the channel it came by and its TAG. -/
structure Reply where
  code : Nat
  key : Nat
  ch : Chan
  tag : Nat
  deriving DecidableEq, Repr

/-- A PCIe function's own state: enables, D-state, the MSI-X masks and pending bits, the vectors whose pending message A0 withholds until
their next event (E1), the address and data of each MSI-X vector, and the base addresses in its BARs; PF0's are followed by those of
the VF BARs, which its SR-IOV capability holds (R397, R398, R400, R401, R416). An empty list says that the BARs are unassigned. -/
structure FnSt where
  busMaster : Bool
  vfEnable : Bool
  d3hot : Bool
  mask : BitVec 32
  pba : BitVec 32
  withheld : BitVec 32
  table : Tab (Nat × Nat)
  bars : List Nat
  deriving DecidableEq, Repr

/-- The GLB block (R416), the mailboxes and the PCIe functions: key 0 is PF0 and key v is VF v. `planLog` is the log of skipped
entries of the default partition plan: partition and refusal code (R379). -/
structure HostSt where
  b1 : Bool
  hver : BitVec 32
  qver : BitVec 32
  lock : Bool
  idereq : Bool
  lrate : Nat
  lwidth : Nat
  flit : Bool
  badacc : Nat
  int : BitVec 8
  ystat : BitVec 64
  mb0 : Mbox
  mb1 : Mbox
  replies : List Reply
  plan : List (List (BitVec 8))
  planParts : List Nat
  planLog : List (Nat × Nat)
  fns : Tab FnSt
  linkUp : Bool
  hostReset : Bool
  answering : Bool
  deriving DecidableEq, Repr

/-- Thermal state (R439 to R442): the last readings of sensors 1 to 12, the duty D and the samples at TLIM. -/
structure Therm where
  sensors : List Int
  duty : Nat
  hot : Nat
  tthr : Int
  tlim : Int
  deriving DecidableEq, Repr

/-- The configuration block in force (Table 14-7), as loaded at boot. -/
structure Cfg where
  catsz : Nat
  regdef : List (Nat × Nat)
  plan : List (List (BitVec 8))
  stackDigest : BitVec 384
  digest : BitVec 384
  loaded : Bool
  deriving DecidableEq, Repr

/-- What the block has put out, newest first. It is the model's record of messages, answers and line traffic. -/
inductive Out where
  | msix (fn vec : Nat)
  | response (wire : Wire) (bytes : List (BitVec 8))
  | cqe (p idx : Nat) (bytes : List (BitVec 8))
  | readData (p : Nat) (bytes : List (BitVec 8)) (ep : Bool)
  | regData (fn : Nat) (bytes : Option (List (BitVec 8)))
  | frame (port : Nat) (header : List (BitVec 8))
  | cell (port pos : Nat) (bytes : List (BitVec 8))
  | spdm (wire : Wire) (bytes : List (BitVec 8))
  | pldm (sensor : Nat) (value : Int) (warn fatal : Option Int)
  | mctp (wire : Wire)
  | sbAlert
  | ibi
  | jtag (bypass : Bool)
  | beatOut
  | shardRequest (base shard : Nat)
  deriving DecidableEq, Repr

/-- Everything but the queue of commands. `buckets` are the token buckets of each partition's five regulators; `fresh` numbers the
free values drawn so far. -/
structure Dev where
  parts : Tab Part
  buckets : Tab (List Bucket)
  tiles : Tab TileSt
  hc : Tab HcSet
  mem : MemSt
  sram : List Host.Cell
  sramBad : List (Nat × Nat)
  cat : Tab CatEntry
  bases : Tab Base
  lnk : Lnk
  ckr : Ckr
  pins : Pins
  persist : Persist
  sec : Sec
  err : ErrSt
  host : HostSt
  therm : Therm
  cfg : Cfg
  out : List Out
  fresh : Nat
  useClock : Nat
  deriving DecidableEq, Repr

/-- The state of the block and the commands that wait, first in first out. -/
structure State where
  dev : Dev
  pending : List Instr
  deriving DecidableEq, Repr

/-- Reasons to stop with a fault. The spec describes every error of the part as a next state (R15, 15), so there is none:
the type is empty, and no command can raise one. -/
inductive Fault where
  deriving DecidableEq, Repr

/-- Reasons to refuse a command. -/
inductive Refusal where
  /-- Raised by `exec` alone, for a command that has no meaning yet; safe, since nothing follows from a refusal. -/
  | notModelled (mnemonic : String)
  deriving DecidableEq, Repr

/-! ## Reset values -/

namespace Reset

def noResult : OpResult := ⟨[], none, [], [], 0, 0, 0, 0, [], false, []⟩
/-- A stream after reset (R126). -/
def seq : Seq := ⟨.idle, 0, [], [], .none, (0, 0), 0, false, 0, 0, [], false⟩
/-- An entry after reset: PART_CTL LEADER is 7Fh, everything else 0 (R331). -/
def entry : Entry := ⟨.serve, .sequence, false, false, false, 0, 0x7F, 0, 0, 0, 0, 0, 0, 0, 0⟩
def regul : Regul := ⟨0, 0⟩
def bucket : Bucket := ⟨0, 0, 0, []⟩
def upd : UpdRegs := ⟨0, 0, 0, 0⟩
/-- Distillation registers: TAU resets to 1.0 (R221). -/
def dist : Dist := ⟨0, 0x3F800000, 0, 0, 0, 0, 0, 0, 0, 0, [], 0, 0, 0, 0, false, [], [], 0, false, false⟩
/-- An EMPTY pod slot (R181, R196). -/
def pod : PodSlot := ⟨.empty, false, 0, 0, 0xFFFFFFFF, 0, 0, false, 0, 0⟩
/-- A VF's queues: CQSZ and SQSZ reset to 4, PHASE to 1 (R408, R411). -/
def vf : Vf := ⟨0, 0, false, false, 4, 4, 0, 0, false, true, 0, 0, 0, none, false, [], 0, [], 0⟩
def kgen : KGen := ⟨.none, false, 0, 0, none, none, none⟩
def part : Part where
  st := .unused
  entry := entry
  regs := [regul, regul, regul, regul, regul]
  yResult := .none
  yBeats := 0
  yLatched := false
  yCount := 0
  yAll := 0
  slow := ⟨0, 0, 0, 0, 0, 0, false⟩
  target := none
  wasParked := false
  save := none
  saveNext := none
  saveTiles := 0
  leaderRank := 0
  inst := 0
  krot := 0
  keysDue := false
  reclaim := false
  sq := [seq, seq, seq, seq]
  sem := []
  sqDesc := 0
  sqDescT := 0
  issueNo := 0
  readyNo := 0
  srKey := 0
  srCtr := [0, 0, 0]
  smxEmpty := 0
  smxInf := 0
  vePoison := false
  upd := upd
  dist := dist
  podCfg := 0
  podWin := 0
  pods := List.replicate 16 pod
  kvCfg := 0
  kvBase := 0
  kvPages := 0
  kvTag := 0
  kvWin := 0
  step := none
  vf := vf
  epoch := 0
  gnspans := []
  drained := false
  permuting := none
  shards := []
  bubble := false
  ext := []
  kgen := kgen
  quietBeat := true
  later := []
def tile : TileSt := ⟨false, 0, 0, 0, 0, 0, false, 0, 0, false, false, []⟩
def hcSet : HcSet := ⟨[0, 0, 0, 0, 0, 0, 0], false, 0, 0⟩
def catEntry : CatEntry := ⟨.free, 0, 0, 0, 0, 0, 0, 0, []⟩
def base : Base := ⟨.empty, 0, 0, 0, [], [], 0, 0, 0, 0xFF, false, .idle, .idle, 0, 0, [], [], [], 0, false, 0, []⟩
/-- A port after reset: down, with its 64 unscheduled credits (R286, R306). -/
def port : PortSt := ⟨0, false, false, 0, 0, 0, false, 0, 0, 0, 0, 0, 0, false, none, 0, [], [], 0, 64, 0, [], 0, [], [], false, false, 0, 0, 0, none⟩
/-- The stacks after reset. INTERVAL, a CFG field, holds the configuration block's default of 600 s until a boot loads it (R274; DESIGN
CHOICE, log 5). -/
def mem : MemSt :=
  ⟨[], [], [], [], List.replicate 16 0, List.replicate 16 0, false, 0, 0, 0, 600, 0, 0⟩
def lnk : Lnk := ⟨0, .nosched, 0, false, 0, false, 0, 0, false, false, false, false, 0, 0, 0, 0, none, none, [], [], none, none, none⟩
/-- CKR_DOM after reset: SRC reads 00b for every domain; DSLPEN and RUNEN are constants (R381). -/
def dom : Dom := ⟨0, false, false, 0⟩
def ckr : Ckr where
  lock := false
  pwr := 0
  aonstb := false
  pllLock := false
  refOk := false
  perstArm := false
  refLoss := 0
  cdcTmo := 0
  doms := List.replicate 6 dom
  loupeStart := false
  loupeDone := false
  loupeErr := false
  loupeSel := 0
  loupeGate := 0
  loupeCount := 0
  cause := 0
  clkFail := 0
  nfull := 0
  phase := 0
  reason := 0
  bank := false
  fallbk := false
  tboot := 0
  act := 0
  nowDue := false
  clockWait := false
  clockLost := false
  booting := false
  bootIn := ⟨false, false, false, 0, 0⟩
  aonRun := false
  hotReset := false
/-- No supply applied: RESET_N and HOST_PERST_N are held low by their pull-downs, PRES_N high by its pull-up (R431);
open-drain outputs are released (R433). -/
def pins : Pins := ⟨false, false, false, false, false, true, false, true, true, false, false⟩
def bank : Bank := ⟨[], false, 0xFFFFFFFF⟩
def persist : Persist := ⟨0, List.replicate 8 none, 0, 0, none, false, bank, bank⟩
def sec : Sec := ⟨false, false, false, false, false, 0, false, false, none, none, [], none, 0, false, [], [], [], [], 0, false, [], false, none, none⟩
/-- The ERR block: PEEL_CFG EN resets to 1 and PERIOD to 60 (R394); YLIMIT, a CFG field, holds
the configuration block's default of 171,875 beats until a boot loads it (R331; DESIGN CHOICE, log 5). -/
def err : ErrSt where
  queue := []
  detected := []
  todo := []
  handling := []
  dropped := 0
  nextSeq := 0
  d2dRetry := 0
  peFlt := 0
  lastDe := List.replicate 32 0
  deOpen := false
  deDone := false
  holdst := false
  degraded := false
  peelEn := true
  peelPeriod := 0x3C
  peelPmask := 0
  peelRounds := 0
  peelBeats := 0
  peelFail := 0
  mism := 0
  abeat := 0
  ylimit := 171875
def mbox : Mbox := ⟨[], [], false, false, false, false⟩
/-- A function after reset: not a bus master, every MSI-X vector masked (R400). -/
def fn : FnSt := ⟨false, false, false, 0xFFFFFFFF, 0, 0, [], []⟩
def host : HostSt where
  b1 := true
  hver := 0
  qver := 0
  lock := false
  idereq := false
  lrate := 0
  lwidth := 0
  flit := false
  badacc := 0
  int := 0
  ystat := 0
  mb0 := mbox
  mb1 := mbox
  replies := []
  plan := []
  planParts := []
  planLog := []
  fns := []
  linkUp := false
  hostReset := true
  answering := false
/-- The duty D is 16 after reset (R440); TTHR and TLIM are the defaults of R439, in 0.1 degree. -/
def therm : Therm := ⟨[], 16, 0, 1000, 1050⟩
def cfg : Cfg := ⟨0, [], [], 0, 0, false⟩
def dev : Dev where
  parts := []
  buckets := []
  tiles := []
  hc := []
  mem := mem
  sram := []
  sramBad := []
  cat := []
  bases := []
  lnk := lnk
  ckr := ckr
  pins := pins
  persist := persist
  sec := sec
  err := err
  host := host
  therm := therm
  cfg := cfg
  out := []
  fresh := 0
  useClock := 0

end Reset

/-- The machine right after reset: no command waits, and the part has had no supply (power-on is a command, R357). -/
def State.reset : State := ⟨Reset.dev, []⟩

end Sys2Proof.Machine
end

