-- ==== Sys2Proof/Machine/Bits.lean ====
section
/-! DEFINITION. Bit fields, little-endian byte strings, saturating counts and sparse tables (Table 00-3, R10, R35). -/

namespace Sys2Proof.Machine

/-- Bits hi:lo of a number. -/
def fld (n hi lo : Nat) : Nat := (n >>> lo) % 2 ^ (hi + 1 - lo)
/-- Bit i of a number. -/
def bit (n i : Nat) : Bool := fld n i i == 1
/-- A Bool as 0 or 1. -/
def b2n (b : Bool) : Nat := if b then 1 else 0
/-- Little-endian number of a byte string. -/
def leNat : List Byte → Nat
  | [] => 0
  | b :: bs => b.toNat + 256 * leNat bs
/-- The n-byte little-endian string of a number, modulo 2^(8n). -/
def natLe : Nat → Nat → List Byte
  | 0, _ => []
  | n + 1, v => BitVec.ofNat 8 v :: natLe n (v / 256)
/-- Bytes off to off + n - 1 of a string. -/
def slice (l : List Byte) (off n : Nat) : List Byte := (l.drop off).take n
/-- The little-endian number in bytes off to off + n - 1. -/
def num (l : List Byte) (off n : Nat) : Nat := leNat (slice l off n)
/-- Whether every byte of a string is 0. -/
def allZero (l : List Byte) : Bool := l.all (· == 0)
/-- Whether bytes off to off + n - 1 are all 0. -/
def zeroAt (l : List Byte) (off n : Nat) : Bool := allZero (slice l off n)
/-- The signed value of the low w bits of n. -/
def sext (w n : Nat) : Int := if 2 ^ (w - 1) ≤ n % 2 ^ w then (n % 2 ^ w : Int) - 2 ^ w else n % 2 ^ w
/-- Addition that saturates at 2^w - 1. -/
def satAdd (w a b : Nat) : Nat := min (a + b) (2 ^ w - 1)
/-- Least multiple of m at or above n. -/
def roundUp (n m : Nat) : Nat := (n + m - 1) / m * m
/-- Ceiling of a quotient. -/
def cdiv (n m : Nat) : Nat := (n + m - 1) / m
/-- A list padded with zeros or cut to n bytes. -/
def fit (n : Nat) (l : List Byte) : List Byte := l.take n ++ List.replicate (n - l.length) 0
/-- A list with the bytes at off replaced by new ones. -/
def patch (l : List Byte) (off : Nat) (new : List Byte) : List Byte :=
  l.take off ++ new ++ l.drop (off + new.length)
/-- Element i of a list replaced. -/
def setAt {α : Type} (l : List α) (i : Nat) (a : α) : List α := l.set i a

/-! ## Sparse tables -/

namespace Tab

/-- The entry under a key. -/
def get? {α : Type} : Tab α → Nat → Option α
  | [], _ => none
  | (k', a) :: t, k => if k' = k then some a else if k < k' then none else get? t k
/-- The entry under a key, or a default. -/
def get {α : Type} (d : α) (t : Tab α) (k : Nat) : α := (get? t k).getD d
/-- Stores an entry, keeping the keys rising. -/
def put {α : Type} : Tab α → Nat → α → Tab α
  | [], k, a => [(k, a)]
  | (k', b) :: t, k, a =>
    if k < k' then (k, a) :: (k', b) :: t else if k = k' then (k, a) :: t else (k', b) :: put t k a
/-- Removes an entry. -/
def erase {α : Type} : Tab α → Nat → Tab α
  | [], _ => []
  | (k', b) :: t, k => if k < k' then (k', b) :: t else if k = k' then t else (k', b) :: erase t k
/-- Every entry changed, keys kept. -/
def mapVal {α : Type} (f : Nat → α → α) : Tab α → Tab α
  | [] => []
  | (k, a) :: t => (k, f k a) :: mapVal f t
/-- Keys strictly rising. -/
def wf {α : Type} : Tab α → Bool
  | [] => true
  | [_] => true
  | (a, _) :: (b, y) :: t => decide (a < b) && wf ((b, y) :: t)

end Tab

/-! ## Intervals: disjoint [lo, hi) pairs in rising order, none empty -/

namespace Ivl

/-- Whether a number lies in one of the intervals. -/
def mem : List (Nat × Nat) → Nat → Bool
  | [], _ => false
  | (lo, hi) :: t, n => (decide (lo ≤ n) && decide (n < hi)) || mem t n
/-- Removes [a, b). -/
def cut : List (Nat × Nat) → Nat → Nat → List (Nat × Nat)
  | [], _, _ => []
  | (lo, hi) :: t, a, b =>
    (if lo < min hi a then [(lo, min hi a)] else []) ++
    (if max lo b < hi then [(max lo b, hi)] else []) ++ cut t a b
/-- Inserts an interval that meets no other. -/
def insert : List (Nat × Nat) → Nat → Nat → List (Nat × Nat)
  | [], a, b => [(a, b)]
  | (lo, hi) :: t, a, b => if b ≤ lo then (a, b) :: (lo, hi) :: t else (lo, hi) :: insert t a b
/-- Joins neighbours that touch. -/
def join : List (Nat × Nat) → List (Nat × Nat)
  | [] => []
  | (lo, hi) :: t =>
    match join t with
    | (lo', hi') :: u => if hi = lo' then (lo, hi') :: u else (lo, hi) :: (lo', hi') :: u
    | [] => [(lo, hi)]
/-- Adds [a, b). -/
def add (l : List (Nat × Nat)) (a b : Nat) : List (Nat × Nat) :=
  if a < b then join (insert (cut l a b) a b) else l
/-- How many numbers of [a, b) lie in the intervals. -/
def count : List (Nat × Nat) → Nat → Nat → Nat
  | [], _, _ => 0
  | (lo, hi) :: t, a, b => (min hi b - max lo a) + count t a b

end Ivl

end Sys2Proof.Machine
end

