-- ==== Sys2Proof/Machine/Num.lean ====
section
/-! DEFINITION. Exact values and F32 arithmetic: the real value or special value that every format decodes to (R34), one
rounding into F32 (R50), and the elementary F32 steps of R76, R127 and R139. -/

namespace Sys2Proof.Machine

/-- A decoded value: (-1)^neg * m * 2^e, an infinity, or a NaN with its sign (R34). -/
inductive Val where
  | fin (neg : Bool) (m : Nat) (e : Int)
  | inf (neg : Bool)
  | nan (neg : Bool)
  deriving DecidableEq, Repr

/-- An exact quotient: (-1)^neg * num / den * 2^e with den above 0, an infinity, or a NaN (R47, R446). -/
inductive Quo where
  | fin (neg : Bool) (num den : Nat) (e : Int)
  | inf (neg : Bool)
  | nan (neg : Bool)
  deriving DecidableEq, Repr

namespace Val

def zero : Val := .fin false 0 0
def one : Val := .fin false 1 0
def ofNat (n : Nat) : Val := .fin false n 0
def ofInt (i : Int) : Val := .fin (decide (i < 0)) i.natAbs 0
/-- The positive canonical NaN of R74 and R76. -/
def qnan : Val := .nan false
def isNaN : Val → Bool
  | .nan _ => true
  | _ => false
def isInf : Val → Bool
  | .inf _ => true
  | _ => false
def isFinite : Val → Bool
  | .fin _ _ _ => true
  | _ => false
def isZero : Val → Bool
  | .fin _ m _ => m == 0
  | _ => false
def sign : Val → Bool
  | .fin s _ _ => s
  | .inf s => s
  | .nan s => s
def withSign (s : Bool) : Val → Val
  | .fin _ m e => .fin s m e
  | .inf _ => .inf s
  | .nan _ => .nan s
def neg (v : Val) : Val := v.withSign (!v.sign)
def abs (v : Val) : Val := v.withSign false
/-- The signed mantissa of a finite value scaled to exponent e0, for e0 at or below its own exponent. -/
def scaled (s : Bool) (m : Nat) (e e0 : Int) : Int :=
  let n : Int := (m <<< (e - e0).toNat : Nat)
  if s then -n else n
/-- Compares two values; none when one is a NaN. -/
def cmp : Val → Val → Option Ordering
  | .nan _, _ => none
  | _, .nan _ => none
  | .inf a, .inf b => some (if a == b then .eq else if a then .lt else .gt)
  | .inf a, _ => some (if a then .lt else .gt)
  | _, .inf b => some (if b then .gt else .lt)
  | .fin s m e, .fin t n f => some (compare (scaled s m e (min e f)) (scaled t n f (min e f)))
def lt (a b : Val) : Bool := cmp a b == some .lt
def le (a b : Val) : Bool := cmp a b == some .lt || cmp a b == some .eq
def eq (a b : Val) : Bool := cmp a b == some .eq
/-- Exact product; NaN for a NaN operand or 0 times an infinity (R74). -/
def mul : Val → Val → Val
  | .nan _, _ => qnan
  | _, .nan _ => qnan
  | .fin s m e, .fin t n f => .fin (s != t) (m * n) (e + f)
  | .inf s, .fin t n _ => if n == 0 then qnan else .inf (s != t)
  | .fin s m _, .inf t => if m == 0 then qnan else .inf (s != t)
  | .inf s, .inf t => .inf (s != t)
/-- Exact sum with the signed zeros and special values of IEEE 754 under round-to-nearest. -/
def add : Val → Val → Val
  | .nan _, _ => qnan
  | _, .nan _ => qnan
  | .inf s, .inf t => if s == t then .inf s else qnan
  | .inf s, _ => .inf s
  | _, .inf t => .inf t
  | .fin s m e, .fin t n f =>
    let e0 := min e f
    let i := scaled s m e e0 + scaled t n f e0
    if i = 0 then .fin (s && t) 0 0 else .fin (decide (i < 0)) i.natAbs e0
/-- floor(log2) of a nonzero finite magnitude. -/
def log2 (m : Nat) (e : Int) : Int := (m.log2 : Int) + e

end Val

/-- How a magnitude is rounded to a quantum (R46, R50, R54). `stoch d` is stochastic rounding with draw d. -/
inductive Rounding where
  | nearest
  | up
  | down
  | stoch (draw : Nat)
  deriving DecidableEq, Repr

/-- floor of num / den * 2^e in units of 2^q, with remainder and divisor. -/
def quantum (num den : Nat) (e q : Int) : Nat × Nat × Nat :=
  let n := num <<< (e - q).toNat
  let d := den <<< (q - e).toNat
  (n / d, n % d, d)
/-- Whether a magnitude k + r/d units goes away from zero. -/
def roundsUp (md : Rounding) (k r d : Nat) : Bool :=
  match md with
  | .nearest => decide (d < 2 * r) || (2 * r == d && k % 2 == 1)
  | .up => decide (0 < r)
  | .down => false
  | .stoch draw => decide (0 < r) && decide (draw < 65536 * r / d)
/-- floor(log2 (num / den * 2^e)) for num above 0. -/
def ratLog2 (num den : Nat) (e : Int) : Int :=
  let g : Int := (num.log2 : Int) - (den.log2 : Int)
  let big := if 0 ≤ g then decide (den <<< g.toNat ≤ num) else decide (den ≤ num <<< (-g).toNat)
  if big then g + e else g - 1 + e
/-- Rounds the magnitude num / den * 2^e to f fraction bits with least normal exponent emin and no upper bound: the
integer mantissa and its exponent. -/
def roundMag (md : Rounding) (f : Nat) (emin : Int) (num den : Nat) (e : Int) : Nat × Int :=
  if num = 0 then (0, emin - f)
  else
    let q := max (ratLog2 num den e) emin - f
    let (k, r, d) := quantum num den e q
    (if roundsUp md k r d then k + 1 else k, q)

/-- Parameters of a binary format (Table 02-2): exponent bits, fraction bits and bias; `ieee` formats reserve the all-ones
exponent; `top` is the largest finite magnitude. -/
structure FpFmt where
  ebits : Nat
  fbits : Nat
  bias : Nat
  ieee : Bool
  topM : Nat
  topE : Int
  deriving DecidableEq, Repr

/-- An IEEE-like format: its largest finite magnitude is (2 - 2^-f) * 2^bias. -/
def ieeeFmt (eb fb : Nat) : FpFmt :=
  let bias := 2 ^ (eb - 1) - 1
  ⟨eb, fb, bias, true, 2 ^ (fb + 1) - 1, (bias : Int) - fb⟩
def fmtF32 : FpFmt := ieeeFmt 8 23
def fmtX48 : FpFmt := ieeeFmt 8 39
def fmtF16 : FpFmt := ieeeFmt 5 10
def fmtB16 : FpFmt := ieeeFmt 8 7
def fmtE5M2 : FpFmt := ieeeFmt 5 2
/-- E4M3: exponent 1111b is ordinary and 448 the largest finite value. -/
def fmtE4M3 : FpFmt := ⟨4, 3, 7, false, 14, 5⟩
def fmtE3M2 : FpFmt := ⟨3, 2, 3, false, 7, 2⟩
def fmtE2M3 : FpFmt := ⟨2, 3, 1, false, 15, -1⟩
def fmtE2M1 : FpFmt := ⟨2, 1, 1, false, 3, 1⟩

namespace FpFmt

def emin (f : FpFmt) : Int := 1 - (f.bias : Int)
/-- The value of an encoding (R32). -/
def decode (f : FpFmt) (code : Nat) : Val :=
  let frac := fld code (f.fbits - 1) 0
  let ex := fld code (f.fbits + f.ebits - 1) f.fbits
  let s := bit code (f.fbits + f.ebits)
  if f.ieee && ex == 2 ^ f.ebits - 1 then (if frac == 0 then .inf s else .nan s)
  else if ex == 0 then .fin s frac (f.emin - f.fbits)
  else .fin s (frac + 2 ^ f.fbits) ((ex : Int) - f.bias - f.fbits)
/-- The encoding of a magnitude k * 2^q that the format holds, with sign. -/
def pack (f : FpFmt) (s : Bool) (k : Nat) (q : Int) : Nat :=
  let sgn := b2n s <<< (f.ebits + f.fbits)
  if k = 0 then sgn
  else
    let l := Val.log2 k q
    if l < f.emin then sgn + (if q ≤ f.emin - f.fbits then k >>> (f.emin - f.fbits - q).toNat else k <<< (q - (f.emin - f.fbits)).toNat)
    else
      let m := if q ≤ l - f.fbits then k >>> (l - f.fbits - q).toNat else k <<< (q - (l - f.fbits)).toNat
      sgn + ((l + f.bias).toNat <<< f.fbits) + (m - 2 ^ f.fbits)
/-- Whether a magnitude k * 2^q exceeds the largest finite one. -/
def beyond (f : FpFmt) (k : Nat) (q : Int) : Bool :=
  let e0 := min q f.topE
  decide (f.topM <<< (f.topE - e0).toNat < k <<< (q - e0).toNat)
def infCode (f : FpFmt) (s : Bool) : Nat := (b2n s <<< (f.ebits + f.fbits)) + ((2 ^ f.ebits - 1) <<< f.fbits)
def topCode (f : FpFmt) (s : Bool) : Nat := f.pack s f.topM f.topE
/-- The canonical quiet NaN of an IEEE format (R50). -/
def nanCode (f : FpFmt) (s : Bool) : Nat := f.infCode s + 2 ^ (f.fbits - 1)

end FpFmt

/-- Rounds a quotient once into an IEEE format; overflow gives the infinity (R50, R76). -/
def roundIeee (f : FpFmt) (md : Rounding) : Quo → Val
  | .nan s => .nan s
  | .inf s => .inf s
  | .fin s num den e =>
    let (k, q) := roundMag md f.fbits f.emin num den e
    if f.beyond k q then .inf s else .fin s k q

namespace Val

/-- A value as a quotient over 1. -/
def quo : Val → Quo
  | .fin s m e => .fin s m 1 e
  | .inf s => .inf s
  | .nan s => .nan s
/-- The exact quotient of two values, with the special values of IEEE 754 (R446). -/
def divBy : Val → Val → Quo
  | .nan _, _ => .nan false
  | _, .nan _ => .nan false
  | .inf _, .inf _ => .nan false
  | .inf s, .fin t _ _ => .inf (s != t)
  | .fin s _ _, .inf t => .fin (s != t) 0 1 0
  | .fin s m e, .fin t n f =>
    if n = 0 then (if m = 0 then .nan false else .inf (s != t)) else .fin (s != t) m n (e - f)
/-- One rounding into F32, to nearest even. -/
def r32 (v : Val) : Val := roundIeee fmtF32 .nearest v.quo
/-- One rounding into X48, to nearest even (R158). -/
def r48 (v : Val) : Val := roundIeee fmtX48 .nearest v.quo
/-- The F32 value of an encoding. -/
def of32 (w : BitVec 32) : Val := fmtF32.decode w.toNat
/-- The F32 encoding of a value that F32 holds; a NaN is the canonical one of its sign (R50). -/
def to32 : Val → BitVec 32
  | .nan s => BitVec.ofNat 32 (fmtF32.nanCode s)
  | .inf s => BitVec.ofNat 32 (fmtF32.infCode s)
  | .fin s m e => BitVec.ofNat 32 (fmtF32.pack s m e)
/-- A NaN that an F32 step yields is 7FC0_0000h (R76, R127). -/
def pos : Val → Val
  | .nan _ => qnan
  | v => v
/-- The F32 steps of R76 and R127. -/
def addF (a b : Val) : Val := (add a b).r32.pos
def subF (a b : Val) : Val := (add a b.neg).r32.pos
def mulF (a b : Val) : Val := (mul a b).r32.pos
def divF (a b : Val) : Val := (roundIeee fmtF32 .nearest (divBy a b)).pos
/-- Division rounded toward +infinity: the scales of R46 and R60. -/
def divUp (a b : Val) : Val := roundIeee fmtF32 .up (divBy a b)
/-- IEEE 754 maximum: NaN if either is NaN, +0 above -0 (Table 05-2). -/
def maxF (a b : Val) : Val :=
  if a.isNaN || b.isNaN then qnan
  else if eq a b then (if a.sign then b else a) else if lt a b then b else a
/-- IEEE 754 minimum: NaN if either is NaN, -0 below +0. -/
def minF (a b : Val) : Val :=
  if a.isNaN || b.isNaN then qnan
  else if eq a b then (if a.sign then a else b) else if lt a b then a else b

end Val

/-! ## Square root, exponential and logarithm, correctly rounded (R139, R158)

An irrational result is never halfway between two F32 values, so rounding a close enough lower bound with a nonzero
remainder gives the correctly rounded result. Square roots keep an exact remainder; the series below carry 320 bits. -/

/-- A magnitude n * 2^e with more below it when `more` is set: rounded to F32 as n + 1/2 units. -/
def roundSticky (s : Bool) (n : Nat) (e : Int) (more : Bool) : Val :=
  roundIeee fmtF32 .nearest (.fin s (2 * n + b2n more) 1 (e - 1))

/-- Integer square root by bits: the floor of the square root of n, from a bound of k bits. -/
def isqrtGo : Nat → Nat → Nat → Nat
  | 0, _, acc => acc
  | k + 1, n, acc =>
    let t := acc + (1 <<< k)
    if t * t ≤ n then isqrtGo k n t else isqrtGo k n acc
def isqrt (n : Nat) : Nat := isqrtGo (n.log2 / 2 + 1) n 0

namespace Val

/-- Square root: a nonzero negative operand gives NaN, and a zero keeps its sign. -/
def sqrtF : Val → Val
  | .nan _ => qnan
  | .inf s => if s then qnan else .inf false
  | .fin s m e =>
    if m = 0 then .fin s 0 0
    else if s then qnan
    else
      let sh : Nat := 128 + (if e % 2 = 0 then 0 else 1)
      let n := m <<< sh
      let r := isqrt n
      roundSticky false r ((e - sh) / 2) (r * r != n)
/-- RCP of Table 05-6. -/
def rcp (x : Val) : Val := divF one x
/-- RSQRT of Table 05-6. -/
def rsqrt : Val → Val
  | .nan _ => qnan
  | .inf s => if s then qnan else .fin false 0 0
  | .fin s m e =>
    if m = 0 then .inf s
    else if s then qnan
    else
      -- 1 / sqrt(m * 2^e) = sqrt(2^(2k) / m') * 2^-k with an even exponent on m'
      let m' := if e % 2 = 0 then m else 2 * m
      let e' := if e % 2 = 0 then e else e - 1
      let k := 128 + m'.log2
      let n := 1 <<< (2 * k)
      let r := isqrt (n / m')
      roundSticky false r (-(e' / 2) - k) (r * r * m' != n)

end Val

/-- Fraction bits of the fixed-point series. -/
def fxBits : Nat := 320
/-- The product of two fixed-point numbers. -/
def fxMul (a b : Nat) : Nat := (a * b) >>> fxBits
/-- The odd powers y^(2i+1) / (2i+1) from term i on, summed. -/
def atanhGo : Nat → Nat → Nat → Nat → Nat
  | 0, _, _, _ => 0
  | n + 1, i, p, y2 => p / (2 * i + 1) + atanhGo n (i + 1) (fxMul p y2) y2
/-- atanh of a fixed-point number at most about 1/3. -/
def fxAtanh (y : Nat) : Nat := atanhGo 110 0 y (fxMul y y)
/-- ln 2 = 2 atanh(1/3). -/
def fxLn2 : Nat := 2 * fxAtanh (1 <<< fxBits / 3)
/-- The terms x^i / i! of the exponential series. -/
def expGo : Nat → Nat → Nat → Nat → Nat
  | 0, _, _, _ => 0
  | n + 1, i, t, x => t + expGo n (i + 1) (fxMul t x / (i + 1)) x
/-- e^x for a fixed-point x in [0, 1). -/
def fxExp (x : Nat) : Nat := expGo 80 0 (1 <<< fxBits) x

namespace Val

/-- EXP of Table 05-6. -/
def expF : Val → Val
  | .nan _ => qnan
  | .inf s => if s then .fin false 0 0 else .inf false
  | .fin s m e =>
    if m = 0 then one
    else if 8 ≤ log2 m e then (if s then .fin false 0 0 else .inf false)
    else
      let x := if 0 ≤ e + fxBits then m <<< (e + fxBits).toNat else m >>> (-(e + fxBits)).toNat
      -- x = k ln 2 + r, with r in [0, ln 2); below zero the quotient is taken toward minus infinity
      let k : Int := if s then -((x + fxLn2 - 1) / fxLn2 : Nat) else (x / fxLn2 : Nat)
      let r := if s then (-k).toNat * fxLn2 - x else x - k.toNat * fxLn2
      roundSticky false (fxExp r) (k - fxBits) true
/-- LN of Table 05-6. -/
def lnF : Val → Val
  | .nan _ => qnan
  | .inf s => if s then qnan else .inf false
  | .fin s m e =>
    if m = 0 then .inf true
    else if s then qnan
    else
      -- m * 2^e = f * 2^k with f in [3/4, 3/2)
      let l := m.log2
      let hi := decide (3 * 2 ^ l ≤ 2 * m)
      let k : Int := (l : Int) + e + (if hi then 1 else 0)
      let f := if l + (b2n hi) ≤ fxBits then m <<< (fxBits - (l + b2n hi)) else m >>> (l + b2n hi - fxBits)
      let unit := 1 <<< fxBits
      let below := decide (f < unit)
      let d := if below then unit - f else f - unit
      let y := (d <<< fxBits) / (f + unit)
      let a : Int := 2 * fxAtanh y
      let t : Int := k * fxLn2 + (if below then -a else a)
      if t = 0 then .fin false 0 0
      else roundSticky (decide (t < 0)) t.natAbs (-(fxBits : Int)) true

end Val

end Sys2Proof.Machine
end

