-- ==== Sys2Proof/Machine/Canon.lean ====
section
/-! DEFINITION. The canonical order (R74 to R79): chunks, spans and the span tree; and F32 steps that remember an overflow to
infinity, which R65 counts. -/

namespace Sys2Proof.Machine

/-- A value with whether an F32 step on the way to it overflowed to an infinity (R65). -/
structure Fl where
  v : Val
  o : Bool
  deriving DecidableEq, Repr

namespace Fl

def of (v : Val) : Fl := ⟨v, false⟩
def zero : Fl := of .zero
def one : Fl := of .one
/-- A value that F32 does not reach enters its first step as an infinity: the spec says so of MX elements, and the model does the same
with scaled elements of the other formats (DESIGN CHOICE, log 119). -/
def enter (v : Val) : Fl :=
  match v with
  | .fin s m e => if m = 0 || decide (Val.log2 m e ≤ 127) then of v else of (.inf s)
  | v => of v
/-- A step on two operands that overflowed when finite operands gave an infinity. -/
def step (r : Val) (a b : Fl) : Fl := ⟨r, a.o || b.o || (r.isInf && a.v.isFinite && b.v.isFinite)⟩
def add (a b : Fl) : Fl := step (Val.addF a.v b.v) a b
def sub (a b : Fl) : Fl := step (Val.subF a.v b.v) a b
def mul (a b : Fl) : Fl := step (Val.mulF a.v b.v) a b
/-- A division by zero is no overflow. -/
def div (a b : Fl) : Fl :=
  let r := Val.divF a.v b.v
  ⟨r, a.o || b.o || (r.isInf && a.v.isFinite && b.v.isFinite && !b.v.isZero)⟩
def max (a b : Fl) : Fl := ⟨Val.maxF a.v b.v, a.o || b.o⟩
def min (a b : Fl) : Fl := ⟨Val.minF a.v b.v, a.o || b.o⟩
def neg (a : Fl) : Fl := { a with v := a.v.neg }
def abs (a : Fl) : Fl := { a with v := a.v.abs }
def rcp (a : Fl) : Fl := div one a
def rsqrt (a : Fl) : Fl := ⟨a.v.rsqrt, a.o⟩
def sqrt (a : Fl) : Fl := ⟨a.v.sqrtF, a.o⟩
def ln (a : Fl) : Fl := ⟨a.v.lnF, a.o⟩
def exp (a : Fl) : Fl :=
  let r := a.v.expF
  ⟨r, a.o || (r.isInf && a.v.isFinite)⟩

end Fl

/-- Cuts a list into pieces of n, with fuel for the number of pieces. -/
def piecesGo {α : Type} (n : Nat) : Nat → List α → List (List α)
  | 0, _ => []
  | k + 1, l => if l.isEmpty then [] else l.take n :: piecesGo n k (l.drop n)
def pieces {α : Type} (n : Nat) (l : List α) : List (List α) := piecesGo n (l.length / n + 1) l
/-- The exponent floor(log2 |p|) of a nonzero finite product. -/
def expOf : Val → Option Int
  | .fin _ m e => if m = 0 then none else some (Val.log2 m e)
  | _ => none
def maxExp (ps : List Val) : Option Int :=
  ps.foldl (fun a p => match a, expOf p with
    | some x, some y => some (Max.max x y)
    | none, y => y
    | x, none => x) none
/-- The aligned term of a product in units of q = 2^(E - 27), truncated toward zero (R75). -/
def aligned (lo : Int) : Val → Int
  | .fin s m e =>
    let t : Int := (if lo ≤ e then m <<< (e - lo).toNat else m >>> (lo - e).toNat : Nat)
    if s then -t else t
  | _ => 0
/-- A chunk of up to 32 products; missing ones are padding, +0 (R74, R75, R77). -/
def chunk (ps : List Val) : Fl :=
  let ps := if ps.length < 32 then ps ++ [Val.zero] else ps
  if ps.any Val.isNaN then .of Val.qnan
  else if ps.contains (.inf false) && ps.contains (.inf true) then .of Val.qnan
  else if ps.contains (.inf false) then .of (.inf false)
  else if ps.contains (.inf true) then .of (.inf true)
  else match maxExp ps with
    | none => .of (.fin (ps.all Val.sign) 0 0)
    | some e =>
      let sum := ps.foldl (fun a p => a + aligned (e - 27) p) (0 : Int)
      let r := if sum = 0 then Val.zero else (Val.fin (decide (sum < 0)) sum.natAbs (e - 27)).r32
      ⟨r, r.isInf⟩
/-- A span of up to 64 chunks, from left to right; missing chunks are +0 (R78). -/
def spanSum (cs : List Fl) : Fl :=
  match cs with
  | [] => .zero
  | c :: t =>
    let s := t.foldl Fl.add c
    if cs.length < 64 then s.add .zero else s
/-- The partials of the spans of a list of products. -/
def spanPartials (ps : List Val) : List Fl := (pieces 64 ((pieces 32 ps).map chunk)).map spanSum
/-- Forms each parent of a row of nodes: pairs from the left, an odd last one kept. -/
def pairUp {α : Type} (f : α → α → α) : List α → List α
  | a :: b :: t => f a b :: pairUp f t
  | l => l
/-- The root of the tree of R78 over a row of nodes, with fuel for its height. -/
def treeGo {α : Type} (f : α → α → α) : Nat → List α → List α
  | 0, l => l
  | n + 1, l => treeGo f n (pairUp f l)
def treeOf {α : Type} (f : α → α → α) (l : List α) : Option α := (treeGo f (l.length.log2 + 1) l).head?
/-- The canonical sum of a list of exact products; +0 when there is none (R71, R78, R136). -/
def canon (ps : List Val) : Fl := (treeOf Fl.add (spanPartials ps)).getD .zero
/-- The canonical sum of F32 terms with their overflows. -/
def canonF (ts : List Fl) : Fl :=
  let r := canon (ts.map (·.v))
  { r with o := r.o || ts.any (·.o) }
/-- A canonical dot product. -/
def dotF (a b : List Val) : Fl := canon (List.zipWith Val.mul a b)
/-- The maximal complete nodes of spans g to g + n - 1 of a tree over N spans (R81): first span and height. A node is [a*2^h,
min((a+1)*2^h, N)). -/
def nodesGo : Nat → Nat → Nat → Nat → List (Nat × Nat)
  | 0, _, _, _ => []
  | k + 1, lo, hi, total =>
    if hi ≤ lo then []
    else
      let fits (h : Nat) := lo % 2 ^ h == 0 && decide (min (lo + 2 ^ h) total ≤ hi) && (h == 0 || decide (lo + 2 ^ (h - 1) < total))
      let h := (List.range 17).foldl (fun b h => if fits h then h else b) 0
      (lo, h) :: nodesGo k (min (lo + 2 ^ h) total) hi total
def nodesOf (g n total : Nat) : List (Nat × Nat) := nodesGo 64 g (g + n) total

end Sys2Proof.Machine
end

