-- ==== Sys2Proof/Machine/Formats.lean ====
section
/-! DEFINITION. The fifteen formats and the one way of converting between them (02): decoding, the scale of R46 and R48,
encoding under Table 02-6 with the counts of Table 02-8, stochastic-rounding draws (R54, R55) and hot channels (R58-R61). -/

namespace Sys2Proof.Machine

/-- Element width in bits of an FMT code (Table 02-1). -/
def fmtWidth : Nat → Nat
  | 0 => 32
  | 1 => 48
  | 2 => 16
  | 3 => 16
  | 8 => 6
  | 9 => 6
  | 10 => 4
  | 13 => 32
  | _ => 8
/-- The MX formats, FMT 6 to 11. -/
def isMx (f : Nat) : Bool := decide (6 ≤ f) && decide (f ≤ 11)
/-- Formats an array operand may name (Table 02-1). -/
def arrayFmt (f : Nat) : Bool := f != 1 && decide (f ≤ 12)
/-- Formats whose targets may set SR (R43). -/
def srFmt (f : Nat) : Bool := decide (4 ≤ f) && decide (f ≤ 11)
/-- Table 02-5: scale mode against format. -/
def smodeOk (m f : Nat) : Bool :=
  match m with
  | 0 => f == 0 || f == 1 || f == 2 || f == 3 || f == 5 || f == 13 || f == 14
  | 1 => f == 4 || f == 5
  | 2 => f == 4 || f == 5 || f == 12
  | 3 => f == 4 || f == 5
  | 4 => f == 4 || f == 5 || f == 12
  | 5 => isMx f
  | _ => false

/-- The binary format of an element, for the codes that have one. -/
def fpOf : Nat → FpFmt
  | 1 => fmtX48
  | 2 => fmtF16
  | 3 => fmtB16
  | 4 => fmtE4M3
  | 5 => fmtE5M2
  | 6 => fmtE4M3
  | 7 => fmtE5M2
  | 8 => fmtE3M2
  | 9 => fmtE2M3
  | 10 => fmtE2M1
  | _ => fmtF32

/-- Decodes an element's bits without its scale (R32, R33, R38). -/
def decodeElem (f code : Nat) : Val :=
  match f with
  | 4 => if code % 128 == 127 then .nan (bit code 7) else fmtE4M3.decode code
  | 6 => if code % 128 == 127 then .nan (bit code 7) else fmtE4M3.decode code
  | 11 => let k := sext 8 code; .fin (decide (k < 0)) k.natAbs (-6)
  | 12 => Val.ofInt (sext 8 code)
  | 13 => Val.ofInt (sext 32 code)
  | 14 => if code == 255 then .nan false else .fin false 1 ((code : Int) - 127)
  | _ => (fpOf f).decode code

/-- The value of an element under an E8M0 block scale byte (R38, R52). -/
def decodeBlock (f code scale : Nat) : Val :=
  if scale == 255 then .nan (bit code (fmtWidth f - 1))
  else
    match decodeElem f code with
    | .fin s m e => .fin s m (e + (scale : Int) - 127)
    | v => v

/-- The value of an element under an F32 scale: the exact product (R446). -/
def decodeScaled (f code : Nat) (scale : Val) : Val :=
  match decodeElem f code with
  | .nan s => .nan s
  | v => Val.mul v scale

/-- Outcome of encoding one element: its code and what Table 02-8 needs to know about it. -/
structure Enc where
  code : Nat
  zero : Bool
  subn : Bool
  sat : Bool
  ovf : Bool
  nan : Bool
  blockNan : Bool
  deriving DecidableEq, Repr

/-- The quotient that a target's scale makes of a value: NaN keeps its sign (R50, R446). -/
def scaleQuo (x scale : Val) : Quo :=
  match x with
  | .nan s => .nan s
  | _ => Val.divBy x scale

/-- Rounds a magnitude to an integer. -/
def roundInt (md : Rounding) (num den : Nat) (e : Int) : Nat :=
  let (k, r, d) := quantum num den e 0
  if roundsUp md k r d then k + 1 else k
/-- Whether num / den * 2^e exceeds m * 2^q before any rounding (R49, stochastic). -/
def exceeds (num den : Nat) (e : Int) (m : Nat) (q : Int) : Bool :=
  let (k, r, _) := quantum num den e (min q e)
  let n := m <<< (q - min q e).toNat
  decide (n < k) || (k == n && decide (0 < r))
/-- Stochastic rounding tests the value before rounding (R49). -/
def Rounding.isStoch : Rounding → Bool
  | .stoch _ => true
  | _ => false

/-- Two's-complement code of an integer in w bits. -/
def twos (w : Nat) (i : Int) : Nat := (i % (2 ^ w : Nat)).toNat

/-- Encodes a quotient into an integer format with bounds lo and hi, whose largest finite magnitude is `top`: a rounded magnitude above
it is out of range (I8, whose top is 127 by R46, and I32; R49, R50). -/
def encInt (w : Nat) (lo hi top : Int) : Quo → Enc
  | .nan _ => ⟨0, true, false, false, false, true, false⟩
  | .inf s => ⟨twos w (if s then lo else hi), false, false, true, false, false, false⟩
  | .fin s num den e =>
    let k : Int := roundInt .nearest num den e
    let k := if s then -k else k
    if k < lo || k < -top then ⟨twos w lo, false, false, true, false, false, false⟩
    else if hi < k then ⟨twos w hi, false, false, true, false, false, false⟩
    else ⟨twos w k, k == 0, false, false, false, false, false⟩

/-- Encodes a quotient already over its block scale into MXI8 (R33, R50, R51). -/
def encMxi8 (md : Rounding) : Quo → Enc
  | .nan s => ⟨if s then 0x81 else 0x7F, false, false, false, false, true, true⟩
  | .inf s => ⟨if s then 0x81 else 0x7F, false, false, true, false, false, false⟩
  | .fin s num den e =>
    let big := md.isStoch && exceeds num den (e + 6) 127 0
    let k := if big then 128 else roundInt md num den (e + 6)
    if 127 < k then ⟨if s then 0x81 else 0x7F, false, false, true, false, false, false⟩
    else ⟨twos 8 (if s then -(k : Int) else k), k == 0, false, false, false, false, false⟩

/-- Encodes into E8M0: the exponent, truncated, whatever the sign (R50, R51). -/
def encE8m0 : Quo → Enc
  | .nan _ => ⟨255, false, false, false, false, true, false⟩
  | .inf _ => ⟨254, false, false, true, false, false, false⟩
  | .fin _ num den e =>
    if num = 0 then ⟨0, false, false, false, false, false, false⟩
    else
      let l := ratLog2 num den e
      if l < -127 then ⟨0, false, false, true, false, false, false⟩
      else if 128 ≤ l then ⟨254, false, false, true, false, false, false⟩
      else ⟨(l + 127).toNat, false, false, false, false, false, false⟩

/-- Encodes a quotient into a binary format (Table 02-6). `sat` and `blockNan` are the CONV bits that apply; `hot` makes
an out-of-range element saturate whatever they say (R61). -/
def encFp (f : Nat) (md : Rounding) (sat blockNan hot : Bool) (q : Quo) : Enc :=
  let p := fpOf f
  let small := f == 8 || f == 9 || f == 10
  let e4m3 := f == 4 || f == 6
  let nanC (s : Bool) := if e4m3 then 127 + b2n s * 128 else p.nanCode s
  match q with
  | .nan s =>
    if small then ⟨p.topCode s, false, false, false, false, true, true⟩
    else ⟨nanC s, false, false, false, false, true, false⟩
  | .inf s =>
    if hot then ⟨p.topCode s, false, false, true, false, false, false⟩
    else if small then ⟨p.topCode s, false, false, !blockNan, false, blockNan, blockNan⟩
    else if e4m3 then
      (if sat then ⟨p.topCode s, false, false, true, false, false, false⟩ else ⟨nanC s, false, false, false, false, true, false⟩)
    else ⟨p.infCode s, false, false, false, false, false, false⟩
  | .fin s num den e =>
    let over0 := md.isStoch && exceeds num den e p.topM p.topE
    let (k, u) := roundMag md p.fbits p.emin num den e
    if over0 || p.beyond k u then
      if hot then ⟨p.topCode s, false, false, true, false, false, false⟩
      else if small then ⟨p.topCode s, false, false, !blockNan, blockNan, false, blockNan⟩
      else if e4m3 then
        (if sat then ⟨p.topCode s, false, false, true, false, false, false⟩ else ⟨nanC s, false, false, false, true, false, false⟩)
      else ⟨p.infCode s, false, false, false, true, false, false⟩
    else
      let l := Val.log2 k u
      ⟨p.pack s k u, k == 0, k != 0 && decide (l < p.emin), false, false, false, false⟩

/-- Encodes a quotient into the elements of an FMT code. -/
def encodeElem (f : Nat) (md : Rounding) (sat blockNan hot : Bool) (q : Quo) : Enc :=
  match f with
  | 11 => encMxi8 md q
  | 12 => if hot then encInt 8 (-127) 127 127 q else encInt 8 (-128) 127 127 q
  | 13 => encInt 32 (-2147483648) 2147483647 2147483648 q
  | 14 => encE8m0 q
  | _ => encFp f md sat blockNan hot q

/-! ## Scales -/

/-- Q_f of R46: 448, 57,344 or 127. -/
def qTop (f : Nat) : Val := if f == 4 then Val.ofNat 448 else if f == 5 then Val.ofNat 57344 else Val.ofNat 127
/-- The scale of a fresh amax (R46); none stands for no finite value. -/
def freshScale (f : Nat) (amax : Val) : Val := if amax.isZero then Val.one else Val.divUp amax (qTop f)
/-- The larger of two finite magnitudes; anything not finite is passed over (R46). -/
def amaxOf (a v : Val) : Val := if v.isFinite && Val.lt a v.abs then v.abs else a
/-- The exponent of the largest normal of an MX element format (R48). -/
def mxEmax : Nat → Int
  | 6 => 8
  | 7 => 15
  | 8 => 4
  | 9 => 2
  | 10 => 2
  | _ => 0
/-- Whether a magnitude rounds, with an unbounded exponent, above the largest element (R48). -/
def mxBeyond (f m : Nat) (e : Int) : Bool :=
  if f == 11 then decide (127 < roundInt .nearest m 1 (e + 6))
  else
    let p := fpOf f
    let (k, u) := roundMag .nearest p.fbits p.emin m 1 e
    p.beyond k u
/-- The scale byte of a block with the given amax (R48). -/
def blockScale (f : Nat) (amax : Val) : Nat :=
  match amax with
  | .fin _ m e =>
    if m = 0 then 0
    else
      let x := Val.log2 m e - mxEmax f
      let x := if mxBeyond f m (e - x) then x + 1 else x
      (min (max x (-127)) 127 + 127).toNat
  | _ => 0

/-! ## Stochastic rounding (R55) -/

def m64 (n : Nat) : Nat := n % 2 ^ 64
/-- The generator z of R55 for stream s. -/
def srGen (key s c : Nat) : Nat :=
  let k := Nat.xor key (m64 (s * 0xd6e8feb86659fd93))
  let v := m64 (k + c * 0x9e3779b97f4a7c15)
  let v := m64 (Nat.xor v (v >>> 30) * 0xbf58476d1ce4e5b9)
  let v := m64 (Nat.xor v (v >>> 27) * 0x94d049bb133111eb)
  Nat.xor v (v >>> 31)
/-- The 16-bit draw of logical element i of a conversion whose range starts at c0 (R55). -/
def srDraw (key s c0 i : Nat) : Nat :=
  let z := srGen key s (m64 (c0 + i / 4))
  fld z (16 * (i % 4) + 15) (16 * (i % 4))

/-! ## Hot channels (R58 to R61) -/

/-- An entry of a hot-channel list. -/
structure HotEnt where
  chan : Nat
  hr : Nat
  flags : Nat
  rsv : Nat
  est : Val
  scale : Val
  deriving DecidableEq, Repr
/-- Entry j of a list (Table 02-7). -/
def hotEnt (l : List Byte) (j : Nat) : HotEnt :=
  let o := 16 + 16 * j
  ⟨num l o 4, num l (o + 4) 1, num l (o + 5) 1, num l (o + 6) 2, fmtF32.decode (num l (o + 8) 4), fmtF32.decode (num l (o + 12) 4)⟩
def hotCount (l : List Byte) : Nat := num l 0 2
def hotEntries (l : List Byte) : List HotEnt := (List.range (hotCount l)).map (hotEnt l)
/-- Strictly ascending channels. -/
def ascending : List HotEnt → Bool
  | a :: b :: t => decide (a.chan < b.chan) && ascending (b :: t)
  | _ => true
/-- Whether a list meets R59 for a dimension of n channels. An EST of -0 is not negative (DESIGN CHOICE, log 140). -/
def hotOk (l : List Byte) (n : Nat) : Bool :=
  decide (hotCount l ≤ 32) && zeroAt l 2 14 && ascending (hotEntries l) &&
  (hotEntries l).all fun e =>
    decide (e.chan < n) && decide (e.hr < 4) && decide (e.flags < 2) && e.rsv == 0 && e.est.isFinite && !(e.est.sign && !e.est.isZero)
/-- The scale a hot channel applies (R60). A SCALE of -0 is one of 0 (DESIGN CHOICE, log 140). -/
def hotScale (f : Nat) (e : HotEnt) : Val :=
  if e.scale.isZero then
    (if e.est.isZero then Val.one else Val.divUp (Val.mul e.est (Val.ofNat (2 ^ (e.hr % 4)))) (qTop f))
  else e.scale
/-- The written-back SCALE (R60). -/
def hotNext (f : Nat) (e : HotEnt) (m : Val) (ovf : Bool) : Val :=
  let h := Val.ofNat (2 ^ (e.hr % 4))
  let n := if m.isZero then Val.one else Val.divUp (Val.mul m h) (qTop f)
  if ovf then Val.maxF n (Val.mul (hotScale f e) h) else n

/-! ## Converting a whole tensor -/

/-- A value to be written, with whether an F32 step of its computation overflowed (R65). -/
structure Elem where
  v : Val
  ovf : Bool
  deriving DecidableEq, Repr

/-- What a conversion needs to know of its target: format, SMODE, the CONV bits, and for each element in logical order the
number of its scale group (0 for a tensor, its channel, or its block). -/
structure Target where
  fmt : Nat
  smode : Nat
  sr : Bool
  sat : Bool
  blockNan : Bool
  deriving DecidableEq, Repr

/-- The outcome: codes, the scales to write (group, F32 or E8M0 code), the counts, hot write-backs (index, EST, SCALE, OVF). -/
structure Conv where
  codes : List Nat
  scales : List (Nat × Nat)
  cats : List Nat
  hot : List (Nat × Val × Val × Bool)
  infs : Bool
  nans : Bool
  deriving DecidableEq, Repr

/-- Distinct group numbers, in order of first use. -/
def groupsOf : List Nat → List Nat → List Nat
  | [], _ => []
  | g :: t, seen => if seen.contains g then groupsOf t seen else g :: groupsOf t (g :: seen)
/-- The amax of each group (R46, R48). -/
def groupAmax (groups : List Nat) (vs : List Elem) : List (Nat × Val) :=
  (List.zip groups vs).foldl (fun t (g, x) => Tab.put t g (amaxOf (Tab.get Val.zero t g) x.v)) []
/-- The scale under which a group is written: the exact value, and the code to store where the part computes it. -/
def groupScale (t : Target) (amax : List (Nat × Val)) (given : List (Nat × Val)) (hots : List (Nat × Val)) (g : Nat) : Val :=
  match Tab.get? hots g with
  | some s => s
  | none =>
    match t.smode with
    | 1 => freshScale t.fmt (Tab.get Val.zero amax g)
    | 2 => freshScale t.fmt (Tab.get Val.zero amax g)
    | 3 => Tab.get Val.one given g
    | 4 => Tab.get Val.one given g
    | 5 => .fin false 1 ((blockScale t.fmt (Tab.get Val.zero amax g) : Int) - 127)
    | _ => Val.one
def Quo.isNaN : Quo → Bool
  | .nan _ => true
  | _ => false
def Quo.isZero : Quo → Bool
  | .fin _ n _ _ => n == 0
  | _ => false
def Quo.isFinite : Quo → Bool
  | .fin _ _ _ _ => true
  | _ => false
/-- The categories of Table 02-8 that an element meets: `q` is the value that is encoded (R446), `over` an F32 overflow of
its computation (R65). No element of a block whose scale becomes FFh is a zero or a subnormal; one that was saturated counts under SAT as
well as under NAN, of which R65 says nothing (DESIGN CHOICE, log 135). -/
def category (q : Quo) (ovf : Bool) (e : Enc) (blockIsNan : Bool) : List Nat :=
  let nan := q.isNaN || e.nan || (blockIsNan && !e.ovf)
  [1, b2n (q.isZero && e.zero && !blockIsNan), b2n (q.isFinite && !q.isZero && e.zero && !blockIsNan),
   b2n (e.subn && !blockIsNan), b2n e.sat, b2n (e.ovf || ovf), b2n nan]
/-- Adds two count vectors. -/
def addCats : List Nat → List Nat → List Nat
  | a :: s, b :: t => (a + b) :: addCats s t
  | [], t => t
  | s, [] => s
def zeroCats : List Nat := [0, 0, 0, 0, 0, 0, 0]

/-- Converts a tensor; what a hot channel writes back is rounded into F32 under R50, so an EST or SCALE beyond the F32 range is +∞
(R60; DESIGN CHOICE, log 111). `vs` in logical order, `groups` the scale group of each, `given` the scales read, `hots` the hot
channels of the list as (channel, entry, index), and `draw i` the draw of element i. -/
def convert (t : Target) (groups : List Nat) (given : List (Nat × Val)) (hots : List (Nat × HotEnt × Nat))
    (key s c0 : Nat) (vs : List Elem) : Conv :=
  let hotS := hots.map fun (c, e, _) => (c, hotScale t.fmt e)
  let amax := groupAmax groups vs
  let encs := ((List.range vs.length).zip (List.zip groups vs)).map fun (i, g, x) =>
    let hot := (Tab.get? hotS g).isSome
    let sc := groupScale t amax given hotS g
    let q := if t.smode == 0 then x.v.quo else scaleQuo x.v sc
    (g, (q, x.ovf), encodeElem t.fmt (if t.sr then .stoch (srDraw key s c0 i) else .nearest) t.sat t.blockNan hot q)
  let nanGroups := if t.smode == 5 then (encs.filter fun (_, _, e) => e.blockNan).map (·.1) else []
  let bad (g : Nat) := nanGroups.contains g
  let written := match t.smode with
    | 1 => groupsOf groups []
    | 2 => groupsOf groups []
    | 5 => groupsOf groups []
    | _ => []
  { codes := encs.map fun (_, _, e) => e.code
    scales := written.map fun g =>
      (g, if t.smode == 5 then (if bad g then 255 else blockScale t.fmt (Tab.get Val.zero amax g))
          else (groupScale t amax given hotS g).to32.toNat)
    cats := encs.foldl (fun a (g, x, e) => addCats a (category x.1 x.2 e (bad g))) zeroCats
    hot := hots.map fun (c, e, j) =>
      let m := Tab.get Val.zero amax c
      let ovf := encs.any fun (g, _, r) => g == c && r.sat
      (j, m.r32, (hotNext t.fmt e m ovf).r32, ovf)
    infs := encs.any fun (g, _, e) => !bad g && (decodeElem t.fmt e.code).isInf
    nans := encs.any fun (g, _, e) => bad g || (decodeElem t.fmt e.code).isNaN }

end Sys2Proof.Machine
end

