-- ==== Sys2Proof/Config.lean ====
section
/-! DEFINITION. What the spec leaves open, as constants with no body: a claim that mentions one holds whatever it is.
The cryptographic functions stand here too: the spec names the standards and gives no algorithm (log entry 2). -/

namespace Sys2Proof.Config

/-- SHA-256 of a byte string (R174, R263). -/
opaque sha256 : List Byte → BitVec 256
/-- SHA-384 of a byte string (R346, R374, R377). -/
opaque sha384 : List Byte → BitVec 384
/-- AES-256-GCM decryption: key, IV, ciphertext, tag; none when the tag does not verify (R175, R265, R266). -/
opaque gcmOpen : BitVec 256 → BitVec 96 → List Byte → BitVec 128 → Option (List Byte)
/-- AES-256-GCM encryption: key, IV, plaintext; the ciphertext and the tag (R175, R189). -/
opaque gcmSeal : BitVec 256 → BitVec 96 → List Byte → List Byte × BitVec 128
/-- RFC 3394 unwrap under the wrap key: none when the integrity check fails (R347, R348). -/
opaque unwrap : BitVec 256 → List Byte → Option (BitVec 256)
/-- HKDF-Expand of a session's exported master secret with the label of R347. -/
opaque wrapKey : BitVec 256 → BitVec 256
/-- ECDSA P-384 verification: public key, message, signature (R374, R377, R379). -/
opaque ecdsaOk : BitVec 768 → List Byte → BitVec 768 → Bool
/-- The device identity key that Heril derives from the fused secret, and the alias key, from the secret and Heril's measurement (R332). -/
opaque identityKey : BitVec 256 → BitVec 384
opaque aliasKeyOf : BitVec 256 → BitVec 384 → BitVec 384
/-- The signature of a signed SPDM response under an alias key (R332, R345). -/
opaque spdmSign : BitVec 384 → List Byte → BitVec 768
/-- The certificate chain of slot 0 for an identity key and the alias key that it certifies (R332). -/
opaque certChain : BitVec 384 → BitVec 384 → List Byte
/-- The DRBG's output number n (R333): keys, IVs and nonces are cut from it. -/
opaque drbg : Nat → BitVec 512
/-- The fused digest of Akwald's image key (Table 14-5, check 1). -/
opaque fusedKeyDigest : BitVec 384
/-- The measurement of the boot ROM (Table 13-3, index 1). -/
opaque romDigest : BitVec 384
/-- CRC-64 of a shard's bytes under the ECMA-182 polynomial (R298): the spec gives no initial value or bit order. -/
opaque crc64 : List Byte → BitVec 64
/-- CRC-16 of a cell header (R283) and CRC-32 of a frame header or payload (R282, R283), as above. -/
opaque crc16 : List Byte → BitVec 16
opaque crc32 : List Byte → BitVec 32
/-- Which of n arrays is taken for the work that starts at unit u of operation number k, and at which tree level spans are divided
(R80 fixes no more). -/
opaque unitArray : Nat → Nat → Nat → Nat
/-- The slice of another member device of a transfer, (first element, elements), and its rank: they stand in that device's own
schedule table (Table 11-6). -/
opaque peerSlice : Nat → Nat → Nat × Nat
opaque peerRank : Nat → Nat → Nat
/-- Where a flow of a PERMUTE takes its bytes from in the old-layout area, and where it puts them in the new one; and the pieces
(from, to, bytes) that stay on the device (R301 leaves them to the schedule's producer). -/
opaque flowFrom : Nat → Nat
opaque flowTo : Nat → Nat
opaque ownMoves : Nat → List (Nat × Nat × Nat)
/-- AES-256-XTS encryption of a data unit (IEEE 1619): key, tweak, 72 bytes of plaintext, with ciphertext stealing (R253). -/
opaque xts : BitVec 512 → Nat → List Byte → List Byte
/-- Whether a racing element of an operation is read after the other stream's write: draw, and its number among the elements and scales read (R100). -/
opaque readsAfter : Nat → Nat → Bool
/-- The bytes that an operation sends over TD–TD links: operation number (R314, R316 count them and do not say which accesses pass). -/
opaque fabricBytes : Nat → Nat
/-- Akwald's PCI-SIG vendor identifier, which the spec does not give (R398). -/
opaque vendorId : Nat
/-- Free values: number k of those a run has drawn. -/
opaque freeNat : Nat → Nat

end Sys2Proof.Config
end

