-- ==== Sys2Proof/Machine/Memory.lean ====
section
/-! DEFINITION. Memory as a canonical list of cells: addresses rising, no cell holding 00h, which is what an unlisted
address reads as (log entry 3); reads, writes and fills. The same form serves the stacks and the tiles' SRAM. -/

namespace Sys2Proof.Machine.Memory

/-- The byte at an address. -/
def read (m : List Host.Cell) (a : Nat) : Byte := Tab.get 0 m a
/-- Writes one byte. -/
def write (m : List Host.Cell) (a : Nat) (b : Byte) : List Host.Cell := if b = 0 then Tab.erase m a else Tab.put m a b
/-- Reads n bytes from an address up. -/
def readList (m : List Host.Cell) (a n : Nat) : List Byte := (List.range n).map fun i => read m (a + i)
/-- Writes bytes from an address up. -/
def writeList : List Host.Cell → Nat → List Byte → List Host.Cell
  | m, _, [] => m
  | m, a, b :: bs => writeList (write m a b) (a + 1) bs
/-- Writes n zeros from an address up. -/
def fill (m : List Host.Cell) (a n : Nat) : List Host.Cell := m.filter fun c => decide (c.1 < a) || decide (a + n ≤ c.1)
/-- The canonical form. -/
def wf (m : List Host.Cell) : Bool := Tab.wf m && m.all fun c => c.2 != 0

end Sys2Proof.Machine.Memory
end

