-- ==== Sys2Proof/Machine/Ops.lean ====
section
/-! DEFINITION. The shared operations: access to the parts of the state, translation and stack access (10), interrupt
messages and completion entries (16), error detection with its effects at once (15), and physical ranges (R246). -/

namespace Sys2Proof.Machine

/-! ## Codes (Tables 15-1 and 15-2) -/

namespace Code

def stepInvalid := 0x01
def rowInvalid := 0x02
def pageShort := 0x03
def paused := 0x04
def kvConflict := 0x05
def slotBusy := 0x06
def adapterGone := 0x07
def adapterDenied := 0x08
def keyAbsent := 0x09
def slotSize := 0x0A
def adapterAuth := 0x0B
def adapterDigest := 0x0C
def adapterFormat := 0x0D
def adapterMismatch := 0x0E
def aborted := 0x0F
def adapterShape := 0x10
def acceptInvalid := 0x11
def pinLimit := 0x12
def late := 0x13
def pinUnderflow := 0x14
def scrubInvalid := 0x15
def cmdInvalid := 0x16
def catFull := 0x17
def extInvalid := 0x40
def baseBusy := 0x41
def memFull := 0x42
def baseInUse := 0x43
def baseAuth := 0x44
def manifestInvalid := 0x45
def partInvalid := 0x46
def regOvercommit := 0x47
def partBusy := 0x48
def schedInvalid := 0x49
def notReady := 0x4A
def pwrBusy := 0x4B
def pwrSleep := 0x4C
def mgtOnly := 0x80
def presenceRequired := 0x81
def keyInUse := 0x82
def keyNoquote := 0x83
def keyDebug := 0x84
def pendRefused := 0x85
def keyInvalid := 0x86
def keyState := 0x87
def keyStale := 0x88
def keySlotBusy := 0x89
def keyGenBusy := 0x8A
def fwBusy := 0x8B
def floorInvalid := 0x8C
def parityData := 0x100
def stackUe := 0x101
def linkCrc := 0x102
def linkDown := 0x103
def peerSilent := 0x104
def beatLost := 0x105
def gatherBad := 0x106
def shardStale := 0x107
def shardBad := 0x108
def baseLoadFail := 0x109
def extHost := 0x10A
def cdcTimeout := 0x10B
def thermalThrottle := 0x10C
def bootBankBad := 0x10D
def imageRollback := 0x10E
def imageIncompat := 0x10F
def configInvalid := 0x110
def peelFail := 0x111
def descInvalid := 0x200
def opInvalid := 0x201
def parityCtrl := 0x202
def semDeadlock := 0x203
def semOverflow := 0x204
def streamDepth := 0x205
def updTableInvalid := 0x206
def pscDeadlock := 0x207
def pscSequence := 0x208
def extUnmapped := 0x209
def extWriteRo := 0x20A
def baseOrder := 0x20B
def collNosched := 0x20C
def peerLate := 0x20D
def collCover := 0x20E
def epochOrder := 0x20F
def yieldTimeout := 0x210
def ledgerMismatch := 0x211
def debugOn := 0x212
def d2dLinkDown := 0x300
def parityDev := 0x301
def clockLost := 0x302
def aonLost := 0x303
def sealOpen := 0x304
def thermalLimit := 0x305
def powerFault := 0x306
def fwWatchdog := 0x307

/-- The class of an event code: 1 CE, 2 PE, 3 DE (R382). -/
def cls (c : Nat) : Nat := fld c 9 8

end Code

/-! ## Parts of the state -/

def Dev.part (d : Dev) (p : Nat) : Part := Tab.get Reset.part d.parts p
def Dev.setPart (d : Dev) (p : Nat) (P : Part) : Dev := { d with parts := Tab.put d.parts p P }
def Dev.onPart (d : Dev) (p : Nat) (f : Part → Part) : Dev := d.setPart p (f (d.part p))
def Dev.tile (d : Dev) (t : Nat) : TileSt := Tab.get Reset.tile d.tiles t
def Dev.onTile (d : Dev) (t : Nat) (f : TileSt → TileSt) : Dev := { d with tiles := Tab.put d.tiles t (f (d.tile t)) }
def Dev.hcSet (d : Dev) (n : Nat) : HcSet := Tab.get Reset.hcSet d.hc n
def Dev.setHc (d : Dev) (n : Nat) (h : HcSet) : Dev := { d with hc := Tab.put d.hc n h }
def Dev.catEntry (d : Dev) (i : Nat) : CatEntry := Tab.get Reset.catEntry d.cat i
def Dev.onCat (d : Dev) (i : Nat) (f : CatEntry → CatEntry) : Dev := { d with cat := Tab.put d.cat i (f (d.catEntry i)) }
def Dev.base (d : Dev) (b : Nat) : Base := Tab.get Reset.base d.bases b
def Dev.setBase (d : Dev) (b : Nat) (B : Base) : Dev := { d with bases := Tab.put d.bases b B }
def Dev.onBase (d : Dev) (b : Nat) (f : Base → Base) : Dev := d.setBase b (f (d.base b))
def Dev.port (d : Dev) (l : Nat) : PortSt := Tab.get Reset.port d.lnk.ports l
def Dev.onLnk (d : Dev) (f : Lnk → Lnk) : Dev := { d with lnk := f d.lnk }
def Dev.onPort (d : Dev) (l : Nat) (f : PortSt → PortSt) : Dev :=
  d.onLnk fun k => { k with ports := Tab.put k.ports l (f (d.port l)) }
def Dev.onMem (d : Dev) (f : MemSt → MemSt) : Dev := { d with mem := f d.mem }
def Dev.onCkr (d : Dev) (f : Ckr → Ckr) : Dev := { d with ckr := f d.ckr }
def Dev.onErr (d : Dev) (f : ErrSt → ErrSt) : Dev := { d with err := f d.err }
def Dev.onSec (d : Dev) (f : Sec → Sec) : Dev := { d with sec := f d.sec }
def Dev.onHost (d : Dev) (f : HostSt → HostSt) : Dev := { d with host := f d.host }
def Dev.onPins (d : Dev) (f : Pins → Pins) : Dev := { d with pins := f d.pins }
def Dev.fn (d : Dev) (v : Nat) : FnSt := Tab.get Reset.fn d.host.fns v
def Dev.onFn (d : Dev) (v : Nat) (f : FnSt → FnSt) : Dev :=
  d.onHost fun h => { h with fns := Tab.put h.fns v (f (d.fn v)) }
def Dev.onVf (d : Dev) (p : Nat) (f : Vf → Vf) : Dev := d.onPart p fun P => { P with vf := f P.vf }
def Dev.emit (d : Dev) (o : Out) : Dev := { d with out := o :: d.out }
/-- Puts out a message. One for the BMC is announced by SB_ALERT_N, or in-band in I3C mode; the BMC takes it at once (R429; DESIGN
CHOICE, log 123). -/
def Dev.tell (d : Dev) (w : Wire) (o : Out) : Dev :=
  (if w = .sideband then d.emit (if d.pins.sbMode then .ibi else .sbAlert) else d).emit o
/-- The beat count. -/
def Dev.beat (d : Dev) : Nat := d.lnk.count.toNat
/-- A free value, and the state that has drawn it. -/
def Dev.free (d : Dev) : Nat × Dev := (Config.freeNat d.fresh, { d with fresh := d.fresh + 1 })

/-- Stream numbers of the register map: 0 SQF, 1 SQB, 2 SQU, 3 teacher. -/
def strmIx : Strm → Nat
  | .sqf => 0
  | .sqb => 1
  | .squ => 2
  | .teacher => 3
def Part.seq (P : Part) (q : Nat) : Seq := P.sq.getD q Reset.seq
def Part.setSeq (P : Part) (q : Nat) (s : Seq) : Part := { P with sq := setAt P.sq q s }
def Part.onSeq (P : Part) (q : Nat) (f : Seq → Seq) : Part := P.setSeq q (f (P.seq q))
def Dev.seq (d : Dev) (p q : Nat) : Seq := (d.part p).seq q
def Dev.onSeq (d : Dev) (p q : Nat) (f : Seq → Seq) : Dev := d.onPart p fun P => P.onSeq q f
/-- The streams that a partition has: the teacher stream only in DISTIL (R198). -/
def Part.streams (P : Part) : List Nat := if P.entry.mode = .distil then [0, 1, 2, 3] else [0, 1, 2]
/-- IDLE or HALTED. -/
def SeqState.free (s : SeqState) : Bool := s == .idle || s == .halted
/-- IDLE, HALTED or STOPPED. -/
def SeqState.quiet (s : SeqState) : Bool := s == .idle || s == .halted || s == .stopped
/-- RUN, WAIT_SEM or WAIT_BEAT. -/
def SeqState.busy (s : SeqState) : Bool := s == .run || s == .waitSem || s == .waitBeat
def Part.quiet (P : Part) : Bool := P.streams.all fun q => (P.seq q).st.quiet

/-- The tiles of a mask, ascending. -/
def maskTiles (m : BitVec 96) : List Nat := (List.range 96).filter fun t => m.getLsbD t
/-- The mask of a list of tiles. -/
def tilesMask (l : List Nat) : BitVec 96 := l.foldl (fun m t => m ||| (1#96 <<< t)) 0
/-- The tiles of a partition by rank; a guest has its host's (R325). -/
def Dev.tilesOf (d : Dev) (p : Nat) : List Nat :=
  let e := (d.part p).entry
  if e.guest then maskTiles (d.part e.hostp).entry.tiles else maskTiles e.tiles
/-- The leader tile; a guest's is its host's second-lowest-numbered tile (R325). 7Fh for none. -/
def Dev.leader (d : Dev) (p : Nat) : Nat :=
  let e := (d.part p).entry
  if e.guest then (maskTiles (d.part e.hostp).entry.tiles).getD 1 0x7F else e.leader
/-- The partitions that are not UNUSED. -/
def Dev.live (d : Dev) : List Nat := (d.parts.filter fun x => x.2.st != .unused).map (·.1)
/-- Whether a partition holds tiles in its state (Table 12-3). -/
def PState.hasTiles (s : PState) : Bool := s != .unused && s != .parked

/-! ## Regulators (R314 to R316) -/

/-- Capacity per beat of a resource (Table 12-4), and the largest single access in its unit (R315). -/
def regCap (r : Nat) : Nat := if r ≤ 1 then 10485760 else if r == 2 then 5570560 else if r == 3 then 3000 else 40960
def regUnit (r : Nat) : Nat := if r ≤ 1 then 2048 else if r == 3 then 1 else 256
/-- How many of n accesses of one size a bucket serves: one after another while it is not negative; and what it then holds. -/
def drain (b : Int) (n size : Nat) : Nat × Int :=
  if b < 0 || size == 0 then (0, b)
  else
    let k := min n ((b / (size * 1024 : Nat)).toNat + 1)
    (k, b - (k * size * 1024 : Nat))
/-- Serves n accesses of one size, from G while it is not negative and then from X; how many are left. -/
def Bucket.serveN (b : Bucket) (n size : Nat) : Nat × Bucket :=
  let (k, g) := drain b.g n size
  let (j, x) := drain b.x (n - k) size
  (n - k - j, { b with g := g, x := x })
/-- Serves a request of n of resource r, in accesses of the largest size and a last one of the rest; what of it is not served
(R315; log 105). -/
def Bucket.serveOne (b : Bucket) (r n : Nat) : Nat × Bucket :=
  let (m, b') := b.serveN (n / regUnit r) (regUnit r)
  let rest := n % regUnit r
  if m == 0 then
    let (k, b'') := b'.serveN (b2n (rest != 0)) rest
    (k * rest, b'')
  else (m * regUnit r + rest, b')
/-- Serves a list of requests, oldest first, until one has to wait. -/
def Bucket.serveAll (r : Nat) : List Nat → Bucket → Bucket
  | [], b => { b with due := [] }
  | n :: l, b =>
    let (m, b') := b.serveOne r n
    if m == 0 then Bucket.serveAll r l b' else { b' with due := m :: l }
def Bucket.serve (b : Bucket) (r : Nat) : Bucket := Bucket.serveAll r b.due b
/-- Asks for an access of a size, which waits for those asked for before it. -/
def Bucket.ask (b : Bucket) (r n : Nat) : Bucket := { b with asked := b.asked + n, due := b.due ++ [n] }.serve r
/-- What has been served of all that was asked for. -/
def Bucket.served (b : Bucket) : Nat := b.asked - b.due.sum
/-- The buckets of a partition's regulators, and one of them. -/
def Dev.bucketsOf (d : Dev) (p : Nat) : List Bucket := Tab.get (List.replicate 5 Reset.bucket) d.buckets p
def Dev.bucket (d : Dev) (p r : Nat) : Bucket := (d.bucketsOf p).getD r Reset.bucket
def Dev.onBucket (d : Dev) (p r : Nat) (f : Bucket → Bucket) : Dev :=
  { d with buckets := Tab.put d.buckets p (setAt (d.bucketsOf p) r (f (d.bucket p r))) }
/-- The buckets of a partition as after its set-up, and with nothing waiting any more: its operations have ended. -/
def Dev.resetBuckets (d : Dev) (p : Nat) : Dev := { d with buckets := Tab.put d.buckets p (List.replicate 5 Reset.bucket) }
def Dev.dropWaiting (d : Dev) (p : Nat) : Dev := { d with buckets := Tab.put d.buckets p ((d.bucketsOf p).map fun b => { b with due := [] }) }
/-- The parity failures of control paths among the glitches: the first one of a tile, and the first one of a die (R92, R384). -/
def controlGlitch (gl : List Glitch) : Option Nat := gl.findSome? fun g => match g with
  | .control t => some t.val
  | _ => none
def deviceGlitch (gl : List Glitch) : Option Nat := gl.findSome? fun g => match g with
  | .device n => some n.val
  | _ => none
/-- The reader that is no partition: the scrubber (R268) and the yield's flush and restore, which count against none (R316). -/
def noPart : Nat := 64
/-- Counts n units of resource r against a partition: 0 stack reads, 1 stack writes, 2 fabric, 3 unscheduled cells, 4 host DMA. -/
def Dev.charge (d : Dev) (p r n : Nat) : Dev := if n == 0 || decide (noPart ≤ p) then d else d.onBucket p r fun b => b.ask r n
/-- Whether an access of a resource would be served at once: none waits, and G or X is not negative (R315). -/
def Bucket.servable (b : Bucket) : Bool := b.due.isEmpty && (decide (0 ≤ b.g) || decide (0 ≤ b.x))
/-- Whether an access of each of some resources would be served at once. An access that the part makes by itself for a partition comes
when its regulators serve it: until then the command that makes it does nothing (R315; log 105). -/
def Dev.servable (d : Dev) (p : Nat) (rs : List Nat) : Bool := rs.all fun r => (d.bucket p r).servable

/-! ## Reset line -/

/-- Whether RESET_N counts as released (R357, R436). -/
def Dev.released (d : Dev) : Bool := d.pins.aux && d.ckr.aonstb && d.pins.pwrGood && d.pins.resetN
/-- Whether BEAT_OUT is high impedance: the module is unpowered or in reset (R432). -/
def Dev.beatOutHiZ (d : Dev) : Bool := !d.released

/-! ## Interrupts and completion entries (16) -/

/-- Whether a function can master the bus (R401). -/
def Dev.masters (d : Dev) (v : Nat) : Bool :=
  (d.fn v).busMaster && !(d.fn v).d3hot && d.host.linkUp && (v == 0 || (d.fn 0).vfEnable)
/-- Sends a vector, or sets it pending (R401, R416); in the hold state nothing is sent (R390). -/
def Dev.msix (d : Dev) (v vec : Nat) : Dev :=
  if d.err.holdst then d
  else if d.masters v && !(d.fn v).mask.getLsbD vec then
    (d.onFn v fun f => { f with pba := f.pba &&& ~~~(1#32 <<< vec), withheld := f.withheld &&& ~~~(1#32 <<< vec) }).emit (.msix v vec)
  else d.onFn v fun f => { f with pba := f.pba ||| (1#32 <<< vec), withheld := f.withheld &&& ~~~(1#32 <<< vec) }
/-- An event of PF0 vector i (Table 16-9). -/
def Dev.pfEvent (d : Dev) (i : Nat) : Dev :=
  (d.onHost fun h => { h with int := h.int ||| (1#8 <<< i) }).msix 0 i
/-- An event of a VF: VSTAT bit and vector (R412). -/
def Dev.vfEvent (d : Dev) (p bit vec : Nat) : Dev :=
  (d.onVf p fun v => { v with vstat := v.vstat ||| (1#9 <<< bit) }).msix (p + 1) vec
/-- The envelope of a response (R335). -/
def envelope (cmd len tag status : Nat) : List Byte :=
  natLe 2 cmd ++ natLe 2 len ++ natLe 4 tag ++ natLe 2 status ++ List.replicate 6 0
/-- Whether the completion queue has room for one more entry (R411). -/
def Vf.room (v : Vf) : Bool := (v.cqTail + 1) % 2 ^ v.cqsz != v.cqHead
/-- Writes one completion entry at CQTAIL; its 64 bytes count as host DMA (R316, R411). -/
def Dev.writeCqe (d : Dev) (p : Nat) (bytes : List Byte) : Dev :=
  let v := (d.part p).vf
  let d := (d.charge p 4 64).emit (.cqe p v.cqTail (bytes ++ [BitVec.ofNat 8 (b2n v.phase)]))
  let t := (v.cqTail + 1) % 2 ^ v.cqsz
  let d := d.onVf p fun v => { v with cqTail := t, phase := if t = 0 then !v.phase else v.phase }
  let d := d.onVf p fun v => { v with vstat := v.vstat ||| 1#9 }
  if v.ien then d.msix (p + 1) 0 else d
/-- Ends the running queue command: its entry is written, held for room, for the bus or for the host-DMA regulator, or discarded (R315,
R401, R411). -/
def Dev.postCqe (d : Dev) (p status : Nat) (body : List Byte) : Dev :=
  let v := (d.part p).vf
  match v.cur with
  | none => d
  | some e =>
    let bytes := envelope e.cmd body.length e.tag status ++ fit 32 body ++ natLe 2 v.sqHead ++ List.replicate 13 0
    let d := d.onVf p fun v => { v with cur := none, discard := false }
    if v.discard then d.onVf p fun v => { v with lost := satAdd 16 v.lost 1 }
    else if v.room && d.masters (p + 1) && d.servable p [4] then d.writeCqe p bytes
    else d.onVf p fun v => { v with heldCqe := v.heldCqe ++ [bytes] }
/-- Writes held completion entries while the queue has room, the function masters the bus and the host-DMA regulator serves them (R315,
R401, R411). -/
def Dev.drainCqe (d : Dev) (p : Nat) : Nat → Dev
  | 0 => d
  | n + 1 =>
    match (d.part p).vf.heldCqe with
    | [] => d
    | b :: rest =>
      if (d.part p).vf.room && d.masters (p + 1) && d.servable p [4] then
        ((d.onVf p fun v => { v with heldCqe := rest }).writeCqe p b).drainCqe p n
      else d
def Dev.flushCqes (d : Dev) (p : Nat) : Dev := d.drainCqe p (d.part p).vf.heldCqe.length
/-- Stops a queue with QERR (R411). -/
def Dev.qerr (d : Dev) (p : Nat) : Dev :=
  (d.onVf p fun v => { v with qerr := true }).vfEvent p 8 7

/-! ## Bases and translation (R247, R262) -/

/-- The size of layer j by a shard table. -/
def layerSize (sh : List Shard) (j : Nat) : Nat := (sh.filter fun s => s.layer == j).foldl (fun n s => n + s.length) 0
/-- The layer of a base offset among layers j and up, and the offset in it. -/
def layerAtGo (sh : List Shard) : Nat → Nat → Nat → Option (Nat × Nat)
  | 0, _, _ => none
  | n + 1, j, o => if o < layerSize sh j then some (j, o) else layerAtGo sh n (j + 1) (o - layerSize sh j)
def layerAt (sh : List Shard) (nlayer o : Nat) : Option (Nat × Nat) := layerAtGo sh nlayer 0 o
def baseLength (B : Base) : Nat := (List.range B.nlayer).foldl (fun n j => n + layerSize B.shards j) 0
/-- The shard that holds an offset of a layer. -/
def shardAt (sh : List Shard) (j o : Nat) : Option Nat :=
  sh.findIdx? fun s => s.layer == j && decide (s.offset ≤ o) && decide (o < s.offset + s.length)

/-- The bases that a partition declares. -/
def Part.declared (P : Part) : List Nat :=
  ((P.ext.filter fun x => x.2.kind == 1).foldl (fun t x => Tab.put t x.2.base ()) []).map (·.1)

/-- A resolved byte of partition space: its PA, and for base bytes the base, layer and shard. -/
structure Phys where
  pa : Nat
  kind : Nat
  base : Nat
  layer : Nat
  bad : Bool
  deriving DecidableEq, Repr

/-- The extent entry that holds a partition address. -/
def Part.extAt (P : Part) (a : Nat) : Option Ext :=
  (P.ext.find? fun x => decide (x.2.vbase ≤ a) && decide (a < x.2.vbase + x.2.len)).map (·.2)
/-- Pod-slot, KV and distillation windows of a partition (R190, R209, R234): base and length, where active. -/
def Part.podWindow (P : Part) : Option (Nat × Nat) :=
  if P.entry.mode == .serve && P.podCfg.getLsbD 63 then some (fld P.podWin.toNat 47 22 * 2 ^ 22, 2 ^ 22) else none
def Part.kvWindow (P : Part) : Option (Nat × Nat) :=
  if P.entry.mode == .serve && P.kvCfg.getLsbD 63 then some (fld P.kvWin.toNat 47 26 * 2 ^ 26, 2 ^ 26) else none
def Part.twin (P : Part) : Option (Nat × Nat) :=
  if P.entry.mode == .distil then some (fld P.dist.win.toNat 63 42 * 2 ^ 26, 2 ^ 26) else none
def Part.swin (P : Part) : Option (Nat × Nat) :=
  if P.entry.mode == .distil then some (fld P.dist.win.toNat 41 20 * 2 ^ 26, 2 ^ 26) else none
def inWin (w : Option (Nat × Nat)) (a : Nat) : Bool :=
  match w with
  | some (b, n) => decide (b ≤ a) && decide (a < b + n)
  | none => false
/-- The active windows. Their addresses are recognised before translation (R247). -/
def Part.windows (P : Part) : List (Nat × Nat) := [P.podWindow, P.kvWindow, P.twin, P.swin].filterMap id
def Part.inWindow (P : Part) (a : Nat) : Bool := P.windows.any fun w => inWin (some w) a
/-- Resolves a partition address. `new` selects the replacement's shard table, which a new wave's reads follow (R272). -/
def Dev.resolve (d : Dev) (p a : Nat) (new : Nat → Bool) : Option Phys :=
  match if (d.part p).inWindow a then none else (d.part p).extAt a with
  | none => none
  | some e =>
    if e.kind == 1 then
      let B := d.base e.base
      let sh := if B.switched && new e.base then B.newShards else B.shards
      match layerAt sh B.nlayer (e.pbase + (a - e.vbase)) with
      | none => none
      | some (j, o) =>
        let bad := match shardAt sh j o with
          | some i => (sh.getD i ⟨0, 0, 0, 0, false, false, 0⟩).bad
          | none => false
        some ⟨B.homes.getD j 0 + o, 1, e.base, j, bad⟩
    else some ⟨e.pbase + (a - e.vbase), e.kind, 0, 0, false⟩
/-- Resolution outside a wave of a replaced base. -/
def Dev.pa? (d : Dev) (p a : Nat) : Option Phys := d.resolve p a fun _ => false
/-- Whether n bytes from a partition address lie in extents that `ok` allows, and under no window. -/
def Dev.mapped (d : Dev) (p a n : Nat) (ok : Nat → Bool) : Bool :=
  let starts := a :: ((d.part p).ext.map fun x => x.2.vbase + x.2.len).filter fun e => decide (a < e) && decide (e < a + n)
  ((d.part p).windows.all fun w => decide (a + n ≤ w.1) || decide (w.1 + w.2 ≤ a)) && starts.all fun s =>
    match (d.part p).extAt s with
    | some e => ok e.kind
    | none => false
/-- Whether [a, a + n) of partition space meets no KV extent: those are reached only through the KV window and scrubs (R248). -/
def Part.kvFree (P : Part) (a n : Nat) : Bool :=
  P.ext.all fun x => x.2.kind != 3 || decide (a + n ≤ x.2.vbase) || decide (x.2.vbase + x.2.len ≤ a)
/-- Reads n plain bytes of partition space with no record: what the part reads for itself. -/
def Dev.peek (d : Dev) (p a n : Nat) : List Byte :=
  (List.range n).map fun i => match d.pa? p (a + i) with
    | some x => Memory.read d.mem.bytes x.pa
    | none => 0
/-- Whether one of n bytes of partition space is poisoned. -/
def Dev.poisoned (d : Dev) (p a n : Nat) : Bool :=
  (List.range n).any fun i => match d.pa? p (a + i) with
    | some x => x.bad || Ivl.mem d.mem.bad x.pa
    | none => false
/-- Writes physical bytes with good parity (R259). -/
def Dev.writePa (d : Dev) (pa : Nat) (bs : List Byte) : Dev :=
  d.onMem fun m => { m with bytes := Memory.writeList m.bytes pa bs, bad := Ivl.cut m.bad pa (pa + bs.length) }
/-- Writes zeros over a physical range. -/
def Dev.zeroPa (d : Dev) (pa n : Nat) : Dev :=
  d.onMem fun m => { m with bytes := Memory.fill m.bytes pa n, bad := Ivl.cut m.bad pa (pa + n) }
/-! ## Records of errors (R386) -/

/-- A record with everything but its code empty. -/
def rec0 (code : Nat) : ErrRec := ⟨code, false, 0, false, false, 0, 0, 0, 0, 0xFF, 0, 0, 0, false⟩
/-- A record of a partition. -/
def recP (code p : Nat) : ErrRec := { rec0 code with pv := true, part := p }
/-- A record of a partition that names one of its streams. -/
def recS (code p q : Nat) : ErrRec := { recP code p with unit := 6, index := q }

/-- Adds a record to those detected, with the beat count of its detection. -/
def Dev.record (d : Dev) (r : ErrRec) : Dev :=
  d.onErr fun e => { e with detected := e.detected ++ [{ r with beat := d.beat }] }

/-! ## Stack reads and writes with parity (R259 to R261) -/

/-- Counts a corrected read of a unit (Table 10-3). -/
def Dev.memCe (d : Dev) (p pa kind : Nat) : Dev :=
  let k := fld pa 14 11
  d.onMem fun m => { m with ce := setAt m.ce k (satAdd 31 (m.ce.getD k 0) 1),
                            lastValid := true, lastKind := kind, lastOwner := p % 64, lastPa := pa }
/-- Counts and records a failed read of a unit (Table 10-3). -/
def Dev.memUe (d : Dev) (p pa kind : Nat) : Dev :=
  let k := fld pa 14 11
  let d := d.onMem fun m => { m with ue := setAt m.ue k (satAdd 32 (m.ue.getD k 0) 1),
                                     lastValid := true, lastKind := kind, lastOwner := p % 64, lastPa := pa }
  d.record { (if p < noPart then recP Code.stackUe p else rec0 Code.stackUe) with unit := 2, index := k, av := true, phys := true, addr := pa }
/-- The glitches that concern one unit. -/
def glitchOf (gl : List Glitch) (pa : Nat) : Option Glitch :=
  gl.find? fun g => match g with
    | .eccCorrected a => a == pa
    | .rereadClean a => a == pa
    | .rereadEcc a => a == pa
    | .rereadParity a _ => a == pa
    | .tag n => n == pa / 4096
    | _ => false
/-- Bytes of a 64-byte mask from a unit, added to the failed ones. -/
def maskBad (bad : List (Nat × Nat)) (pa : Nat) (m : BitVec 64) : List (Nat × Nat) :=
  (List.range 64).foldl (fun b i => if m.getLsbD i then Ivl.add b (pa + i) (pa + i + 1) else b) bad
/-- Whether a byte of a unit fails its check. -/
def Dev.unitFails (d : Dev) (pa : Nat) : Bool := Ivl.count d.mem.bad pa (pa + 64) != 0
/-- Reads one unit for partition p: the outcome of Table 10-3. A unit that fails keeps failing, whatever its ECC says. -/
def Dev.readUnit (d : Dev) (p : Nat) (gl : List Glitch) (pa : Nat) : Dev :=
  match glitchOf gl pa with
  | some (.rereadEcc _) => (d.onMem fun m => { m with bad := Ivl.add m.bad pa (pa + 64) }).memUe p pa 2
  | some (.rereadParity _ k) => (d.onMem fun m => { m with bad := maskBad m.bad pa k }).memUe p pa 2
  | some (.tag n) => (d.onMem fun m => { m with bad := Ivl.add m.bad (n * 4096) (n * 4096 + 4096) }).memUe p pa 3
  | g => if d.unitFails pa then d.memUe p pa 2 else match g with
    | some (.eccCorrected _) => d.memCe p pa 0
    | some (.rereadClean _) => d.memCe p pa 1
    | _ => d
/-- Reads a list of units for partition p, which its stack-read regulator counts. -/
def Dev.readUnits (d : Dev) (p : Nat) (gl : List Glitch) (us : List Nat) : Dev :=
  us.foldl (fun d u => d.readUnit p gl u) (d.charge p 0 (64 * us.length))
/-- The failing units of [lo, lo + n), ascending. -/
def Dev.failingUnits (d : Dev) (lo n : Nat) : List Nat :=
  let us := d.mem.bad.flatMap fun x =>
    let a := max x.1 lo
    let b := min x.2 (lo + n)
    if a < b then (List.range ((b - 1) / 64 + 1 - a / 64)).map fun i => a / 64 + i else []
  (us.foldl (fun t u => Tab.put t u ()) []).map fun x => x.1 * 64
/-- Reads every unit of a range for partition p: only those that fail are found (R259). -/
def Dev.readRange (d : Dev) (p lo n : Nat) : Dev := (d.failingUnits lo n).foldl (fun d u => d.readUnit p [] u) d
/-- The 64-byte units of a list of physical addresses, each once, ascending. -/
def unitsOf (pas : List Nat) : List Nat := (pas.foldl (fun t a => Tab.put t (a / 64) ()) []).map fun x => x.1 * 64
/-- Whether a tag failure makes a write to an address be discarded (R261). -/
def tagFails (gl : List Glitch) (pa : Nat) : Bool := gl.any fun g => g == .tag (pa / 4096)
/-- Before a write of some bytes of a unit: a failed read-modify-write leaves the unit's other bytes failing (R260). -/
def Dev.rmw (d : Dev) (p : Nat) (gl : List Glitch) (u : Nat) : Dev :=
  let d := d.readUnits p gl [u]
  if d.unitFails u then d.onMem fun m => { m with bad := Ivl.add m.bad u (u + 64) } else d
/-- Before a write of a list of physical addresses for partition p: a unit written in part is read first (R260), and a page whose tag
fails is found and recorded (R261). -/
def Dev.beforeWrite (d : Dev) (p : Nat) (gl : List Glitch) (pas : List Nat) : Dev :=
  (unitsOf pas).foldl (fun d u =>
    if tagFails gl u then d.readUnits p gl [u]
    else if (pas.filter fun a => a / 64 * 64 == u).length < 64 then d.rmw p gl u else d) d
/-- The bytes of the units that a list of physical addresses lies in, as the stack-write regulator counts them. -/
def unitBytes (pas : List Nat) : Nat := 64 * (unitsOf pas).length
/-- Whether a partition has no memory key left, so that nothing it writes can be read back (R254, R339; log 114). -/
def Dev.keyless (d : Dev) (p : Nat) : Bool := decide (p < noPart) && (d.part p).kgen.key0.isNone && (d.part p).kgen.key1.isNone
/-- Writes bytes at physical addresses for partition p whose regulator has counted them already; those of a page whose tag fails are
discarded (R259 to R261). -/
def Dev.writeServed (d : Dev) (p : Nat) (gl : List Glitch) (xs : List (Nat × Byte)) : Dev :=
  (xs.filter fun x => !tagFails gl x.1).foldl (fun d x =>
    let d := d.writePa x.1 [x.2]
    if d.keyless p then d.onMem fun m => { m with bad := Ivl.add m.bad x.1 (x.1 + 1) } else d) (d.beforeWrite p gl (xs.map (·.1)))
/-- Writes bytes at physical addresses for partition p, which its stack-write regulator counts. -/
def Dev.writeAll (d : Dev) (p : Nat) (gl : List Glitch) (xs : List (Nat × Byte)) : Dev :=
  (d.charge p 1 (unitBytes (xs.map (·.1)))).writeServed p gl xs
/-- The partition against which the stores of a base's shards are counted (R316): the lowest-numbered one that declares the base, and none
where none does (DESIGN CHOICE, log 133). -/
def Dev.baseHolder (d : Dev) (b : Nat) : Nat := (d.live.find? fun p => (d.part p).declared.contains b).getD noPart
/-- Writes bytes of a base that partition p declares, or noPart, from a physical address up: they are counted against p, a unit written
in part is read first, and the base's shared key is there (R260, R316). -/
def Dev.storeBase (d : Dev) (p pa : Nat) (bs : List Byte) : Dev :=
  let pas := (List.range bs.length).map (pa + ·)
  ((d.charge p 1 (unitBytes pas)).beforeWrite p [] pas).writePa pa bs
/-- Writes zeros over a physical range for partition p, which its stack-write regulator counts. -/
def Dev.zeroFor (d : Dev) (p pa n : Nat) : Dev := (d.charge p 1 n).zeroPa pa n
/-- Writes bytes for partition p from a physical address up. -/
def Dev.store (d : Dev) (p : Nat) (gl : List Glitch) (pa : Nat) (bs : List Byte) : Dev :=
  d.writeAll p gl (bs.zipIdx.map fun b => (pa + b.2, b.1))
/-- Writes bytes of partition space that no SHARED entry covers. -/
def Dev.poke (d : Dev) (p a : Nat) (bs : List Byte) : Dev :=
  d.writeAll p [] (bs.zipIdx.filterMap fun b => (d.pa? p (a + b.2)).bind fun x => if x.kind == 1 then none else some (x.pa, b.1))

/-! ## Physical ranges (R246) -/

/-- First reserved address: the catalog region's (Table 10-1). -/
def Dev.memTop (d : Dev) : Nat := 0xFF6E000000 - d.cfg.catsz * 2 ^ 20
/-- Whether [lo, lo + len) meets no allocated range. -/
def rangeFree (rs : List Range) (lo len : Nat) : Bool :=
  rs.all fun r => decide (lo + len ≤ r.lo) || decide (r.lo + r.len ≤ lo)
/-- The free range of a length with the lowest address: it starts at 0 or where an allocated range ends. -/
def Dev.findRange (d : Dev) (len : Nat) : Option Nat :=
  let cands := 0 :: d.mem.ranges.map fun r => roundUp (r.lo + r.len) (2 ^ 21)
  let fits := cands.filter fun c => decide (c + len ≤ d.memTop) && rangeFree d.mem.ranges c len
  fits.foldl (fun b c => match b with
    | none => some c
    | some x => some (min x c)) none
/-- Allocates a range. -/
def Dev.alloc (d : Dev) (len : Nat) (o : Owner) : Option (Nat × Dev) :=
  match d.findRange len with
  | none => none
  | some lo => some (lo, d.onMem fun m => { m with ranges := ⟨lo, len, o⟩ :: m.ranges })
/-- Allocates n ranges of one length, lowest first; none when one does not fit. -/
def Dev.allocs (d : Dev) (len : Nat) (o : Owner) : Nat → Option (List Nat × Dev)
  | 0 => some ([], d)
  | n + 1 =>
    match d.alloc len o with
    | none => none
    | some (lo, d) => match d.allocs len o n with
      | none => none
      | some (ls, d) => some (lo :: ls, d)
/-- Frees the ranges that a test picks. -/
def Dev.freeRanges (d : Dev) (f : Range → Bool) : Dev := d.onMem fun m => { m with ranges := m.ranges.filter fun r => !f r }

/-! ## Page tags and key generations (R255 to R257, R350) -/

/-- Pages of [lo, lo + len) tagged generation 1. -/
def Dev.tagged1 (d : Dev) (lo len : Nat) : Nat := Ivl.count d.mem.tag1 (lo / 4096) ((lo + len) / 4096)
/-- Tags the pages of a range. -/
def Dev.setTags (d : Dev) (lo len : Nat) (g : Bool) : Dev :=
  d.onMem fun m => { m with tag1 := if g then Ivl.add m.tag1 (lo / 4096) ((lo + len) / 4096)
                                    else Ivl.cut m.tag1 (lo / 4096) ((lo + len) / 4096) }
def KGen.use (k : KGen) (g : Bool) (f : Nat → Nat) : KGen := if g then { k with use1 := f k.use1 } else { k with use0 := f k.use0 }
/-- A range taken for a key: its pages are tagged CUR and counted. -/
def Dev.tagNew (d : Dev) (k : KGen) (lo len : Nat) : KGen × Dev :=
  (k.use k.cur (· + len / 4096), d.setTags lo len k.cur)
/-- A range given back: its pages leave the use counts. -/
def Dev.tagOld (d : Dev) (k : KGen) (lo len : Nat) : KGen × Dev :=
  let n1 := d.tagged1 lo len
  ({ k with use1 := k.use1 - n1, use0 := k.use0 - (len / 4096 - n1) }, d.setTags lo len false)
def Dev.shared (d : Dev) (b : Nat) : KGen := Tab.get Reset.kgen d.sec.shared b
def Dev.setShared (d : Dev) (b : Nat) (k : KGen) : Dev := d.onSec fun s => { s with shared := Tab.put s.shared b k }
/-- A number from the DRBG, which is seeded anew when its state is gone (R333). -/
def Dev.draw (d : Dev) : BitVec 512 × Dev :=
  (Config.drbg d.sec.drbg, d.onSec fun s => { s with drbg := s.drbg + 1, drbgLive := true })

/-! ## Handles and catalog entries (R176, R180) -/

def handleIx (h : Nat) : Nat := fld h 13 0
def handleOf (ix : Nat) (e : CatEntry) : Nat := ix + e.seq * 2 ^ 14
/-- The entry a handle resolves to. -/
def Dev.resolveHandle (d : Dev) (h : Nat) : Option CatEntry :=
  let e := d.catEntry (handleIx h)
  if e.st != .free && e.seq == fld h 31 14 then some e else none
/-- Whether a pod slot of any partition holds a handle. -/
def Dev.handleHeld (d : Dev) (h : Nat) : Bool :=
  d.parts.any fun x => x.2.pods.any fun s => s.st != .empty && s.handle.toNat == h
/-- Frees an entry: ciphertext zeroed, SEQ advanced; index 3FFFh skips 3FFFFh. -/
def CatEntry.freed (ix : Nat) (e : CatEntry) : CatEntry :=
  let n := (e.seq + 1) % 2 ^ 18
  { Reset.catEntry with seq := if ix == 0x3FFF && n == 0x3FFFF then 0 else n }
/-- Frees every REMOVING or REVOKING entry that no slot holds. -/
def Dev.catSettle (d : Dev) : Dev :=
  { d with cat := d.cat.map fun (i, e) =>
      if (e.st == .removing || e.st == .revoking) && !d.handleHeld (handleOf i e) then (i, e.freed i) else (i, e) }

/-! ## The running step, for its row entries (R240 to R242) -/

/-- The pod slot that holds a handle. -/
def Part.slotOf (P : Part) (h : BitVec 32) : Option Nat :=
  P.pods.findIdx? fun s => s.handle == h && s.st != .empty
def Part.pod (P : Part) (k : Nat) : PodSlot := P.pods.getD k Reset.pod
/-- The handle that the completion of a slot command names: the null handle for a SEAL that ends with no image (log 47). -/
def Sqe.slotHandle (e : Sqe) : Nat := if num e.body 0 1 == 4 then 0xFFFFFFFF else num e.body 4 4
/-- The 16-byte body of a slot command's completion (Table 16-8). -/
def Dev.slotBody (d : Dev) (p h : Nat) (k : Option Nat) : List Byte :=
  let s := match k with
    | some k => (d.part p).pod k
    | none => Reset.pod
  natLe 4 h ++ natLe 1 (k.getD 0xFF) ++ [0] ++ natLe 2 s.gen.toNat ++ natLe 2 s.pins ++ List.replicate 6 0
/-- Table 09-3. -/
def rowEntry (r : StepRow) : List Byte :=
  natLe 2 (r.code.getD 0) ++ [0] ++ natLe 1 r.acc ++ natLe 4 r.newlen ++ natLe 1 r.slot ++
  natLe 1 (b2n r.late + 2 * b2n r.pin) ++ natLe 2 r.gen ++ natLe 2 r.pins ++ natLe 2 r.wave
/-- Row i as completed, with the slot that holds its handle, and its entry written. -/
def Dev.finishRow (d : Dev) (p : Nat) (i : Nat) (r : StepRow) : Dev :=
  match (d.part p).step with
  | none => d
  | some s =>
    let P := d.part p
    let r := match if r.handle == 0xFFFFFFFF then none else P.slotOf r.handle with
      | some k => { r with slot := k, gen := (P.pods.getD k Reset.pod).gen.toNat, pins := (P.pods.getD k Reset.pod).pins }
      | none => { r with slot := 0xFF, gen := 0, pins := 0 }
    let d := d.onPart p fun P => { P with step := some { s with rows := setAt s.rows i r } }
    d.poke p (s.cpl + 16 * i) (rowEntry r)
/-- The code of an open row when the step ends: that of its bind, where a bind of the current wave has failed already, else ABORTED
(Table 09-4, orders 6 and 8). -/
def StepRun.endCode (s : StepRun) (r : StepRow) : Nat :=
  match if s.phase == 0 && r.wave == s.wave then s.bindCodes.find? fun c => c.1 == r.handle else none with
  | some c => c.2
  | none => Code.aborted
/-- Completes every open row of a list from index i, with new length LEN, when the step ends (R230, R241). -/
def Dev.abortRows (d : Dev) (p : Nat) : Nat → List StepRow → Dev
  | _, [] => d
  | i, r :: rs =>
    let d := if r.code.isNone then
        d.finishRow p i { r with code := some (((d.part p).step.map fun s => s.endCode r).getD Code.aborted), newlen := r.len, wave := 0 }
      else d
    d.abortRows p (i + 1) rs
/-- How many rows meet a test. -/
def countRows (rows : List StepRow) (f : StepRow → Bool) : Nat := (rows.filter f).length
/-- Whether a code is one of codes 1, 2 and 4 to 8 of Table 09-4. -/
def failCode (c : Nat) : Bool :=
  c != 0 && c != Code.paused && decide (c ≤ Code.aborted)
/-- Whether a row with this code has executed (codes 9 to 13 of Table 09-4). -/
def ranCode (c : Nat) : Bool :=
  c == 0 || c == Code.adapterShape || c == Code.acceptInvalid || c == Code.pinLimit || c == Code.late
/-- The null handle (R176). -/
def nullHandle : BitVec 32 := 0xFFFFFFFF
/-- The distinct non-null handles that a list of rows names, in order of the first row that names each. -/
def distinctHandles (rows : List StepRow) : List (BitVec 32) :=
  rows.foldl (fun l r => if r.handle == nullHandle || l.contains r.handle then l else l ++ [r.handle]) []
/-- Whether a handle is BOUND or UNBINDING in a list of pod slots. -/
def boundIn (pods : List PodSlot) (h : BitVec 32) : Bool := pods.any fun s => s.handle == h && (s.st == .bound || s.st == .unbinding)
/-- The waves of R193 for a list of rows: the handles of each, and those that no wave takes. -/
structure Waves where
  waves : List (List (BitVec 32))
  left : List (BitVec 32)
  deriving DecidableEq, Repr
/-- Cuts a list into pieces of n, with fuel for their number. -/
def cutBy {α : Type} (n : Nat) : Nat → List α → List (List α)
  | 0, _ => []
  | k + 1, l => if l.isEmpty then [] else l.take n :: cutBy n k (l.drop n)
def formWaves (pods : List PodSlot) (rows : List StepRow) : Waves :=
  let hs := distinctHandles rows
  let r := hs.filter (boundIn pods)
  let n := hs.filter fun h => !boundIn pods h
  let q := (pods.filter fun s => decide (0 < s.pins) && !hs.contains s.handle).length
  let k := 16 - r.length - q
  let first := r ++ n.take k
  let rest := n.drop k
  let one := if first.isEmpty && !rows.any (fun x => x.handle == nullHandle) then [] else [first]
  if q == 16 then ⟨one, rest⟩ else ⟨one ++ cutBy (16 - q) rest.length rest, []⟩
/-- The estimate of R231 for a list of rows, with the coefficients CT, CR, CW, CA and CB, in 64-bit arithmetic. -/
def estimate (pods : List PodSlot) (coefs : List Nat) (rows : List StepRow) : Nat :=
  let c (i : Nat) := coefs.getD i 0
  let hs := distinctHandles rows
  let w := (formWaves pods rows).waves.length
  let t := rows.foldl (fun n r => n + r.tokens) 0
  let b := (hs.filter fun h => !boundIn pods h).length
  cdiv ((c 2 * w + c 0 * t + c 1 * rows.length + c 3 * hs.length + c 4 * b) % 2 ^ 64) 256
/-- Whether a row has executed. -/
def StepRow.ran (r : StepRow) : Bool := ranCode (r.code.getD 1)
/-- Table 09-5. -/
def stepBody (s : StepRun) (code : Nat) (bend : Nat) : List Byte :=
  let n (f : StepRow → Bool) := natLe 2 (countRows s.rows f)
  natLe 2 code ++ natLe 2 s.wave ++ n StepRow.ran ++
  n (fun r => r.code == some Code.paused) ++ n (fun r => r.late) ++ n (fun r => failCode (r.code.getD 0)) ++
  natLe 4 (estimate s.pods0 s.coefs (s.rows.filter StepRow.ran)) ++ natLe 6 s.bstart ++ natLe 6 bend ++
  natLe 1 (b2n s.overbudget + 2 * b2n s.abort) ++ [0, 0, 0]
/-- A slot that becomes EMPTY keeps its GEN, and when it was last used (R181, R186, R196). -/
def PodSlot.emptied (s : PodSlot) : PodSlot := { Reset.pod with gen := s.gen, use := s.use }
/-- A slot at the end of the wave that held it, at use number u: a revoked one is emptied (R181, R184, R186). -/
def PodSlot.letGo (s : PodSlot) (u : Nat) : PodSlot :=
  if !s.held then s else if s.revoked then { s.emptied with use := u } else { s with held := false, use := u }
/-- p no longer waits at a base's barrier (R272). -/
def Dev.passBarrier (d : Dev) (p : Nat) : Dev :=
  { d with bases := Tab.mapVal (fun _ (B : Base) => { B with waiters := B.waiters.filter fun w => w.1 != p }) d.bases }
/-- Puts bytes of the stacks back as they were, failing ones failing. -/
def Dev.putBack (d : Dev) (l : List OutByte) : Dev :=
  l.foldl (fun d o =>
    let d := d.writePa o.loc [o.val]
    if o.bad then d.onMem fun m => { m with bad := Ivl.add m.bad o.loc (o.loc + 1) } else d) d
/-- Ends a running step at a partition-contained error: every open row completes ABORTED, its pages as the wave found them, and no slot
is held any more (R230, R241; log 129). The completion entry is written when the record is handled (15). -/
def Dev.stepStops (d : Dev) (p : Nat) : Dev :=
  match (d.part p).step with
  | none => d
  | some s =>
    let d := if s.phase == 1 then d.putBack s.undo else d
    let d := d.onPart p fun P => { P with step := some { s with abort := true }, pods := P.pods.map fun x => x.letGo d.useClock }
    d.catSettle.abortRows p 0 s.rows

/-! ## Error detection (R383, R386, R389, R390) -/

/-- Ends a yield: RESULT, YBEATS, GLB_YSTAT and the interrupts (R320, R412, R414). -/
def Dev.yieldDone (d : Dev) (p : Nat) (r : YResult) : Dev :=
  let d := d.onPart p fun P => { P with yResult := r, yBeats := min P.yAll (2 ^ 32 - 1) }
  let d := d.onHost fun h => { h with ystat := h.ystat ||| (1#64 <<< p) }
  (d.pfEvent 3).vfEvent p 2 2
/-- Whether a yield is latched and not complete. -/
def Part.yielding (P : Part) : Bool := P.st == .yielding || P.st == .flushing
/-- A stream moved to FAULT: its operations end (R102, R319). -/
def Seq.faulted (s : Seq) : Seq := { s with st := .fault, items := [], hold := .none }
/-- A started PERMUTE, if one is in flight. -/
def Part.permuteRuns (P : Part) : Bool := P.sq.any fun s => s.items.any fun i => match i with
  | .op f => f.started && (match f.coll with
    | some c => c.ckind == 5
    | none => false)
  | .post _ _ _ => false
/-- The shards of a PERMUTE that ends unfinished stay with the old layout alone. -/
def Part.unmoved (P : Part) : Part :=
  if P.permuteRuns then { P with shards := Tab.mapVal (fun _ (l : List Nat) => l.take 1) P.shards } else P
/-! ## Waits on the periscope buffer (R207) -/

/-- V0 of a window descriptor (R209). -/
def Desc.v0 (x : Desc) : Nat := x.addr % 2 ^ 26 / 4
def Dist.slot (x : Dist) (k : Nat) : BufSlot := x.slots.getD k ⟨.free, 0⟩
/-- Whether the oldest operation of a kind that a stream has in flight is a window operation with V0 = 0 that nothing of its own
stream holds back, and has not started. -/
def Seq.opens (s : Seq) (k : OpKind) : Bool :=
  match s.items.find? fun i => match i with
      | .op f => f.kind == k
      | .post _ _ _ => false with
  | some (.op f) => !f.started && f.ready.isSome && (match Tab.get? f.descs 2 with
      | some y => y.v0 == 0
      | none => false)
  | _ => false
/-- The teacher's credit stall, and the student's wait for a READY slot. -/
def Part.creditStall (P : Part) : Bool :=
  P.entry.mode == .distil && (P.seq 3).opens .teacherWin && (P.dist.slot P.dist.head).st != .free
def Part.slotStall (P : Part) : Bool :=
  P.entry.mode == .distil && !P.dist.sPass2 && (P.seq 0).opens .studentWin && (P.dist.slot P.dist.tail).st != .ready
/-- Notes for the beat in progress that an operation waited, and counts the beats at an edge (R221). -/
def Dist.noteStalls (x : Dist) (t s : Bool) : Dist := { x with tWait := x.tWait || t, sWait := x.sWait || s }
def Dist.countStalls (x : Dist) : Dist :=
  { x with tstall := satAdd 32 x.tstall (b2n x.tWait), sstall := satAdd 32 x.sstall (b2n x.sWait), tWait := false, sWait := false }

/-- A resize in progress is given up: the old entry and save area stay, the new area is given back. -/
def Dev.dropResize (d : Dev) (p : Nat) : Dev :=
  match (d.part p).saveNext with
  | none => d
  | some (lo, n) =>
    let (k, d) := d.tagOld (d.part p).kgen lo n
    (d.freeRanges fun r => decide (r.owner = .save p) && r.lo == lo).onPart p fun P => { P with kgen := k, saveNext := none }
/-- Moves a partition to FAULTED with its streams in FAULT; the step and a latched yield end (R383). That a window operation has waited in
this beat is still counted at its end (R207). -/
def Dev.stopPart (d : Dev) (p : Nat) (r : YResult) : Dev :=
  let y := (d.part p).yielding
  let d := (((d.dropWaiting p).passBarrier p).stepStops p).dropResize p
  let d := d.onPart p fun P => { P.unmoved with
      st := .faulted, sq := P.sq.map Seq.faulted, target := none,
      dist := P.dist.noteStalls P.creditStall P.slotStall }
  let d := d.vfEvent p 7 1
  if y then d.yieldDone p r else d
/-- Stops every clock-dependent unit (R364). -/
def Dev.stopClocks (d : Dev) : Dev :=
  d.onCkr fun c => { c with doms := c.doms.map fun m => { m with src := 2, gated := true }, clockWait := true }
/-- Every scale-out transmitter into electrical idle. -/
def Dev.txIdle (d : Dev) : Dev := d.onLnk fun k => { k with ports := k.ports.map fun (i, s) => (i, { s with st := 0 }) }
/-- Detects a partition-contained error. One of a partition already FAULTED only counts (R386); one that holds no tiles keeps its
state, and its streams stop all the same (R102, R311). -/
def Dev.detectPE (d : Dev) (r : ErrRec) (y : YResult) : Dev :=
  let P := d.part r.part
  if P.st == .faulted then d.onErr fun e => { e with peFlt := satAdd 16 e.peFlt 1 }
  else if P.st.hasTiles then (d.record { r with mover := true }).stopPart r.part y
  else (d.record r).onPart r.part fun P => if P.st == .parked then { P with sq := P.sq.map Seq.faulted } else P
/-- Stops the listed partitions (R389). -/
def Dev.stopAll (d : Dev) : List Nat → Dev
  | [] => d
  | p :: ps => (if (d.part p).st == .faulted then d else d.stopPart p .faulted).stopAll ps
/-- Detects a device-fatal error: R389 at once, and R390 when the handling of an earlier one is not complete. -/
def Dev.detectDE (d : Dev) (r : ErrRec) : Dev :=
  let first := !d.err.deOpen || d.err.deDone
  let d := d.record { r with mover := first }
  let d := (d.stopAll d.live).txIdle
  if first then d.onErr fun e => { e with deOpen := true, deDone := false }
  else ((d.onErr fun e => { e with holdst := true }).onPins fun p => { p with faultN := !d.released }).stopClocks
/-- Detects an error event. -/
def Dev.detect (d : Dev) (r : ErrRec) : Dev :=
  match Code.cls r.code with
  | 2 => d.detectPE r .faulted
  | 3 => d.detectDE r
  | _ => d.record r
/-- Stops a partition with a code that belongs to no operation. -/
def Dev.pe (d : Dev) (code p : Nat) : Dev := d.detect (recP code p)
/-- Stops a partition for an operation of stream q at an address: SQ_STAT PC keeps that address (R126). -/
def Dev.peOp (d : Dev) (code p q pc : Nat) : Dev :=
  if (d.part p).st == .faulted then d.detect (recS code p q)
  else (d.detect (recS code p q)).onSeq p q fun s => { s with pc := pc }

/-! ## What a stack holds (R253, R254, R258) -/

/-- The key of a generation. -/
def KGen.key (k : KGen) (g : Bool) : Option (BitVec 512) := if g then k.key1 else k.key0
/-- The key under which a hub's engine reads and writes an address: that of the range's kind, in the generation of the page's tag;
the device key in the reserved regions (R254). -/
def Dev.keyAt (d : Dev) (pa : Nat) : Option (BitVec 512) :=
  let g := Ivl.mem d.mem.tag1 (pa / 4096)
  match d.mem.ranges.find? fun r => decide (r.lo ≤ pa) && decide (pa < r.lo + r.len) with
  | some r => (match r.owner with
    | .extent p _ => (d.part p).kgen.key g
    | .save p => (d.part p).kgen.key g
    | .home b => (Tab.get Reset.kgen d.sec.shared b).key g
    | .buffer b => (Tab.get Reset.kgen d.sec.shared b).key g)
  | none => d.sec.devKey
/-- The odd parity bit of a byte: the nine bits together hold an odd number of ones (R258). -/
def oddParity (b : Byte) : Nat := ((List.range 8).filter fun i => b.getLsbD i).length % 2 ^^^ 1
/-- The 8 parity bytes of a unit, bit i of byte j for data byte 8j + i; a failing byte has the wrong one (R258, R260; log 114). -/
def Dev.unitParity (d : Dev) (u : Nat) : List Byte :=
  (List.range 8).map fun j => BitVec.ofNat 8 ((List.range 8).foldl (fun n i =>
    let a := u + 8 * j + i
    n + 2 ^ i * (oddParity (Memory.read d.mem.bytes a) ^^^ b2n (Ivl.mem d.mem.bad a))) 0)
/-- The 72 bytes that the stack holds for the unit at u: the data and its parity under the unit's key, with tweak u ÷ 64; none
where no key is. -/
def Dev.unitCipher (d : Dev) (u : Nat) : Option (List Byte) :=
  (d.keyAt u).map fun k => Config.xts k (u / 64) (Memory.readList d.mem.bytes u 64 ++ d.unitParity u)

/-! ## SRAM (R91, R121, R312) -/

/-- The model's address of a byte of a tile. -/
def sramAt (tile off : Nat) : Nat := tile * 2 ^ 25 + off
def Dev.sramWrite (d : Dev) (a : Nat) (bs : List Byte) : Dev :=
  { d with sram := Memory.writeList d.sram a bs, sramBad := Ivl.cut d.sramBad a (a + bs.length) }
def Dev.sramFill (d : Dev) (a n : Nat) : Dev :=
  { d with sram := Memory.fill d.sram a n, sramBad := Ivl.cut d.sramBad a (a + n) }
/-- Zeros to all 16 banks of a tile (R312). -/
def Dev.clearTile (d : Dev) (t : Nat) : Dev := d.sramFill (sramAt t 0) (2 ^ 25)
def Dev.clearTiles (d : Dev) (l : List Nat) : Dev := l.foldl Dev.clearTile d
/-- Banks lo up to hi - 1 of a tile. -/
def Dev.clearBanks (d : Dev) (t lo hi : Nat) : Dev := d.sramFill (sramAt t (lo * 2 ^ 21)) ((hi - lo) * 2 ^ 21)

/-! ## Holds (R302, R305) -/

/-- Raises or takes a domain hold with a cause of Table 11-2: latched in NOSCHED and ARMED, entered at the next beat
boundary in RUN. A hold whose only cause is BEAT is released by the part (R304). -/
def Dev.raiseHold (d : Dev) (cause : Nat) : Dev :=
  d.onLnk fun k =>
    let held := k.holdRaised || k.latched || k.st == .hold || k.st == .beatlost
    let k := { k with holdCause := if held then k.holdCause else cause
                      beatOnly := (k.beatOnly || !held) && cause == 1
                      beatIn := (held && k.beatIn) || cause == 1 }
    match k.st with
    | .nosched => { k with latched := true }
    | .armed => { k with latched := true }
    | .run => { k with holdRaised := true }
    | _ => k
/-- The table in force. -/
def Dev.sched (d : Dev) : Option Sched := d.lnk.active
/-- The ports of the link map that are down start training (R279, R361, R380). -/
def Dev.trainPorts (d : Dev) : Dev :=
  ((List.range 24).filter fun l => (d.lnk.linkMap.getD l (0xFFFF, 0)).1 != 0xFFFF).foldl (fun d l => d.onPort l fun s =>
    { s with st := if s.st == 0 then 1 else s.st }) d
/-- The ports that a table names. -/
def Sched.ports (s : Sched) : List Nat := s.runs.flatMap fun r => if r.act == 2 then [r.port, r.oport] else [r.port]
/-- Whether the table in force names a port. -/
def Dev.scheduled (d : Dev) (l : Nat) : Bool := match d.lnk.active with
  | some s => s.ports.contains l
  | none => false

/-- A parity failure on a control path that serves several partitions: PARITY_DEV of the die (R384). -/
def Dev.parityDev (d : Dev) (n : Nat) : Dev := d.detect { rec0 Code.parityDev with unit := 4, index := n }

/-! ## Host accesses, bases given up -/

/-- Whether host accesses reach the registers of PF0: PF0 answers from PHASE CTRL on (R380), outside recovery (R378), the
hold state (R390), a clock failure (R364) and host-link reset (R400). -/
def Dev.hostOpen (d : Dev) : Bool :=
  d.host.answering && decide (1 ≤ d.ckr.phase) && decide (d.ckr.phase ≤ 3) && !d.err.holdst && !d.ckr.clockWait
/-- Whether they reach the view of partition p through its VF (R398, R401). -/
def Dev.vfOpen (d : Dev) (p : Nat) : Bool := d.hostOpen && (d.fn 0).vfEnable && !(d.fn (p + 1)).d3hot
/-- Whether a memory request to a function is admitted: it carries no PASID prefix (R397), and under IDEREQ it arrives on a stream in the
Secure state (R402). -/
def Dev.admits (d : Dev) (v : Nat) (via : Via) : Bool :=
  !via.pasid && (!d.host.idereq || (via.ide && d.sec.ides.any fun x => x.2.secure && (x.2.link || (decide (x.2.ridLo ≤ v) && decide (v ≤ x.2.ridHi)))))
/-- One access refused or write discarded: BADACC (R404). -/
def Dev.badAccess (d : Dev) : Dev := d.onHost fun h => { h with badacc := satAdd 16 h.badacc 1 }
/-- A host write to a register of PF0, or of the view of partition p, by a command of its own: one that does not reach the function does
nothing (R401), and under IDEREQ it arrives on a stream in the Secure state or is discarded (R402; log 85). -/
def Dev.pf0Write (d : Dev) (f : Dev → Dev) : Dev :=
  if d.hostOpen && !(d.fn 0).d3hot then (if d.admits 0 ⟨true, false⟩ then f d else d.badAccess) else d
def Dev.vfWrite (d : Dev) (p : Nat) (f : Dev → Dev) : Dev :=
  if d.vfOpen p then (if d.admits (p + 1) ⟨true, false⟩ then f d else d.badAccess) else d
/-- Whether a range belongs to a base. -/
def Range.ofBase (b : Nat) (r : Range) : Bool :=
  match r.owner with
  | .home c => c == b
  | .buffer c => c == b
  | _ => false
/-- Returns a base to EMPTY: its ranges written with zeros and freed, its shared key NONE; GEN stays (R264, R274, R349). -/
def Dev.emptyBase (d : Dev) (b : Nat) : Dev :=
  let rs := d.mem.ranges.filter (Range.ofBase b)
  let d := rs.foldl (fun d r => (d.zeroPa r.lo r.len).setTags r.lo r.len false) d
  ((d.freeRanges (Range.ofBase b)).setShared b Reset.kgen).onBase b fun B => { Reset.base with gen := B.gen }

/-! ## Records of one cycle (R386) -/

/-- What orders the records of one CTL cycle: descending class, then UNIT, INDEX, BANK and ADDR ascending. -/
def ErrRec.rank (r : ErrRec) : List Nat := [3 - Code.cls r.code, r.unit, r.index, r.bank, r.addr]
/-- Whether one list of numbers comes before another, compared from the left. -/
def rankBefore : List Nat → List Nat → Bool
  | a :: as, b :: bs => decide (a < b) || (a == b && rankBefore as bs)
  | _, _ => false
/-- Puts a record behind those of its cycle that it does not come before. -/
def insertRec (r : ErrRec) : List ErrRec → List ErrRec
  | [] => [r]
  | x :: xs => if rankBefore r.rank x.rank then r :: x :: xs else x :: insertRec r xs
/-- The records in the order in which the aggregator takes those of one cycle. -/
def cycleOrder (l : List ErrRec) : List ErrRec := l.foldl (fun l r => insertRec r l) []
/-- What one command detects it detects in one CTL cycle (DESIGN CHOICE, log 96): its records are put in R386's order. -/
def Dev.oneCycle (d d' : Dev) : Dev :=
  if d'.err.detected = d.err.detected then d'
  else if d.err.detected.isPrefixOf d'.err.detected then
    d'.onErr fun e => { e with detected := d.err.detected ++ cycleOrder (d'.err.detected.drop d.err.detected.length) }
  else d'

/-- A meaning: the next state with what a command does to the block. -/
def State.onDev (s : State) (f : Dev → Dev) : Host.Outcome State Fault Refusal := .next { s with dev := s.dev.oneCycle (f s.dev) }

end Sys2Proof.Machine
end

