-- ==== Sys2Proof/Machine/Mgmt.lean ====
section
/-! DEFINITION. Command requests on the channels of R334: where a request comes from, the refusals that stand before a
command's own (R336, R338, R362, R378, R389, R405, R406, R417), and the response. -/

namespace Sys2Proof.Machine

/-- A request as read: envelope fields and body. -/
structure Req where
  cmd : Nat
  len : Nat
  tag : Nat
  envOk : Bool
  body : List Byte
  deriving DecidableEq, Repr

/-- Parses an envelope and its body (R335). -/
def parseReq (l : List Byte) : Req :=
  let len := num l 2 2
  ⟨num l 0 2, len, num l 4 4, zeroAt l 8 8 && decide (16 + len ≤ l.length), slice l 16 len⟩

def HostSt.mb (h : HostSt) (m : Fin 2) : Mbox := if m = 0 then h.mb0 else h.mb1
def HostSt.setMb (h : HostSt) (m : Fin 2) (b : Mbox) : HostSt := if m = 0 then { h with mb0 := b } else { h with mb1 := b }
def Dev.onMb (d : Dev) (m : Fin 2) (f : Mbox → Mbox) : Dev := d.onHost fun h => h.setMb m (f (h.mb m))

/-- Whether the management cores run: a booted image and a clock, outside the hold state (R364, R390). -/
def Dev.coresUp (d : Dev) : Bool := d.ckr.phase != 0 && !d.ckr.booting && !d.err.holdst && !d.ckr.clockWait && d.pins.pwrGood
/-- The session a management channel's bytes travel in. -/
def Dev.session (d : Dev) (sess : Nat) (w : Wire) : Option Session :=
  (Tab.get? d.sec.sessions sess).filter fun s => decide (s.wire = w)
/-- The bytes of the request that waits on a channel, if one does. -/
def Dev.requestBytes (d : Dev) (ch : Chan) : Option (List Byte) :=
  if !d.coresUp then none
  else match ch with
    | .mailbox m => if (d.host.mb m).busy then some (fit 4096 (d.host.mb m).req) else none
    | .ethernet s r => if (d.session s .ethernet).isSome then some r else none
    | .sideband s r => if (d.session s .sideband).isSome then some r else none
    | .recovery r => if d.ckr.phase == 9 then some r else none
/-- The waiting request of a command code, not yet answered. -/
def Dev.request (d : Dev) (ch : Chan) (code : Nat) : Option Req :=
  match d.requestBytes ch with
  | none => none
  | some l =>
    let r := parseReq l
    let waiting := match ch with
      | .mailbox m => d.host.replies.any fun x => decide (x.ch = .mailbox m)
      | _ => false
    if r.cmd == code && !waiting then some r else none

/-- Privileged commands (Table 13-1). -/
def privileged (code : Nat) : Bool := code == 0x134 || (decide (0x201 ≤ code) && decide (code ≤ 0x20A))
/-- Commands marked for presence (Table 13-1). -/
def needsPresence (code : Nat) : Bool :=
  code == 0x202 || code == 0x203 || code == 0x204 || code == 0x205 || code == 0x209
/-- The mailbox that carries a code (Table 16-5). -/
def mailboxOf (code : Nat) : Fin 2 := if code < 0x200 then 0 else 1
/-- Codes that Table 16-5 gives a mailbox. -/
def listedCode (code : Nat) : Bool :=
  (decide (0x100 ≤ code) && decide (code ≤ 0x104)) || (decide (0x110 ≤ code) && decide (code ≤ 0x114)) ||
  (decide (0x120 ≤ code) && decide (code ≤ 0x129)) || (decide (0x130 ≤ code) && decide (code ≤ 0x134)) ||
  (decide (0x200 ≤ code) && decide (code ≤ 0x20A))

/-- The request on a management channel whose code Table 16-5 does not list there (R406). A mailbox's is answered at GO; in ROM
recovery the boot ROM has its own list (R378). -/
def Dev.unlisted (d : Dev) (ch : Chan) : Option Req :=
  match ch with
  | .mailbox _ => none
  | .recovery _ => none
  | _ => ((d.requestBytes ch).map parseReq).filter fun r => !listedCode r.cmd
/-- Whether a channel is an unenrolled session (R337). -/
def Dev.unenrolled (d : Dev) : Chan → Bool
  | .ethernet s _ => match d.session s .ethernet with
    | some x => x.cred.isNone
    | none => false
  | .sideband s _ => match d.session s .sideband with
    | some x => x.cred.isNone
    | none => false
  | _ => false
/-- PF0 mailboxes refuse privileged commands. -/
def isMailbox : Chan → Bool
  | .mailbox _ => true
  | _ => false
def isRecovery : Chan → Bool
  | .recovery _ => true
  | _ => false

/-- Whether ROM recovery answers a command not at all: it knows FW_STAGE, FW_ACTIVATE and FULL_RESET alone (R378). -/
def unanswered (ch : Chan) (code : Nat) : Bool := isRecovery ch && !(code == 0x206 || code == 0x208 || code == 0x134)
/-- The refusals that stand before a command's own, in this order (log entry 8): a privileged code gets MGT_ONLY through mailbox 1, and
through the mailbox of its row (R336, R406). -/
def Dev.gate (d : Dev) (ch : Chan) (code len : Nat) : Option Nat :=
  if isMailbox ch && privileged code && (decide (ch = .mailbox 1) || decide (ch = .mailbox (mailboxOf code))) then some Code.mgtOnly
  else if isMailbox ch && decide (ch ≠ .mailbox (mailboxOf code)) then some Code.cmdInvalid
  else if isMailbox ch && decide (4080 < len) then some Code.cmdInvalid
  else if d.unenrolled ch && code != 0x203 then some Code.cmdInvalid
  else if d.err.deOpen && code != 0x134 then some Code.cmdInvalid
  else if d.ckr.phase == 8 && !privileged code then some Code.cmdInvalid
  else if (needsPresence code || isRecovery ch) && !d.pins.presHeld then some Code.presenceRequired
  else if d.ckr.pwr != 0 && !privileged code && code != 0x133 then some Code.pwrSleep
  else none

/-- Sends a response on the channel of its request (R335, R405). The response to a mailbox command that a host-link reset
overtook is discarded (R400). In the hold state no channel answers (R390). -/
def Dev.answer (d : Dev) (ch : Chan) (tag code status : Nat) (body : List Byte) : Dev :=
  let bytes := envelope code body.length tag status ++ body
  if d.err.holdst then d
  else match ch with
  | .mailbox m =>
    if (d.host.mb m).discard then d.onMb m fun b => { b with busy := false, discard := false }
    else (d.onMb m fun b => { b with resp := bytes, busy := false, done := true }).pfEvent m.val
  | .ethernet _ _ => d.tell .ethernet (.response .ethernet bytes)
  | .sideband _ _ => d.tell .sideband (.response .sideband bytes)
  | .recovery _ => d.tell .sideband (.response .sideband bytes)

/-- How an accepted command ends: at once with a status and body, later under a key, or not yet: it waits, with nothing done, until a
regulator serves what it does (R315). -/
inductive Done where
  | wait
  | now (d : Dev) (status : Nat) (body : List Byte)
  | later (d : Dev) (key : Nat)

/-- The channel without its bytes, as a pending reply keeps it. -/
def bareChan : Chan → Chan
  | .mailbox m => .mailbox m
  | .ethernet s _ => .ethernet s []
  | .sideband s _ => .sideband s []
  | .recovery _ => .recovery []

/-- Runs a management command: nothing waits, nothing happens; else the refusals in order, the form of the body (R417),
and the command's own effect. Whichever command is meant to run, a code that the channel does not carry gets CMD_INVALID (R406). -/
def Dev.command (d : Dev) (ch : Chan) (code : Nat) (form : List Byte → Bool) (act : Dev → List Byte → Done) : Dev :=
  match d.request ch code with
  | none => match d.unlisted ch with
    | some r => d.answer ch r.tag r.cmd Code.cmdInvalid []
    | none => d
  | some r =>
    if unanswered ch code then d
    else match d.gate ch code r.len with
    | some c => d.answer ch r.tag code c []
    | none =>
      if r.envOk && form r.body then
        match act d r.body with
        | .wait => d
        | .now d' st b => d'.answer ch r.tag code st b
        | .later d' k => d'.onHost fun h => { h with replies := h.replies ++ [⟨code, k, bareChan ch, r.tag⟩] }
      else d.answer ch r.tag code Code.cmdInvalid []
/-- Answers the pending reply of a code and key. -/
def Dev.reply (d : Dev) (code key status : Nat) (body : List Byte) : Dev :=
  match if d.err.holdst then none else d.host.replies.find? fun x => x.code == code && x.key == key with
  | none => d
  | some x =>
    (d.onHost fun h => { h with replies := h.replies.filter fun y => !(y.code == code && y.key == key) }).answer x.ch x.tag code status body

/-- A body of exactly n bytes. -/
def bodyLen (n : Nat) (l : List Byte) : Bool := l.length == n
/-- The 8-byte bodies of R418 that name one partition. -/
def partForm (l : List Byte) : Bool := bodyLen 8 l && decide (num l 0 1 < 64) && zeroAt l 1 7
def emptyForm (l : List Byte) : Bool := l.isEmpty
/-- Runs a command or refuses it with a code. -/
def refuseIf (d : Dev) (cases : List (Bool × Nat)) (k : Unit → Done) : Done :=
  match cases.find? fun c => c.1 with
  | some c => .now d c.2 []
  | none => k ()
def ok (d : Dev) : Done := .now d 0 []
/-- PF0's Bus Master Enable, for a body that holds a host address (R417). -/
def Dev.dma (d : Dev) : Bool := (d.fn 0).busMaster

end Sys2Proof.Machine
end

