-- ==== Sys2Proof/Machine/Parts.lean ====
section
/-! DEFINITION. Partitions (12): entries and their checks, partition reset and setup, resize, yield, release, placement,
reclaim, regulators, the slow-down window, and the partition ledgers. -/

namespace Sys2Proof.Machine

/-! ## Entries -/

def modeOf (n : Nat) : PMode := if n == 0 then .serve else if n == 1 then .tune else if n == 2 then .distil else .general
def modeCode : PMode → Nat
  | .serve => 0
  | .tune => 1
  | .distil => 2
  | .general => 3
def gangOf (n : Nat) : Option Gang :=
  if n == 0 then some .sequence else if n == 1 then some .overlap else if n == 2 then some .borrow else none
def gangCode : Gang → Nat
  | .sequence => 0
  | .overlap => 1
  | .borrow => 2
def stateCode : PState → Nat
  | .unused => 0
  | .setup => 1
  | .active => 2
  | .yielding => 3
  | .flushing => 4
  | .yielded => 5
  | .parked => 6
  | .restoring => 7
  | .resizing => 8
  | .resetting => 9
  | .faulted => 10
/-- Table 12-1: gang settings accepted by a mode. -/
def gangOk : PMode → Gang → Bool
  | .serve, g => g != .borrow
  | .tune, _ => true
  | .distil, g => g == .overlap
  | .general, g => g != .borrow

/-- A PART_SET body, parsed (Table 16-12). -/
structure SetReq where
  part : Nat
  regdef : Bool
  new : Bool
  gang : Option Gang
  entry : Entry
  regs : List (Nat × Nat)
  form : Bool
  deriving DecidableEq, Repr

/-- SHARE and CEIL of a REG_CFG image. -/
def regImage (n : Nat) : Nat × Nat := (fld n 63 53, fld n 52 42)
def parseSet (b : List Byte) : SetReq :=
  let fl := num b 1 1
  let ctl := num b 8 8
  let lo := num b 16 8
  let hi := num b 24 8
  let res := num b 32 8
  let images := (List.range 5).map fun r => num b (40 + 8 * r) 8
  let gang := gangOf (fld ctl 57 56)
  { part := num b 0 1
    regdef := bit fl 0
    new := bit fl 1
    gang := gang
    entry := ⟨modeOf (fld ctl 59 58), gang.getD .sequence, bit ctl 55, bit ctl 54, bit ctl 53, fld ctl 52 47, fld ctl 46 40,
      fld ctl 39 33, fld ctl 32 23, BitVec.ofNat 96 (lo + fld hi 31 0 * 2 ^ 64), fld res 63 60, fld res 59 56, fld res 55 49,
      fld res 48 36, fld res 35 22⟩
    regs := images.map regImage
    form := bodyLen 80 b && decide (num b 0 1 < 64) && decide (fl < 4) && zeroAt b 2 6 && fld ctl 63 60 == 0 && fld ctl 22 0 == 0 &&
      fld hi 63 32 == 0 && fld res 21 0 == 0 && (bit fl 0 || images.all fun n => fld n 41 0 == 0) }

/-- The tiles an entry holds now or takes in a resize. -/
def Part.claims (P : Part) : BitVec 96 :=
  P.entry.tiles ||| (match P.target with
    | some e => if P.wasParked then 0 else e.tiles
    | none => 0)
/-- Whether another partition holds one of these tiles. -/
def Dev.tilesTaken (d : Dev) (p : Nat) (m : BitVec 96) : Bool :=
  d.parts.any fun x => x.1 != p && x.2.st != .unused && (x.2.claims &&& m) != 0
/-- Whether another partition's counter sets overlap a range; an empty range overlaps none (R309). -/
def Dev.setsTaken (d : Dev) (p lo n : Nat) : Bool :=
  d.parts.any fun x => x.1 != p && x.2.st != .unused && n != 0 && x.2.entry.hscount != 0 &&
    decide (lo < x.2.entry.hsbase + x.2.entry.hscount) && decide (x.2.entry.hsbase < lo + n)
/-- The student leader of a DISTIL entry: the lowest tile after the NTEACH lowest (R197). -/
def studentLeader (tiles : BitVec 96) (nteach : Nat) : Nat := (maskTiles tiles).getD nteach 0x7F
/-- Tiles, leader and teacher count of an entry that owns tiles (R197, R308, R309, R393, R419). -/
def Dev.tilesBad (d : Dev) (p : Nat) (e : Entry) : Bool :=
  let ts := maskTiles e.tiles
  e.ntile != ts.length || ts.isEmpty || !ts.contains e.leader || d.tilesTaken p e.tiles || (e.tiles &&& d.err.peelFail) != 0 ||
  (if e.mode == .distil then e.nteach == 0 || decide (e.ntile < e.nteach + 2) || e.leader != studentLeader e.tiles e.nteach
   else e.nteach != 0)
/-- A guest entry against R325. -/
def Dev.guestBad (d : Dev) (e : Entry) : Bool :=
  let H := d.part e.hostp
  let ok (m : PMode) := m == .tune || m == .general
  !(ok e.mode && H.st != .unused && ok H.entry.mode && !H.entry.guest && decide (2 ≤ H.entry.ntile) && e.gang == H.entry.gang &&
    e.tkd == H.entry.tkd && e.tiles == 0 && e.leader == 0 && e.ntile == 0 && e.nteach == 0)
/-- The PART_INVALID cases of PART_SET (R308, R309, R325, R393, R419). -/
def Dev.entryBad (d : Dev) (p : Nat) (gang : Option Gang) (e : Entry) : Bool :=
  gang.isNone || !gangOk e.mode e.gang || decide (15 < e.accb + e.gbanks) || decide (8192 < e.hsbase + e.hscount) ||
  d.setsTaken p e.hsbase e.hscount || (if e.guest then d.guestBad e else d.tilesBad p e)

/-! ## Regulators (R314 to R317) -/

/-- Bucket depths in 1/1,024 units: 4 beats of refill (R315). -/
def Regul.depthG (x : Regul) (r : Nat) : Int := (4 * x.share * regCap r : Nat)
def Regul.depthX (x : Regul) (r : Nat) : Int := (4 * (x.ceil - x.share) * regCap r : Nat)
/-- One refill at a beat boundary; then what waits is served (R315). -/
def Bucket.refill (b : Bucket) (x : Regul) (r : Nat) : Bucket :=
  { b with g := min (b.g + (x.share * regCap r : Nat)) (x.depthG r)
           x := min (b.x + ((x.ceil - x.share) * regCap r : Nat)) (x.depthX r) }.serve r
/-- A bucket pair under new settings keeps what still fits in it. -/
def Bucket.clip (b : Bucket) (x : Regul) (r : Nat) : Bucket := { b with g := min b.g (x.depthG r), x := min b.x (x.depthX r) }
/-- What a beat boundary does to the regulators of every partition (R315). -/
def Dev.refillAll (d : Dev) : Dev :=
  { d with buckets := d.parts.map fun x => (x.1, (d.bucketsOf x.1).zipIdx.map fun b => b.1.refill (x.2.regs.getD b.2 Reset.regul) b.2) }
/-- The sum of SHARE of resource r over the other partitions a test picks. -/
def Dev.shareSum (d : Dev) (p r : Nat) (f : Part → Bool) : Nat :=
  d.parts.foldl (fun n x => if x.1 != p && x.2.st != .unused && f x.2 then n + (x.2.regs.getD r Reset.regul).share else n) 0
/-- REG_OVERCOMMIT of R317 for one resource of partition p. -/
def Dev.overcommits (d : Dev) (p r s c : Nat) (c0 : Bool) : Bool :=
  decide (c < s) || decide (1024 < s) || decide (1024 < c) || decide (1024 < d.shareSum p r (fun _ => true) + s) ||
  (c0 && decide (r ≤ 2) && decide (512 < d.shareSum p r (fun P => P.entry.c0) + s))

/-! ## Partition reset and setup (R12, R252, R351) -/

/-- Registers of a partition after a partition reset: everything at its Reset value but the entry, REG_CFG, the extents,
SQ_FENCE, LNK_EPOCH CUR and the VF's own queues and views (R12, R306, R331, R413). -/
def Part.resetRegs (P : Part) (st : PState) : Part :=
  { Reset.part with
    st := st, entry := P.entry, regs := P.regs, save := P.save, saveTiles := P.saveTiles, leaderRank := P.leaderRank,
    inst := P.inst, krot := P.krot, keysDue := true, vf := P.vf, epoch := P.epoch, ext := P.ext, kgen := P.kgen, quietBeat := P.quietBeat,
    sq := P.sq.map fun s => { Reset.seq with fenceValid := s.fenceValid, fid := s.fid } }
/-- The body of a STEP that ends ABORTED before it has begun: no wave, no row completed (Table 09-5; log 115). -/
def abortedBody (beat : Nat) : List Byte :=
  natLe 2 Code.aborted ++ List.replicate 14 0 ++ natLe 6 beat ++ natLe 6 beat ++ [2, 0, 0, 0]
/-- Ends the running queue command of a partition that is reset or freed: it completes ABORTED, with the body of its kind (Table 16-8;
log entry 12). -/
def Dev.endQueueCmd (d : Dev) (p : Nat) : Dev :=
  let P := d.part p
  match P.step with
  | some _ =>
    let d := d.stepStops p
    match (d.part p).step with
    | some s => d.postCqe p Code.aborted (stepBody s Code.aborted d.beat)
    | none => d
  | none => match P.vf.cur with
    | some e => d.postCqe p Code.aborted (if e.cmd == 1 then abortedBody d.beat else if e.cmd == 2 then d.slotBody p e.slotHandle none else [])
    | none => d
/-- A tile's own state after a reset or a change of hands; only a march of the peel is abandoned (R95, R392). -/
def TileSt.reset (t : TileSt) : TileSt :=
  { Reset.tile with peelTest := t.peelTest, peelBeat := t.peelBeat, peelRerun := t.peelRerun, peelOn := t.peelOn && t.peelTest != 4, peelWin := t.peelWin }
/-- Array counters and POISON of tiles that are reset or change hands (R95). -/
def Dev.resetTiles (d : Dev) (l : List Nat) : Dev := l.foldl (fun d t => d.onTile t TileSt.reset) d
/-- Clears the counter sets of a range (R67). -/
def Dev.clearSets (d : Dev) (lo n : Nat) : Dev :=
  { d with hc := d.hc.filter fun x => decide (x.1 < lo) || decide (lo + n ≤ x.1) }
/-- Starts a partition reset in state st; the partition waits at no barrier any more, and a resize in progress is given up. -/
def Dev.beginReset (d : Dev) (p : Nat) (st : PState) : Dev :=
  let d := ((d.endQueueCmd p).passBarrier p).dropResize p
  let e := (d.part p).entry
  let d := d.clearSets e.hsbase e.hscount
  let d := if e.guest then d else d.resetTiles (maskTiles e.tiles)
  ((d.dropWaiting p).onPart p fun P => P.resetRegs st).catSettle
/-- The physical ranges under a partition's key: extents and save area. -/
def Dev.keyRanges (d : Dev) (p : Nat) : List (Nat × Nat) :=
  d.mem.ranges.filterMap fun r => match r.owner with
    | .extent q _ => if q == p then some (r.lo, r.len) else none
    | .save q => if q == p then some (r.lo, r.len) else none
    | _ => none
/-- The banks of a tile that belong to a partition (R252, R309). -/
def Dev.ownBanks (d : Dev) (p : Nat) : Nat × Nat :=
  let e := (d.part p).entry
  if e.guest then (16 - (d.part e.hostp).entry.gbanks, 16) else (0, 16 - e.gbanks)
/-- The vector-engine registers of a partition whose leader changes (R148). -/
def Part.resetEngine (P : Part) : Part := { P with smxEmpty := 0, smxInf := 0, vePoison := false }
/-- The bubble guests of a host. -/
def Dev.guestsOf (d : Dev) (p : Nat) : List Nat :=
  (d.parts.filter fun x => x.2.st != .unused && x.2.entry.guest && x.2.entry.hostp == p).map (·.1)
/-- After the tiles of host p have changed from those in d0: a guest whose leader is another tile now has its vector-engine registers
reset (R148, R325). -/
def Dev.guestLeaders (d d0 : Dev) (p : Nat) : Dev :=
  (d0.guestsOf p).foldl (fun d g => if d.leader g == d0.leader g then d else d.onPart g Part.resetEngine) d

/-- Writes the entry and starts the reset of PART_SET; the save area holds NTILE tiles of 32 MiB (R310). Guests that name the partition as
their host have a leader again (R148, R325). -/
def Dev.applySet (d : Dev) (q : SetReq) : Nat × Dev :=
  let d0 := d
  let e := q.entry
  let regs := if q.regdef then d.cfg.regdef else q.regs
  if (d.part q.part).st != .unused then (Code.partBusy, d)
  else if d.entryBad q.part q.gang e then (Code.partInvalid, d)
  else if (List.range 5).any fun r => d.overcommits q.part r (regs.getD r (0, 0)).1 (regs.getD r (0, 0)).2 e.c0 then
    (Code.regOvercommit, d)
  else
    let size := e.ntile * 2 ^ 25
    match if size == 0 then some (0, d) else d.alloc size (.save q.part) with
    | none => (Code.memFull, d)
    | some (lo, d) =>
      let e := if e.mode == .serve then { e with gang := .sequence } else e
      let d := (d.resetTiles (maskTiles e.tiles)).clearTiles (maskTiles e.tiles)
      let d := d.onPart q.part fun P =>
        { P with entry := e, st := .setup, save := if size == 0 then none else some (lo, size), saveTiles := e.ntile,
                 regs := (List.range 5).map fun r => ⟨(regs.getD r (0, 0)).1, (regs.getD r (0, 0)).2⟩ }
      let d := d.resetBuckets q.part
      (0, (d.beginReset q.part .setup).guestLeaders d0 q.part)
def ready (d : Dev) : Bool := decide (2 ≤ d.ckr.phase) && decide (d.ckr.phase ≤ 3)
/-- PART_SET. -/
def Dev.partSet (d : Dev) (ch : Chan) : Dev :=
  d.command ch 0x120 (fun b => (parseSet b).form) fun d b =>
    if !ready d then .now d Code.notReady []
    else
      let (st, d') := d.applySet (parseSet b)
      .now d' st []
/-- Heril's steps of R351 for one partition: keys zeroed, owned tenant slots emptied, INST advanced, generation 0. What the ranges hold is
no plaintext under the new key: every unit of them fails until the fills of R252 write it (R254, R258; log 114). -/
def Dev.herilKeys (d : Dev) (p : Nat) : Dev :=
  if !(d.part p).keysDue || !d.coresUp then d
  else
    let (k, d) := d.draw
    let d := d.onSec fun s => { s with tkeys := s.tkeys.filter fun x => x.2.model || x.2.ownerp != p }
    let rs := d.keyRanges p
    let d := rs.foldl (fun d r => (d.setTags r.1 r.2 false).onMem fun m => { m with bad := Ivl.add m.bad r.1 (r.1 + r.2) }) d
    d.onPart p fun P =>
      { P with keysDue := false, inst := P.inst + 1, krot := 0,
               kgen := ⟨.stable, false, rs.foldl (fun n r => n + r.2 / 4096) 0, 0, some k, none, none⟩ }
/-- Whether RECLAIM's plan is placed and every partition of it ACTIVE or YIELDED: then RECLAIM completes (R324). -/
def Dev.reclaimDone (d : Dev) : Dev :=
  if !d.host.planParts.isEmpty && d.host.plan.isEmpty &&
      d.host.planParts.all fun p => (d.part p).st == .active || (d.part p).st == .yielded then
    (d.onHost fun h => { h with planParts := [] }).reply 0x129 0 0 []
  else d
/-- The fills and the clearing of R252 are done: ACTIVE. -/
def Dev.setupComplete (d : Dev) (p : Nat) : Dev :=
  let P := d.part p
  if (P.st == .setup || P.st == .resetting) && !P.keysDue && d.coresUp then
    let d := P.ext.foldl (fun d x => if x.2.kind == 1 then d else d.zeroPa x.2.pbase x.2.len) d
    let (lo, hi) := d.ownBanks p
    let d := (d.tilesOf p).foldl (fun d t => d.clearBanks t lo hi) d
    (d.onPart p fun P => { P with st := .active }).reclaimDone
  else d
/-- Whether the peel uses a tile of the partition in the present beat (R392). -/
def Dev.peeled (d : Dev) (p : Nat) : Bool :=
  !(d.part p).entry.guest && (maskTiles (d.part p).entry.tiles).any fun t => (d.tile t).peelWin.contains 0
/-- Does something now, or at the end of a beat that the peel uses. -/
def Dev.orLater (d : Dev) (p : Nat) (x : Later) (now : Dev) : Dev :=
  if d.peeled p then d.onPart p fun P => { P with later := P.later ++ [x] } else now
/-- A stream starts at an address, or resumes (R102). -/
def Part.startStream (P : Part) (q a : Nat) : Part :=
  P.onSeq q fun s => { s with st := .run, pc := a, stack := [], hold := .none, mapBuilt := false }
def Part.resumeStream (P : Part) (q : Nat) : Part := P.onSeq q fun s => { s with st := .run }
/-- PART_RESET. -/
def Dev.partReset (d : Dev) (ch : Chan) : Dev :=
  d.command ch 0x126 partForm fun d b =>
    let p := num b 0 1
    if !(d.part p).st.hasTiles then .now d Code.partBusy []
    else ok (d.orLater p .reset (d.beginReset p .resetting))

/-! ## Releasing, freeing, placing -/

/-- Gives a partition's tiles up: cleared, with their counters reset (R95, R312). -/
def Dev.dropTiles (d : Dev) (p : Nat) : Dev :=
  let e := (d.part p).entry
  let ts := maskTiles e.tiles
  (((d.clearTiles ts).resetTiles ts).onPart p fun P => { P with entry := { P.entry with tiles := 0, leader := 0x7F } }).guestLeaders d p
def rankOf (m : BitVec 96) (t : Nat) : Nat := ((maskTiles m).takeWhile (· != t)).length
/-- PART_RELEASE's effect: the partition becomes PARKED. -/
def Dev.release (d : Dev) (p : Nat) : Dev :=
  let e := (d.part p).entry
  let d := d.onPart p fun P => { P.resetEngine with leaderRank := rankOf e.tiles e.leader }
  (d.dropTiles p).onPart p fun P => { P with st := .parked, reclaim := false }
def Dev.partRelease (d : Dev) (ch : Chan) : Dev :=
  d.command ch 0x124 partForm fun d b =>
    let p := num b 0 1
    if (d.part p).st != .yielded then .now d Code.partBusy [] else ok (d.release p)
/-- Whether PART_FREE is accepted (Table 12-2). -/
def Part.freeable (P : Part) : Bool :=
  match P.st with
  | .active => P.streams.all fun q => (P.seq q).st.free || (P.seq q).st == .fault
  | .yielded => true
  | .parked => true
  | .faulted => true
  | _ => false
/-- PART_FREE's effect. The ranges given back read as zeros, since their key is gone. The VF's queues keep their registers, as R12 lists
none of them among the partition's: only VSTAT and the error view change (R412, R413; DESIGN CHOICE, log 128). -/
def Dev.free' (d : Dev) (p : Nat) : Dev :=
  let d := ((d.endQueueCmd p).passBarrier p).dropTiles p
  let d := (d.keyRanges p).foldl (fun d r => (d.zeroPa r.1 r.2).setTags r.1 r.2 false) d
  let d := d.freeRanges fun r => match r.owner with
    | .extent q _ => q == p
    | .save q => q == p
    | _ => false
  let d := d.onSec fun s => { s with tkeys := s.tkeys.filter fun x => x.2.model || x.2.ownerp != p }
  let d := (d.resetBuckets p).onPart p fun P =>
    { Reset.part with inst := P.inst + 1, vf := { P.vf with vstat := 1#9 <<< 7, view := [], viewDropped := 0 } }
  d.catSettle
def Dev.partFree (d : Dev) (ch : Chan) : Dev :=
  d.command ch 0x127 partForm fun d b =>
    let p := num b 0 1
    if !(d.part p).freeable then .now d Code.partBusy [] else ok (d.free' p)

/-- The bytes of a body of R420. -/
def tilesForm (l : List Byte) : Bool := bodyLen 24 l && decide (num l 0 1 < 64) && zeroAt l 3 5 && zeroAt l 20 4
def bodyTiles (l : List Byte) : BitVec 96 := BitVec.ofNat 96 (num l 8 12)
/-- Places a PARKED partition: RESTORING, or a refusal (R323, R420). -/
def Dev.place (d : Dev) (p leader : Nat) (m : BitVec 96) : Nat × Dev :=
  let P := d.part p
  let ts := maskTiles m
  if P.st != .parked then (Code.partBusy, d)
  else if ts.length != P.entry.ntile || !ts.contains leader || rankOf m leader != P.leaderRank || d.tilesTaken p m ||
      (m &&& d.err.peelFail) != 0 then (Code.partInvalid, d)
  else
    let d' := (d.resetTiles ts).clearTiles ts
    (0, (d'.onPart p fun P => { P with st := .restoring, entry := { P.entry with tiles := m, leader := leader } }).guestLeaders d p)
def Dev.partPlace (d : Dev) (ch : Chan) : Dev :=
  d.command ch 0x125 (fun b => tilesForm b && num b 2 1 == 0) fun d b =>
    let (st, d') := d.place (num b 0 1) (num b 1 1) (bodyTiles b)
    .now d' st []

/-! ## The save area (R320, R323) -/

/-- Cells of [a, a + n) moved to start at b. -/
def shiftCells (l : List Host.Cell) (a n b : Nat) : List Host.Cell :=
  (l.filter fun c => decide (a ≤ c.1) && decide (c.1 < a + n)).map fun c => (c.1 - a + b, c.2)
/-- Intervals cut to [a, a + n) and moved to start at b. -/
def shiftIvl (l : List (Nat × Nat)) (a n b : Nat) : List (Nat × Nat) :=
  (l.map fun x => (max x.1 a - a + b, min x.2 (a + n) - a + b)).filter fun x => decide (x.1 < x.2)
def putCells (m cells : List Host.Cell) : List Host.Cell := cells.foldl (fun m c => Memory.write m c.1 c.2) m
def putIvl (m l : List (Nat × Nat)) : List (Nat × Nat) := l.foldl (fun m x => Ivl.add m x.1 x.2) m
/-- Copies tile t to the save area at lo, with its poison. -/
def Dev.flushTile (d : Dev) (t lo : Nat) : Dev :=
  let a := sramAt t 0
  let d := d.zeroPa lo (2 ^ 25)
  d.onMem fun m => { m with bytes := putCells m.bytes (shiftCells d.sram a (2 ^ 25) lo)
                            bad := putIvl m.bad (shiftIvl d.sramBad a (2 ^ 25) lo) }
/-- Copies 32 MiB of partition p's save area at lo to tile t; what fails there is found and recorded, and fails in the tile too (R259). -/
def Dev.restoreTile (d : Dev) (p t lo : Nat) : Dev :=
  let a := sramAt t 0
  let d := (d.readRange p lo (2 ^ 25)).clearTile t
  { d with sram := putCells d.sram (shiftCells d.mem.bytes lo (2 ^ 25) a)
           sramBad := putIvl d.sramBad (shiftIvl d.mem.bad lo (2 ^ 25) a) }
/-- Applies f to each tile of a partition with its place in the save area, by rank. -/
def Dev.eachSaved (d : Dev) (p : Nat) (f : Dev → Nat → Nat → Dev) : Dev :=
  match (d.part p).save with
  | none => d
  | some (lo, _) =>
    let ts := maskTiles (d.part p).entry.tiles
    (List.range ts.length).foldl (fun d k => f d (ts.getD k 0) (lo + k * 2 ^ 25)) d

/-! ## Yield (R319 to R322) -/

/-- Latches a yield of one ACTIVE partition. -/
def Dev.latchYield (d : Dev) (p : Nat) : Dev :=
  if (d.part p).st == .active then d.onPart p fun P => { P with st := .yielding, yLatched := true, yCount := 0, yAll := 0 } else d
/-- Latches a yield of a partition and of its guests (R320). -/
def Dev.yieldNow (d : Dev) (p : Nat) : Dev := (d.guestsOf p).foldl Dev.latchYield (d.latchYield p)
/-- The same, at the end of a beat that the peel uses (R392). -/
def Dev.yieldPart (d : Dev) (p : Nat) : Dev := d.orLater p .yield (d.yieldNow p)
/-- What a partition has put off to the end of a beat begins where its state still lets it (R392). -/
def Dev.runLater (d : Dev) (p : Nat) : Dev :=
  (d.part p).later.foldl (fun d x =>
    let P := d.part p
    match x with
    | .start q a => if P.st == .active && (P.seq q).st.free then d.onPart p fun P => P.startStream q a else d
    | .resume q => if P.st == .active && (P.seq q).st == .stopped then d.onPart p fun P => P.resumeStream q else d
    | .yield => d.yieldNow p
    | .reset => if P.st.hasTiles then d.beginReset p .resetting else d) (d.onPart p fun P => { P with later := [] })
def Dev.partYield (d : Dev) (ch : Chan) : Dev :=
  d.command ch 0x122 partForm fun d b =>
    let p := num b 0 1
    if (d.part p).st != .active then .now d Code.partBusy [] else ok (d.yieldPart p)
/-- Every stream of the partition and of its guests is stopped: FLUSHING. -/
def Dev.streamsStopped (d : Dev) (p : Nat) : Dev :=
  if d.coresUp && (d.part p).st == .yielding && (d.part p).quiet && (d.guestsOf p).all fun g => (d.part g).quiet || !(d.part g).yielding then
    d.onPart p fun P => { P with st := .flushing }
  else d
/-- The save area is written: YIELDED, and at a RECLAIM the tiles are released at once (Table 12-6). -/
def Dev.flushDone (d : Dev) (p : Nat) : Dev :=
  if (d.part p).st == .flushing && d.coresUp then
    let d := (d.eachSaved p Dev.flushTile).onPart p fun P => { P with st := .yielded }
    let d := (d.onVf p fun v => { v with vstat := v.vstat ||| (1#9 <<< 7) }).yieldDone p .yielded
    if (d.part p).reclaim then d.release p else d
  else d
/-- The first stream that had not stopped, in the order of R322. -/
def Part.unstopped (P : Part) : Option Nat := P.streams.find? fun q => !(P.seq q).st.quiet
/-- YLIMIT beats have passed since the latch (R322). -/
def Dev.yieldTimeout (d : Dev) (p : Nat) : Dev :=
  let P := d.part p
  if P.yielding && decide (d.err.ylimit.toNat ≤ P.yCount) then
    let r := match P.unstopped with
      | some q => { recS Code.yieldTimeout p q with aux := if (P.seq q).fenceValid then (P.seq q).fid.toNat else 0 }
      | none => recP Code.yieldTimeout p
    d.detectPE r .timeout
  else d
def Dev.partResume (d : Dev) (ch : Chan) : Dev :=
  d.command ch 0x123 partForm fun d b =>
    let p := num b 0 1
    if (d.part p).st != .yielded then .now d Code.partBusy []
    else ok (d.onPart p fun P => { P with st := .active, yLatched := false, reclaim := false })
/-- The save area is read back: YIELDED. -/
def Dev.restoreDone (d : Dev) (p : Nat) : Dev :=
  if (d.part p).st == .restoring && d.coresUp then
    let d := (d.eachSaved p fun d t lo => d.restoreTile p t lo).onPart p fun P => { P with st := .yielded }
    (d.onVf p fun v => { v with vstat := v.vstat ||| (1#9 <<< 7) }).reclaimDone
  else d

/-! ## Resize (R313) -/

/-- The entry of a resize. -/
def resizeEntry (e : Entry) (leader nteach : Nat) (m : BitVec 96) : Entry :=
  { e with tiles := m, leader := leader, nteach := nteach, ntile := (maskTiles m).length }
/-- PART_RESIZE. A save area of the new size is allocated at once; the old one is kept until the commit (log entry 13). -/
def Dev.partResize (d : Dev) (ch : Chan) : Dev :=
  d.command ch 0x121 (fun b => tilesForm b) fun d b =>
    let p := num b 0 1
    let P := d.part p
    let e := resizeEntry P.entry (num b 1 1) (num b 2 1) (bodyTiles b)
    let parked := P.st == .parked
    if !(parked || (P.st == .active && P.streams.all fun q => (P.seq q).st.free)) then .now d Code.partBusy []
    else if e.guest || d.tilesBad p e then .now d Code.partInvalid []
    else
      match d.alloc (e.ntile * 2 ^ 25) (.save p) with
      | none => .now d Code.partInvalid []
      | some (lo, d') =>
        let size := e.ntile * 2 ^ 25
        let (k, d') := (d'.zeroPa lo size).tagNew P.kgen lo size
        let out := maskTiles (P.entry.tiles &&& ~~~e.tiles) ++ maskTiles (e.tiles &&& ~~~P.entry.tiles)
        let d' := if parked then d' else (d'.clearTiles out).resetTiles out
        ok (d'.onPart p fun P => { P with st := .resizing, target := some e, wasParked := parked, kgen := k, saveNext := some (lo, size) })

/-! ## Ledgers of a partition (R327 to R329) -/

/-- Pages tagged under a partition's key, by generation. -/
def Dev.keyPages (d : Dev) (p : Nat) (g : Bool) : Nat :=
  (d.keyRanges p).foldl (fun n r => n + if g then d.tagged1 r.1 r.2 else r.2 / 4096 - d.tagged1 r.1 r.2) 0
/-- A bucket is never more negative than one access, nor above 4 beats of refill (R315). -/
def Bucket.inBalance (b : Bucket) (x : Regul) (r : Nat) : Bool :=
  decide (-(1024 * regUnit r : Nat) ≤ b.g) && decide (b.g ≤ x.depthG r) && decide (-(1024 * regUnit r : Nat) ≤ b.x) && decide (b.x ≤ x.depthX r)
/-- PBANKS of DIST_CFG. -/
def Dist.pbanks (x : Dist) : Nat := fld x.cfg.toNat 55 51
/-- The uses of a bank b of a tile t of a partition that owns it: accumulator, guest, periscope buffer, SPACE 01b. The buffer's banks
count for no other use (R204, R309). -/
def Dev.bankUses (d : Dev) (p t b : Nat) : Nat :=
  let P := d.part p
  let e := P.entry
  let buffer := e.mode == .distil && t == e.leader && decide (16 - P.dist.pbanks ≤ b)
  let acc := decide (b < e.accb)
  let guest := decide (16 - e.gbanks ≤ b)
  if buffer then 1 else b2n acc + b2n guest + b2n (!acc && !guest)
/-- Whether every bank of every tile of a partition has exactly one use (Table 12-7). A guest's banks are its host's guest banks. -/
def Dev.banksOk (d : Dev) (p : Nat) : Bool :=
  let e := (d.part p).entry
  decide (e.accb + e.gbanks ≤ 15) &&
  (e.guest || (maskTiles e.tiles).all fun t => (List.range 16).all fun b => d.bankUses p t b == 1)
/-- Whether each shard of a partition's layout belongs to exactly one layout; between a PERMUTE's start and its closing fence it may
belong to two (R301, R328). -/
def Part.shardsOk (P : Part) : Bool := P.permuteRuns || P.permuting.isSome || P.shards.all fun x => x.2.length == 1
/-- Bits of LEDGER_STAT MISM for the ledgers of a partition that are out of balance outside their windows. -/
def Dev.imbalances (d : Dev) (p : Nat) : List Nat :=
  let P := d.part p
  let e := P.entry
  let busy := P.st == .resizing
  let banks := d.banksOk p
  let tokens := (List.range 5).all fun r =>
    (d.bucket p r).inBalance (P.regs.getD r Reset.regul) r && decide (d.shareSum 64 r (fun _ => true) ≤ 1024) &&
    (decide (2 < r) || decide (d.shareSum 64 r (fun Q => Q.entry.c0) ≤ 512))
  let pins := P.pods.all fun s => decide ((s.pins : Int) = (s.taken : Int) - (s.removed : Int))
  let gens := P.keysDue || P.kgen.st == .none ||
    (P.kgen.use0 == d.keyPages p false && P.kgen.use1 == d.keyPages p true)
  let tiles := e.guest || !P.st.hasTiles || ((maskTiles e.tiles).length == e.ntile && !d.tilesTaken p e.tiles)
  (if banks || busy then [] else [57]) ++ (if tokens || busy then [] else [58]) ++ (if pins then [] else [59]) ++
  (if gens then [] else [60]) ++ (if (tiles && P.shardsOk) || busy then [] else [61])
/-- Records LEDGER_MISMATCH for a ledger of a partition. -/
def Dev.mismatch (d : Dev) (p b : Nat) : Dev :=
  let d := d.onErr fun e => { e with mism := e.mism ||| (1#6 <<< (b - 56)) }
  d.detect { recP Code.ledgerMismatch p with aux := b }
/-- Audits the partition's own ledgers. -/
def Dev.auditPart (d : Dev) (p : Nat) : Dev := (d.imbalances p).foldl (fun d b => d.mismatch p b) d
/-- Audits the ledgers of every partition, as all of them stand before any of them stops (R329). -/
def Dev.auditParts (d : Dev) : Dev :=
  (d.live.map fun p => (p, d.imbalances p)).foldl (fun d x => x.2.foldl (fun d b => d.mismatch x.1 b) d) d

/-- Pages of a base's homes and buffers by generation, and whether the shared key's use counts equal them (R257, R349). -/
def Dev.sharedPages (d : Dev) (b : Nat) (g : Bool) : Nat :=
  (d.mem.ranges.filter (Range.ofBase b)).foldl (fun n r => n + if g then d.tagged1 r.lo r.len else r.len / 4096 - d.tagged1 r.lo r.len) 0
def Dev.sharedOk (d : Dev) (b : Nat) : Bool :=
  let k := d.shared b
  k.st == .none || (k.use0 == d.sharedPages b false && k.use1 == d.sharedPages b true)
/-- Audits the ledger of shared key b. The partitions concerned are those that declare the base; where none does, the mismatch is
recorded and stops nothing (DESIGN CHOICE, log 131). -/
def Dev.auditShared (d : Dev) (b : Nat) : Dev :=
  if d.sharedOk b then d
  else
    let ps := d.live.filter fun p => (d.part p).declared.contains b
    if ps.isEmpty then (d.onErr fun e => { e with mism := e.mism ||| 1#6 <<< 4 }).record { rec0 Code.ledgerMismatch with aux := 60 }
    else ps.foldl (fun d p => d.mismatch p 60) d

/-- The new save area takes the place of the old one, which is given back (R310, R313). -/
def Dev.swapSave (d : Dev) (p n : Nat) : Dev :=
  let d := match (d.part p).save with
    | some (lo, len) =>
      let (k, d) := d.tagOld (d.part p).kgen lo len
      (d.freeRanges fun r => decide (r.owner = Owner.save p) && r.lo == lo).onPart p fun P => { P with kgen := k }
    | none => d
  d.onPart p fun P => { P with save := P.saveNext, saveNext := none, saveTiles := n }
/-- RESIZE_COMMIT: the new entry, the periscope buffer freed, the vector engine registers reset when the leader changes
(R148, R206, R313), then the audit. -/
def Dev.resizeCommit (d : Dev) (p : Nat) : Dev :=
  let P := d.part p
  match P.target with
  | none => d
  | some e =>
    if P.st != .resizing || !d.coresUp then d
    else
      let free (x : Dist) : Dist :=
        { x with slots := [], head := 0, tail := 0, tV0 := 0, sV0 := 0, sPass2 := false, tRun := [], sRun := [], tWait := false, sWait := false }
      let moved := e.leader != P.entry.leader
      let d0 := d
      let d := (d.swapSave p e.ntile).onPart p fun P =>
        { P with target := none, st := if P.wasParked then .parked else .active,
                 entry := if P.wasParked then { e with tiles := 0, leader := 0x7F } else e,
                 leaderRank := rankOf e.tiles e.leader,
                 dist := free P.dist,
                 smxEmpty := if moved then 0 else P.smxEmpty, smxInf := if moved then 0 else P.smxInf,
                 vePoison := !moved && P.vePoison }
      (d.guestLeaders d0 p).auditPart p

/-! ## Regulators and reclaim -/

def Dev.regSet (d : Dev) (ch : Chan) : Dev :=
  d.command ch 0x128 (fun b => bodyLen 16 b && decide (num b 0 1 < 64) && decide (num b 1 1 < 5) && zeroAt b 2 6 && fld (num b 8 8) 41 0 == 0)
    fun d b =>
      let p := num b 0 1
      let r := num b 1 1
      let (s, c) := regImage (num b 8 8)
      if (d.part p).st == .unused then .now d Code.partBusy []
      else if d.overcommits p r s c (d.part p).entry.c0 then .now d Code.regOvercommit []
      else ok ((d.onPart p fun P => { P with regs := setAt P.regs r ⟨s, c⟩ }).onBucket p r fun b => b.clip ⟨s, c⟩ r)
/-- What one plan entry asks for (R422). -/
def Dev.planEntry (d : Dev) (b : List Byte) : Nat × Dev :=
  let q := parseSet b
  if q.new then (if !q.form then (Code.cmdInvalid, d) else if !ready d then (Code.notReady, d) else d.applySet q) else d.place q.part q.entry.leader q.entry.tiles
/-- Applies a plan in order; false at the first refusal. -/
def Dev.tryPlan (d : Dev) : List (List Byte) → Bool
  | [] => true
  | b :: bs =>
    let (st, d') := d.planEntry b
    st == 0 && d'.tryPlan bs
/-- LENT partitions that hold tiles. -/
def Dev.lent (d : Dev) : List Nat :=
  (d.parts.filter fun x => x.2.entry.lent && (x.2.st == .active || x.2.st == .yielding || x.2.st == .flushing || x.2.st == .yielded)).map (·.1)
/-- RECLAIM (R324, R422): the whole plan is tried as if the lent tiles were free; then the yields are latched. -/
def Dev.reclaim (d : Dev) (ch : Chan) (plan : List Byte) : Dev :=
  d.command ch 0x129 (fun b =>
      let n := num b 0 2
      let ind := bit (num b 2 1) 0
      decide (16 ≤ b.length) && decide (1 ≤ n) && decide (n ≤ 64) && decide (num b 2 1 < 2) && zeroAt b 3 5 &&
      (if ind then bodyLen 16 b && d.dma else zeroAt b 8 8 && bodyLen (16 + 80 * n) b)) fun d b =>
    let n := num b 0 2
    let src := if bit (num b 2 1) 0 then plan else b.drop 16
    let entries := (List.range n).map fun i => fit 80 (slice src (80 * i) 80)
    let freed := d.lent.foldl (fun d p => d.onPart p fun P => { P with entry := { P.entry with tiles := 0 } }) d
    if !d.host.planParts.isEmpty || !freed.tryPlan entries then .now d Code.partInvalid []
    else
      let d := d.lent.foldl (fun d p =>
        if (d.part p).st == .yielded then d.release p
        else (d.yieldPart p).onPart p fun P => { P with reclaim := true }) d
      .later (d.onHost fun h => { h with plan := entries, planParts := entries.map fun e => num e 0 1 }) 0
/-- RECLAIM_PLACE: the plan entry of partition p is carried out once nothing holds its tiles. -/
def Dev.reclaimPlace (d : Dev) (p : Nat) : Dev :=
  match d.host.plan.find? fun e => num e 0 1 == p with
  | none => d
  | some b =>
    if d.tilesTaken p (parseSet b).entry.tiles || !d.coresUp then d
    else
      let (st, d') := d.planEntry b
      if st == 0 then (d'.onHost fun h => { h with plan := h.plan.filter fun e => num e 0 1 != p }).reclaimDone else d

/-! ## Slow-down reporting (R318) -/

def Slow.close (s : Slow) : Slow :=
  let r := if s.curActive == 0 then 0 else min (256 * (s.curActive + s.curStall) / s.curActive) 0xFFFF
  ⟨r, s.curActive, s.curStall, (s.window + 1) % 2 ^ 21, 0, 0, s.seen⟩
/-- The end of a window, at a beat count that is a multiple of 4,096. -/
def Dev.slowWindow (d : Dev) : Dev :=
  if d.beat % 4096 == 0 && d.lnk.slowAt != some d.beat then
    let close (x : Nat × Part) : Nat × Part := if x.2.st == .unused then x else (x.1, { x.2 with slow := x.2.slow.close })
    { d with parts := d.parts.map close, lnk := { d.lnk with slowAt := some d.beat } }
  else d

/-! ## Meanings -/

def execPartSet (ch : Chan) (s : State) : Host.Outcome State Fault Refusal := s.onDev fun d => d.partSet ch
def execPartResize (ch : Chan) (s : State) : Host.Outcome State Fault Refusal := s.onDev fun d => d.partResize ch
def execResizeCommit (p : PIx) (s : State) : Host.Outcome State Fault Refusal := s.onDev fun d => d.resizeCommit p.val
def execPartYield (ch : Chan) (s : State) : Host.Outcome State Fault Refusal := s.onDev fun d => d.partYield ch
def execYieldStreamsStopped (p : PIx) (s : State) : Host.Outcome State Fault Refusal := s.onDev fun d => d.streamsStopped p.val
def execFlushComplete (p : PIx) (s : State) : Host.Outcome State Fault Refusal := s.onDev fun d => d.flushDone p.val
def execYieldTimeout (p : PIx) (s : State) : Host.Outcome State Fault Refusal := s.onDev fun d => d.yieldTimeout p.val
def execPartResume (ch : Chan) (s : State) : Host.Outcome State Fault Refusal := s.onDev fun d => d.partResume ch
def execPartRelease (ch : Chan) (s : State) : Host.Outcome State Fault Refusal := s.onDev fun d => d.partRelease ch
def execPartPlace (ch : Chan) (s : State) : Host.Outcome State Fault Refusal := s.onDev fun d => d.partPlace ch
def execRestoreComplete (p : PIx) (s : State) : Host.Outcome State Fault Refusal := s.onDev fun d => d.restoreDone p.val
def execPartReset (ch : Chan) (s : State) : Host.Outcome State Fault Refusal := s.onDev fun d => d.partReset ch
def execHerilPartitionKeys (p : PIx) (s : State) : Host.Outcome State Fault Refusal := s.onDev fun d => d.herilKeys p.val
def execPartitionSetupComplete (p : PIx) (s : State) : Host.Outcome State Fault Refusal := s.onDev fun d => d.setupComplete p.val
def execPartFree (ch : Chan) (s : State) : Host.Outcome State Fault Refusal := s.onDev fun d => d.partFree ch
def execRegSet (ch : Chan) (s : State) : Host.Outcome State Fault Refusal := s.onDev fun d => d.regSet ch
def execReclaim (ch : Chan) (plan : List Byte) (s : State) : Host.Outcome State Fault Refusal := s.onDev fun d => d.reclaim ch plan
def execReclaimPlace (p : PIx) (s : State) : Host.Outcome State Fault Refusal := s.onDev fun d => d.reclaimPlace p.val
def execSlowWindowEnd (s : State) : Host.Outcome State Fault Refusal := s.onDev Dev.slowWindow

end Sys2Proof.Machine
end

