-- ==== Sys2Proof/Machine/Links.lean ====
section
/-! DEFINITION. Beats, ports, frames and cells, schedule tables, holds and bubbles (11, 12). -/

namespace Sys2Proof.Machine

/-! ## Beat counts -/

/-- Whether beat count c has reached target b (R118). -/
def reached (c b : Nat) : Bool := decide ((c + 2 ^ 48 - b % 2 ^ 48) % 2 ^ 48 < 2 ^ 47)
/-- Whether beat offset o of a period lies in the n offsets from b. -/
def inWindow (period b n o : Nat) : Bool := decide ((o + period - b % period) % period < n)
/-- Cell positions per beat at a port's rate (R281). -/
def PortSt.positions (s : PortSt) : Nat := if s.rate then 62 else 125
def PortSt.up (s : PortSt) : Bool := decide (2 ≤ s.st)

/-- Whether scheduled traffic is held, so that no WAITB is satisfied (R303). -/
def Lnk.frozen (k : Lnk) : Bool := k.st == .hold || k.st == .beatlost

/-! ## Collective operations in flight, as the links see them -/

def Dev.onFlight (d : Dev) (p q : Nat) (f : Flight → Flight) : Dev :=
  d.onSeq p q fun s => { s with items := s.items.map fun i => match i with
    | .op x => .op (f x)
    | i => i }
/-- The COLL operations of a partition that have started, with their streams. -/
def Dev.colls (d : Dev) (p : Nat) : List (Nat × Flight) :=
  (List.range 4).flatMap fun q => (d.seq p q).items.filterMap fun i => match i with
    | .op f => if f.started && f.coll.isSome then some (q, f) else none
    | _ => none
/-- The flow entry of a flow, and its transfer's TID. -/
def Sched.flow (s : Sched) (n : Nat) : Option FlowEnt := s.flows.find? fun f => f.flow == n
/-- Whether the table that a COLL operation was issued under is still in force (R289). -/
def Dev.inForce (d : Dev) (c : CollRun) : Bool := match d.lnk.active with
  | some s => s.actBeat == c.act
  | none => false
/-- The index of a cell among the cells that a COLL operation sends to the same device. -/
def CollRun.cellIx (c : CollRun) (dev : Nat) (y : FlowCell) : Nat :=
  match c.flows.find? fun e => e.flow == y.flow with
  | none => y.seq
  | some e => (((c.flows.filter fun x => x.src == dev && x.dst == e.dst).takeWhile fun x => x.flow != y.flow).map (·.ncell)).sum + y.seq
/-- The send begins: VERSION of the version record takes the UPD_STEP of this moment (R298). The record lies in one cell per device. -/
def CollRun.begin (c : CollRun) (dev step : Nat) : CollRun :=
  match c.stamp with
  | none => c
  | some off =>
    { c with stamp := none
             toSend := c.toSend.map fun y =>
               if c.cellIx dev y == off / 512 then { y with payload := y.payload.take (off % 512) ++ natLe 4 step ++ y.payload.drop (off % 512 + 4) } else y }
/-- An operation whose send begins at an UPD_STEP, which it keeps for its own shard. -/
def Flight.begin (f : Flight) (dev : Nat) (step : BitVec 32) : Flight :=
  match f.coll with
  | some c => if c.stamp.isSome then { f with imm := step, coll := some (c.begin dev step.toNat) } else f
  | none => f
/-- Takes the next cell of a flow from the COLL operation that sends it, once its anchor is reached (R293). -/
def Dev.popCell (d : Dev) (f : FlowEnt) : Option (FlowCell × Dev) :=
  match (d.colls f.part).find? fun x => match x.2.coll with
      | some c => c.tid == f.tid && d.inForce c && reached d.beat c.anchor && c.toSend.any fun y => y.flow == f.flow
      | none => false with
  | none => none
  | some (q, x) =>
    let b (g : Flight) : Flight := g.begin d.lnk.devid.toNat (d.part f.part).upd.step
    match (b x).coll with
    | none => none
    | some c =>
      match c.toSend.find? fun y => y.flow == f.flow with
      | none => none
      | some y => some (y, d.onFlight f.part q fun g =>
          if g.no == x.no then { b g with coll := (b g).coll.map fun c => { c with toSend := c.toSend.erase y } } else g)
/-- Whether a COLL operation has received a cell of this flow and SEQ: one that comes after it is its next instance's. -/
def CollRun.has (c : CollRun) (y : FlowCell) : Bool := c.got.any fun z => z.flow == y.flow && z.seq == y.seq
/-- Gives a cell to the first started COLL operation that receives its flow and lacks it; none when there is none whose anchor is reached
(R287, R293). -/
def Dev.deliver (d : Dev) (f : FlowEnt) (y : FlowCell) : Option Dev :=
  match (d.colls f.part).find? fun x => match x.2.coll with
      | some c => c.tid == f.tid && d.inForce c && reached d.beat c.anchor && !c.has y
      | none => false with
  | none => none
  | some (q, x) => some (d.onFlight f.part q fun g =>
      if g.no == x.no then { g with coll := g.coll.map fun c => { c with got := c.got ++ [y] } } else g)
/-- A scheduled cell takes a credit of the receiver while it waits, and gives it back (R287). -/
def PortSt.buffer (s : PortSt) (w : Waiting) : PortSt := { s with waiting := s.waiting ++ [w], schedHeld := s.schedHeld + 1 }
def PortSt.unbuffer (s : PortSt) (w : Waiting) : PortSt := { s with waiting := s.waiting.erase w, schedHeld := s.schedHeld - 1 }
/-- Delivers what waits at the ports for operations that receive by now, unless the device is held (R287, R293, R303). -/
def Dev.deliverWaiting (d : Dev) : Dev :=
  match d.lnk.active with
  | none => d
  | some t =>
    if d.lnk.frozen then d
    else (d.lnk.ports.map (·.1)).foldl (fun d l => (d.port l).waiting.foldl (fun d w =>
      match (t.flow w.cell.flow).bind fun f => d.deliver f w.cell with
      | some e => e.onPort l fun s => s.unbuffer w
      | none => d) d) d

/-! ## Sending a frame (R281 to R286) -/

/-- A cell of 528 bytes (Table 11-3). A poisoned payload goes out with a PCRC that does not check, so that it arrives poisoned. -/
def cellBytes (cls flow seq dst : Nat) (payload : List Byte) (bad : Bool) : List Byte :=
  let h := natLe 1 cls ++ [0] ++ natLe 2 flow ++ natLe 4 seq ++ natLe 2 dst
  let body := fit 512 payload
  h ++ natLe 2 (Config.crc16 h).toNat ++ natLe 4 (if bad then ~~~(Config.crc32 body) else Config.crc32 body).toNat ++ body
/-- Whether the device sets HOLD in its frames (R302, R305). -/
def Lnk.held (k : Lnk) : Bool := k.st == .hold || k.st == .beatlost || k.latched
/-- The header of the frame a port sends in this beat (Table 11-2). -/
def Dev.frameHeader (d : Dev) (l : Nat) : List Byte :=
  let k := d.lnk
  let s := d.port l
  let hold := k.held || k.holdRaised
  let h := natLe 6 k.count.toNat ++ natLe 1 (b2n hold + 2 * b2n (hold && k.beatIn)) ++ natLe 1 (if hold then k.holdCause else 0) ++
    natLe 2 k.devid.toNat ++ natLe 1 l ++ [0] ++ natLe 2 s.rxReturned ++ natLe 2 (s.rxNext + 0xFFFF) ++ natLe 6 (k.hbeat.getD 0).toNat ++
    List.replicate 38 0
  h ++ natLe 4 (Config.crc32 h).toNat
/-- The runs of a kind that cover a beat offset. -/
def Sched.runsAt (s : Sched) (act off : Nat) : List SlotRun :=
  s.runs.filter fun r => r.act == act && inWindow s.period r.beat0 r.nbeat off
/-- A cell position of a beat that a SEND run gives a flow: its port and position, and when it passes, in parts of a beat of 125 × 62
(R281). -/
structure SendSlot where
  time : Nat
  port : Nat
  pos : Nat
  flow : FlowEnt
  deriving DecidableEq, Repr
/-- Puts a slot among slots in the order of time. -/
def insertSlot (x : SendSlot) : List SendSlot → List SendSlot
  | [] => [x]
  | y :: ys => if x.time < y.time then x :: y :: ys else y :: insertSlot x ys
/-- Whether scheduled cells move on a port: only in RUN, and on a port that is up and agrees with the link map (R291, R303). -/
def Dev.portMoves (d : Dev) (l : Nat) : Bool := d.lnk.st == .run && (d.port l).up && !(d.port l).outOfMap
/-- The slots of this beat on every port, in the order of time, so that each flow's cells go out in SEQ order on however many ports it has
(R293; log 145). -/
def Dev.sendSlots (d : Dev) (t : Sched) : List SendSlot :=
  ((t.runsAt 0 (d.beat % t.period)).flatMap fun r => match if d.portMoves r.port then t.flow r.flow else none with
    | some f => (List.range r.ncell).map fun i => ⟨(r.cell0 + i) * (7750 / (d.port r.port).positions), r.port, r.cell0 + i, f⟩
    | none => []).foldl (fun l x => insertSlot x l) []
/-- A scheduled cell that this beat's frame of a port carries: port, position, bytes. -/
abbrev SentCell := Nat × Nat × List Byte
/-- Takes a cell for each slot whose flow has one ready. -/
def Dev.fillSlots (d : Dev) : List SendSlot → List SentCell × Dev
  | [] => ([], d)
  | x :: xs =>
    match d.popCell x.flow with
    | none => d.fillSlots xs
    | some (y, d) =>
      let (l, d) := d.fillSlots xs
      ((x.port, x.pos, cellBytes 0 x.flow.flow y.seq x.flow.dst y.payload y.bad) :: l, d)
/-- The scheduled cells that the device sends in this beat. -/
def Dev.sendScheduled (d : Dev) : List SentCell × Dev :=
  match d.lnk.active with
  | some t => d.fillSlots (d.sendSlots t)
  | none => ([], d)
/-- Sends one unscheduled cell at a position: it spends a credit and enters the replay buffer unless it is a repeat. -/
def Dev.sendUnsched (d : Dev) (l pos : Nat) (bytes : List Byte) : Dev :=
  let seq := num bytes 2 2
  let d := d.emit (.cell l pos bytes)
  d.onPort l fun s =>
    if s.replay.any fun c => c.seq == seq then
      { s with replay := s.replay.map fun c => if c.seq == seq then { c with sent := d.beat } else c }
    else { s with replay := s.replay ++ [⟨seq, bytes, d.beat⟩], ucredits := s.ucredits - 1 }
/-- Sends waiting unscheduled cells at free positions while credits and replay space last. -/
def Dev.sendQueue (d : Dev) (l : Nat) : List Nat → Dev
  | [] => d
  | pos :: ps =>
    let s := d.port l
    match s.txQueue with
    | [] => d
    | c :: cs =>
      let again := s.replay.any fun x => x.seq == num c 2 2
      if again || (decide (0 < s.ucredits) && decide (s.replay.length < 64)) then
        ((d.onPort l fun s => { s with txQueue := cs }).sendUnsched l pos c).sendQueue l ps
      else d
/-- The positions of a port that RELAY runs keep in this beat: the output of a run with NEXT lies one beat after its input (R285, R290). -/
def Sched.kept (t : Sched) (l off : Nat) : List Nat :=
  let out (r : SlotRun) : List Nat := if r.oport == l then (List.range r.ncell).map (r.ocell0 + ·) else []
  ((t.runsAt 2 off).filter fun r => !r.next).flatMap out ++ ((t.runsAt 2 ((off + t.period - 1) % t.period)).filter (·.next)).flatMap out
/-- The frame of one port in this beat: header, relayed cells due now, scheduled and unscheduled cells; every other
position carries an idle cell. -/
def Dev.sendFrame (sent : List SentCell) (d : Dev) (l : Nat) : Dev :=
  let s := d.port l
  if !s.up then d
  else
    let d := d.emit (.frame l (d.frameHeader l))
    let moves := d.portMoves l
    let due := if moves then s.relay.filter fun x => x.2.1 == d.beat else []
    let d := due.foldl (fun d x => d.emit (.cell l x.1 x.2.2)) (d.onPort l fun s => { s with relay := s.relay.filter fun x => moves && x.2.1 != d.beat })
    let mine := sent.filter fun x => x.1 == l
    let d := mine.foldl (fun d x => d.emit (.cell l x.2.1 x.2.2)) d
    let kept : List Nat := match d.lnk.active with
      | some t => t.kept l (d.beat % t.period)
      | none => []
    if (d.port l).txQueue.isEmpty then d
    else d.sendQueue l ((List.range s.positions).filter fun i =>
      !(mine.any fun x => x.2.1 == i) && !kept.contains i && !due.any fun x => x.1 == i)

/-! ## A beat (R275 to R278) -/

/-- Whether an engine operation of a partition is in flight. -/
def Part.working (P : Part) : Bool := P.sq.any fun s => s.items.any fun i => match i with
  | .op _ => true
  | _ => false
/-- What a beat counts for one partition: SLOW's beats (R318), the
yield's beats (R322), credit waits (R221). Beats in HOLD and BEATLOST are not counted where the rules say so. An interference beat
needs an operation in flight. -/
def Part.tick (P : Part) (held interfered : Bool) : Part :=
  let ran := P.slow.seen || P.working
  let hit := ran && interfered && !held
  let act := ran && !held && !hit
  { P with
    slow := { P.slow with curActive := P.slow.curActive + b2n act, curStall := P.slow.curStall + b2n hit,
                           seen := P.working }
    yCount := if P.yielding && !held then P.yCount + 1 else P.yCount
    yAll := if P.yielding then P.yAll + 1 else P.yAll
    dist := (P.dist.noteStalls P.creditStall P.slotStall).countStalls }
/-- The deadlines of the COLL operations of every partition move n beats on (R293). -/
def Part.extend (P : Part) (n : Nat) : Part :=
  { P with sq := P.sq.map fun s => { s with items := s.items.map fun i => match i with
      | .op f => .op { f with coll := f.coll.map fun c => { c with extend := c.extend + n } }
      | i => i } }
def Dev.extend (d : Dev) (n : Nat) : Dev := { d with parts := Tab.mapVal (fun _ (P : Part) => P.extend n) d.parts }
/-- The unscheduled credits of a port that neither the sender holds nor the peer's receiver (R327). -/
def PortSt.inFlight (s : PortSt) : Int := 64 - (s.ucredits : Int) - (s.peerOcc : Int)
/-- Beats of one round trip of a link (Table 12-8). -/
def PortSt.roundTrip (s : PortSt) : Nat := 2 * s.ldly + 2
def PortSt.unschedOk (s : PortSt) : Bool := decide (0 ≤ s.inFlight) && decide (s.inFlight ≤ (125 * s.roundTrip : Nat))
/-- What the receivers do at a beat: silence is counted (R302), the cells Quinad has taken return their credits, and an imbalance of the
unscheduled credits grows older (R328). -/
def PortSt.tick (s : PortSt) : PortSt :=
  { s with silent := if s.up then s.silent + 1 else 0, rxReturned := s.rxReturned + s.rxCells.length, rxCells := []
           unbal := if s.unschedOk then 0 else s.unbal + 1 }
/-- The beat count reaches A (R289, R305). -/
def Dev.schedActivate (d : Dev) : Dev :=
  match d.lnk.armed with
  | none => d
  | some s =>
    if reached d.beat s.actBeat then
      let toHold := d.lnk.st == .armed && d.lnk.latched
      let d := d.onLnk fun k => { k with active := some s, armed := none
                                         st := if k.st == .armed then (if k.latched then .hold else .run) else k.st
                                         latched := if k.st == .armed then false else k.latched }
      let d : Dev := { d with parts := Tab.mapVal (fun _ (P : Part) => { P with bubble := false }) d.parts }
      if toHold then d.pfEvent 4 else d
    else d
/-- The beat at which a hold of cause BEAT alone is left. -/
def autoBeat (h : BitVec 48) : Nat := (h.toNat / 256 + 2) * 256 % 2 ^ 48
/-- Whether the hold may be left now: the armed RESUME is reached, or this is the beat of the automatic release, which HBEAT gives
(R304; log 124). -/
def Lnk.releasable (k : Lnk) : Bool :=
  (k.holdArm && reached k.count.toNat k.resume.toNat) || (k.beatOnly && (match k.hbeat with
    | some h => k.count.toNat == autoBeat h
    | none => false))
/-- HOLD_RELEASE. -/
def Dev.holdRelease (d : Dev) : Dev :=
  let k := d.lnk
  if k.releasable && (k.st == .hold || k.latched) then
    d.onLnk fun k =>
      { k with st := if k.st == .hold then .run else k.st, latched := false, holdRaised := false, holdArm := false,
               holdCause := 0, beatOnly := false, beatIn := false, confirm := none }
  else d
/-- A hold raised in RUN is entered at the beat boundary (R302). -/
def Dev.holdEnter (d : Dev) : Dev :=
  if d.lnk.st == .run && d.lnk.holdRaised then (d.onLnk fun k => { k with st := .hold, holdRaised := false }).pfEvent 4 else d
/-- The fourth flywheel beat in a row: BEAT_LOST, and from RUN and HOLD BEATLOST, in which BEAT_OUT is held low (R276, R278, R302). The
ports that are aligned now are those whose counts confirm the beat later (R304). -/
def Dev.beatLose (d : Dev) : Dev :=
  let d := d.detect (rec0 Code.beatLost)
  if d.lnk.st == .run || d.lnk.st == .hold then
    ((((d.raiseHold 1).onLnk fun k =>
      { k with st := .beatlost, holdRaised := false, edgeRun := 0
               ports := Tab.mapVal (fun _ (s : PortSt) => { s with confirms := s.st == 3 }) k.ports }).pfEvent 4).onPins fun p =>
      { p with beatOut := false })
  else d
/-- A tile's beats that the peel has used lie a beat further back. -/
def TileSt.peelTick (t : TileSt) : TileSt := { t with peelWin := (t.peelWin.map (· + 1)).filter (· < 4096) }
/-- What a beat boundary does for the peel: what its beat has put off begins, and the streams that are quiet at the start of the new beat
are known (R392). -/
def Dev.peelTick (d : Dev) : Dev :=
  let d : Dev := { d with tiles := Tab.mapVal (fun _ (t : TileSt) => t.peelTick) d.tiles }
  let d := d.live.foldl Dev.runLater d
  { d with parts := Tab.mapVal (fun _ (P : Part) => { P with quietBeat := P.quiet }) d.parts }
/-- What happens in every beat once its state is settled: what the peel's last beat has put off (R392), counts, refills, deliveries,
and the frames of the ports. `interfered` names the partitions whose operations waited on a resource serving another one, each with the
number of the resource's regulator (R318), and `held` says whether the beat that ends here was spent in HOLD or BEATLOST. -/
def Dev.beatBody (d : Dev) (held : Bool) (interfered : List (PIx × Fin 5)) : Dev :=
  let hit (p : Nat) : Bool := interfered.any fun i => i.1.val == p && decide (0 ≤ (d.bucket p i.2.val).g)
  let waits (B : Base) : Bool := B.waiters.any fun w => (d.part w.1).st == .active || (d.part w.1).st == .yielding
  let d := d.peelTick
  let d : Dev :=
    { d with parts := Tab.mapVal (fun p (P : Part) => P.tick held (hit p)) d.parts
             bases := Tab.mapVal (fun _ (B : Base) => if waits B then { B with bwait := satAdd 32 B.bwait 1 } else B) d.bases
             lnk := { d.lnk with ports := Tab.mapVal (fun _ (s : PortSt) => s.tick) d.lnk.ports } }
  let d := (d.live.foldl Dev.flushCqes d.refillAll).deliverWaiting
  let (sent, d) := d.sendScheduled
  (d.lnk.ports.map (·.1)).foldl (Dev.sendFrame sent) d
/-- The start of a beat that counts: the count, the holds and tables that take effect at the boundary, then the beat itself. At the
boundary of a fourth flywheel beat scheduled traffic stops (R278). -/
def Dev.newBeat (d : Dev) (edge : Bool) (interfered : List (PIx × Fin 5)) : Dev :=
  let held := d.lnk.frozen
  let d := d.onLnk fun k =>
    if edge && k.loadArm then { k with count := k.loadVal, loadArm := false } else { k with count := k.count + 1 }
  let d := d.holdEnter.schedActivate.holdRelease
  let d := if !edge && d.lnk.flyRun == 4 then d.beatLose else d
  (if d.lnk.frozen then d.extend 1 else d).beatBody held interfered
/-- Whether beats are counted at all: not in DEEP (R362), nor with the clocks stopped (R364). -/
def Dev.beating (d : Dev) : Bool := d.ckr.pwr != 2 && !d.ckr.clockWait && d.released
/-- A BEAT_IN edge, a number of ROOT cycles after the previous beat edge (R275 to R277). In BEATLOST it counts no beat; frames go out in
it all the same (R281, R304). -/
def Dev.beatEdge (d : Dev) (since : Nat) (interfered : List (PIx × Fin 5)) : Dev :=
  if !d.beating then d
  else if decide (since < 1022) || decide (1026 < since) then d.onLnk fun k => { k with edgeErr := satAdd 16 k.edgeErr 1, edgeRun := 0 }
  else
    let d := d.onLnk fun k => { k with flyRun := 0, edgeRun := k.edgeRun + 1 }
    if d.lnk.st == .beatlost then
      (d.onLnk fun k => if k.loadArm then { k with count := k.loadVal, loadArm := false } else k).beatBody true interfered
    else ((d.newBeat true interfered).onPins fun p => { p with beatOut := true }).emit .beatOut
/-- A flywheel beat (R278). In BEATLOST it is an edge that did not come: the run of edges begins anew (R304), and a beat of the peel ends.
The row carries no
interference, so which partitions' operations waited in it, and on what (R318), is a free value (log 7). -/
def Dev.flywheel (d : Dev) : Dev :=
  if !d.beating then d
  else if d.lnk.st == .beatlost then d.peelTick.onLnk fun k => { k with edgeRun := 0 }
  else
    let (m, d) := d.free
    (d.onLnk fun k => { k with flywheel := satAdd 16 k.flywheel 1, flyRun := k.flyRun + 1, edgeRun := 0 }).newBeat false
      ((List.finRange 64).flatMap fun p => ((List.finRange 5).filter fun r => m.testBit (5 * p.val + r.val)).map fun r => (p, r))
/-- The counts that the ports' frames give which were aligned when BEATLOST began. -/
def Dev.confirmations (d : Dev) : List Nat :=
  d.lnk.ports.filterMap fun x => if x.2.up && x.2.confirms then x.2.peerCount else none
/-- The larger of two confirmation counts, where one has been seen. -/
def Lnk.seeHbeat (k : Lnk) (w : BitVec 48) : Lnk :=
  { k with hbeat := some (match k.hbeat with
      | some h => if h < w then w else h
      | none => w) }
/-- BEAT_CONFIRM (R304). The beats of BEATLOST that the count passes over extend the deadlines of R293. -/
def Dev.beatConfirm (d : Dev) : Dev :=
  if d.lnk.st == .beatlost && decide (16 ≤ d.lnk.edgeRun) then
    match d.confirmations with
    | [] => d
    | c :: cs =>
      if cs.all (· == c) then
        let w := BitVec.ofNat 48 c
        let d := if reached c d.beat then d.extend ((c + 2 ^ 48 - d.beat) % 2 ^ 48) else d
        (d.onLnk fun k => { k.seeHbeat w with count := w, confirm := some w, st := .hold, edgeRun := 0, beatIn := false }).pfEvent 4
      else (d.detect (rec0 Code.beatLost)).onLnk fun k => { k with edgeRun := 0 }
  else d
/-- A write of LNK_BEAT_LOAD. -/
def Dev.beatLoad (d : Dev) (v : W64) : Dev :=
  d.onLnk fun k => { k with loadArm := v.getLsbD 63, loadVal := v.setWidth 48 }

/-! ## Holds (R302 to R305) -/

/-- A write of LNK_HOLD: ARM is stored only with a RESUME that lies ahead (R304). -/
def Dev.holdArm (d : Dev) (v : W64) : Dev :=
  d.onLnk fun k =>
    let r : BitVec 48 := v.setWidth 48
    { k with resume := r, holdArm := v.getLsbD 62 && !reached k.count.toNat r.toNat }

/-! ## Ports (R279 to R282, R286, R291) -/

def recPort (code l : Nat) : ErrRec := { rec0 code with unit := 3, index := l }
/-- Whether ports train at all: from PHASE CTRL on, in RUN, with no device-fatal error. -/
def Dev.linksOn (d : Dev) : Bool :=
  decide (1 ≤ d.ckr.phase) && decide (d.ckr.phase ≤ 3) && d.ckr.pwr == 0 && !d.ckr.clockWait && !d.err.deOpen
/-- Both ends restart their unscheduled exchange when a link trains (log entry 17). -/
def PortSt.fresh (s : PortSt) : PortSt :=
  { s with silent := 0, misRun := 0, peerHold := false, peerCount := none, txSeq := 0, replay := [], txQueue := [], ucredSeen := 0,
           ucredits := 64, rxNext := 0, rxCells := [], rxReturned := 0, waiting := [], relay := [],
           wasAligned := false, confirms := false, schedHeld := 0, peerOcc := 0, unbal := 0, shardOf := none }
def Dev.portTrained (d : Dev) (l : Nat) (lanesOk fallback : Bool) (delay pdev pport : Nat) : Dev :=
  if !d.linksOn || (d.port l).up then d
  else if !lanesOk then d.onPort l fun s => { s with st := 1 }
  else if 3 < delay then
    let d := (d.onPort l fun s => { s with st := 1 }).detect (recPort Code.linkDown l)
    if d.scheduled l then d.raiseHold 4 else d
  else
    let map := d.lnk.linkMap.getD l (0xFFFF, 0)
    d.onPort l fun s => { s.fresh with st := 2, rate := fallback || s.rateMax, ldly := delay, pdev := pdev, pport := pport,
                                       outOfMap := map != (pdev, pport) }
/-- LINK_DOWN of a port that was up. -/
def Dev.linkDown (d : Dev) (l : Nat) : Dev :=
  if (d.port l).up then
    let d := (d.onPort l fun s => { s.fresh with st := 1 }).detect (recPort Code.linkDown l)
    if d.scheduled l then d.raiseHold 4 else d
  else d
/-- A received frame header (R277, R282, R286, R302, R304). A misaligned frame counts in any state; it makes a run that raises a hold
only outside BEATLOST, and when its sender's hold includes no beat loss (log 125). -/
def Dev.frameReceived (d : Dev) (l : Nat) (h : List Byte) (cw : Codeword) (crcOk : Bool) : Dev :=
  if !(d.port l).up then d
  else
    let d := if cw == .corrected then d.onPort l fun s => { s with fecCorr := satAdd 16 s.fecCorr 1 } else d
    if cw == .uncorrectable || !crcOk then d.onPort l fun s => { s with crcErr := satAdd 16 s.crcErr 1 }
    else
      let s := d.port l
      let c := (num h 0 6 + s.ldly) % 2 ^ 48
      let aligned := c == d.beat
      let flags := num h 6 1
      let excused := d.lnk.st == .beatlost || (bit flags 0 && bit flags 1)
      let ucred := num h 12 2
      let uack := num h 14 2
      let d := d.onPort l fun s =>
        { s with silent := 0, peerCount := some c, peerHold := bit flags 0, pdev := num h 8 2 % 1024, pport := num h 10 1 % 32
                 outOfMap := d.lnk.linkMap.getD l (0xFFFF, 0) != (num h 8 2 % 1024, num h 10 1 % 32)
                 st := if aligned then 3 else 2
                 wasAligned := s.wasAligned || aligned
                 misRun := if aligned || excused then 0 else s.misRun + 1
                 beatErr := if aligned then s.beatErr else satAdd 16 s.beatErr 1
                 peerOcc := (uack + 1 + 2 ^ 16 - ucred) % 2 ^ 16
                 ucredits := min 64 (s.ucredits + (ucred + 2 ^ 16 - s.ucredSeen) % 2 ^ 16), ucredSeen := ucred
                 replay := s.replay.filter fun c => !decide ((uack + 2 ^ 16 - c.seq) % 2 ^ 16 < 2 ^ 15) }
      let d := if decide (2 ≤ (d.port l).misRun) && d.scheduled l then d.raiseHold 3 else d
      let d := if bit flags 0 then d.raiseHold (num h 7 1) else d
      let d := if bit flags 0 && bit flags 1 then d.onLnk fun k => { k with beatIn := true } else d
      let hb := BitVec.ofNat 48 (num h 16 6)
      if hb == 0 then d else d.onLnk fun k => k.seeHbeat hb
/-- 16 beats without a good frame on a port that has been up and aligned (R302); one silence is recorded once. -/
def Dev.peerSilent (d : Dev) (l : Nat) : Dev :=
  let s := d.port l
  if s.up && s.wasAligned && decide (16 ≤ s.silent) then
    let d := (d.onPort l fun s => { s with st := 2, silent := 0, wasAligned := false }).detect (recPort Code.peerSilent l)
    if d.scheduled l then d.raiseHold 2 else d
  else d

/-! ## Cells (R283 to R287, R290) -/

def Dev.linkCrc (d : Dev) (l : Nat) : Dev :=
  (d.onPort l fun s => { s with crcErr := satAdd 16 s.crcErr 1 }).detect (recPort Code.linkCrc l)
def Dev.schedErr (d : Dev) (l : Nat) : Dev := d.onPort l fun s => { s with schedErr := satAdd 16 s.schedErr 1 }
/-- The RECV or RELAY run that covers an input position in this beat, on a port that agrees with the link map (R291). Outside RUN a
table's runs are found as well: what arrives then is buffered (log 126). -/
def Dev.inputRun (d : Dev) (l pos : Nat) : Option (Sched × SlotRun) :=
  match d.lnk.active with
  | none => none
  | some s =>
    if (d.port l).outOfMap then none
    else
      let off := d.beat % s.period
      ((s.runsAt 1 off ++ s.runsAt 2 off).find? fun r =>
        r.port == l && decide (r.cell0 ≤ pos) && decide (pos < r.cell0 + r.ncell)).map fun r => (s, r)
/-- Whether a base receives through a port of a chain. -/
def Base.chains (B : Base) (l : Nat) : Bool := B.src == 1 && B.port == l
/-- The base whose chain-load shard an unscheduled cell belongs to: the one whose shard is arriving, or, of a cell that begins one, the one
that its header names (R266). A cell of a message belongs to none (log 128). -/
def Dev.chainOf (d : Dev) (l : Nat) (payload : List Byte) : Option Nat :=
  let b := ((d.port l).shardOf.filter fun b => (d.base b).chains l).getD (num payload 0 1)
  if (d.base b).chains l then some b else none
/-- Queues one unscheduled cell of chain-load data at a port, for the neighbouring device (R285). -/
def PortSt.passOn (s : PortSt) (payload : List Byte) : PortSt :=
  { s with txQueue := s.txQueue ++ [cellBytes 1 s.txSeq 0 s.pdev payload false], txSeq := (s.txSeq + 1) % 2 ^ 16 }
/-- An unscheduled cell that belongs to a chain load goes on to the chain's next device, where its base has one: at first deliveries and at
second ones, whatever this device still needs of them itself (R267, R269). -/
def Dev.chainForward (d : Dev) (l : Nat) (payload : List Byte) : Dev :=
  match d.chainOf l payload with
  | none => d
  | some b =>
    let d := d.onPort l fun s => { s with shardOf := some b }
    if (d.base b).fwd == 0xFF then d else d.onPort (d.base b).fwd fun s => s.passOn payload
/-- The shard of a base has arrived, or its source changes: the next cell on its port begins another. -/
def Dev.shardEnds (d : Dev) (b : Nat) : Dev :=
  if (d.base b).src == 1 then d.onPort (d.base b).port fun s => { s with shardOf := s.shardOf.filter (· != b) } else d
/-- The chain's first device forwards what the host gives it, in whole cells (R267). -/
def Dev.chainStart (d : Dev) (b : Nat) (data : List Byte) : Dev :=
  let B := d.base b
  if B.src == 0 && B.fwd != 0xFF then d.onPort B.fwd fun s => (cutBy 512 data.length data).foldl PortSt.passOn s else d
/-- A received cell. -/
def Dev.cellReceived (d : Dev) (l pos : Nat) (cell : List Byte) (cw : Codeword) (hOk pOk : Bool) : Dev :=
  let s := d.port l
  if !s.up || decide (s.positions ≤ pos) then d
  else
    let d := if cw == .corrected then d.onPort l fun s => { s with fecCorr := satAdd 16 s.fecCorr 1 } else d
    let run := d.inputRun l pos
    if cw == .uncorrectable || !hOk then
      let d := d.linkCrc l
      match run with
      | some (_, r) => if r.act == 2 then d.schedErr l else d
      | none => d
    else
      let flow := num cell 2 2
      match num cell 0 1 % 4 with
      | 0 =>
        match run with
        | none => d.schedErr l
        | some (t, r) =>
          if r.flow != flow then d.schedErr l
          else if r.act == 2 then
            if d.lnk.st != .run then d.schedErr l else
            let opos := r.ocell0 + (pos - r.cell0)
            if !(d.port r.oport).up || (d.port r.oport).outOfMap then d
            else if r.next then d.onPort r.oport fun s => { s with relay := s.relay ++ [(opos, (d.beat + 1) % 2 ^ 48, cell)] }
            else d.emit (.cell r.oport opos cell)
          else
            match t.flow flow with
            | none => d.schedErr l
            | some f =>
              let d := if pOk then d else d.linkCrc l
              let y : FlowCell := ⟨flow, num cell 4 4, cell.drop 16, !pOk⟩
              match if d.lnk.st != .run then none else d.deliver f y with
              | some d => d
              | none => if (d.port l).waiting.length < 250 then d.onPort l fun s => s.buffer ⟨y, d.beat⟩ else d.schedErr l
      | 1 =>
        if !pOk then d.linkCrc l
        else if flow == s.rxNext && decide (s.rxCells.length < 64) then
          (d.onPort l fun s => { s with rxNext := (s.rxNext + 1) % 2 ^ 16, rxCells := s.rxCells ++ [cell] }).chainForward l (cell.drop 16)
        else d
      | _ => d
/-- UNSCHED_REPLAY: a cell not acknowledged within 4 beats goes out again, with every later one (R286). -/
def Dev.unschedReplay (d : Dev) (l : Nat) : Dev :=
  d.onPort l fun s =>
    let again := s.replay.dropWhile fun c => !decide (4 ≤ (d.beat + 2 ^ 48 - c.sent) % 2 ^ 48)
    if again.isEmpty || !s.up then s
    else { s with txQueue := again.map (·.bytes) ++ s.txQueue.filter fun b => !again.any fun c => c.seq == num b 2 2
                  replay := s.replay.map fun c => if again.contains c then { c with sent := d.beat } else c }
/-- SCHED_CELL_EXPIRE: a scheduled cell that has waited 2 beats is discarded (R287). In HOLD and BEATLOST none is (log 126). -/
def Dev.cellExpire (d : Dev) (l ix : Nat) : Dev :=
  match (d.port l).waiting[ix]? with
  | none => d
  | some w =>
    if decide (2 ≤ (d.beat + 2 ^ 48 - w.arrived) % 2 ^ 48) && !d.lnk.frozen then (d.onPort l fun s => s.unbuffer w).schedErr l else d

/-! ## Schedule tables (R288, R289, R325) -/

def parseRun (b : List Byte) : SlotRun :=
  let n := num b 4 2
  ⟨num b 0 1, num b 1 1 % 4, num b 2 2, if n == 0 then 65536 else n, num b 6 1, num b 7 1, num b 8 2, num b 10 1, num b 11 1, bit (num b 12 1) 0⟩
def runForm (b : List Byte) : Bool := decide (num b 1 1 < 3) && decide (num b 12 1 < 2) && zeroAt b 13 3
def parseFlow (b : List Byte) : FlowEnt := ⟨num b 0 2, num b 2 2, num b 4 2, num b 6 2, num b 8 4, num b 12 1 % 64⟩
def flowForm (b : List Byte) : Bool := decide (num b 12 1 < 64) && zeroAt b 13 3
def parseTrans (b : List Byte) : Transfer :=
  ⟨num b 0 2, num b 2 1, num b 3 1 % 64, bit (num b 3 1) 6, num b 4 2, num b 6 2, num b 8 2, num b 12 4, num b 16 8, num b 24 8⟩
def transForm (b : List Byte) : Bool :=
  decide (num b 3 1 < 128) && zeroAt b 10 2
def parseBub (b : List Byte) : Bubble := ⟨num b 0 1 % 64, num b 1 1 % 64, num b 2 2, num b 4 2⟩
def bubForm (b : List Byte) : Bool := decide (num b 0 1 < 64) && decide (num b 1 1 < 64) && zeroAt b 6 2
/-- The n entries of w bytes from an offset. -/
def entriesAt (t : List Byte) (off w n : Nat) : List (List Byte) := (List.range n).map fun i => slice t (off + w * i) w
/-- Whether two windows of period offsets meet. -/
def windowsMeet (period a n b m : Nat) : Bool := inWindow period a n (b % period) || inWindow period b m (a % period)
def rangesMeet (a n b m : Nat) : Bool := decide (a < b + m) && decide (b < a + n)
/-- Output side of a run: port, first beat, first position; none for RECV. -/
def SlotRun.outSide (r : SlotRun) : Option (Nat × Nat × Nat) :=
  if r.act == 0 then some (r.port, r.beat0, r.cell0) else if r.act == 2 then some (r.oport, r.beat0 + b2n r.next, r.ocell0) else none
/-- Input side of a run; none for SEND. -/
def SlotRun.inSide (r : SlotRun) : Option (Nat × Nat × Nat) := if r.act == 0 then none else some (r.port, r.beat0, r.cell0)
def sidesMeet (period : Nat) (r s : SlotRun) (x y : Option (Nat × Nat × Nat)) : Bool :=
  match x, y with
  | some (p, b, c), some (p', b', c') => p == p' && windowsMeet period b r.nbeat b' s.nbeat && rangesMeet c r.ncell c' s.ncell
  | _, _ => false
/-- Whether any two runs of a list collide. -/
def runsCollide (period : Nat) : List SlotRun → Bool
  | [] => false
  | r :: rs => rs.any (fun s => sidesMeet period r s r.outSide s.outSide || sidesMeet period r s r.inSide s.inSide) || runsCollide period rs
/-- Whether a run fits the ports it names. -/
def Dev.runFits (d : Dev) (period : Nat) (r : SlotRun) : Bool :=
  let okPort (l c : Nat) := decide (l < 24) && (d.port l).st == 3 && !(d.port l).outOfMap && decide (c + r.ncell ≤ (d.port l).positions)
  decide (r.beat0 < period) && okPort r.port r.cell0 &&
  (r.act != 2 || (okPort r.oport r.ocell0 && (r.next || decide (r.cell0 + 2 ≤ r.ocell0))))
/-- Bubble pairs are host and guest, and no two bubbles meet (R325). -/
def Dev.bubblesOk (d : Dev) (period : Nat) : List Bubble → Bool
  | [] => true
  | x :: xs =>
    let G := d.part x.guest
    G.st != .unused && G.entry.guest && G.entry.hostp == x.host && decide (x.beat0 < period) &&
    (xs.all fun y => !windowsMeet period x.beat0 x.nbeat y.beat0 y.nbeat) && d.bubblesOk period xs
/-- Reads a table; none when R289 refuses it for activation beat a. -/
def Dev.readSched (d : Dev) (t : List Byte) (a : Nat) : Option Sched :=
  let period := num t 12 4
  let nrun := num t 16 4
  let nflow := num t 20 4
  let ntrans := num t 24 2
  let nbub := num t 26 2
  let runB := entriesAt t 64 16 nrun
  let flowB := entriesAt t (64 + 16 * nrun) 16 nflow
  let transB := entriesAt t (64 + 16 * (nrun + nflow)) 32 ntrans
  let bubB := entriesAt t (64 + 16 * (nrun + nflow) + 32 * ntrans) 8 nbub
  let runs := runB.map parseRun
  let flows := flowB.map parseFlow
  let trans := transB.map parseTrans
  let bubs := bubB.map parseBub
  let pow := decide (0 < period) && decide (period ≤ 65536) && period == 2 ^ period.log2
  let header := num t 0 4 == 0x5C4E0001 && num t 8 2 == d.lnk.devid.toNat && zeroAt t 10 2 && zeroAt t 28 36 && pow &&
    decide (nrun ≤ 1048576) && decide (nflow ≤ 65536) && decide (ntrans ≤ 4096) && decide (nbub ≤ 4096)
  if header && a % period == 0 && decide (64 ≤ (a + 2 ^ 48 - d.beat) % 2 ^ 48) && !reached d.beat a &&
      runB.all runForm && flowB.all flowForm && transB.all transForm && bubB.all bubForm &&
      runs.all (d.runFits period) && !runsCollide period runs &&
      (runs.all fun r => flows.any fun f => f.flow == r.flow) && (flows.all fun f => trans.any fun x => x.tid == f.tid) && d.bubblesOk period bubs then
    some ⟨num t 4 4, period, runs, flows, trans, bubs, a⟩
  else none
/-- The length a table's header calls for. -/
def schedLength (t : List Byte) : Nat := 64 + 16 * num t 16 4 + 16 * num t 20 4 + 32 * num t 24 2 + 8 * num t 26 2
/-- SCHED_LOAD. A hold in force stays latched when HOLD gives way to ARMED. -/
def Dev.schedLoad (d : Dev) (ch : Chan) (table : List Byte) : Dev :=
  d.command ch 0x131 (fun b => bodyLen 24 b && zeroAt b 22 2 && num b 0 8 % 64 == 0 && d.dma) fun d b =>
    if !ready d then .now d Code.notReady []
    else if num b 8 8 != schedLength table || table.length != schedLength table then .now d Code.schedInvalid []
    else match d.readSched table (num b 16 6) with
      | none => .now d Code.schedInvalid []
      | some s => ok (d.onLnk fun k =>
          match k.st with
          | .nosched => { k with armed := some s, st := .armed }
          | .hold => { k with armed := some s, st := .armed, latched := true }
          | _ => { k with armed := some s })
/-- SCHED_CLEAR: NOSCHED from any state; no bubble is left open. A hold not yet released stays latched, of which R305 says nothing (DESIGN
CHOICE, log 134). -/
def Dev.schedClear (d : Dev) (ch : Chan) : Dev :=
  d.command ch 0x132 emptyForm fun d _ =>
    let d : Dev := { d with parts := Tab.mapVal (fun _ (P : Part) => { P with bubble := false }) d.parts }
    ok (d.onLnk fun k => { k with st := .nosched, active := none, armed := none, latched := k.held || k.holdRaised, holdRaised := false })

/-! ## Bubbles (R326) -/

def Dev.bubbleAt (d : Dev) (ix : Nat) : Option (Bubble × Bool) :=
  match d.lnk.active with
  | none => none
  | some s => match s.bubs[ix]? with
    | none => none
    | some b => some (b, inWindow s.period b.beat0 b.nbeat (d.beat % s.period))
/-- At a bubble's first beat the guest takes the host's arrays and vector engines. -/
def Dev.bubbleStart (d : Dev) (ix : Nat) : Dev :=
  match d.bubbleAt ix with
  | some (b, true) => d.onPart b.guest fun P => { P with bubble := true }
  | _ => d
/-- At its end they return to the host. -/
def Dev.bubbleEnd (d : Dev) (ix : Nat) : Dev :=
  match d.bubbleAt ix with
  | some (b, false) => d.onPart b.guest fun P => { P with bubble := false }
  | _ => d
/-- Whether a partition's engine operations may start now, and its array and vector operations end: a guest's only in its bubble, a
host's never in one (R326; log 127). -/
def Dev.ownsBeat (d : Dev) (p : Nat) : Bool :=
  if (d.part p).entry.guest then (d.part p).bubble else !(d.guestsOf p).any fun g => (d.part g).bubble

/-! ## Link ledgers, and the audits (R327 to R329) -/

/-- The link-credit ledgers of a port: the unscheduled one may be out of balance for one round trip (R327, R328). -/
def PortSt.inBalance (s : PortSt) : Bool :=
  (s.unschedOk || decide (s.unbal ≤ s.roundTrip)) && s.schedHeld == s.waiting.length && decide (s.waiting.length ≤ 250)
/-- Partitions with COLL flows on a port. -/
def Dev.flowParts (d : Dev) (l : Nat) : List Nat :=
  match d.lnk.active with
  | none => []
  | some s => ((s.runs.filter fun r => r.port == l && r.act != 2).filterMap fun r => (s.flow r.flow).map (·.part)).eraseDups
/-- Audits the link ledgers of a port. -/
def Dev.auditPort (d : Dev) (l : Nat) : Dev :=
  if !(d.port l).up || (d.port l).inBalance then d
  else
    let ps := d.flowParts l
    if ps.isEmpty then
      let d := (d.onErr fun e => { e with mism := e.mism ||| 1#6 }).record { recPort Code.ledgerMismatch l with aux := 56 }
      let d := d.onPort l fun s => { s.fresh with st := 1 }
      if d.scheduled l then d.raiseHold 4 else d
    else ps.foldl (fun d p => d.mismatch p 56) d
/-- The audit at a FENCE of a partition: its own ledgers and the link ledgers of ports that carry its flows. -/
def Dev.audit (d : Dev) (p : Nat) : Dev :=
  let ls := (d.lnk.ports.map (·.1)).filter fun l => (d.flowParts l).contains p
  ls.foldl Dev.auditPort (d.auditPart p)
/-- The periodic audit of every ledger, at each beat that is a multiple of 4,096. -/
def Dev.auditAll (d : Dev) : Dev :=
  if d.beat % 4096 == 0 then
    let d := d.onErr fun e => { e with abeat := d.lnk.count }
    (d.lnk.ports.map (·.1)).foldl Dev.auditPort ((List.range 16).foldl Dev.auditShared d.auditParts)
  else d

/-! ## Meanings -/

def execBeatEdge (since : Nat) (interfered : List (PIx × Fin 5)) (s : State) : Host.Outcome State Fault Refusal := s.onDev fun d => d.beatEdge since interfered
def execFlywheelBeat (s : State) : Host.Outcome State Fault Refusal := s.onDev Dev.flywheel
def execBeatConfirm (s : State) : Host.Outcome State Fault Refusal := s.onDev Dev.beatConfirm
def execBeatLoad (value : W64) (s : State) : Host.Outcome State Fault Refusal := s.onDev fun d => d.pf0Write fun d => d.beatLoad value
def execPortTrained (l : LIx) (lanesOk fallback : Bool) (delay pdev pport : Nat) (s : State) : Host.Outcome State Fault Refusal :=
  s.onDev fun d => d.portTrained l.val lanesOk fallback delay pdev pport
def execLinkDown (l : LIx) (s : State) : Host.Outcome State Fault Refusal := s.onDev fun d => d.linkDown l.val
def execFrameReceived (l : LIx) (header : List Byte) (cw : Codeword) (crcOk : Bool) (s : State) : Host.Outcome State Fault Refusal :=
  s.onDev fun d => d.frameReceived l.val header cw crcOk
def execCellReceived (l : LIx) (pos : Nat) (cell : List Byte) (cw : Codeword) (hcrcOk pcrcOk : Bool) (s : State) :
    Host.Outcome State Fault Refusal := s.onDev fun d => d.cellReceived l.val pos cell cw hcrcOk pcrcOk
def execUnschedReplay (l : LIx) (s : State) : Host.Outcome State Fault Refusal := s.onDev fun d => d.unschedReplay l.val
def execSchedCellExpire (l : LIx) (ix : Nat) (s : State) : Host.Outcome State Fault Refusal := s.onDev fun d => d.cellExpire l.val ix
def execSchedLoad (ch : Chan) (table : List Byte) (s : State) : Host.Outcome State Fault Refusal := s.onDev fun d => d.schedLoad ch table
def execSchedActivate (s : State) : Host.Outcome State Fault Refusal := s.onDev Dev.schedActivate
def execSchedClear (ch : Chan) (s : State) : Host.Outcome State Fault Refusal := s.onDev fun d => d.schedClear ch
def execPeerSilent (l : LIx) (s : State) : Host.Outcome State Fault Refusal := s.onDev fun d => d.peerSilent l.val
def execHoldHost (s : State) : Host.Outcome State Fault Refusal := s.onDev fun d => d.pf0Write fun d => d.raiseHold 5
def execHoldResumeArm (value : W64) (s : State) : Host.Outcome State Fault Refusal := s.onDev fun d => d.pf0Write fun d => d.holdArm value
def execHoldRelease (s : State) : Host.Outcome State Fault Refusal := s.onDev Dev.holdRelease
def execBubbleStart (ix : Nat) (s : State) : Host.Outcome State Fault Refusal := s.onDev fun d => d.bubbleStart ix
def execBubbleEnd (ix : Nat) (s : State) : Host.Outcome State Fault Refusal := s.onDev fun d => d.bubbleEnd ix
def execLedgerAuditPeriodic (s : State) : Host.Outcome State Fault Refusal := s.onDev Dev.auditAll

end Sys2Proof.Machine
end

