-- ==== Sys2Proof/Machine/Operands.lean ====
section
/-! DEFINITION. Operands: tensor descriptors (Table 04-5) with their checks, the logical tensor a descriptor shows, the
three spaces and the spans of R99, and reading and writing elements (02, R120 to R125). -/

namespace Sys2Proof.Machine

/-! ## Descriptors (R120, Table 04-5) -/

/-- A descriptor of 64 bytes read at `at0`. -/
def parseDesc (at0 : Nat) (b : List Byte) : Desc :=
  let n := num b 12 2
  { addrOf := at0, addr := num b 0 6, fmt := fld (num b 6 1) 3 0, ndim := fld (num b 6 1) 6 4, lsel := bit (num b 6 1) 7
    blk := fld (num b 7 1) 5 0, space := fld (num b 7 1) 7 6, conv := num b 8 2, hset := num b 10 2, walk := fld n 14 0
    sptr := num b 16 6, hptr := num b 22 6
    lens := (List.range 5).map fun i => num b (28 + 7 * i) 3
    strides := (List.range 5).map fun i => sext 32 (num b (31 + 7 * i) 4)
    rsv := bit n 15 || !zeroAt b 14 2 || !zeroAt b 63 1 }
def Desc.smode (x : Desc) : Nat := fld x.conv 2 0
def Desc.sat (x : Desc) : Bool := bit x.conv 3
def Desc.blockNan (x : Desc) : Bool := bit x.conv 4
def Desc.sr (x : Desc) : Bool := bit x.conv 5
def Desc.chdim (x : Desc) : Nat := fld x.conv 8 6
def Desc.len (x : Desc) (i : Nat) : Nat := x.lens.getD i 1
def Desc.stride (x : Desc) (i : Nat) : Int := x.strides.getD i 0
def Desc.walkAt (x : Desc) (j : Nat) : Nat := fld x.walk (3 * j + 2) (3 * j)
/-- L of R122: how many logical dimensions a descriptor has. -/
def Desc.rank (x : Desc) : Nat := if x.lsel then x.ndim - 1 else x.ndim
/-- R122. -/
def Desc.walkOk (x : Desc) : Bool :=
  let fs := (List.range x.rank).map x.walkAt
  (fs.all fun f => decide (f < x.rank)) && ((List.range x.rank).all fun i => fs.contains i) &&
  ((List.range 5).all fun j => decide (j < x.rank) || x.walkAt j == 0)
/-- The multiple that ADDR and strides keep (R124). -/
def fmtAlign (f : Nat) : Nat := if f == 0 || f == 13 then 4 else if f == 1 || f == 2 || f == 3 then 2 else 1
/-- The checks of R31, R36, R42, R44, R45 and R124 that every descriptor meets, but for its spans and its loop index. A source
uses SMODE and CHDIM of CONV alone, so its other bits are not looked at. -/
def Desc.formOk (x : Desc) : Bool :=
  decide (1 ≤ x.ndim) && decide (x.ndim ≤ 5) && decide (x.space < 3) && decide (x.fmt < 15) && !x.rsv &&
  ((List.range 5).all fun i => if i < x.ndim then x.len i != 0 else x.len i == 0 && x.stride i == 0) && x.walkOk &&
  x.addr % fmtAlign x.fmt == 0 && ((List.range x.ndim).all fun i => x.stride i % (fmtAlign x.fmt : Nat) == 0) &&
  (!isMx x.fmt || x.stride 0 == 0) && x.blk == (if isMx x.fmt then 32 else 0) && smodeOk x.smode x.fmt &&
  (x.smode == 0) == (x.sptr == 0) && (x.hptr == 0 || x.smode == 2) && (x.space != 2 || x.fmt == 0) &&
  (!(x.smode == 2 || x.smode == 4) || decide (x.chdim < x.ndim))
/-- What a target's CONV must meet besides (R42, R43, R64; R58 for the list's alignment). -/
def Desc.targetOk (x : Desc) (hscount : Nat) : Bool :=
  fld x.conv 15 9 == 0 && (!x.sr || srFmt x.fmt) && (x.hset == 0xFFFF || decide (x.hset < hscount)) && x.hptr % 16 == 0

/-! ## The logical tensor (R121 to R123) -/

/-- A descriptor with the loop index that LSEL selects. -/
structure Geo where
  d : Desc
  ix : Nat
  deriving DecidableEq, Repr

/-- Logical lengths, dimension 0 first; none at all for a single element (R123). -/
def Geo.lens (g : Geo) : List Nat := (List.range g.d.rank).map fun j => g.d.len (g.d.walkAt j)
/-- The length of logical dimension j; 1 where there is none (R108, R131). -/
def Geo.len (g : Geo) (j : Nat) : Nat := g.lens.getD j 1
def Geo.size (g : Geo) : Nat := g.lens.foldl (· * ·) 1
/-- The logical index of element n, dimension 0 fastest. -/
def unflat : List Nat → Nat → List Nat
  | [], _ => []
  | l :: ls, n => n % l :: unflat ls (n / l)
/-- The number of a logical index, with 0 for dimensions it lacks. -/
def flat : List Nat → List Nat → Nat
  | l :: ls, i :: is => i % l + l * flat ls is
  | _, _ => 0
/-- The stored index of a logical index. -/
def Geo.stored (g : Geo) (li : List Nat) : List Nat :=
  (List.range g.d.ndim).map fun i =>
    if g.d.lsel && i + 1 == g.d.ndim then g.ix
    else match (List.range g.d.rank).find? fun j => g.d.walkAt j == i with
      | some j => li.getD j 0
      | none => 0
/-- The bit of a stored index, counted from bit 0 of the byte at address 0 of its space (R35, R124). -/
def Geo.bitAt (g : Geo) (si : List Nat) : Int :=
  let w := fmtWidth g.d.fmt
  let dim (i : Nat) : Int :=
    let k : Int := (si.getD i 0 : Nat)
    if i == 0 && g.d.stride 0 == 0 then k * (w : Nat) else 8 * (k * g.d.stride i)
  (List.range g.d.ndim).foldl (fun a i => a + dim i) (8 * (g.d.addr : Int))
/-- Blocks of a row of an MX tensor (R36). -/
def Geo.rowBlocks (g : Geo) : Nat := cdiv (g.d.len 0) 32
/-- The block number of a stored index: along dimension 0 first, then along dimension 1, and so on (R36). -/
def Geo.blockOf (g : Geo) (si : List Nat) : Nat :=
  flat (g.rowBlocks :: (List.range (g.d.ndim - 1)).map fun i => g.d.len (i + 1)) (si.getD 0 0 / 32 :: si.drop 1)
/-- The scale group of a stored index: its channel along the stored dimension CHDIM, its block, or the one of the tensor. -/
def Geo.group (g : Geo) (si : List Nat) : Nat :=
  if g.d.smode == 5 then g.blockOf si else if g.d.smode == 2 || g.d.smode == 4 then si.getD g.d.chdim 0 else 0
/-- Address and bytes of the scale of a group (R36, Table 02-5). -/
def Geo.scaleAt (g : Geo) (k : Nat) : Nat × Nat := if g.d.smode == 5 then (g.d.sptr + k, 1) else (g.d.sptr + 4 * k, 4)
/-- Every stored index, in logical order. -/
def Geo.indices (g : Geo) : List (List Nat) := (List.range g.size).map fun n => g.stored (unflat g.lens n)
/-- The byte span [lo, hi) of R99. The rows of an MX tensor take whole blocks (R124). -/
def Geo.span (g : Geo) : Int × Int :=
  let w := fmtWidth g.d.fmt
  let packed := g.d.stride 0 == 0
  let slice0 := g.d.lsel && g.d.ndim == 1
  let n0 := if isMx g.d.fmt then 32 * g.rowBlocks else g.d.len 0
  let pick : Int := if slice0 && packed then ((g.ix * w : Nat) : Int) else 8 * ((g.ix : Int) * g.d.stride (g.d.ndim - 1))
  let base : Int := 8 * (g.d.addr : Int) + (if g.d.lsel then pick else 0)
  let row : Int × Int :=
    if slice0 then (0, (w : Nat))
    else if packed then (0, (n0 * w : Nat))
    else (min 0 (8 * (((n0 - 1 : Nat) : Int) * g.d.stride 0)), max 0 (8 * (((n0 - 1 : Nat) : Int) * g.d.stride 0)) + (w : Nat))
  let others := (List.range g.d.rank).filter (· != 0)
  let ext (i : Nat) : Int := 8 * (((g.d.len i - 1 : Nat) : Int) * g.d.stride i)
  let lo := others.foldl (fun a i => a + min 0 (ext i)) (base + row.1)
  let hi := others.foldl (fun a i => a + max 0 (ext i)) (base + row.2)
  (lo / 8, (hi + 7) / 8)
/-- How many scale groups a descriptor's scale array holds up to its slice's last one. -/
def Geo.groupCount (g : Geo) : Nat :=
  if g.d.smode == 5 then
    let rows := (List.range (g.d.ndim - 1)).foldl (fun n i => n * (if g.d.lsel && i + 2 == g.d.ndim then g.ix + 1 else g.d.len (i + 1))) 1
    if g.d.ndim == 1 && g.d.lsel then g.ix / 32 + 1 else g.rowBlocks * rows
  else if g.d.smode == 2 || g.d.smode == 4 then g.d.len g.d.chdim
  else 1
/-- The scale span of R99, for a descriptor with scales. -/
def Geo.scaleSpan (g : Geo) : Option (Int × Int) :=
  if g.d.smode == 0 then none
  else
    let (a, w) := g.scaleAt (g.groupCount - 1)
    some ((g.d.sptr : Int), ((a + w : Nat) : Int))

/-! ## Spaces (R121, R200, R204, R250, R309, R325) -/

/-- What a bank of a tile is to a partition: SPACE 01b, SPACE 10b, or neither. -/
inductive BankUse where
  | sram | acc | none
  deriving DecidableEq, Repr

/-- Bank n of the linear SRAM space of a partition: its tile's rank, the tile, the bank on it, and its use. A guest's space is
made of its guest banks, by tile rank; its first ACCB of them on a tile are its accumulator banks (R309, R325). -/
def Dev.bankOf (d : Dev) (p n : Nat) : Option (Nat × Nat × Nat × BankUse) :=
  let P := d.part p
  let e := P.entry
  let ts := d.tilesOf p
  let per := if e.guest then (d.part e.hostp).entry.gbanks else 16
  if per = 0 then none
  else match ts[n / per]? with
    | none => none
    | some t =>
      let b := n % per
      let buffer := e.mode == .distil && t == e.leader && decide (16 - P.dist.pbanks ≤ b)
      let use := if buffer then BankUse.none else if b < e.accb then .acc else if !e.guest && decide (16 - e.gbanks ≤ b) then .none else .sram
      some (n / per, t, if e.guest then 16 - per + b else b, use)
/-- Whether a tile rank belongs to the group of stream q (R200). -/
def Part.ranksOf (P : Part) (q k : Nat) : Bool :=
  P.entry.mode != .distil || (if q == 3 then decide (k < P.entry.nteach) else decide (P.entry.nteach ≤ k))
/-- Whether [lo, hi) of a space is in reach of stream q: inside 48 bits and no KV extent, or in banks of the space's use. -/
def Dev.spanOk (d : Dev) (p q space : Nat) (s : Int × Int) : Bool :=
  if s.1 < 0 then false
  else
    let lo := s.1.toNat
    let hi := s.2.toNat
    if space == 0 then
      decide (hi ≤ 2 ^ 48) && (d.part p).ext.all fun x => x.2.kind != 3 || decide (hi ≤ x.2.vbase) || decide (x.2.vbase + x.2.len ≤ lo)
    else
      let want := if space == 1 then BankUse.sram else BankUse.acc
      (List.range ((hi - 1) / 2 ^ 21 + 1 - lo / 2 ^ 21)).all fun i => match d.bankOf p (lo / 2 ^ 21 + i) with
        | some (k, _, _, u) => u == want && (d.part p).ranksOf q k
        | none => false
/-- Whether a descriptor's spans stay in its space (R124). -/
def Dev.spansOk (d : Dev) (p q : Nat) (g : Geo) : Bool :=
  d.spanOk p q g.d.space g.span && (match g.scaleSpan with
    | some s => d.spanOk p q g.d.space s
    | none => true)
/-- Whether a descriptor is accepted: its form, its slice and its spans (R120 to R124). -/
def Dev.descOk (d : Dev) (p q : Nat) (loop : Option Nat) (x : Desc) : Bool :=
  x.formOk && (!x.lsel || (match loop with
    | some i => decide (i < x.len (x.ndim - 1))
    | none => false)) && d.spansOk p q ⟨x, loop.getD 0⟩

/-! ## Bytes of a space -/

/-- Where a byte of a space lies: in SRAM or the stacks, at a place of the model's own numbering; whether a failed shard
covers it; and for bytes of a base the base and layer. -/
structure Loc where
  sram : Bool
  loc : Nat
  bad : Bool
  ro : Bool
  shared : Option (Nat × Nat)
  deriving DecidableEq, Repr

/-- Locates a byte; none in no extent. `new` says which bases' replaced tables a wave follows (R272). -/
def Dev.locate (d : Dev) (p : Nat) (new : Nat → Bool) (space a : Nat) : Option Loc :=
  if space == 0 then
    match d.resolve p a new with
    | none => none
    | some x => some ⟨false, x.pa, x.bad, x.kind == 1, if x.kind == 1 then some (x.base, x.layer) else none⟩
  else match d.bankOf p (a / 2 ^ 21) with
    | none => none
    | some (_, t, b, _) => some ⟨true, sramAt t (b * 2 ^ 21 + a % 2 ^ 21), false, false, none⟩
/-- The byte at a place. -/
def Dev.byteAt (d : Dev) (l : Loc) : Byte := if l.sram then Memory.read d.sram l.loc else Memory.read d.mem.bytes l.loc
/-- Whether the byte at a place fails its parity check. -/
def Dev.failsAt (d : Dev) (l : Loc) : Bool := l.bad || (if l.sram then Ivl.mem d.sramBad l.loc else Ivl.mem d.mem.bad l.loc)

/-! ## What an operation reads -/

/-- The running step's view of a base: whether the wave began after the switch (R270, R272). -/
def Dev.sees (d : Dev) (p b : Nat) : Bool :=
  match (d.part p).step with
  | none => true
  | some s => match s.baseGen.find? fun x => x.1 == b with
    | some x => x.2 == (d.base b).gen.toNat
    | none => true
/-- The bytes of a space from a first bit on that w bits touch. -/
def bytesOfBits (b : Int) (w : Nat) : List Int :=
  let lo := b / 8
  (List.range ((b + (w : Nat) + 7) / 8 - lo).toNat).map fun (i : Nat) => lo + (i : Int)
/-- What to read: for each element or scale its space, and the addresses of its bytes. -/
abbrev Reads := List (Nat × List Nat)
/-- The bytes of what is to be read. -/
def Reads.flat (rs : Reads) : List (Nat × Nat) := rs.flatMap fun r => r.2.map fun a => (r.1, a)
/-- Reads n bytes of a space from an address up as one. -/
def readRun (space a n : Nat) : Reads := [(space, (List.range n).map fun i => a + i)]
/-- Bit places that an operation reads, each an element or a scale: a space, its first bit, and its width. -/
abbrev Places := List (Nat × Int × Nat)
def Places.reads (l : Places) : Reads := l.map fun x => (x.1, (bytesOfBits x.2.1 x.2.2).map Int.toNat)
/-- The place of n bytes from an address up. -/
def bytePlace (space a n : Nat) : Nat × Int × Nat := (space, 8 * (a : Int), 8 * n)
/-- The elements of an operand in logical order, then its scales. -/
def Geo.places (g : Geo) : Places :=
  g.indices.map (fun si => (g.d.space, g.bitAt si, fmtWidth g.d.fmt)) ++
    if g.d.smode == 0 then [] else (List.range g.groupCount).map fun j => bytePlace g.d.space (g.scaleAt j).1 (g.scaleAt j).2
/-- The scales of a list of groups. -/
def Geo.scaleReads (g : Geo) (groups : List Nat) : Reads :=
  (groups.foldl (fun t k => Tab.put t k ()) []).flatMap fun x => let (a, w) := g.scaleAt x.1; readRun g.d.space a w
/-- What reading an operand touches: its elements in logical order, then the scales of their groups. -/
def Geo.reads (g : Geo) : Reads :=
  let ixs := g.indices
  ixs.map (fun si => (g.d.space, (bytesOfBits (g.bitAt si) (fmtWidth g.d.fmt)).map Int.toNat)) ++
    if g.d.smode == 0 then [] else g.scaleReads (ixs.map g.group)
/-- The places of a set of bytes; none when one is unmapped. -/
def Dev.locateAll (d : Dev) (p : Nat) : List (Nat × Nat) → Option (List Loc)
  | [] => some []
  | (s, a) :: rs => match d.locate p (d.sees p) s a, d.locateAll p rs with
    | some l, some ls => some (l :: ls)
    | _, _ => none
/-- The layers that a set of places touches, base by base: the lowest and the highest. -/
def layersOf (ls : List Loc) : List (Nat × Nat × Nat) :=
  ls.foldl (fun t l => match l.shared with
    | none => t
    | some (b, j) => match Tab.get? t b with
      | some (lo, hi) => Tab.put t b (min lo j, max hi j)
      | none => Tab.put t b (j, j)) ([] : Tab (Nat × Nat))
/-- A wave's position in a base (R271); -1 as 0 before the first read, and a layer j as j + 1. -/
def StepRun.position (s : StepRun) (b : Nat) : Nat := match s.basePos.find? fun x => x.1 == b with
  | some x => x.2
  | none => 0
/-- The wave that runs in a partition: its program has begun, or the copies before it. -/
def Part.waveRun (P : Part) : Option StepRun := P.step.filter fun s => s.phase == 1
/-- Reads the bytes at some places of bases in their order, from a wave's positions on; whether one lies in a layer below the position
that the read before it left, in a base that `replaced` picks (R271). -/
def orderGo (replaced : Nat → Bool) (pos : Nat → Nat) : Tab Nat → List Loc → Bool
  | _, [] => false
  | t, l :: ls => match l.shared with
    | none => orderGo replaced pos t ls
    | some (b, j) => (replaced b && decide (j + 1 < (Tab.get? t b).getD (pos b))) || orderGo replaced pos (Tab.put t b (j + 1)) ls
/-- Whether reading some places breaks R271: a wave reads below its position, or an operation reads a base in replacement outside a wave. -/
def Dev.orderBad (d : Dev) (p : Nat) (ls : List Loc) : Bool :=
  let replaced (b : Nat) : Bool := (d.base b).rst != .idle
  match (d.part p).waveRun with
  | none => ls.any fun l => match l.shared with
    | some (b, _) => replaced b
    | none => false
  | some s => orderGo replaced s.position [] ls
/-- Whether a read of a layer range waits at the barrier of a replacement (R272). -/
def Dev.barred (d : Dev) (p : Nat) (x : Nat × Nat × Nat) : Bool :=
  let B := d.base x.1
  B.rst != .idle && B.switched && (d.part p).waveRun.isSome && d.sees p x.1 && decide (B.front ≤ x.2.2)
/-- Moves the running wave's position in each base it has read: to the layer of the last shard read, in the order of the places
(R271). -/
def Dev.movePositions (d : Dev) (p : Nat) (ls : List Loc) : Dev :=
  d.onPart p fun P => { P with step := P.step.map fun s =>
    if s.phase != 1 then s
    else { s with basePos := ls.foldl (fun l x => match x.shared with
      | none => l
      | some (b, j) => (b, j + 1) :: l.filter fun y => y.1 != b) s.basePos } }
/-- The SRAM parity failures of an operation: the named bytes fail from now on (R91, R147, R258). -/
def Dev.strike (d : Dev) (gl : List Glitch) : Dev :=
  { d with sramBad := gl.foldl (fun b g => match g with
      | .sram t off n => Ivl.add b (sramAt t.val off) (sramAt t.val off + n)
      | _ => b) d.sramBad }
/-- The record of a failing byte at an address of its space: the tile and bank, or the stack and the PA (R91, R147, R156). -/
def parityRec (p : Nat) (x : Nat × Loc) : ErrRec :=
  if x.2.sram then
    { recP Code.parityData p with unit := 1, index := x.2.loc / 2 ^ 25, bank := x.2.loc / 2 ^ 21 % 16, av := true, addr := x.1 }
  else { recP Code.parityData p with unit := 2, index := fld x.2.loc 14 11, av := true, phys := true, addr := x.2.loc }
/-- One record of PARITY_DATA for each element or scale that fails, at its first failing byte. -/
def Dev.parityData (d : Dev) (p : Nat) (els : List (List (Nat × Loc))) : Dev :=
  (els.filterMap fun e => e.find? fun x => d.failsAt x.2).foldl (fun d x => d.detect (parityRec p x)) d
/-- What is to be read, with the places of its bytes. -/
def Dev.placed (d : Dev) (p : Nat) (rs : Reads) : List (List (Nat × Loc)) :=
  rs.map fun r => r.2.filterMap fun a => (d.locate p (d.sees p) r.1 a).map fun l => (a, l)
/-- Reads bytes at known places for partition p: stack units read and re-read (Table 10-3), failing elements of `rs` recorded.
`data` is false for bytes that direct the part's work, which count under PARITY_CTRL and not here (R384). -/
def Dev.touch (d : Dev) (p : Nat) (gl : List Glitch) (data : Bool) (rs : Reads) (ls : List Loc) : Dev :=
  let d := d.readUnits p gl (unitsOf ((ls.filter fun l => !l.sram).map (·.loc)))
  if data && ls.any d.failsAt then d.parityData p (d.placed p rs) else d

/-! ## Elements -/

/-- The code at a bit of a space and whether one of its bytes fails. -/
def Dev.codeAt (d : Dev) (p space : Nat) (b : Int) (w : Nat) : Nat × Bool :=
  let as := bytesOfBits b w
  let ls := as.map fun a => d.locate p (d.sees p) space a.toNat
  let n := leNat (ls.map fun l => match l with
    | some l => d.byteAt l
    | none => 0)
  ((n >>> (b % 8).toNat) % 2 ^ w, ls.any fun l => match l with
    | some l => d.failsAt l
    | none => false)
/-- The scale code of a group. -/
def Dev.scaleCode (d : Dev) (p : Nat) (g : Geo) (k : Nat) : Nat × Bool :=
  let (a, w) := g.scaleAt k
  d.codeAt p g.d.space (8 * (a : Int)) (8 * w)
/-- The scale of a group as a value: the F32 stored, and NaN for one that fails its check (R446, R91). -/
def Dev.scaleVal (d : Dev) (p : Nat) (g : Geo) (k : Nat) : Val :=
  let (c, bad) := d.scaleCode p g k
  if bad then .nan false else fmtF32.decode c
/-- An element as it enters an operation: its exact value with its scale, and whether it is poisoned, when it is NaN. -/
structure In where
  v : Val
  bad : Bool
  deriving DecidableEq, Repr
/-- The value at a stored index (R34, R52, R91, R147). -/
def Dev.elemAt (d : Dev) (p : Nat) (g : Geo) (si : List Nat) : In :=
  let (c, b) := d.codeAt p g.d.space (g.bitAt si) (fmtWidth g.d.fmt)
  if g.d.smode == 0 then (if b then ⟨.nan false, true⟩ else ⟨decodeElem g.d.fmt c, false⟩)
  else
    let (sc, sb) := d.scaleCode p g (g.group si)
    if b || sb then ⟨.nan false, true⟩
    else ⟨if g.d.smode == 5 then decodeBlock g.d.fmt c sc else decodeScaled g.d.fmt c (fmtF32.decode sc), false⟩
/-- Every element of an operand, in logical order. -/
def Dev.values (d : Dev) (p : Nat) (g : Geo) : List In := g.indices.map (d.elemAt p g)
/-- The element of a list of values in logical order at a logical index, with broadcast along lengths of 1. -/
def pick (lens : List Nat) (vs : List In) (li : List Nat) : In := vs.getD (flat lens li) ⟨.zero, false⟩

/-! ## Writing -/

/-- A byte to write: its address and the bits of it that are given. -/
structure BitByte where
  addr : Nat
  val : Nat
  mask : Nat
  deriving DecidableEq, Repr
/-- Adds w bits of a code at bit b to a table of bytes in ascending address. -/
def addBits (t : Tab (Nat × Nat)) (b : Int) (w code : Nat) : Tab (Nat × Nat) :=
  let sh := (b % 8).toNat
  let v := (code % 2 ^ w) <<< sh
  let m := (2 ^ w - 1) <<< sh
  (bytesOfBits b w).zipIdx.foldl (fun t x =>
    let a := x.1.toNat
    let vb := (v >>> (8 * x.2)) % 256
    let mb := (m >>> (8 * x.2)) % 256
    let (v0, m0) := Tab.get (0, 0) t a
    Tab.put t a (Nat.lor (Nat.land v0 (255 - mb)) vb, Nat.lor m0 mb)) t
/-- The stored indices of the padding elements of an MX tensor's rows (R37). -/
def Geo.padding (g : Geo) : List (List Nat) :=
  if !isMx g.d.fmt || (g.d.lsel && g.d.ndim == 1) || g.d.len 0 % 32 == 0 then []
  else (g.indices.filter fun si => si.getD 0 0 == 0).flatMap fun si =>
    (List.range (32 * g.rowBlocks - g.d.len 0)).map fun i => si.set 0 (g.d.len 0 + i)
/-- What writing an operand comes to: the located bytes in logical order, and the fault that a byte meets first (R250). -/
structure Sink where
  bytes : List OutByte
  fault : Option Nat
  deriving DecidableEq, Repr
def Sink.empty : Sink := ⟨[], none⟩
/-- Appends what comes later: nothing after a fault. -/
def Sink.append (s t : Sink) : Sink := if s.fault.isSome then s else ⟨s.bytes ++ t.bytes, t.fault⟩
/-- Locates a table of bytes, merging bits that are not given with what is stored. A byte of a KV extent is written where `kv` allows it:
by the KV window alone (R248). -/
def Dev.sinkIn (d : Dev) (p : Nat) (kv : Bool) (space : Nat) : Tab (Nat × Nat) → Sink
  | [] => .empty
  | (a, v, m) :: t =>
    match if !kv && space == 0 && !(d.part p).kvFree a 1 then none else d.locate p (fun _ => false) space a with
    | none => ⟨[], some Code.extUnmapped⟩
    | some l =>
      if l.ro then ⟨[], some Code.extWriteRo⟩
      else Sink.append ⟨[⟨l.sram, l.loc, BitVec.ofNat 8 (Nat.lor (Nat.land (d.byteAt l).toNat (255 - m)) v), m != 255 && d.failsAt l⟩], none⟩ (d.sinkIn p kv space t)
def Dev.sinkTab (d : Dev) (p space : Nat) (t : Tab (Nat × Nat)) : Sink := d.sinkIn p false space t
/-- Plain bytes from an address up, as a table of bytes; and located. -/
def byteTab (a : Nat) (bs : List Byte) : Tab (Nat × Nat) := bs.zipIdx.map fun x => (a + x.2, x.1.toNat, 255)
def Dev.sinkBytes (d : Dev) (p space a : Nat) (bs : List Byte) : Sink := d.sinkTab p space (byteTab a bs)
/-- The bytes that writing codes in logical order gives, padding as +0, then the scales given by group. -/
def Dev.sinkCodes (d : Dev) (p : Nat) (g : Geo) (codes : List Nat) (scales : List (Nat × Nat)) : Sink :=
  let w := fmtWidth g.d.fmt
  let t := (g.indices.zip codes).foldl (fun t x => addBits t (g.bitAt x.1) w x.2) []
  let t := g.padding.foldl (fun t si => addBits t (g.bitAt si) w 0) t
  let st := scales.foldl (fun t x => let (a, n) := g.scaleAt x.1; addBits t (8 * (a : Int)) (8 * n) x.2) []
  (d.sinkTab p g.d.space t).append (d.sinkTab p g.d.space st)
/-- The physical addresses of the stack bytes among located bytes. -/
def stackBytes (bs : List OutByte) : List Nat := (bs.filter fun b => !b.sram).map (·.loc)
/-- Counts the writing of located bytes against partition p (R316). -/
def Dev.chargeBytes (d : Dev) (p : Nat) (bs : List OutByte) : Dev := d.charge p 1 (unitBytes (stackBytes bs))
/-- Writes located bytes of partition p (R259 to R261) that the stack-write regulator has counted: a stack unit written in part is read
first, a page whose tag fails takes nothing, and a poisoned byte stays one. -/
def Dev.putBytes (d : Dev) (p : Nat) (gl : List Glitch) (bs : List OutByte) : Dev :=
  let stack := bs.filter fun b => !b.sram
  let d := d.writeServed p gl (stack.map fun b => (b.loc, b.val))
  let d := (bs.filter (·.sram)).foldl (fun d b => d.sramWrite b.loc [b.val]) d
  (bs.filter (·.bad)).foldl (fun d b =>
    if b.sram then { d with sramBad := Ivl.add d.sramBad b.loc (b.loc + 1) }
    else d.onMem fun m => { m with bad := Ivl.add m.bad b.loc (b.loc + 1) }) d

end Sys2Proof.Machine
end

