-- ==== Sys2Proof/Machine/Flags.lean ====
section
/-! DEFINITION. What converting a result leaves beside the bytes: format-health counts (R64 to R66), the FLAGS and other
summaries of R138, hot-channel write-backs (R60) and stochastic-rounding ranges (R55). -/

namespace Sys2Proof.Machine

/-! ## Format-health counts -/

/-- The global set that a descriptor's health-set field names in a partition; none when its counts are discarded (R64). -/
def Entry.hcGlobal (e : Entry) (hset : Nat) : Option Nat :=
  if e.hscount == 0 then none else some (e.hsbase + (if hset == 0xFFFF then 0 else hset))
/-- Saturating addition to one counter of a set (R66). -/
def hcAdd1 (a b : Nat) : Nat := satAdd 64 a b
/-- Adds one operation's counts to a set. -/
def HcSet.addOp (h : HcSet) (owner : Nat) (cats : List Nat) : HcSet :=
  { cats := List.zipWith hcAdd1 h.cats cats
    satf := h.satf || (List.zipWith (fun a b => decide (2 ^ 64 - 1 ≤ a + b)) h.cats cats).any id
    owner := owner, ops := satAdd 32 h.ops 1 }
/-- The counts of one operation, gathered by set. -/
def mergeHealth (l : List HcAdd) : List (Nat × List Nat) :=
  l.foldl (fun t x => Tab.put t x.set (addCats (Tab.get zeroCats t x.set) x.cats)) []
/-- Adds the counts of one operation of partition p, all at once (R66). -/
def Dev.addHealth (d : Dev) (p : Nat) (l : List HcAdd) : Dev :=
  (mergeHealth l).foldl (fun d x => d.setHc x.1 ((d.hcSet x.1).addOp p x.2)) d

/-! ## Stochastic-rounding ranges (R55, R201) -/

/-- C_s of a stream. -/
def Part.srCounter (P : Part) (q : Nat) : Nat := if q == 3 then P.dist.srT.toNat else (P.srCtr.getD q 0).toNat
def Part.setSrCounter (P : Part) (q n : Nat) : Part :=
  if q == 3 then { P with dist := { P.dist with srT := BitVec.ofNat 64 n } } else { P with srCtr := setAt P.srCtr q (BitVec.ofNat 64 n) }
/-- Takes one range for each target with SR set, in slot order: the first counter value of each target, 0 without SR. -/
def takeRanges (c : Nat) : List Geo → List Nat × Nat
  | [] => ([], c)
  | g :: gs =>
    if g.d.sr then
      let (l, c') := takeRanges (m64 (c + cdiv g.size 4)) gs
      (c :: l, c')
    else
      let (l, c') := takeRanges c gs
      (0 :: l, c')

/-! ## Converting into a target -/

/-- What writing one output comes to: its bytes, its counts, FLAGS bits 0 to 4, and the values as written. -/
structure Emit where
  sink : Sink
  health : List HcAdd
  flags : Nat
  written : List Val
  deriving DecidableEq, Repr
def Emit.empty : Emit := ⟨.empty, [], 0, []⟩
/-- Outputs of one operation in slot order; the values are the primary one's. -/
def Emit.append (a b : Emit) : Emit := ⟨a.sink.append b.sink, a.health ++ b.health, Nat.lor a.flags b.flags, a.written⟩

/-- The hot channels of a target's list as its operation read it, with their entries' numbers (R58). -/
def Flight.hotsOf (f : Flight) (x : Desc) : List (Nat × HotEnt × Nat) :=
  if x.hptr == 0 || x.smode != 2 then []
  else (hotEntries (Tab.get [] f.hotIn x.hptr)).zipIdx.map fun y => (y.1.chan, y.1, y.2)
/-- The bytes of a list that a write-back stores: FLAGS, EST and SCALE of each entry (R58, R60). -/
def Dev.hotSink (d : Dev) (p : Nat) (x : Desc) (l : List (Nat × Val × Val × Bool)) : Sink :=
  l.foldl (fun s y =>
    let o := x.hptr + 16 + 16 * y.1
    (s.append (d.sinkBytes p 0 (o + 5) [BitVec.ofNat 8 (b2n y.2.2.2)])).append
      (d.sinkBytes p 0 (o + 8) (natLe 4 y.2.1.to32.toNat ++ natLe 4 y.2.2.1.to32.toNat))) .empty
/-- FLAGS bits 0 to 4 of a conversion (Table 05-5). -/
def Conv.flags (c : Conv) : Nat :=
  let n (i : Nat) : Nat := b2n (decide (0 < c.cats.getD i 0))
  b2n c.nans + 2 * b2n c.infs + 4 * n 4 + 8 * n 5 + 16 * n 2
/-- The value that a code stands for in a target, under the scale of its group. -/
def decodeIn (fmt smode code : Nat) (scale : Option Nat) : Val :=
  match scale with
  | none => decodeElem fmt code
  | some s => if smode == 5 then decodeBlock fmt code s else decodeScaled fmt code (fmtF32.decode s)
/-- Converts values in logical order into a target of an operation of stream q of partition p (R46 to R61), with the draws from c0
on, under the key and the lists that the operation took at issue (R57, R58). Outputs of one operation that name one list all use it
as read, and the later slot's write-back comes last (DESIGN CHOICE, log 110). -/
def Dev.emitTo (d : Dev) (p q : Nat) (f : Flight) (g : Geo) (c0 : Nat) (vs : List Elem) : Emit :=
  let P := d.part p
  let x := g.d
  let groups := g.indices.map g.group
  let keys := (groups.foldl (fun t k => Tab.put t k ()) []).map (·.1)
  let given := if x.smode == 3 || x.smode == 4 then keys.map fun k => (k, d.scaleVal p g k) else []
  let c := convert ⟨x.fmt, x.smode, x.sr, x.sat, x.blockNan⟩ groups given (f.hotsOf x) f.srKey.toNat q c0 vs
  let scales := c.scales.foldl (fun t s => Tab.put t s.1 s.2) []
  let scaleOf (k : Nat) : Option Nat :=
    if x.smode == 0 then none
    else if x.smode == 3 || x.smode == 4 then some (d.scaleVal p g k).to32.toNat
    else Tab.get? scales k
  { sink := (d.sinkCodes p g c.codes scales).append (d.hotSink p x c.hot)
    health := match P.entry.hcGlobal x.hset with
      | some n => [⟨n, c.cats⟩]
      | none => []
    flags := c.flags
    written := (groups.zip c.codes).map fun y => decodeIn x.fmt x.smode y.2 (scaleOf y.1) }
/-- The elements of F32 results: an infinity that an overflow made counts as one (R65). -/
def elemsOf (vs : List Fl) : List Elem := vs.map fun x => ⟨x.v, x.o && x.v.isInf⟩

/-! ## Summaries (Tables 05-4 and 05-5) -/

/-- The summary SUMK over the primary destination's values as written. `flags` is the whole FLAGS value. -/
def summary (sumk : Nat) (vs : List Val) (flags empties infs : Nat) : BitVec 64 :=
  let ent := vs.map fun v => (Fl.enter v).v
  let f32 (v : Val) : BitVec 64 := BitVec.ofNat 64 v.to32.toNat
  match sumk with
  | 1 => f32 (vs.foldl amaxOf .zero).r32
  | 2 => f32 (canon ent).v
  | 3 => f32 (dotF ent ent).v
  | 4 => BitVec.ofNat 64 (vs.filter fun v => !v.isFinite).length
  | 5 => BitVec.ofNat 64 flags
  | 6 => BitVec.ofNat 64 empties
  | 7 => BitVec.ofNat 64 infs
  | _ => 0

end Sys2Proof.Machine
end

