-- ==== Sys2Proof/Machine/Streams.lean ====
section
/-! DEFINITION. Streams (04): which row of the table the operation at a stream's PC is, what stops its issue, the operations
that the sequencer carries out by itself, and the doorbells. -/

namespace Sys2Proof.Machine

/-! ## Operation words (R103, Table 04-2) -/

/-- Bytes lo to hi of an operation word. -/
def byt (w hi lo : Nat) : Nat := fld w (8 * hi + 7) (8 * lo)
/-- A descriptor index, 16 bits from byte b. -/
def slotAt (w b : Nat) : Nat := byt w (b + 1) b
def vmodOf (w : Nat) : Nat := byt w 3 2
def immOf (w : Nat) : Nat := byt w 15 12
def immReg (w : Nat) : Bool := bit (vmodOf w) 15
/-- SDST of a VEC operation is byte 10, of a COLL operation byte 8. -/
def sdstOf (w : Nat) : Nat := if byt w 0 0 == 3 then byt w 8 8 else byt w 10 10
def sdstOn (n : Nat) : Bool := bit n 7
def sdstOk (n : Nat) : Bool := fld n 6 5 == 0
/-- A register operand of stream q (R104, R201). -/
def regOk (q n : Nat) : Bool := !bit n 7 && (if q == 3 then fld n 6 5 == 0 else fld n 6 5 != 3)
/-- The stream and register of a register operand; 00b names the teacher's own registers in the teacher stream (R201). -/
def regOf (q n : Nat) : Nat × Nat := (if q == 3 then 3 else fld n 6 5, fld n 4 0)
def Dev.sum (d : Dev) (p : Nat) (r : Nat × Nat) : BitVec 64 := Tab.get 0 (d.seq p r.1).sums r.2
def Dev.setSum (d : Dev) (p q r : Nat) (v : BitVec 64) : Dev := d.onSeq p q fun s => { s with sums := Tab.put s.sums r v }

/-! ## Rows -/

/-- The rows of the table that a stream operation can be. `bad` is an operation that no row lists. -/
inductive Row where
  | forward | pair | dxOnly | dwOnly | adapter | attention | teacher | student | kvAppend
  | vop (n : Nat)
  | coll (k : Nat)
  | waitb | waits | post | br | loop | call | ret | fence | halt
  | bad
  deriving DecidableEq, Repr

/-- Whether a descriptor names a window address. -/
def Part.windowed (P : Part) (x : Desc) : Bool :=
  x.space == 0 && P.inWindow x.addr

/-- The descriptor table of a stream: base and count (R120, R198). -/
def Part.descTable (P : Part) (q : Nat) : Nat × Nat :=
  let w := (if q == 3 then P.sqDescT else P.sqDesc).toNat
  (fld w 47 6 * 64, fld w 63 48)
/-- ADDR of descriptor i, where the table holds it. -/
def Dev.descAddr (d : Dev) (p q i : Nat) : Option Nat :=
  let (b, n) := (d.part p).descTable q
  if i < n then some (num (d.peek p (b + 64 * i) 6) 0 6) else none
def addrIn (w : Option (Nat × Nat)) (a : Option Nat) : Bool :=
  match a with
  | some a => inWin w a
  | none => false
/-- VOPs of Tables 05-2 and 06-3. -/
def vopListed (n : Nat) : Bool :=
  (decide (1 ≤ n) && decide (n ≤ 0x0C)) || (decide (0x10 ≤ n) && decide (n ≤ 0x13)) || n == 0x18 || n == 0x19 || n == 0x1C || n == 0x1D ||
  (decide (0x20 ≤ n) && decide (n ≤ 0x24)) || (decide (0x28 ≤ n) && decide (n ≤ 0x2B)) || n == 0x30 || n == 0x31 ||
  (decide (0x34 ≤ n) && decide (n ≤ 0x37)) || (decide (0x40 ≤ n) && decide (n ≤ 0x47)) || n == 0x80 || n == 0x82 || n == 0x83
/-- The row that an operation word is for stream q of partition p. -/
def Dev.rowOf (d : Dev) (p q w : Nat) : Row :=
  let P := d.part p
  match byt w 0 0 with
  | 1 =>
    match fld (byt w 1 1) 2 0 with
    | 0 =>
      let d1 := d.descAddr p q (slotAt w 4)
      let d2 := d.descAddr p q (slotAt w 6)
      if addrIn P.podWindow d1 then .adapter
      else if addrIn P.kvWindow d1 then .attention
      else if addrIn P.twin d2 then .teacher
      else if addrIn P.swin d2 then .student
      else .forward
    | 1 => .pair
    | 2 => .dxOnly
    | 3 => .dwOnly
    | _ => .bad
  | 2 =>
    let v := byt w 1 1
    if v == 1 && addrIn P.kvWindow (d.descAddr p q (slotAt w 4)) then .kvAppend else if vopListed v then .vop v else .bad
  | 3 => if decide (1 ≤ byt w 1 1) && decide (byt w 1 1 ≤ 6) then .coll (byt w 1 1) else .bad
  | 4 => .waitb
  | 5 => .waits
  | 6 => .post
  | 7 => .br
  | 8 => .loop
  | 9 => .call
  | 10 => .ret
  | 11 => .fence
  | 12 => .halt
  | _ => .bad

/-! ## Where a stream goes next (R113) -/

/-- The address of the next operation: a body's end goes back to its first operation until COUNT iterations have run. The loop
looked at is the one pushed last; of loops that do not nest, whose bodies end outside the one around them, the spec says nothing
further (DESIGN CHOICE, log 106). -/
def nextPc : List CtlEntry → Nat → List CtlEntry × Nat
  | .loop f b c i :: t, a =>
    if a == (f + 16 * b) % 2 ^ 48 then (if i + 1 < c then (.loop f b c (i + 1) :: t, f) else nextPc t a) else (.loop f b c i :: t, a)
  | l, a => (l, a)
def Seq.goto (s : Seq) (a : Nat) : Seq :=
  let (st, pc) := nextPc s.stack (a % 2 ^ 48)
  { s with stack := st, pc := pc }
/-- A stream steps to its next operation when it issues one; at the end of a loop's body the index advances, or the entry is popped, with
the issue of the body's last operation, be it a FENCE or a HALT that is not reached yet (DESIGN CHOICE, log 99). -/
def Seq.next (s : Seq) : Seq := s.goto (s.pc + 16)
/-- Whether an address lies in a loop's body. -/
def inBody (f b a : Nat) : Bool := decide (f ≤ a) && decide (a < f + 16 * b)
/-- Loops that a taken branch leaves: the outermost one that excludes the target and everything above it, down to the most
recent CALL entry. -/
def popLoops : List CtlEntry → Nat → List CtlEntry
  | .loop f b c i :: t, a =>
    let t' := popLoops t a
    if inBody f b a && t'.length == t.length then .loop f b c i :: t else t'
  | l, _ => l
/-- The loop index that LSEL selects by: that of the most recently pushed loop entry (R123). -/
def loopIndex : List CtlEntry → Option Nat
  | [] => none
  | .loop _ _ _ i :: _ => some i
  | .call _ :: t => loopIndex t

/-! ## Fetching -/

/-- Engine operations in flight. -/
def Seq.inflight (s : Seq) : Nat := (s.items.filter fun i => match i with
  | .op _ => true
  | .post _ _ _ => false).length
/-- Whether a partition's streams may run: it is ACTIVE or YIELDING. -/
def Part.runs (P : Part) : Bool := P.st == .active || P.st == .yielding
/-- Whether they run now: with the clocks stopped nothing is issued, started or completed (R364). -/
def Dev.running (d : Dev) (p : Nat) : Bool := (d.part p).runs && !d.ckr.clockWait
/-- Whether stream q of partition p may fetch its next operation: with 8 engine operations in flight it issues nothing (R99), and its read
waits for the regulator (R315). -/
def Dev.fetches (d : Dev) (p q : Nat) : Bool :=
  let P := d.part p
  d.running p && P.streams.contains q && (P.seq q).st == .run && (P.seq q).hold == .none && decide ((P.seq q).inflight < 8) &&
    d.servable p [0]
/-- What a fetch of n bytes that direct the part's work comes to (R250, R384): like any read it keeps the order of a base in
replacement (R271), and a KV extent is not read (R248). Fault 0 is no fault: the fetch waits at a barrier (R272). -/
inductive Fetched where
  | bytes (d : Dev) (l : List Byte)
  | fault (d : Dev) (code : Nat)
def Dev.fetchAny (d : Dev) (p space a n : Nat) : Fetched :=
  let rs := readRun space a n
  match d.locateAll p rs.flat with
  | none => .fault d Code.extUnmapped
  | some ls =>
    if d.orderBad p ls then .fault d Code.baseOrder
    else if (layersOf ls).any (d.barred p) then .fault d 0
    else
      let d := (d.movePositions p ls).touch p [] false rs ls
      if ls.any d.failsAt then .fault d Code.parityCtrl else .bytes d (ls.map d.byteAt)
/-- The same where a KV extent is not read. -/
def Dev.fetchIn (d : Dev) (p space a n : Nat) : Fetched :=
  if space != 0 || (d.part p).kvFree a n then d.fetchAny p space a n else .fault d Code.extUnmapped
def Dev.fetch (d : Dev) (p a n : Nat) : Fetched := d.fetchIn p 0 a n
/-- Marks p as waiting at the barriers that a set of reads stands before, with the layer it waits for, until the front has passed that
layer or what waits has ended (R272); none where it stands before none. -/
def Dev.waits? (d : Dev) (p : Nat) (rs : Reads) : Option Dev :=
  match d.locateAll p rs.flat with
  | none => none
  | some ls =>
    let xs := (layersOf ls).filter (d.barred p)
    if xs.isEmpty then none
    else some (xs.foldl (fun d x => d.onBase x.1 fun B => { B with waiters := (p, x.2.2) :: B.waiters.erase (p, x.2.2) }) d)
/-- Runs the operation at a stream's PC if it is of the row, or of none: then it is rejected (R103). -/
def Dev.onRow (d : Dev) (p q : Nat) (row : Row) (f : Dev → Nat → Dev) : Dev :=
  if !d.fetches p q then d
  else
    let pc := (d.seq p q).pc
    match d.fetch p pc 16 with
    | .fault d c => if c == 0 then (d.waits? p (readRun 0 pc 16)).getD d else d.peOp c p q pc
    | .bytes d' l =>
      let w := leNat l
      let r := d.rowOf p q w
      if r == .bad then d'.peOp Code.opInvalid p q pc else if r == row then f d' w else d

/-! ## Issuing engine operations -/

/-- The outcome of checking an operation: a code to reject it with, or a value; and what its reads leave behind (Table 10-3, R316). Code 0
rejects nothing: a read waits at a barrier, at which the partition is then marked (R272). -/
abbrev Chk (α : Type) := ExceptT Nat (StateM Dev) α
/-- Checks an operation on a state. -/
def Chk.on {α : Type} (x : Chk α) (d : Dev) : Except Nat α × Dev := x.run.run d
def reject {α : Type} (code : Nat) : Chk α := throw code
def need (ok : Bool) (code : Nat) : Chk Unit := if ok then pure () else reject code
/-- Reads bytes that direct the part's work, in a space; and in the partition's address space. -/
def chkRead (p space a n : Nat) : Chk (List Byte) := do
  if n == 0 then pure []
  else
    let d ← get
    match d.fetchIn p space a n with
    | .bytes d l => set d; pure l
    | .fault d c => set (if c == 0 then (d.waits? p (readRun space a n)).getD d else d); throw c
def chkFetch (p a n : Nat) : Chk (List Byte) := chkRead p 0 a n
/-- Reads and checks descriptor i for a stream under a loop index; as a target when `tgt` (R120 to R124, R42 to R45, R58, R59, R64).
Windows are refused where `win` does not allow them. A source that names a hot-channel list in HPTR is taken with SMODE 010b alone,
and its list is neither read nor checked: the spec speaks of lists of targets (DESIGN CHOICE, log 116). -/
def Dev.descAt (d : Dev) (p q : Nat) (ix : Option Nat) (i : Nat) (tgt win : Bool) : Chk Desc := do
  let P := d.part p
  let (b, n) := P.descTable q
  need (decide (i < n)) Code.descInvalid
  let l ← chkFetch p (b + 64 * i) 64
  let x := parseDesc (b + 64 * i) l
  if win then pure x
  else
    need (d.descOk p q ix x && !P.windowed x && (!tgt || x.targetOk P.entry.hscount)) Code.descInvalid
    if !tgt || x.hptr == 0 then pure x
    else
      let h ← chkFetch p x.hptr 528
      need (hotOk h (x.len x.chdim)) Code.descInvalid
      pure x
/-- Descriptor i at issue: under the loop index of the stream's control stack. -/
def Dev.descFor (d : Dev) (p q i : Nat) (tgt win : Bool) : Chk Desc := d.descAt p q (loopIndex (d.seq p q).stack) i tgt win
/-- An operation that has passed its checks: kind, the descriptors by slot, and the target slots in the order of R55. -/
structure Plan where
  kind : OpKind
  descs : List (Nat × Desc)
  targets : List Nat
  coll : Option CollRun
  deriving DecidableEq, Repr
def Plan.desc (x : Plan) (slot : Nat) : Option Desc := Tab.get? x.descs slot
/-- The targets under a loop index, in the order in which they take their stochastic-rounding ranges (R55). -/
def Plan.geos (x : Plan) (ix : Option Nat) : List Geo := x.targets.filterMap fun k => (x.desc k).map fun y => ⟨y, ix.getD 0⟩
/-- Every engine operation in flight of a partition, with its stream. -/
def Part.flights (P : Part) : List (Nat × Flight) :=
  (List.range 4).flatMap fun q => (P.seq q).items.filterMap fun i => match i with
    | .op f => some (q, f)
    | _ => none
/-- The hot-channel lists that an operation's targets name. -/
def Flight.lists (f : Flight) : List Nat :=
  f.slots.filterMap fun k => match Tab.get? f.descs k with
    | some x => if x.hptr == 0 then none else some x.hptr
    | none => none
/-- Whether a list belongs to an operation issued before number no, in any stream (R62). -/
def Part.listTaken (P : Part) (no a : Nat) : Bool := P.flights.any fun x => decide (x.2.no < no) && x.2.lists.contains a
/-- The hot-channel lists that an operation has not read yet and that no earlier one holds. -/
def Part.listsDue (P : Part) (f : Flight) : List Nat := f.lists.filter fun a => (Tab.get? f.hotIn a).isNone && !P.listTaken f.no a
/-- An operation at its issue with the hot-channel lists that its checks have just read and that no earlier one holds (R58, R62; log
107). -/
def Dev.takeLists (d : Dev) (p : Nat) (f : Flight) : Flight :=
  { f with hotIn := ((d.part p).listsDue f).foldl (fun t a => Tab.put t a (d.peek p a 528)) f.hotIn }
/-- The same for an operation that waited for an earlier one to let a list go: it reads the list now. -/
def lateLists (p : Nat) : List Nat → Flight → Chk Flight
  | [], f => pure f
  | a :: as, f => do
    let l ← chkFetch p a 528
    lateLists p as { f with hotIn := Tab.put f.hotIn a l }
/-! ### Readiness (R98, R101) -/

/-- A span of a space that an operation reads, or writes when `out` is set. -/
structure Span where
  out : Bool
  space : Nat
  lo : Int
  hi : Int
  deriving DecidableEq, Repr
def Span.meets (a b : Span) : Bool := a.space == b.space && decide (a.lo < b.hi) && decide (b.lo < a.hi)
def Flight.w (f : Flight) : Nat := f.word.toNat
def Flight.geo (f : Flight) (k : Nat) : Option Geo := (Tab.get? f.descs k).map fun x => ⟨x, f.loopIx.getD 0⟩
/-- NB of R295: a node's byte span, rounded up to 64. -/
def Geo.nodeBytes (g : Geo) : Nat := roundUp (g.span.2 - g.span.1).toNat 64
/-- Whether an operation writes a node area: a TENSOR operation with nonzero GNSPAN (R107). -/
def tensorSplit (w : Nat) : Bool := byt w 0 0 == 1 && byt w 15 14 != 0
/-- Whether slot k of an operation names parameter records, which take 16 bytes each (R150). -/
def Flight.records (f : Flight) (k : Nat) : Bool := (f.kind == .upd && k == 0) || (f.kind == .rinit && k == 0) || (f.kind == .exportOp && k == 1)
/-- The slot of a window operation that names a window: it has no bytes (R190, R209, R234, R235). -/
def Flight.windowSlot (f : Flight) : Option Nat :=
  match f.kind with
  | .adapter => some 1
  | .attention => some 1
  | .kvAppend => some 0
  | .teacherWin => some 2
  | .studentWin => some 2
  | _ => none
/-- The (layer, group) of a KV-window operation, whose like run in issue order within a stream (R236). -/
def Flight.kvKey (f : Flight) : Option Nat :=
  if f.kind == .attention || f.kind == .kvAppend then
    (f.windowSlot.bind fun k => Tab.get? f.descs k).map fun x => x.addr % 2 ^ 26 / 128
  else none
/-- The spans of an operation. The gradient of an UPD with CLRG is written too, and a node area takes all its nodes. -/
def Flight.spans (f : Flight) : List Span :=
  (f.descs.filter fun x => f.windowSlot != some x.1).flatMap fun x =>
    let g : Geo := ⟨x.2, f.loopIx.getD 0⟩
    let tgt := f.slots.contains x.1
    let out := tgt || (f.kind == .upd && x.1 == 1 && bit (vmodOf f.w) 0)
    let hi := if (tgt && tensorSplit f.w) || (f.kind == .coll && !tgt) then
        max g.span.2 ((x.2.addr + 128 + 31 * g.nodeBytes : Nat) : Int)
      else if f.records x.1 then g.span.2 + 10 else g.span.2
    ⟨out, x.2.space, g.span.1, hi⟩ :: match g.scaleSpan with
      | some s => [⟨tgt && (x.2.smode == 1 || x.2.smode == 2 || x.2.smode == 5), x.2.space, s.1, s.2⟩]
      | none => []
/-- R99 and R236 for an earlier operation e of the stream and a later one f. -/
def hazard (e f : Flight) : Bool :=
  (e.kvKey.isSome && e.kvKey == f.kvKey) || e.spans.any fun a => f.spans.any fun b => (a.out || b.out) && a.meets b
/-- The registers of stream q that a VEC operation of it reads: IMMREG, and the operands of a scalar VOP. -/
def Flight.immRegs (f : Flight) (q : Nat) : List Nat :=
  let w := f.w
  let own (n : Nat) : List Nat := if (regOf q n).1 == q then [(regOf q n).2] else []
  if byt w 0 0 != 2 then []
  else
    (if f.kind == .scalar then own (byt w 6 6) ++ (if bit (vmodOf w) 0 || decide (0x46 ≤ byt w 1 1) then [] else own (byt w 8 8)) else []) ++
    (if immReg w then own (immOf w % 128) else [])
/-- The registers that an operation writes. -/
def Flight.sumRegs (f : Flight) : List Nat :=
  let n := sdstOf f.w
  if byt f.w 0 0 == 1 || !sdstOn n then [] else if f.kind == .upd then [fld n 4 0, fld n 4 0 + 1] else [fld n 4 0]
/-- R111 for an earlier operation e of stream q and a later one f. -/
def regHazard (q : Nat) (e f : Flight) : Bool :=
  f.sumRegs.any (fun r => e.sumRegs.contains r || (!e.started && (e.immRegs q).contains r)) || (f.immRegs q).any e.sumRegs.contains
/-- Whether a list that f names belongs to an operation issued earlier, in any stream (R62). -/
def Part.listBusy (P : Part) (f : Flight) : Bool := f.lists.any (P.listTaken f.no)
/-- Whether nothing of its own stream, and no hot-channel list, holds an operation in flight back. -/
def Part.depsMet (P : Part) (q : Nat) (f : Flight) : Bool :=
  (P.flights.all fun e => e.1 != q || decide (f.no ≤ e.2.no) || (!hazard e.2 f && !regHazard q e.2 f)) && !P.listBusy f
/-- Stamps the operations that an event has made ready: those of one event share a stamp (R101). -/
def Part.markReady (P : Part) : Part :=
  { P with readyNo := P.readyNo + 1
           sq := P.sq.zipIdx.map fun s => { s.1 with items := s.1.items.map fun i => match i with
             | .op f => if f.ready.isNone && P.depsMet s.2 f then .op { f with ready := some P.readyNo } else .op f
             | i => i } }

/-! ### Issue -/

def OpKind.isTensor : OpKind → Bool
  | .forward => true
  | .pair => true
  | .dxOnly => true
  | .dwOnly => true
  | .adapter => true
  | .attention => true
  | .teacherWin => true
  | .studentWin => true
  | _ => false
/-- Whether a stream's arrays gang: under SEQUENCE, and always for the teacher (R86, R199). -/
def Part.ganged (P : Part) (q : Nat) : Bool := P.entry.gang == .sequence || q == 3
/-- The arrays of a tile that an operation holds: 0 FA, 1 BX, 2 BW (Table 03-3, R101, R449). -/
def Part.arraysOf (P : Part) (q : Nat) (k : OpKind) : List Nat :=
  if P.ganged q then [0, 1, 2]
  else if q != 1 then [0]
  else match k with
    | .dwOnly => [2]
    | .pair => [1, 2]
    | _ => [1]
/-- An operation that needs BW (R88). -/
def OpKind.needsBw (k : OpKind) : Bool := k == .pair || k == .dwOnly
/-- The arrays that a backward TENSOR operation in flight keeps from later ones of its stream: those it holds; and one that needs BW
under BORROW keeps BX idle too until it starts (R87, R89). -/
def Part.keeps (P : Part) (y : Flight) : List Nat :=
  if P.entry.gang == .borrow && y.kind.needsBw && !y.started then [1, 2] else P.arraysOf 1 y.kind
/-- Whether an operation that passed its checks may issue: the backward stream issues a TENSOR operation under OVERLAP and BORROW
only when no earlier one of it keeps an array that it needs (R87). -/
def Dev.issues (d : Dev) (p q : Nat) (x : Plan) : Bool :=
  let P := d.part p
  q != 1 || P.ganged q || !x.kind.isTensor ||
    P.flights.all fun y => y.1 != 1 || !y.2.kind.isTensor || !(P.keeps y.2).any (P.arraysOf 1 x.kind).contains
/-- Issues an operation that passed: it takes its stochastic-rounding ranges and the key K, its hot-channel lists and its place in
the stream (R55, R57, R58, R98, R99), and keeps LNK_EPOCH CUR of its issue for a node area (R295). -/
def Dev.issue (d : Dev) (p q w : Nat) (x : Plan) : Dev :=
  let P := d.part p
  let s := P.seq q
  let ix := loopIndex s.stack
  let (base, c) := takeRanges (P.srCounter q) (x.geos ix)
  let fl : Flight :=
    { no := P.issueNo, pc := s.pc, word := BitVec.ofNat 128 w, kind := x.kind, slots := x.targets, descs := x.descs, loopIx := ix
      srBase := base, srKey := P.srKey, hotIn := [], ready := none, started := false, tags := [], mark := [], gl := [], seen := [], path := none
      imm := P.epoch.setWidth 32, wave := (P.step.map (·.wave)).getD 0, result := Reset.noResult, coll := x.coll }
  let fl := d.takeLists p fl
  (d.setPart p (P.setSrCounter q c)).onPart p fun P =>
    ({ P with issueNo := P.issueNo + 1, slow := { P.slow with seen := true } }.onSeq q fun s =>
      { s.next with items := s.items ++ [Item.op fl] }).markReady
/-- What an operation's checks come to: it waits at a barrier, and is only marked there (R272), it is rejected, or `ok` has it and what the
reads left. -/
def Dev.checked (d : Dev) (r : Except Nat Plan × Dev) (bad : Dev → Nat → Dev) (ok : Dev → Plan → Dev) : Dev :=
  match r.1 with
  | .error c => if c == 0 then { d with bases := r.2.bases } else bad r.2 c
  | .ok x => ok r.2 x
/-- An engine-operation row: its operation is checked and issued, held back by the arrays (R87), or rejected. -/
def Dev.engineRow (d : Dev) (p q : Nat) (row : Row) (check : Dev → Nat → Chk Plan) : Dev :=
  d.onRow p q row fun e w => e.checked ((check e w).on e) (fun e c => e.peOp c p q (e.seq p q).pc) fun e x =>
    if e.issues p q x then e.issue p q w x else d

/-! ## Control operations -/

/-- A sequencer row: its operation is checked against `ok`, and carried out. -/
def Dev.controlRow (d : Dev) (p q : Nat) (row : Row) (ok : Nat → Bool) (f : Dev → Nat → Dev) : Dev :=
  d.onRow p q row fun d w => if ok w then f d w else d.peOp Code.opInvalid p q (d.seq p q).pc
/-- WAITB (R118). In HOLD and BEATLOST the stream waits also for a target that the count has reached: R303 has no WAITB satisfied then,
while R118 alone would not delay it (DESIGN CHOICE, log 132). -/
def Dev.waitbRow (d : Dev) (p q : Nat) : Dev :=
  d.controlRow p q .waitb (fun w => fld (byt w 1 1) 7 1 == 0 && byt w 15 8 == 0) fun d w =>
    let b := byt w 7 2
    let target := if bit (byt w 1 1) 0 then (d.beat + b) % 2 ^ 48 else b
    let d := d.onSeq p q Seq.next
    if reached d.beat target && !d.lnk.frozen then d else d.onSeq p q fun s => { s with st := .waitBeat, waitBeat := target }
/-- The value of a semaphore. -/
def Part.semv (P : Part) (n : Nat) : Nat := (Tab.get (0 : BitVec 32) P.sem n).toNat
def Part.setSem (P : Part) (n v : Nat) : Part := { P with sem := Tab.put P.sem n (BitVec.ofNat 32 v) }
/-- Whether a stream waits on a semaphore that is now large enough. -/
def Part.passes (P : Part) (q : Nat) : Bool := (P.seq q).st == .waitSem && decide ((P.seq q).waitSem.2 ≤ P.semv (P.seq q).waitSem.1)
/-- Whether a stream holds a POST that takes effect: nothing stands before it. It is applied before any WAITS is tested (R114). -/
def Part.posts (P : Part) (q : Nat) : Bool := match (P.seq q).items with
  | .post _ _ _ :: _ => true
  | _ => false
def Part.postsDone (P : Part) : Bool := (List.range 4).all fun q => !P.posts q
/-- Waiting streams are served in the cycle that satisfies them, so nothing is issued while one passes (R114). -/
def Part.semReady (P : Part) : Bool := P.postsDone && P.streams.all fun q => !P.passes q
def semForm (w : Nat) : Bool := byt w 1 1 == 0 && byt w 3 3 == 0 && byt w 15 8 == 0
/-- WAITS (R114). -/
def Dev.waitsRow (d : Dev) (p q : Nat) : Dev :=
  d.controlRow p q .waits semForm fun e w =>
    let P := e.part p
    let n := byt w 2 2
    let c := byt w 7 4
    if !P.semReady then d
    else if c ≤ P.semv n then e.onPart p fun P => (P.setSem n (P.semv n - c)).onSeq q Seq.next
    else e.onSeq p q fun s => { s.next with st := .waitSem, waitSem := (n, c) }
/-- POST (R114): it waits in the stream for the operations before it. -/
def Dev.postRow (d : Dev) (p q : Nat) : Dev :=
  d.controlRow p q .post semForm fun d w =>
    d.onSeq p q fun s => { s.next with items := s.items ++ [Item.post (byt w 2 2) (byt w 7 4) s.pc] }
/-- Whether an operation of a stream that has not completed writes register r of it (R111). -/
def Seq.writes (s : Seq) (r : Nat) : Bool :=
  s.items.any fun i => match i with
    | .op f =>
      let w := f.word.toNat
      let n := sdstOf w
      byt w 0 0 != 1 && sdstOn n && (fld n 4 0 == r || (f.kind == .upd && fld n 4 0 + 1 == r))
    | .post _ _ _ => false
/-- Whether a register operand of stream q is ready to be read: one of its own registers waits for its writer. -/
def Dev.regReady (d : Dev) (p q n : Nat) : Bool := (regOf q n).1 != q || !(d.seq p q).writes (regOf q n).2
/-- The comparison of a BR (Table 04-4). -/
def brTaken (type cond : Nat) (a b : BitVec 64) : Bool :=
  let any := (a &&& b) != 0
  let o : Option Ordering :=
    match type with
    | 0 => some (compare a.toNat b.toNat)
    | 1 => some (compare a.toInt b.toInt)
    | _ => Val.cmp (fmtF32.decode (a.toNat % 2 ^ 32)) (fmtF32.decode (b.toNat % 2 ^ 32))
  match cond with
  | 0 => o == some .eq
  | 1 => o != some .eq
  | 2 => o == some .lt
  | 3 => o == some .gt || o == some .eq
  | 4 => o == some .lt || o == some .eq
  | 5 => o == some .gt
  | 6 => any
  | _ => !any
/-- Form of a BR of stream q (R104, R112). -/
def brForm (q w : Nat) : Bool :=
  let b := byt w 1 1
  let src := bit b 5
  fld b 7 6 == 0 && fld b 4 3 != 3 && !(fld b 4 3 == 2 && decide (6 ≤ fld b 2 0)) && regOk q (byt w 2 2) &&
  (if src then regOk q (byt w 3 3) && byt w 15 8 == 0 else byt w 3 3 == 0)
/-- BR (R112, R113). -/
def Dev.brRow (d : Dev) (p q : Nat) : Dev :=
  d.controlRow p q .br (brForm q) fun e w =>
    let b := byt w 1 1
    let src := bit b 5
    if !(e.regReady p q (byt w 2 2) && (!src || e.regReady p q (byt w 3 3))) then d
    else
      let x := e.sum p (regOf q (byt w 2 2))
      let y := if src then e.sum p (regOf q (byt w 3 3)) else BitVec.ofNat 64 (byt w 15 8)
      if brTaken (fld b 4 3) (fld b 2 0) x y then
        e.onSeq p q fun s =>
          let a := (((s.pc : Int) + 16 * sext 32 (byt w 7 4)) % (2 ^ 48 : Nat)).toNat
          { s with stack := popLoops s.stack a, pc := a }
      else e.onSeq p q Seq.next
/-- LOOP (R113). -/
def Dev.loopRow (d : Dev) (p q : Nat) : Dev :=
  d.controlRow p q .loop (fun w => byt w 1 1 == 0 && byt w 15 10 == 0 && byt w 9 6 != 0) fun d w =>
    let s := d.seq p q
    let c := byt w 5 2
    let b := byt w 9 6
    if c = 0 then d.onSeq p q fun s => s.goto (s.pc + 16 + 16 * b)
    else if 8 ≤ s.stack.length then d.peOp Code.streamDepth p q s.pc
    else d.onSeq p q fun s => { s with stack := .loop ((s.pc + 16) % 2 ^ 48) b c 0 :: s.stack, pc := (s.pc + 16) % 2 ^ 48 }
/-- CALL (R113). -/
def Dev.callRow (d : Dev) (p q : Nat) : Dev :=
  d.controlRow p q .call (fun w => byt w 1 1 == 0 && byt w 15 8 == 0 && byt w 7 2 % 16 == 0) fun d w =>
    let s := d.seq p q
    if 8 ≤ s.stack.length then d.peOp Code.streamDepth p q s.pc
    else d.onSeq p q fun s => { s with stack := .call ((s.pc + 16) % 2 ^ 48) :: s.stack, pc := byt w 7 2 }
/-- The return address of the most recent CALL entry, and the stack below it. -/
def popCall : List CtlEntry → Option (Nat × List CtlEntry)
  | [] => none
  | .call a :: t => some (a, t)
  | .loop _ _ _ _ :: t => popCall t
/-- RET (R113). -/
def Dev.retRow (d : Dev) (p q : Nat) : Dev :=
  d.controlRow p q .ret (fun w => byt w 15 1 == 0) fun d _ =>
    match popCall (d.seq p q).stack with
    | none => d.peOp Code.opInvalid p q (d.seq p q).pc
    | some (a, t) => d.onSeq p q fun s => { s with stack := t }.goto a
/-- FENCE and HALT issue nothing further until they are reached (R116, R119). -/
def Dev.fenceRow (d : Dev) (p q : Nat) : Dev :=
  d.controlRow p q .fence (fun w => byt w 1 1 == 0 && byt w 15 6 == 0) fun d w =>
    d.onSeq p q fun s => { s.next with hold := .fence (byt w 5 2) }
def Dev.haltRow (d : Dev) (p q : Nat) : Dev :=
  d.controlRow p q .halt (fun w => byt w 1 1 == 0 && byt w 15 6 == 0) fun d w =>
    d.onSeq p q fun s => { s.next with hold := .halt (byt w 5 2) }

/-! ## What ends a wait (R114 to R118) -/

/-- SEM_WAIT_SATISFIED: waiting streams are tested in stream order. -/
def Dev.semSatisfied (d : Dev) (p q : Nat) : Dev :=
  let P := d.part p
  let (n, c) := (P.seq q).waitSem
  if d.running p && P.postsDone && P.passes q && (List.range q).all fun r => !P.passes r then
    d.onPart p fun P => (P.setSem n (P.semv n - c)).onSeq q fun s => { s with st := .run }
  else d
/-- BEAT_TARGET_REACHED. -/
def Dev.beatReached (d : Dev) (p q : Nat) : Dev :=
  let s := d.seq p q
  if d.running p && s.st == .waitBeat && reached d.beat s.waitBeat && !d.lnk.frozen then d.onSeq p q fun s => { s with st := .run } else d
/-- POST_TAKES_EFFECT: every earlier operation of the stream has completed. -/
def Dev.postEffect (d : Dev) (p q : Nat) : Dev :=
  let P := d.part p
  match (P.seq q).items with
  | .post n c pc :: rest =>
    if !d.running p then d
    else
      let d := d.onSeq p q fun s => { s with items := rest }
      if 2 ^ 32 ≤ P.semv n + c then d.peOp Code.semOverflow p q pc else d.onPart p fun P => P.setSem n (P.semv n + c)
  | _ => d
/-- The closing fence of a PERMUTE that the stream issued: the new layout alone owns what it moved (R301). -/
def Part.closeMove (P : Part) (q : Nat) : Part :=
  if P.permuting == some q then { P with permuting := none, shards := Tab.mapVal (fun _ (l : List Nat) => l.drop (l.length - 1)) P.shards } else P
/-- FENCE_REACHED: SQ_FENCE, the audit, and the yield. -/
def Dev.fenceReached (d : Dev) (p q : Nat) : Dev :=
  let s := d.seq p q
  match s.hold with
  | .fence fid =>
    if d.running p && s.st == .run && s.items.isEmpty then
      let d := d.onPart p fun P => (P.closeMove q).onSeq q fun s =>
        { s with hold := .none, fenceValid := true, fid := BitVec.ofNat 32 fid, mapBuilt := false }
      let d := d.audit p
      if (d.part p).st == .yielding && (d.seq p q).st == .run then d.onSeq p q fun s => { s with st := .stopped } else d
    else d
  | _ => d
/-- SEM_DEADLOCK (R115). -/
def Dev.semDeadlock (d : Dev) (p : Nat) : Dev :=
  let P := d.part p
  let still (q : Nat) : Bool := (P.seq q).st == .waitSem || (P.seq q).st.quiet
  let posts (q : Nat) : Bool := (P.seq q).items.any fun i => match i with
    | .post _ _ _ => true
    | .op _ => false
  if d.running p && P.streams.all still && (P.streams.any fun q => (P.seq q).st == .waitSem) && !P.streams.any posts && P.semReady then
    d.pe Code.semDeadlock p
  else d

/-! ## Doorbells (R102, R410) -/

/-- Whether the host may write registers of P's own view: the VF answers, and the stream exists. -/
def Dev.bellOpen (d : Dev) (p q : Nat) : Bool := d.vfOpen p && (d.part p).st == .active && (d.part p).streams.contains q
/-- STREAM_START: at the end of the beat, where the peel uses it (R392). -/
def Dev.streamStart (d : Dev) (p q : Nat) (v : Nat) : Dev :=
  let P := d.part p
  if d.bellOpen p q && (P.seq q).st.free && fld v 63 48 == 0 && fld v 3 0 == 0 &&
      !(q == 0 && P.entry.mode == .serve && P.step.isSome) then
    d.orLater p (.start q (fld v 47 4 * 16)) (d.onPart p fun P => P.startStream q (fld v 47 4 * 16))
  else d
/-- STREAM_RESUME. -/
def Dev.streamResume (d : Dev) (p q : Nat) (v : Nat) : Dev :=
  if d.bellOpen p q && (d.seq p q).st == .stopped && bit v 0 then d.orLater p (.resume q) (d.onPart p fun P => P.resumeStream q) else d

/-! ## Meanings -/

def execWaitb (p : PIx) (q : Strm) (s : State) : Host.Outcome State Fault Refusal := s.onDev fun d => d.waitbRow p.val (strmIx q)
def execWaits (p : PIx) (q : Strm) (s : State) : Host.Outcome State Fault Refusal := s.onDev fun d => d.waitsRow p.val (strmIx q)
def execPost (p : PIx) (q : Strm) (s : State) : Host.Outcome State Fault Refusal := s.onDev fun d => d.postRow p.val (strmIx q)
def execBr (p : PIx) (q : Strm) (s : State) : Host.Outcome State Fault Refusal := s.onDev fun d => d.brRow p.val (strmIx q)
def execLoop (p : PIx) (q : Strm) (s : State) : Host.Outcome State Fault Refusal := s.onDev fun d => d.loopRow p.val (strmIx q)
def execCall (p : PIx) (q : Strm) (s : State) : Host.Outcome State Fault Refusal := s.onDev fun d => d.callRow p.val (strmIx q)
def execRet (p : PIx) (q : Strm) (s : State) : Host.Outcome State Fault Refusal := s.onDev fun d => d.retRow p.val (strmIx q)
def execFence (p : PIx) (q : Strm) (s : State) : Host.Outcome State Fault Refusal := s.onDev fun d => d.fenceRow p.val (strmIx q)
def execHalt (p : PIx) (q : Strm) (s : State) : Host.Outcome State Fault Refusal := s.onDev fun d => d.haltRow p.val (strmIx q)
def execSemWaitSatisfied (p : PIx) (q : Strm) (s : State) : Host.Outcome State Fault Refusal := s.onDev fun d => d.semSatisfied p.val (strmIx q)
def execBeatTargetReached (p : PIx) (q : Strm) (s : State) : Host.Outcome State Fault Refusal := s.onDev fun d => d.beatReached p.val (strmIx q)
def execPostTakesEffect (p : PIx) (q : Strm) (s : State) : Host.Outcome State Fault Refusal := s.onDev fun d => d.postEffect p.val (strmIx q)
def execFenceReached (p : PIx) (q : Strm) (s : State) : Host.Outcome State Fault Refusal := s.onDev fun d => d.fenceReached p.val (strmIx q)
def execSemDeadlock (p : PIx) (s : State) : Host.Outcome State Fault Refusal := s.onDev fun d => d.semDeadlock p.val
def execStreamStart (p : PIx) (q : Strm) (value : W64) (s : State) : Host.Outcome State Fault Refusal :=
  s.onDev fun d => d.vfWrite p.val fun d => d.streamStart p.val (strmIx q) value.toNat
def execStreamResume (p : PIx) (q : Strm) (value : W64) (s : State) : Host.Outcome State Fault Refusal :=
  s.onDev fun d => d.vfWrite p.val fun d => d.streamResume p.val (strmIx q) value.toNat

end Sys2Proof.Machine
end

