-- ==== Sys2Proof/Machine/Engine.lean ====
section
/-! DEFINITION. Starting engine operations: engines and their tiles (R85 to R89, R101,
R199, R326, R449), the reading of inputs (R91, R147, R250, R270 to R272), work units (R73, R80) and matrix products. -/

namespace Sys2Proof.Machine

/-! ## Engines -/

def OpKind.isVec : OpKind → Bool
  | .vec => true
  | .scalar => true
  | .kvAppend => true
  | _ => false
def OpKind.isUpd : OpKind → Bool
  | .upd => true
  | .exportOp => true
  | .rinit => true
  | _ => false
/-- Streams that share engines: in DISTIL the teacher's and the student's do not (R199). -/
def Part.shares (P : Part) (q r : Nat) : Bool := P.entry.mode != .distil || (q == 3) == (r == 3)
/-- Tiles whose arrays and vector engines serve stream q: not the student leader's (R199, R204). -/
def Dev.groupTiles (d : Dev) (p q : Nat) : List Nat :=
  let P := d.part p
  let ts := (d.tilesOf p).zipIdx.filter fun x => P.ranksOf q x.2
  (ts.map (·.1)).filter fun t => P.entry.mode != .distil || q == 3 || t != P.entry.leader
/-- Whether an operation y of stream r became ready before f of stream q: by an earlier event, or by the same one in a stream that
comes first (R101; log 108). -/
def readyBefore (r : Nat) (y : Flight) (q : Nat) (f : Flight) : Bool :=
  match y.ready, f.ready with
  | some a, some b => decide (a < b) || (a == b && (decide (r < q) || (r == q && decide (y.no < f.no))))
  | some _, none => decide (y.no < f.no)
  | none, _ => false
/-- Whether the arrays that an operation needs are free (R86, R87, R89, R449). Ganged arrays take what is ready in the order of R101, which
puts SQF before SQB and SQB before SQU; a student window operation that waits for its slot holds none back (R86, R207; log 108). Under
OVERLAP and BORROW one backward TENSOR operation runs at once (R85). The teacher group's arrays stay idle in a credit stall (R207). -/
def Dev.arraysFree (d : Dev) (p q : Nat) (f : Flight) : Bool :=
  let P := d.part p
  let mine := P.arraysOf q f.kind
  let other (x : Nat × Flight) : Bool := x.2.kind.isTensor && x.2.no != f.no && P.shares q x.1
  let held := P.flights.any fun x => other x && x.2.started && (P.arraysOf x.1 x.2.kind).any mine.contains
  let queued := !P.ganged q && mine == [0] && P.flights.any fun x => other x && decide (x.2.no < f.no) && P.arraysOf x.1 x.2.kind == [0]
  let ahead := P.ganged q && P.flights.any fun x => other x && !x.2.started && P.depsMet x.1 x.2 && readyBefore x.1 x.2 q f &&
    !(x.2.kind == .studentWin && P.slotStall)
  let backward := q == 1 && !P.ganged q && P.flights.any fun x => other x && x.1 == 1 && x.2.started
  let lent := P.entry.gang == .borrow && mine.contains 2 && (d.tilesOf p).any fun t => (d.tile t).bwLent
  let stalled := q == 3 && f.kind != .teacherWin && P.creditStall
  !held && !queued && !ahead && !backward && !lent && !stalled
/-- Whether the engine of a kind takes an operation: no other operation of the group runs on it, and none became ready before. -/
def Part.engineFree (P : Part) (q : Nat) (f : Flight) (kind : OpKind → Bool) : Bool :=
  !P.flights.any fun x => kind x.2.kind && x.2.no != f.no && P.shares q x.1 &&
    (x.2.started || (P.depsMet x.1 x.2 && readyBefore x.1 x.2 q f))
/-- Whether the engines of an operation take it now. -/
def Dev.engineReady (d : Dev) (p q : Nat) (f : Flight) : Bool :=
  let P := d.part p
  d.ownsBeat p &&
  (if f.kind.isTensor then d.arraysFree p q f
   else if f.kind.isVec then P.engineFree q f OpKind.isVec
   else if f.kind.isUpd then P.engineFree q f OpKind.isUpd
   else true)

/-! ## Reading inputs -/

/-- What an attempt to start comes to: it waits, it stops the partition, or the operation runs. -/
inductive Start where
  | wait (d : Dev)
  | stop (d : Dev) (code : Nat)
  | run (d : Dev) (f : Flight)
/-- What reading a set of bytes comes to. -/
inductive Gather where
  | wait (d : Dev)
  | stop (d : Dev) (code : Nat)
  | ok (d : Dev)
/-- Reads a set of bytes of an operation: an unmapped one stops it (R250), a base in replacement may stop it or make it wait
(R271, R272), and failing bytes are found and recorded (R91, R147, R261). -/
def Dev.gatherAny (d : Dev) (p : Nat) (gl : List Glitch) (rs : Reads) : Gather :=
  match d.locateAll p rs.flat with
  | none => .stop d Code.extUnmapped
  | some ls =>
    if d.orderBad p ls then .stop d Code.baseOrder
    else match d.waits? p rs with
      | some d => .wait d
      | none => .ok (((d.strike gl).movePositions p ls).touch p gl true rs ls)
/-- Whether something that is to be read lies in a KV extent. -/
def Dev.meetsKv (d : Dev) (p : Nat) (rs : Reads) : Bool := rs.flat.any fun r => r.1 == 0 && !(d.part p).kvFree r.2 1
/-- The same for an operation that reads no KV page through its window: a byte of a KV extent is as an unmapped one to it (R248). -/
def Dev.gather (d : Dev) (p : Nat) (gl : List Glitch) (rs : Reads) : Gather :=
  if d.meetsKv p rs then .stop d Code.extUnmapped else d.gatherAny p gl rs
/-- What failing checks at an operation's start come to, with what their reads left: a stop, or a wait at a barrier. -/
def stopWith (c : Nat) (d : Dev) : Start := if c == 0 then .wait d else .stop d c
/-- The scales that a target reads: those that TENSOR_GIVEN and CHANNEL_GIVEN name. -/
def Geo.givenReads (g : Geo) : Reads :=
  if g.d.smode == 3 || g.d.smode == 4 then g.scaleReads (g.indices.map g.group) else []
/-- Whether something that is read fails its parity check. -/
def Dev.readsFail (d : Dev) (p : Nat) (rs : Reads) : Bool :=
  rs.flat.any fun r => match d.locate p (d.sees p) r.1 r.2 with
    | some l => d.failsAt l
    | none => false

/-! ## Work units (R73, R80) -/

/-- A product C = A·B of geometries with the values of A and B, the number of its first work unit, for each element of C in
logical order whether an accumulator element that it adds to is poisoned, and its place in the whole reduction: the number of its first
span, and how many spans there are (R82). -/
structure Prod where
  a : Geo
  va : List In
  b : Geo
  vb : List In
  c : Geo
  unit0 : Nat
  accBad : List Bool
  g0 : Nat
  total : Nat
  deriving DecidableEq, Repr
/-- A product whose reduction is not split over devices. -/
def Prod.whole (a : Geo) (va : List In) (b : Geo) (vb : List In) (c : Geo) (unit0 : Nat) : Prod :=
  ⟨a, va, b, vb, c, unit0, [], 0, cdiv (a.len 0) 2048⟩
def Prod.k (x : Prod) : Nat := x.a.len 0
def Prod.spanCount (x : Prod) : Nat := cdiv x.k 2048
def Prod.rowBlocks (x : Prod) : Nat := cdiv (x.c.len 1) 128
def Prod.colBlocks (x : Prod) : Nat := cdiv (x.c.len 0) 128
def Prod.batches (x : Prod) : Nat := (x.c.lens.drop 2).foldl (· * ·) 1
def Prod.unitCount (x : Prod) : Nat := x.batches * x.rowBlocks * x.colBlocks * x.spanCount
/-- The number of the work unit of batch bt, row block rb, column block cb and span s. -/
def Prod.unit (x : Prod) (bt rb cb s : Nat) : Nat := x.unit0 + ((bt * x.rowBlocks + rb) * x.colBlocks + cb) * x.spanCount + s
/-- Cycles of MACs per row: 16 · w (Table 03-2). -/
def rowCycles (fa fb : Nat) : Nat :=
  let w := max (fmtWidth fa) (fmtWidth fb)
  if w ≤ 4 then 8 else if w ≤ 8 then 16 else if w ≤ 16 then 32 else 128
/-- A work unit: its number, batch, row block, column block, span, rows. -/
structure Unit' where
  no : Nat
  bt : Nat
  rb : Nat
  cb : Nat
  s : Nat
  rows : Nat
  deriving DecidableEq, Repr
def Prod.units (x : Prod) : List Unit' :=
  (List.range x.batches).flatMap fun bt => (List.range x.rowBlocks).flatMap fun rb => (List.range x.colBlocks).flatMap fun cb =>
    (List.range x.spanCount).map fun s => ⟨x.unit bt rb cb s, bt, rb, cb, s, min 128 (x.c.len 1 - 128 * rb)⟩
/-- The number of (row block, column block) pairs of a product, and the pair of a unit. -/
def Prod.pairs (x : Prod) : Nat := x.batches * x.rowBlocks * x.colBlocks
def Prod.pairOf (x : Prod) (u : Unit') : Nat := (u.bt * x.rowBlocks + u.rb) * x.colBlocks + u.cb
/-- The least j up to n for which a test holds. -/
def leastUpTo (ok : Nat → Bool) (n : Nat) : Nat := ((List.range n).find? ok).getD n
/-- The first spans of the tree nodes into which a pair's spans are cut where no node may be higher than j: of the maximal nodes that the
device holds, each whole or in nodes of height j (R80, R81). -/
def Prod.cuts (x : Prod) (j : Nat) : List Nat :=
  (nodesOf x.g0 x.spanCount x.total).flatMap fun n =>
    if n.2 ≤ j then [n.1] else (List.range (cdiv (min (2 ^ n.2) (x.total - n.1)) (2 ^ j))).map fun i => n.1 + i * 2 ^ j
/-- How many tree nodes the pairs of some products come to. -/
def nodeCount (xs : List Prod) (j : Nat) : Nat := (xs.map fun x => x.pairs * (x.cuts j).length).sum
/-- The height of the tree nodes that the spans of each pair are cut into over n arrays where there are fewer pairs than arrays: a free
one among those that give each array at most one node (R80). -/
def cutHeight (no n : Nat) (xs : List Prod) : Nat :=
  let spans := xs.foldl (fun m x => max m x.spanCount) 0
  let top := leastUpTo (fun j => decide (spans ≤ 2 ^ j)) spans
  let lo := leastUpTo (fun j => decide (nodeCount xs j ≤ n)) top
  lo + Config.unitArray no 0 (top - lo) % max 1 (top - lo)
/-- Takes one array for each of n tree nodes, no array twice, in a free order; and any array again once each has one. -/
def takeArrays (no : Nat) : Nat → List (Nat × Nat) → List (Nat × Nat) → List (Nat × Nat)
  | 0, _, _ => []
  | n + 1, all, left =>
    let left := if left.isEmpty then all else left
    let i := Config.unitArray no n left.length % max 1 left.length
    left.getD i (0, 0) :: takeArrays no n all (left.eraseIdx i)
/-- Gives the units of products the arrays of their pairs' nodes, of a list with one array for each node in turn. -/
def spread (j : Nat) : List (Nat × Nat) → List Prod → List (List (Nat × Nat))
  | _, [] => []
  | own, x :: xs =>
    let cs := x.cuts j
    (x.units.map fun u => own.getD (x.pairOf u * cs.length + (cs.filter fun c => decide (c ≤ x.g0 + u.s)).length - 1) (0, 0)) ::
      spread j (own.drop (x.pairs * cs.length)) xs
/-- The arrays of the units of an operation's products, which are divided as one: a whole pair to each array in a free order where there
are no fewer pairs than arrays, else one tree node (R80, R192). -/
def divide (no : Nat) (cands : List (Nat × Nat)) (xs : List Prod) : List (List (Nat × Nat)) :=
  if cands.length ≤ (xs.map Prod.pairs).sum then
    xs.map fun x => x.units.map fun u => cands.getD (Config.unitArray no (x.unit0 + x.pairOf u) cands.length % max 1 cands.length) (0, 0)
  else
    let j := cutHeight no cands.length xs
    spread j (takeArrays no (nodeCount xs j) cands cands) xs
/-- The work units of an operation's products with the array of each. -/
def assigned (no : Nat) (cands : List (Nat × Nat)) (xs : List Prod) : List (Prod × Unit' × Nat × Nat) :=
  if cands.isEmpty then []
  else (xs.zip (divide no cands xs)).flatMap fun y => (y.1.units.zip y.2).map fun u => (y.1, u.1, u.2)
/-- The same as the run keeps it: no unit has been begun. -/
def unitRuns (no : Nat) (cands : List (Nat × Nat)) (xs : List Prod) : List UnitRun :=
  (assigned no cands xs).map fun (x, u, t, a) =>
    ⟨t, a, rowCycles x.a.d.fmt x.b.d.fmt * u.rows, x.unit0 + x.pairOf u, x.g0 + u.s, x.total, false⟩

/-! ## Values of a product (R68 to R72, R108) -/

/-- The product terms of the dot product at a logical index of C. -/
def Prod.aAt (x : Prod) (li : List Nat) (k : Nat) : In := pick x.a.lens x.va (k :: li.getD 1 0 :: li.drop 2)
def Prod.bAt (x : Prod) (li : List Nat) (k : Nat) : In := pick x.b.lens x.vb (li.getD 0 0 :: k :: li.drop 2)
def Prod.terms (x : Prod) (li : List Nat) : List Val :=
  (List.range x.k).map fun k => Val.mul (x.aAt li k).v (x.bAt li k).v
/-- Whether a failed stationary slice lies in work unit u at a row of its row block (R92). -/
def sliceHit (gl : List Glitch) (u row : Nat) : Bool :=
  gl.any fun g => match g with
    | .slice _ n r => n == u && decide (r ≤ row)
    | _ => false
/-- The span partials at a logical index of C; a span computed from a failed slice is NaN. -/
def Prod.partials (x : Prod) (gl : List Glitch) (li : List Nat) : List Fl :=
  let n := li.getD 0 0
  let m := li.getD 1 0
  let bt := flat (x.c.lens.drop 2) (li.drop 2)
  (spanPartials (x.terms li)).zipIdx.map fun y =>
    if sliceHit gl (x.unit bt (m / 128) (n / 128) y.2) (m % 128) then .of Val.qnan else y.1
/-- The logical indices of a geometry, in logical order. -/
def Geo.logical (g : Geo) : List (List Nat) := (List.range g.size).map (unflat g.lens)
/-- The values of a tree node of spans a to a + n - 1 of a whole reduction whose local part starts at span g0. -/
def nodeValue (ps : List Fl) (g0 a n : Nat) : Fl := (treeOf Fl.add ((ps.drop (a - g0)).take n)).getD .zero
/-- Whether a unit reads a poisoned element of its operands, or its slice fails; or an accumulator element of its pair is poisoned,
which the array of the pair's first span reads (log 109). -/
def Prod.unitPoisoned (x : Prod) (gl : List Glitch) (u : Unit') : Bool :=
  sliceHit gl u.no 127 || (x.c.logical.zip (x.accBad ++ List.replicate x.c.size false)).any fun y =>
    let li := y.1
    flat (x.c.lens.drop 2) (li.drop 2) == u.bt && li.getD 1 0 / 128 == u.rb && li.getD 0 0 / 128 == u.cb &&
    ((u.s == 0 && y.2) || (List.range 2048).any fun i =>
      let k := 2048 * u.s + i
      decide (k < x.k) && ((x.aAt li k).bad || (x.bAt li k).bad))
/-- Whether a unit of a product may read something poisoned at all. -/
def Prod.suspect (x : Prod) : Bool := x.va.any (·.bad) || x.vb.any (·.bad) || x.accBad.any id
/-- Marks POISON on the tiles whose arrays read poisoned elements (R91). -/
def Dev.poisonTiles (d : Dev) (no : Nat) (gl : List Glitch) (cands : List (Nat × Nat)) (xs : List Prod) : Dev :=
  if !(xs.any Prod.suspect || gl.any fun g => match g with
      | .slice _ _ _ => true
      | _ => false) then d
  else (assigned no cands xs).foldl (fun d (x, u, t, _) => if x.unitPoisoned gl u then d.onTile t fun s => { s with poison := true } else d) d
/-- PARITY_DATA for failed stationary slices: the tile, and no bank (R92). -/
def Dev.sliceRecords (d : Dev) (p : Nat) (gl : List Glitch) : Dev :=
  gl.foldl (fun d g => match g with
    | .slice t _ _ => d.detect { recP Code.parityData p with unit := 1, index := t.val }
    | _ => d) d
/-- Whether an operation that needs BW is pending in a partition: SQB has issued it and it has not completed (R88). -/
def Part.needsBw (P : Part) : Bool := P.flights.any fun x => x.1 == 1 && x.2.kind.needsBw
/-- Whether a TENSOR operation of stream q may take work units on a lent BW: a forward one under BORROW (R85, R88). -/
def Part.borrows (P : Part) (q : Nat) : Bool := P.entry.gang == .borrow && q == 0
/-- The candidate arrays of a product: `arr` on every tile of the group, and under BORROW a lent BW for the forward stream while
no operation that needs BW is pending (R80, R85, R86, R88). -/
def Dev.candidates (d : Dev) (p q : Nat) (arr : List Nat) : List (Nat × Nat) :=
  let P := d.part p
  let arr := if P.borrows q && arr == [0] && !P.needsBw then [0, 2] else arr
  (d.groupTiles p q).flatMap fun t => arr.map fun a => (t, a)
/-- BW is lent on the tiles of a forward operation that starts while nothing needs it, not before (R88, R89; DEDUCED, log 141). -/
def Dev.lendAt (d : Dev) (p q : Nat) (arr : List Nat) : Dev :=
  if (d.part p).borrows q && arr == [0] && !(d.part p).needsBw then
    (d.groupTiles p q).foldl (fun d t => d.onTile t fun x => { x with bwLent := true }) d
  else d
/-- Adds the cycles of completed units (R95): MACs of a lent BW count in LCYC too. -/
def Dev.addCycles (d : Dev) (lent : Bool) (l : List UnitRun) : Dev :=
  l.foldl (fun d x => d.onTile x.tile fun t =>
    match x.arr with
    | 0 => { t with cycFa := satAdd 64 t.cycFa x.cycles }
    | 1 => { t with cycBx := satAdd 64 t.cycBx x.cycles }
    | _ => { t with cycBw := satAdd 64 t.cycBw x.cycles, lendCyc := if lent then satAdd 48 t.lendCyc x.cycles else t.lendCyc }) d

/-! ## Completing -/

/-- Keeps for the running wave what a KV append is about to overwrite (R241). -/
def Dev.noteUndo (d : Dev) (p : Nat) (bs : List OutByte) : Dev :=
  let old := (bs.filter fun b => !b.sram).map fun b => ⟨false, b.loc, Memory.read d.mem.bytes b.loc, Ivl.mem d.mem.bad b.loc⟩
  d.onPart p fun P => { P with step := P.step.map fun s => { s with undo := old ++ s.undo } }
/-- Applies what a started operation of stream q comes to: bytes, and with all of them written its counts and summaries. An
output byte with no place stops the partition at it (R250). -/
def Dev.applyResult (d : Dev) (p q : Nat) (f : Flight) : Dev :=
  let r := f.result
  let d := (if f.kind == .kvAppend then d.noteUndo p r.bytes else d).putBytes p f.tags r.bytes
  match r.fault with
  | some c => d.peOp c p q f.pc
  | none =>
    let d := (d.addHealth p r.health).addCycles ((d.part p).entry.gang == .borrow && q == 0) r.cycles
    r.sums.foldl (fun d x => d.setSum p q x.1 x.2) d
/-- Removes an operation from its stream; others may become ready by it. -/
def Dev.retire (d : Dev) (p q no : Nat) : Dev :=
  d.onPart p fun P => (P.onSeq q fun s => { s with items := s.items.filter fun i => match i with
    | .op f => f.no != no
    | .post _ _ _ => true }).markReady
/-- The operation at item ix of a stream. -/
def Seq.opAt (s : Seq) (ix : Nat) : Option Flight :=
  match s.items[ix]? with
  | some (.op f) => some f
  | _ => none

/-- Counts the empty and infinite-entry rows that an operation met (R141, R148). -/
def Dev.addRows (d : Dev) (p empties infs : Nat) : Dev :=
  d.onPart p fun P => { P with smxEmpty := satAdd 64 P.smxEmpty empties, smxInf := satAdd 64 P.smxInf infs }
/-- VE_STAT POISON (R147). -/
def Dev.vePoisoned (d : Dev) (p : Nat) (bad : Bool) : Dev := if bad then d.onPart p fun P => { P with vePoison := true } else d

end Sys2Proof.Machine
end

