-- ==== Sys2Proof/Machine/Arrays.lean ====
section
/-! DEFINITION. TENSOR operations of the arrays (03, R105 to R108): checks at issue, the products, node areas (R295), lending
and returning BW (R88, R89), and the array counters (R95). -/

namespace Sys2Proof.Machine

/-! ## Issue -/

/-- Descriptor index D_k of a TENSOR operation. -/
def tslot (w k : Nat) : Nat := slotAt w (2 + 2 * k)
/-- A kind of Table 04-3: its inputs, its outputs with the flag that accumulates each (0 none, 1 ACC, 2 ACCX), and its
products as (streamed, stationary, output). -/
structure TKind where
  kind : OpKind
  ins : List Nat
  outs : List (Nat × Nat)
  prods : List (Nat × Nat × Nat)
def tForward : TKind := ⟨.forward, [0, 1], [(2, 1)], [(0, 1, 2)]⟩
def tPair : TKind := ⟨.pair, [0, 1, 2], [(3, 2), (4, 1)], [(0, 1, 3), (2, 0, 4)]⟩
def tDx : TKind := ⟨.dxOnly, [0, 1], [(3, 1)], [(0, 1, 3)]⟩
def tDw : TKind := ⟨.dwOnly, [0, 2], [(4, 1)], [(2, 0, 4)]⟩
def kindOf : OpKind → TKind
  | .pair => tPair
  | .dxOnly => tDx
  | .dwOnly => tDw
  | _ => tForward
/-- Whether an output is accumulated (R106). -/
def accumulates (w flag : Nat) : Bool := (flag == 1 && bit (byt w 1 1) 3) || (flag == 2 && bit (byt w 1 1) 4)
/-- The form of a TENSOR word of a kind (R103, R105, R106). -/
def TKind.form (t : TKind) (w : Nat) : Bool :=
  fld (byt w 1 1) 7 5 == 0 && (t.kind == .pair || !bit (byt w 1 1) 4) &&
  (List.range 5).all fun k => (tslot w k == 0xFFFF) != (t.ins.contains k || t.outs.any fun o => o.1 == k)
/-- Whether a stream may issue a kind (R101, R199). -/
def Part.mayIssue (P : Part) (q : Nat) (k : OpKind) : Bool :=
  if q == 3 then k == .forward else k == .forward || q == 1 || P.entry.gang == .sequence
/-- Batch lengths of an operand against an output's (R108). -/
def batchOk (x c : Geo) : Bool := (List.range 5).all fun j => decide (j < 2) || x.len j == 1 || x.len j == c.len j
/-- R71 and R108. -/
def shapesOk (a b c : Geo) : Bool :=
  a.len 0 == b.len 1 && c.len 0 == b.len 0 && c.len 1 == a.len 1 && batchOk a c && batchOk b c
/-- R82 and R107 for a local reduction of length k. -/
def splitOk (w : Nat) (t : TKind) (k : Nat) : Bool :=
  let n := byt w 15 14
  let last := byt w 13 12 + cdiv k 2048
  n == 0 || (t.kind != .pair && decide (last ≤ n) && (k % 2048 == 0 || last == n))
def geoIn (l : List (Nat × Desc)) (ix k : Nat) : Geo := ⟨Tab.get (parseDesc 0 []) l k, ix⟩
/-- Reads the operands of slots for reading by the arrays (R30). -/
def Dev.arrayDescs (d : Dev) (p q w : Nat) : List Nat → Chk (List (Nat × Desc))
  | [] => pure []
  | k :: ks => do
    let x ← d.descFor p q (tslot w k) false false
    need (arrayFmt x.fmt) Code.descInvalid
    let l ← d.arrayDescs p q w ks
    pure (Tab.put l k x)
/-- Reads output descriptors: no amax scale modes (R135), and F32 in accumulator banks where accumulated (R106). -/
def Dev.outDescs (d : Dev) (p q w : Nat) : List (Nat × Nat) → Chk (List (Nat × Desc))
  | [] => pure []
  | (k, fl) :: ks => do
    let x ← d.descFor p q (tslot w k) true false
    need (x.smode != 1 && x.smode != 2) Code.descInvalid
    need (!accumulates w fl || (x.space == 2 && x.fmt == 0)) Code.descInvalid
    let l ← d.outDescs p q w ks
    pure (Tab.put l k x)
/-- Whether a node area of n nodes fits its space (R124, R295). -/
def Dev.areaOk (d : Dev) (p q n : Nat) (g : Geo) : Bool :=
  d.spanOk p q g.d.space (g.d.addr, ((g.d.addr + 128 + n * g.nodeBytes : Nat) : Int))
/-- The nodes that a split reduction of local length k emits: first spans and heights (R82). -/
def splitNodes (w k : Nat) : List (Nat × Nat) := nodesOf (byt w 13 12) (cdiv k 2048) (byt w 15 14)
/-- The checks of a TENSOR operation at issue. -/
def Dev.tensorPlan (d : Dev) (p q : Nat) (t : TKind) (w : Nat) : Chk Plan := do
  let P := d.part p
  let ix := (loopIndex (P.seq q).stack).getD 0
  need (t.form w && P.mayIssue q t.kind) Code.opInvalid
  let i ← d.arrayDescs p q w t.ins
  let o ← d.outDescs p q w t.outs
  let l := o.foldl (fun l x => Tab.put l x.1 x.2) i
  need (t.prods.all fun x =>
    let a := geoIn l ix x.1
    let c := geoIn l ix x.2.2
    shapesOk a (geoIn l ix x.2.1) c && splitOk w t (a.len 0) &&
      (!tensorSplit w || d.areaOk p q (splitNodes w (a.len 0)).length c)) Code.descInvalid
  pure ⟨t.kind, l, t.outs.map (·.1), none⟩
/-- Issues a TENSOR operation. -/
def Dev.tensorRow (d : Dev) (p q : Nat) (row : Row) (t : TKind) : Dev := d.engineRow p q row fun d w => d.tensorPlan p q t w

/-! ## Running -/

/-- A geometry at another address. -/
def Geo.at' (g : Geo) (a : Nat) : Geo := { g with d := { g.d with addr := a } }
/-- The header of a node area (Table 11-9). -/
def nodeHeader (epoch : Nat) (nodes : List (Nat × Nat)) : List Byte :=
  fit 128 (natLe 2 nodes.length ++ natLe 2 epoch ++ nodes.flatMap fun n => natLe 4 (n.1 + n.2 * 65536))
/-- Adds results into the elements of a geometry, or leaves them (R84). -/
def Dev.accumulate (d : Dev) (p : Nat) (acc : Bool) (g : Geo) (vs : List Fl) : List Fl :=
  if acc then List.zipWith (fun x v => Fl.add (.of x.v) v) (d.values p g) vs else vs
/-- Writes the outputs of a product: the rounded roots, or the node area of a split reduction. Where a split reduction's output has
another FMT than F32, which R82 neither refuses nor provides for (it has the nodes not rounded), each node is converted into that format
like any output (DESIGN CHOICE, log 110). Under SR the nodes of a split reduction
share the descriptor's one range, each element drawing the same bits in every node (DESIGN CHOICE, log 110). -/
def Dev.emitProduct (d : Dev) (p q : Nat) (f : Flight) (gl : List Glitch) (acc : Bool) (c0 : Nat) (x : Prod) : Emit :=
  let w := f.w
  let parts := x.c.logical.map (x.partials gl)
  if !tensorSplit w then
    d.emitTo p q f x.c c0 (elemsOf (d.accumulate p acc x.c (parts.map fun ps => (treeOf Fl.add ps).getD .zero)))
  else
    let nodes := splitNodes w x.k
    let nb := x.c.nodeBytes
    nodes.zipIdx.foldl (fun e n =>
        let g := x.c.at' (x.c.d.addr + 128 + n.2 * nb)
        let vs := parts.map fun ps => nodeValue ps x.g0 n.1.1 (min (2 ^ n.1.2) (x.total - n.1.1))
        e.append (d.emitTo p q f g c0 (elemsOf (d.accumulate p acc g vs))))
      { Emit.empty with sink := d.sinkBytes p x.c.d.space x.c.d.addr (nodeHeader f.imm.toNat nodes) }
/-- What an output reads: the elements it accumulates into (those of n nodes for a split reduction), and given scales. -/
def Flight.outReads (f : Flight) (k flag n : Nat) : Reads :=
  match f.geo k with
  | none => []
  | some g =>
    if tensorSplit f.w && accumulates f.w flag then
      (List.range n).flatMap fun i => (g.at' (g.d.addr + 128 + i * g.nodeBytes)).reads
    else if accumulates f.w flag then g.reads ++ g.givenReads
    else g.givenReads
/-- For each element of an output in logical order, whether an accumulator element that it adds to is poisoned, in any of n nodes. -/
def Dev.accPoison (d : Dev) (p : Nat) (f : Flight) (k flag n : Nat) : List Bool :=
  match f.geo k with
  | none => []
  | some g =>
    if !accumulates f.w flag then []
    else if tensorSplit f.w then
      (List.range n).foldl (fun l i =>
        let v := (d.values p (g.at' (g.d.addr + 128 + i * g.nodeBytes))).map (·.bad)
        if l.isEmpty then v else List.zipWith (· || ·) l v) []
    else (d.values p g).map (·.bad)
/-- The products of an operation, with the values read, numbered unit after unit. -/
def Dev.prodsOf (d : Dev) (p : Nat) (f : Flight) : Nat → List (Nat × Nat × Nat) → List Prod
  | _, [] => []
  | u, (a, b, c) :: t =>
    match f.geo a, f.geo b, f.geo c with
    | some ga, some gb, some gc =>
      let x := Prod.whole ga (d.values p ga) gb (d.values p gb) gc u
      let x := if tensorSplit f.w then { x with g0 := byt f.w 13 12, total := byt f.w 15 14 } else x
      x :: d.prodsOf p f (u + x.unitCount) t
    | _, _, _ => []
/-- The arrays of each product of an operation: dX on BX and dW on BW where the arrays do not gang. -/
def Part.prodArrays (P : Part) (q : Nat) (k : OpKind) : List (List Nat) :=
  if P.ganged q then [[0, 1, 2], [0, 1, 2]] else if k == .pair then [[1], [2]] else [P.arraysOf q k]
/-- The second product of a pair under SEQUENCE reads dY once more (R72, R86): its failing bytes are found and recorded again. -/
def Dev.feedAgain (d : Dev) (p q : Nat) (f : Flight) : Dev :=
  if f.kind == .pair && (d.part p).ganged q then
    let rs := ((f.geo 0).map Geo.reads).getD []
    match d.locateAll p rs.flat with
    | some ls => d.touch p [] true rs ls
    | none => d
  else d
/-- Starts a TENSOR operation of the arrays. -/
def Dev.startTensor (d : Dev) (p q : Nat) (f : Flight) (gl : List Glitch) : Start :=
  let t := kindOf f.kind
  let nodes := (splitNodes f.w (((f.geo (t.prods.getD 0 (0, 0, 0)).1).map (·.len 0)).getD 0)).length
  let rs := (t.ins.flatMap fun k => ((f.geo k).map Geo.reads).getD []) ++ t.outs.flatMap fun o => f.outReads o.1 o.2 nodes
  match d.gather p gl rs with
  | .wait d => .wait d
  | .stop d c => .stop d c
  | .ok d =>
    let d := (d.sliceRecords p gl).feedAgain p q f
    let xs := ((d.prodsOf p f 0 t.prods).zip t.outs).map fun y => { y.1 with accBad := d.accPoison p f y.2.1 y.2.2 nodes }
    let d := d.lendAt p q ((d.part p).arraysOf q f.kind)
    let cands := (d.part p).prodArrays q f.kind |>.map (d.candidates p q)
    let e := ((xs.zip t.outs).zip f.srBase).foldl (fun e y => e.append (d.emitProduct p q f gl (accumulates f.w y.1.2.2) y.2 y.1.1)) Emit.empty
    let cyc := (xs.zip cands).flatMap fun y => unitRuns f.no y.2 [y.1]
    let d := (xs.zip cands).foldl (fun d y => d.poisonTiles f.no gl y.2 [y.1]) d
    .run d { f with started := true
                    result := { Reset.noResult with bytes := e.sink.bytes, fault := e.sink.fault, health := e.health, cycles := cyc } }

/-! ## BW (R88, R89, R95) -/

/-- The forward TENSOR operation that a partition runs. -/
def Part.forwardRun (P : Part) : Option Flight :=
  (P.flights.find? fun x => x.1 == 0 && x.2.kind.isTensor && x.2.started).map (·.2)
/-- Changes the units of the running forward operation by a free number: how many units an array has begun is a matter of
time (log 112). -/
def Dev.onUnits (d : Dev) (p : Nat) (g : Nat → List UnitRun → List UnitRun) : Dev :=
  match (d.part p).forwardRun with
  | none => d
  | some f =>
    let (k, d) := d.free
    d.onFlight p 0 fun x => if x.no == f.no then { x with result := { x.result with cycles := g k x.result.cycles } } else x
/-- A unit that array a of tile t holds and has not begun. -/
def UnitRun.waits (u : UnitRun) (t a : Nat) : Bool := u.tile == t && u.arr == a && !u.begun
/-- Of the units that array a of tile t has not begun, the first k are begun by now, it keeps the first c, and the others pass to array
b. -/
def passUnits (t a b : Nat) : Nat → Nat → List UnitRun → List UnitRun
  | _, _, [] => []
  | k, c, u :: l =>
    if !u.waits t a then u :: passUnits t a b k c l
    else match c with
      | 0 => { u with arr := b } :: passUnits t a b k 0 l
      | c + 1 => { u with begun := decide (0 < k) } :: passUnits t a b (k - 1) c l
/-- BW keeps what it has begun, and the rest passes to FA. -/
def returnUnits (t k : Nat) (l : List UnitRun) : List UnitRun :=
  let n := k % ((l.countP fun u => u.waits t 2) + 1)
  passUnits t 2 0 n n l
/-- Whether ascending spans are one node of the tree over all of them, or none at all. -/
def oneNode (total : Nat) : List Nat → Bool
  | [] => true
  | a :: l => (a :: l) == (List.range (l.length + 1)).map (a + ·) && (nodesOf a (l.length + 1) total).length == 1
/-- Whether FA of a tile may keep some units of an operation and leave the list `rest` to BW: the spans of a pair that both then hold are
divided along tree nodes (R80). -/
def splitsWell (keep rest : List UnitRun) : Bool :=
  match rest with
  | [] => true
  | u :: _ =>
    let mine := (keep.filter fun x => x.pair == u.pair).map (·.span)
    mine.isEmpty || (oneNode u.total mine && oneNode u.total ((rest.filter fun x => x.pair == u.pair).map (·.span)))
/-- Of the units that FA of tile t has not begun, a free number is begun by now; of the others BW takes the last ones, from a free one of
the places where R80 lets them be divided. -/
def lendUnits (t k : Nat) (l : List UnitRun) : List UnitRun :=
  let ahead := l.filter fun u => u.waits t 0
  let done := l.filter fun u => u.tile == t && u.arr == 0 && u.begun
  let n := ahead.length
  let m := k % (n + 1)
  let places := (List.range (n + 1)).filter fun c => decide (m ≤ c) && splitsWell (done ++ ahead.take c) (ahead.drop c)
  passUnits t 0 2 m (places.getD (k / (n + 1) % max 1 places.length) n) l
/-- BW_RETURN, a number of ARR cycles after the issue of the operation that needs it: the units that BW has not started pass to FA. -/
def Dev.bwReturn (d : Dev) (p t cycles : Nat) : Dev :=
  let P := d.part p
  if P.entry.gang == .borrow && (d.tilesOf p).contains t && (d.tile t).bwLent && P.needsBw then
    (d.onTile t fun x => { x with bwLent := false, lendMax := max x.lendMax (min cycles (2 ^ 16 - 1)) }).onUnits p (returnUnits t)
  else d
/-- BW_LEND: BW takes units of the running forward operation again. -/
def Dev.bwLend (d : Dev) (p t : Nat) : Dev :=
  let P := d.part p
  if P.entry.gang == .borrow && (d.tilesOf p).contains t && !P.needsBw && !(d.tile t).bwLent && P.forwardRun.isSome then
    (d.onTile t fun x => { x with bwLent := true }).onUnits p (lendUnits t)
  else d
/-- A write of ARR_STAT CLRCNT. -/
def Dev.arrClear (d : Dev) (t : Nat) : Dev :=
  d.onTile t fun x => { x with cycFa := 0, cycBx := 0, cycBw := 0, lendMax := 0, lendCyc := 0 }

/-! ## Meanings -/

def execTensorForward (p : PIx) (q : Strm) (s : State) : Host.Outcome State Fault Refusal :=
  s.onDev fun d => d.tensorRow p.val (strmIx q) .forward tForward
def execTensorPair (p : PIx) (q : Strm) (s : State) : Host.Outcome State Fault Refusal :=
  s.onDev fun d => d.tensorRow p.val (strmIx q) .pair tPair
def execTensorDxOnly (p : PIx) (q : Strm) (s : State) : Host.Outcome State Fault Refusal :=
  s.onDev fun d => d.tensorRow p.val (strmIx q) .dxOnly tDx
def execTensorDwOnly (p : PIx) (q : Strm) (s : State) : Host.Outcome State Fault Refusal :=
  s.onDev fun d => d.tensorRow p.val (strmIx q) .dwOnly tDw
def execBwReturn (p : PIx) (t : TIx) (cycles : Nat) (s : State) : Host.Outcome State Fault Refusal :=
  s.onDev fun d => d.bwReturn p.val t.val cycles
def execBwLend (p : PIx) (t : TIx) (s : State) : Host.Outcome State Fault Refusal := s.onDev fun d => d.bwLend p.val t.val
def execArrClrcnt (t : TIx) (s : State) : Host.Outcome State Fault Refusal := s.onDev fun d => d.pf0Write fun d => d.arrClear t.val

end Sys2Proof.Machine
end

