-- ==== Sys2Proof/Machine/Images.lean ====
section
/-! DEFINITION. The words that partition and extent registers read as, and the error record (12, 10, 15, 13): the host
reads them as registers and Heril measures them. -/

namespace Sys2Proof.Machine

/-- AES-GCM as R175 has it: the ciphertext is as long as the plaintext, and no additional data. -/
def gcmPlain (key : BitVec 256) (iv : BitVec 96) (c : List Byte) (tag : BitVec 128) : Option (List Byte) :=
  (Config.gcmOpen key iv c tag).map (fit c.length)
def gcmCipher (key : BitVec 256) (iv : BitVec 96) (l : List Byte) : List Byte × BitVec 128 :=
  let x := Config.gcmSeal key iv l
  (fit l.length x.1, x.2)
/-- PART_CTL; a guest reads its host's tiles and leader (R325, R331). -/
def Dev.partCtl (d : Dev) (p : Nat) : Nat :=
  let P := d.part p
  let e := P.entry
  stateCode P.st * 2 ^ 60 + modeCode e.mode * 2 ^ 58 + gangCode e.gang * 2 ^ 56 + b2n e.c0 * 2 ^ 55 + b2n e.lent * 2 ^ 54 +
  b2n e.guest * 2 ^ 53 + e.hostp * 2 ^ 47 + d.leader p * 2 ^ 40 + (if e.guest then (d.tilesOf p).length else e.ntile) * 2 ^ 33 +
  e.tkd * 2 ^ 23
/-- The tile mask that PART_TILES_LO and PART_TILES_HI show. -/
def Dev.tileMask (d : Dev) (p : Nat) : Nat := (tilesMask (d.tilesOf p)).toNat
def Dev.partRes (d : Dev) (p : Nat) : Nat :=
  let e := (d.part p).entry
  e.accb * 2 ^ 60 + e.gbanks * 2 ^ 56 + e.nteach * 2 ^ 49 + e.hsbase * 2 ^ 36 + e.hscount * 2 ^ 22
def yResultCode : YResult → Nat
  | .none => 0
  | .yielded => 1
  | .faulted => 2
  | .timeout => 3
def Part.yieldWord (P : Part) : Nat := yResultCode P.yResult * 2 ^ 60 + P.yBeats
def Part.regCfg (P : Part) (r : Nat) : Nat := (P.regs.getD r Reset.regul).share * 2 ^ 53 + (P.regs.getD r Reset.regul).ceil * 2 ^ 42
def Part.slowWord (P : Part) : Nat := P.slow.ratio * 2 ^ 48 + P.slow.active * 2 ^ 34 + P.slow.stall * 2 ^ 21 + P.slow.window
/-- EXT_A, EXT_B and EXT_C of one entry (R274). -/
def Part.extWords (P : Part) (e : Nat) : List Nat :=
  match Tab.get? P.ext e with
  | none => [0, 0, 0]
  | some x => [2 ^ 63 + x.kind * 2 ^ 60 + x.base * 2 ^ 56 + x.vbase, x.pbase, x.len]
/-- KGEN_P and KGEN_S (R356). -/
def KGen.word (k : KGen) : Nat :=
  (match k.st with
    | .none => 0
    | .stable => 1
    | .rotating => 2) * 2 ^ 62 + b2n k.cur * 2 ^ 61 + k.use1 * 2 ^ 29 + k.use0
/-- The 32 bytes of an error record (Table 15-3). -/
def ErrRec.bytes (r : ErrRec) : List Byte :=
  natLe 2 r.code ++ natLe 1 (Code.cls r.code + 4 * b2n r.pv + 8 * b2n r.av + 16 * b2n r.phys) ++ natLe 1 r.part ++ natLe 2 r.seq ++
  natLe 6 r.beat ++ natLe 1 r.unit ++ natLe 1 r.index ++ natLe 1 r.bank ++ natLe 1 r.rep ++ natLe 8 (r.addr % 2 ^ 48) ++ natLe 8 r.aux
def CatState.code : CatState → Nat
  | .free => 0
  | .loading => 1
  | .ready => 2
  | .removing => 3
  | .revoking => 4
def BaseState.code : BaseState → Nat
  | .empty => 0
  | .loading => 1
  | .ready => 2
  | .failed => 3
def RState.code : RState → Nat
  | .idle => 0
  | .fill => 1
  | .front => 2
  | .failed => 3

end Sys2Proof.Machine
end

