-- ==== Sys2Proof/Machine/Catalog.lean ====
section
/-! DEFINITION. The adapter catalog and the pod slots (07): images and their digests, catalog commands, binds and their ends,
and the slot commands of the queues. -/

namespace Sys2Proof.Machine

/-! ## Images (R172 to R174) -/

/-- Pieces of 1 MiB, with fuel for their number. -/
def mibPieces : Nat → List Byte → List (List Byte)
  | 0, _ => []
  | n + 1, l => if l.isEmpty then [] else l.take (2 ^ 20) :: mibPieces n (l.drop (2 ^ 20))
/-- The two-level digest of R174, which shards share (R263). -/
def imageDigest (l : List Byte) : BitVec 256 :=
  Config.sha256 ((mibPieces (l.length / 2 ^ 20 + 1) l).flatMap fun x => natLe 32 (Config.sha256 x).toNat)
/-- DTAG of an image digest. -/
def dtagOf (g : BitVec 256) : BitVec 64 := g.setWidth 64
/-- Elements in a stored row of a format. -/
def rowElems (f n : Nat) : Nat := if isMx f then roundUp n 32 else n
/-- The end of a matrix of r rows of n elements at off, with its scale array. -/
def matrixEnd (f r n off : Nat) : Nat :=
  let e := off + cdiv (r * rowElems f n * fmtWidth f) 8
  if isMx f then roundUp e 64 + r * (rowElems f n / 32) else e
/-- A pair table entry (Table 07-2). -/
structure Pair where
  layer : Nat
  proj : Nat
  din : Nat
  dout : Nat
  aoff : Nat
  boff : Nat
  deriving DecidableEq, Repr
def pairAt (l : List Byte) : Pair := ⟨num l 0 2, num l 2 1, num l 4 4, num l 8 4, num l 16 8, num l 24 8⟩
/-- Whether an entry meets R172 and R173. -/
def pairOk (f r len : Nat) (l : List Byte) : Bool :=
  let x := pairAt l
  let dim (n : Nat) : Bool := decide (1 ≤ n) && decide (n < 2 ^ 24)
  decide (x.layer < 4096) && decide (x.proj < 8) && zeroAt l 3 1 && dim x.din && dim x.dout && zeroAt l 12 4 &&
  x.aoff % 64 == 0 && x.boff % 64 == 0 && decide (matrixEnd f r x.din x.aoff ≤ len) && decide (matrixEnd f r x.dout x.boff ≤ len)
/-- Strictly ascending numbers. -/
def rising : List Nat → Bool
  | a :: b :: t => decide (a < b) && rising (b :: t)
  | _ => true
def imgFmt (l : List Byte) : Nat := num l 6 1
def imgRank (l : List Byte) : Nat := num l 7 1
def imgPairs (l : List Byte) : List (List Byte) := (List.range (num l 12 4)).map fun i => slice l (64 + 32 * i) 32
/-- Whether the header and pair table of an image of n bytes meet R172 and R173, with IMGLEN equal to n. -/
def imageOk (l : List Byte) (n : Nat) : Bool :=
  let np := num l 12 4
  decide (64 ≤ n) && num l 0 4 == 0x7A110001 && num l 4 2 == 1 && [2, 3, 6, 7, 8, 9, 10, 11].contains (imgFmt l) &&
  [4, 8, 16, 32, 64].contains (imgRank l) && (fmtF32.decode (num l 8 4)).isFinite && decide (1 ≤ np) && decide (np ≤ 32768) &&
  num l 16 8 == n && zeroAt l 24 40 && decide (64 + 32 * np ≤ n) && (imgPairs l).all (pairOk (imgFmt l) (imgRank l) n) &&
  rising ((imgPairs l).map fun x => 8 * (pairAt x).layer + (pairAt x).proj)

/-! ## Catalog entries (R176 to R180) -/

/-- Table 07-3. -/
def CatEntry.bytes (ix : Nat) (e : CatEntry) : List Byte :=
  natLe 4 (handleOf ix e) ++ natLe 1 e.st.code ++ [0] ++ natLe 2 e.tenant ++ natLe 8 e.pmask.toNat ++ natLe 8 e.length ++
  natLe 12 e.iv.toNat ++ natLe 16 e.tag.toNat ++ natLe 32 e.digest.toNat ++ List.replicate 12 0
/-- Bytes of the catalog region in use. -/
def Dev.catUsed (d : Dev) : Nat := d.cat.foldl (fun n x => if x.2.st == .free then n else n + x.2.length) 0
/-- The lowest-numbered FREE entry, where the region has room for n bytes. -/
def Dev.catRoom (d : Dev) (n : Nat) : Option Nat :=
  if d.cfg.catsz * 2 ^ 20 < d.catUsed + n then none else (List.range 16384).find? fun i => (d.catEntry i).st == .free
/-- CAT_ADD: the entry is LOADING until its ciphertext is stored, which answers the command. -/
def Dev.catAdd (d : Dev) (ch : Chan) : Dev :=
  d.command ch 0x100 (fun b => bodyLen 88 b && decide (num b 0 2 < 1024) && zeroAt b 78 2 && num b 80 8 % 64 == 0 && d.dma) fun d b =>
    match d.catRoom (num b 10 8) with
    | none => .now d Code.catFull []
    | some i =>
      let g := BitVec.ofNat 256 (num b 46 32)
      if dtagOf g == 0 || decide (num b 10 8 < 64) then .now d Code.adapterFormat []
      else .later (d.onCat i fun e =>
        { e with st := .loading, tenant := num b 0 2, pmask := BitVec.ofNat 64 (num b 2 8), length := num b 10 8,
                 iv := BitVec.ofNat 96 (num b 18 12), tag := BitVec.ofNat 128 (num b 30 16), digest := g }) i
/-- CAT_ADD_STORED. The status that a host DMA error answers with is not given: it is a free value. -/
def Dev.catStored (d : Dev) (i : Nat) (cipher : List Byte) (dmaOk : Bool) : Dev :=
  let e := d.catEntry i
  if e.st != .loading || !d.coresUp then d
  else if dmaOk then
    (d.onCat i fun e => { e with st := .ready, cipher := fit e.length cipher }).reply 0x100 i 0 (natLe 4 (handleOf i e))
  else
    let (v, d) := d.free
    (d.onCat i (CatEntry.freed i)).reply 0x100 i (v % 2 ^ 16) []
/-- A catalog command on a handle: ADAPTER_GONE where it does not resolve. -/
def Dev.onHandle (d : Dev) (h : Nat) (f : Nat → CatEntry → Dev) : Done :=
  match d.resolveHandle h with
  | none => .now d Code.adapterGone []
  | some e => ok (f (handleIx h) e)
def Dev.catMask (d : Dev) (ch : Chan) : Dev :=
  d.command ch 0x101 (fun b => bodyLen 16 b && zeroAt b 4 4) fun d b =>
    d.onHandle (num b 0 4) fun i _ => d.onCat i fun e => { e with pmask := BitVec.ofNat 64 (num b 8 8) }
def Dev.catRemove (d : Dev) (ch : Chan) : Dev :=
  d.command ch 0x102 (fun b => bodyLen 8 b && zeroAt b 4 4) fun d b =>
    d.onHandle (num b 0 4) fun i e => if e.st == .ready then (d.onCat i fun e => { e with st := .removing }).catSettle else d
/-- CAT_QUERY. -/
def Dev.catQuery (d : Dev) (ch : Chan) : Dev :=
  d.command ch 0x104 (fun b => bodyLen 8 b && decide (num b 4 1 < 2) && zeroAt b 5 3 && (num b 4 1 == 0 || decide (num b 0 4 < 16384))) fun d b =>
    let i := handleIx (num b 0 4)
    if num b 4 1 == 0 && (d.resolveHandle (num b 0 4)).isNone then .now d Code.adapterGone [] else .now d 0 ((d.catEntry i).bytes i)

/-! ## Pod slots (R181 to R186) -/

def Part.podStride (P : Part) : Nat := fld P.podCfg.toNat 59 48 * 2 ^ 20
/-- The partition address of slot k. -/
def Part.podAddr (P : Part) (k : Nat) : Nat := fld P.podCfg.toNat 47 20 * 2 ^ 20 + k * P.podStride
def Part.onPod (P : Part) (k : Nat) (f : PodSlot → PodSlot) : Part := { P with pods := setAt P.pods k (f (P.pod k)) }
/-- Overwrites a slot with zeros, which count as the partition's writes (R316). -/
def Dev.zeroSlot (d : Dev) (p k : Nat) : Dev :=
  match d.pa? p ((d.part p).podAddr k) with
  | some x => d.zeroFor p x.pa (d.part p).podStride
  | none => d
/-- The slot that a bind takes (R186): a slot never used counts as used before every other (log entry 31). -/
def Part.pickSlot (P : Part) : Option Nat :=
  match P.pods.findIdx? fun s => s.st == .empty with
  | some k => some k
  | none => ((List.range 16).filter fun k => (P.pod k).st == .bound && (P.pod k).pins == 0 && !(P.pod k).held).foldl
      (fun b k => match b with
        | none => some k
        | some j => if (P.pod k).use < (P.pod j).use then some k else some j) none
/-- The ADAPTER key of a slot, for a partition of its domain (R344). -/
def Dev.tenantKey (d : Dev) (p tenant : Nat) : Option (BitVec 256) :=
  match Tab.get? d.sec.tkeys tenant with
  | some k => if !k.model && k.tkd == (d.part p).entry.tkd then some k.key else none
  | none => none
/-- Checks 1 to 4 of R182. -/
def Dev.bindCheck (d : Dev) (p h : Nat) : Nat :=
  match d.resolveHandle h with
  | none => Code.adapterGone
  | some e =>
    if e.st != .ready then Code.adapterGone
    else if !e.pmask.getLsbD p then Code.adapterDenied
    else if (d.tenantKey p e.tenant).isNone then Code.keyAbsent
    else if (d.part p).podStride < e.length then Code.slotSize
    else 0
/-- Begins a bind of handle h into slot k, which leaves what it held: BINDING, or EMPTY again with the code of a failed check. -/
def Dev.beginBind (d : Dev) (p h k : Nat) (held : Bool) : Nat × Dev :=
  let c := d.bindCheck p h
  let d := if c == 0 then
      d.onPart p fun P => P.onPod k fun s => { s.emptied with st := .binding, handle := BitVec.ofNat 32 h, held := held }
    else (d.zeroSlot p k).onPart p fun P => P.onPod k PodSlot.emptied
  (c, d.catSettle)

/-! ## Slot command completions (R188, Table 16-8) -/

/-- Completes the running slot command. -/
def Dev.slotDone (d : Dev) (p code h : Nat) (k : Option Nat) : Dev := d.postCqe p code (d.slotBody p h k)
/-- Whether a queue command is a BIND of handle h that has begun. -/
def Sqe.binds (e : Sqe) (h : Nat) : Bool := e.cmd == 2 && e.started && num e.body 0 1 == 1 && num e.body 4 4 == h
/-- Tells whoever asked for a bind that it has ended: the step of its wave, or the BIND command. One whose command an error has ended has
nobody to tell. -/
def Dev.bindEnded (d : Dev) (p h k code : Nat) : Dev :=
  match (d.part p).step with
  | some s =>
    if code == 0 then d else d.onPart p fun P => { P with step := some { s with bindCodes := (BitVec.ofNat 32 h, code) :: s.bindCodes } }
  | none => match (d.part p).vf.cur with
    | some e => if e.binds h then d.slotDone p code h (if code == 0 then some k else none) else d
    | none => d
/-- Checks 5 to 8 of R182. -/
def Dev.bindOutcome (d : Dev) (p : Nat) (e : CatEntry) : Except Nat (List Byte) :=
  match d.tenantKey p e.tenant with
  | none => .error Code.keyAbsent
  | some key => match gcmPlain key e.iv e.cipher e.tag with
    | none => .error Code.adapterAuth
    | some img =>
      if imageDigest img != e.digest then .error Code.adapterDigest
      else if !imageOk img e.length then .error Code.adapterFormat
      else .ok img
/-- BIND_COMPLETE, once the stack regulators serve it: what it read and wrote counts against them (R183, R315). -/
def Dev.bindComplete (d : Dev) (p k : Nat) : Dev :=
  let s := (d.part p).pod k
  if s.st != .binding || !d.coresUp || !d.servable p [0, 1] then d
  else
    let h := s.handle.toNat
    let e := d.catEntry (handleIx h)
    let d := d.charge p 0 e.length
    match d.bindOutcome p e with
    | .error c => ((((d.charge p 1 e.length).zeroSlot p k).onPart p fun P => P.onPod k PodSlot.emptied).catSettle).bindEnded p h k c
    | .ok img =>
      let d := match d.pa? p ((d.part p).podAddr k) with
        | some x => d.store p [] x.pa img
        | none => d
      (d.onPart p fun P => P.onPod k fun s => { s with st := .bound, gen := s.gen + 1, dtag := dtagOf e.digest }).bindEnded p h k 0

/-! ## Revocation (R180, R181, R187) -/

/-- What revocation of handle h does to slot k of partition p. -/
def Dev.revokeSlot (d : Dev) (h p k : Nat) : Dev :=
  let s := (d.part p).pod k
  if s.st == .empty || s.handle.toNat != h then d
  else if s.st == .binding then
    ((d.zeroSlot p k).onPart p fun P => P.onPod k PodSlot.emptied).bindEnded p h k Code.adapterGone
  else if s.held then d.onPart p fun P => P.onPod k fun s => { s with revoked := true }
  else d.onPart p fun P => P.onPod k PodSlot.emptied
def Dev.revokeAll (d : Dev) (h : Nat) : Dev :=
  d.live.foldl (fun d p => (List.range 16).foldl (fun d k => d.revokeSlot h p k) d) d
def Dev.catRevoke (d : Dev) (ch : Chan) : Dev :=
  d.command ch 0x103 (fun b => bodyLen 8 b && zeroAt b 4 4) fun d b =>
    d.onHandle (num b 0 4) fun i e =>
      if e.st == .ready || e.st == .removing then
        ((d.onCat i fun e => { e with st := .revoking }).revokeAll (num b 0 4)).catSettle
      else d

/-! ## Slot commands (R188, R189) -/

/-- Whether a queue command of partition p may begin: R252 holds back what a reset has not finished. -/
def Part.begins (P : Part) : Bool := P.st != .setup && P.st != .resetting
/-- The running queue command of a code, when it has not begun. -/
def Dev.queueCmd (d : Dev) (p cmd : Nat) : Option Sqe :=
  match (d.part p).vf.cur with
  | some e => if e.cmd == cmd && !e.started && (d.part p).begins then some e else none
  | none => none
/-- Completes the running queue command e with a code of its own rules' refusal. -/
def Dev.refuseQueue (d : Dev) (p code : Nat) (e : Sqe) : Dev :=
  if e.cmd == 2 then d.slotDone p code e.slotHandle none else d.postCqe p code []
/-- What refuses every queue command: a device-fatal error, or SLEEP and DEEP (R362, R389). -/
def Dev.queueRefusal (d : Dev) : Option Nat :=
  if d.err.deOpen then some Code.cmdInvalid else if d.ckr.pwr != 0 then some Code.pwrSleep else none
/-- Runs the waiting queue command of a code, or refuses it. -/
def Dev.onQueue (d : Dev) (p cmd : Nat) (act : Dev → Sqe → Dev) : Dev :=
  match d.queueCmd p cmd with
  | none => d
  | some e => if !d.coresUp then d else match d.queueRefusal with
    | some c => d.refuseQueue p c e
    | none => act d e
/-- Marks the running queue command as begun. -/
def Dev.cmdStarted (d : Dev) (p : Nat) : Dev := d.onVf p fun v => { v with cur := v.cur.map fun e => { e with started := true } }
/-- A slot command of code SCMD: its form, the partition's pod slots where it needs them, and its effect. -/
def Dev.slotCmd (d : Dev) (p scmd : Nat) (form : List Byte → Bool) (act : Dev → List Byte → Dev) : Dev :=
  if num (((d.queueCmd p 2).map (·.body)).getD []) 0 1 != scmd then d
  else d.onQueue p 2 fun d e =>
    let P := d.part p
    let pods := scmd == 4 || (P.entry.mode == .serve && P.podCfg.getLsbD 63)
    if zeroAt e.body 1 3 && zeroAt e.body 14 2 && zeroAt e.body 22 2 && zeroAt e.body 32 32 && form e.body && pods then act (d.cmdStarted p) e.body
    else d.slotDone p Code.cmdInvalid e.slotHandle none
/-- BIND. A handle that a slot holds already stays where it is; one whose bind still runs is waited for. -/
def Dev.bind (d : Dev) (p : Nat) : Dev :=
  d.slotCmd p 1 (fun b => zeroAt b 8 24) fun d b =>
    let h := num b 4 4
    let P := d.part p
    match P.slotOf (BitVec.ofNat 32 h) with
    | some k => if (P.pod k).st == .binding then d else d.slotDone p 0 h (some k)
    | none => match P.pickSlot with
      | none => d.slotDone p Code.slotBusy h none
      | some k =>
        let (c, d) := d.beginBind p h k false
        if c == 0 then d else d.slotDone p c h none
/-- UNBIND. -/
def Dev.unbind (d : Dev) (p : Nat) : Dev :=
  d.slotCmd p 2 (fun b => zeroAt b 8 24) fun d b =>
    let h := num b 4 4
    let d := match (d.part p).slotOf (BitVec.ofNat 32 h) with
      | none => d
      | some k => d.onPart p fun P => P.onPod k fun (s : PodSlot) =>
        if s.st == PodState.binding then s else if s.pins == 0 && !s.held then s.emptied else { s with st := .unbinding }
    d.catSettle.slotDone p 0 h none
/-- UNPIN. A handle that no slot holds has no pins. -/
def Dev.unpin (d : Dev) (p : Nat) : Dev :=
  d.slotCmd p 3 (fun b => zeroAt b 12 20) fun d b =>
    let h := num b 4 4
    let n := num b 8 4
    match (d.part p).slotOf (BitVec.ofNat 32 h) with
    | none => d.slotDone p (if n == 0 then 0 else Code.pinUnderflow) h none
    | some k =>
      let pins := ((d.part p).pod k).pins
      let d := d.onPart p fun P => P.onPod k fun s => { s with pins := pins - n, removed := s.removed + min n pins }
      let d := d.slotDone p (if pins < n then Code.pinUnderflow else 0) h (some k)
      (d.onPart p fun P => P.onPod k fun s => if s.st == .unbinding && s.pins == 0 && !s.held then s.emptied else s).catSettle
/-- SEAL, once the stack-read regulator serves it (R315): a READY entry under a fresh IV. It is accepted with its form: an entry with
room for the image is LOADING while its checks run, and FREE again when one fails (Table 07-5; log 117). An image that lies in no
extent stops the partition (R250); one that is not whole in a PRIVATE extent, or has a poisoned byte, is no image. -/
def Dev.sealImage (d : Dev) (p : Nat) : Dev :=
  if !d.servable p [0] then d
  else d.slotCmd p 4 (fun b => zeroAt b 4 8) fun d b =>
    let t := num b 12 2
    let a := num b 16 6
    let n := num b 24 8
    let none' := 0xFFFFFFFF
    let room := d.catRoom n
    let d := match room with
      | some i => d.onCat i fun e => { e with st := .loading, length := n, tenant := t }
      | none => d
    let drop (d : Dev) : Dev := match room with
      | some i => d.onCat i (CatEntry.freed i)
      | none => d
    let fail (d : Dev) (c : Nat) : Dev := (drop d).slotDone p c none' none
    if n == 0 then fail d Code.adapterFormat
    else if !d.mapped p a n (fun _ => true) then (drop d).pe Code.extUnmapped p
    else if !d.mapped p a n (· == 0) then fail d Code.adapterFormat
    else
      let pas := (List.range n).filterMap fun i => (d.pa? p (a + i)).map (·.pa)
      let d := d.readUnits p [] (unitsOf pas)
      let img := d.peek p a n
      let g := imageDigest img
      if d.poisoned p a n || !imageOk img n || dtagOf g == 0 then fail d Code.adapterFormat
      else match d.tenantKey p t with
        | none => fail d Code.keyAbsent
        | some key => match room with
          | none => fail d Code.catFull
          | some i =>
            let (x, d) := d.draw
            let iv : BitVec 96 := x.setWidth 96
            let (c, tag) := gcmCipher key iv img
            let d := d.onCat i fun e =>
              { e with st := .ready, tenant := t, pmask := 0, length := n, iv := iv, tag := tag, digest := g, cipher := c }
            d.slotDone p 0 (handleOf i (d.catEntry i)) none

/-! ## Meanings -/

def execCatAdd (ch : Chan) (s : State) : Host.Outcome State Fault Refusal := s.onDev fun d => d.catAdd ch
def execCatAddStored (ix : Fin 16384) (cipher : List Byte) (dmaOk : Bool) (s : State) : Host.Outcome State Fault Refusal :=
  s.onDev fun d => d.catStored ix.val cipher dmaOk
def execCatMask (ch : Chan) (s : State) : Host.Outcome State Fault Refusal := s.onDev fun d => d.catMask ch
def execCatRemove (ch : Chan) (s : State) : Host.Outcome State Fault Refusal := s.onDev fun d => d.catRemove ch
def execCatRevoke (ch : Chan) (s : State) : Host.Outcome State Fault Refusal := s.onDev fun d => d.catRevoke ch
def execCatQuery (ch : Chan) (s : State) : Host.Outcome State Fault Refusal := s.onDev fun d => d.catQuery ch
def execBindComplete (p : PIx) (k : Fin 16) (s : State) : Host.Outcome State Fault Refusal := s.onDev fun d => d.bindComplete p.val k.val
def execBind (p : PIx) (s : State) : Host.Outcome State Fault Refusal := s.onDev fun d => d.bind p.val
def execUnbind (p : PIx) (s : State) : Host.Outcome State Fault Refusal := s.onDev fun d => d.unbind p.val
def execUnpin (p : PIx) (s : State) : Host.Outcome State Fault Refusal := s.onDev fun d => d.unpin p.val
def execSealSlot (p : PIx) (s : State) : Host.Outcome State Fault Refusal := s.onDev fun d => d.sealImage p.val

end Sys2Proof.Machine
end

