-- ==== Sys2Proof/Machine/Serving.lean ====
section
/-! DEFINITION. Serving steps (09): KV pages, the rows of a step and their checks, pausing, conflicts, waves from their binds to
their end, completion entries, and the scrub command. -/

namespace Sys2Proof.Machine

/-! ## KV pages (R233, R244) -/

def Part.kvFmt (P : Part) : Nat := fld P.kvCfg.toNat 59 56
def Part.kvGroups (P : Part) : Nat := fld P.kvCfg.toNat 55 48
def Part.kvLayers (P : Part) : Nat := fld P.kvCfg.toNat 47 36
def Part.kvHd (P : Part) : Nat := fld P.kvCfg.toNat 35 24
def Part.kvNpages (P : Part) : Nat := fld P.kvPages.toNat 23 0
def Part.kvBaseAt (P : Part) : Nat := fld P.kvBase.toNat 47 12 * 4096
/-- Address of the tag of page n. -/
def Part.kvTagAt (P : Part) (n : Nat) : Nat := fld P.kvTag.toNat 47 3 * 8 + 8 * n
/-- Bytes of the K elements of a block, and of K with its scales. -/
def Part.kvElems (P : Part) : Nat := 16 * P.kvHd * fmtWidth P.kvFmt / 8
def Part.kvHalf (P : Part) : Nat := P.kvElems + if isMx P.kvFmt then 16 * P.kvHd / 32 else 0
/-- SB. -/
def Part.kvStride (P : Part) : Nat := roundUp (2 * P.kvHalf) 64
/-- Address of block (n, l, g). -/
def Part.kvBlock (P : Part) (n l g : Nat) : Nat := P.kvBaseAt + ((n * P.kvLayers + l) * P.kvGroups + g) * P.kvStride

/-! ## The step body and its rows (R222 to R229) -/

def StepRow.null (r : StepRow) : Bool := r.handle == nullHandle
/-- Pages that a row uses. -/
def StepRow.uses (r : StepRow) : Nat := cdiv (r.len + r.tokens) 16
/-- The pages that a row writes. -/
def StepRow.written (r : StepRow) : List Nat := (r.pages.take r.uses).drop (r.len / 16)
/-- A row table entry (Table 09-2), `bad` where a field breaks it or LEN + TOKENS is too large (R226). -/
def parseRow (b : List Byte) : StepRow :=
  let k := fld (num b 0 1) 1 0
  let vk := num b 1 1
  let t := num b 2 2
  let kindOk := match k with
    | 0 => vk == 0 && decide (1 ≤ t) && decide (t ≤ 8192)
    | 1 => vk == 0 && t == 1
    | 2 => decide (1 ≤ vk) && decide (vk ≤ 8) && t == vk + 1
    | _ => false
  { bad := !(kindOk && fld (num b 0 1) 7 5 == 0 && num b 16 6 % 4 == 0 && zeroAt b 22 2 && zeroAt b 30 2 && decide (num b 8 4 + t ≤ 16777215))
    kind := k, cls := fld (num b 0 1) 3 2, keep := bit (num b 0 1) 4, vk := vk, tokens := t, handle := BitVec.ofNat 32 (num b 4 4)
    len := num b 8 4, npage := num b 12 4, plist := num b 16 6, deadline := num b 24 6, pages := [], code := none, newlen := num b 8 4
    acc := 0, slot := 0xFF, late := false, pin := false, gen := 0, pins := 0, wave := 0, shape := false }
/-- What a queue command or step whose reading failed with a code comes to: its partition stops, or it has only marked the barrier at which
it waits. `e` is what its reads left of d. -/
def Dev.stopFor (d : Dev) (p c : Nat) (e : Dev) : Dev := if c == 0 then { d with bases := e.bases } else e.pe c p
/-- Descriptor i of SQF's table, as it stands. -/
def Dev.rawDesc (d : Dev) (p i : Nat) : Chk Desc := do
  let a := ((d.part p).descTable 0).1 + 64 * i
  let l ← chkFetch p a 64
  pure (parseDesc a l)
def tokEntry (b : List Byte) : TokEntry := ⟨num b 0 2, num b 2 1, num b 3 1, num b 4 2, num b 6 2⟩
/-- Whether a token list entry meets R229 in a step of `total` token rows. -/
def Dev.tokOk (d : Dev) (p total : Nat) (e : TokEntry) : Chk Bool := do
  let n := ((d.part p).descTable 0).2
  if !(decide (e.desc < n) && e.rsv == 0 && decide (e.op < 3)) then pure false
  else
    let x ← d.rawDesc p e.desc
    if e.op == 0 then pure (e.desc2 == 0xFFFF && decide (e.dim < x.ndim) && !(isMx x.fmt && e.dim == 0))
    else if n ≤ e.desc2 then pure false
    else
      let y ← d.rawDesc p e.desc2
      pure (decide (e.dim < x.ndim) && x.ndim == y.ndim && x.fmt == y.fmt && x.blk == y.blk && y.len e.dim == total &&
        !(isMx x.fmt && e.dim == 0) && (List.range 5).all fun i => i == e.dim || x.len i == y.len i)
def Dev.toksOk (d : Dev) (p total : Nat) : List TokEntry → Chk Bool
  | [] => pure true
  | e :: es => do
    let a ← d.tokOk p total e
    if a then d.toksOk p total es else pure false
/-- Bytes of extents that a step reads, and those that it writes. -/
def readKind (k : Nat) : Bool := decide (k < 3)
def writeKind (k : Nat) : Bool := k == 0 || k == 2
/-- Whether CPL can take NROW entries. -/
def Dev.cplOk (d : Dev) (p : Nat) (b : List Byte) : Bool :=
  let n := num b 6 2
  decide (1 ≤ n) && decide (n ≤ 1024) && num b 24 6 % 16 == 0 && d.mapped p (num b 24 6) (16 * n) writeKind
def Dev.rowsOk (d : Dev) (p : Nat) (b : List Byte) : Bool := num b 0 6 % 32 == 0 && d.mapped p (num b 0 6) (32 * num b 6 2) readKind
def totalTokens (rows : List StepRow) : Nat := rows.foldl (fun n r => n + r.tokens) 0
/-- A step body that passes R223, as a step that has not begun; none for one that does not. -/
def Dev.parseStep (d : Dev) (p : Nat) (b : List Byte) : Chk (Option StepRun) := do
  let P := d.part p
  let n := num b 6 2
  let ntl := num b 14 2
  let tl := num b 16 6
  let acpt := num b 32 6
  if !(P.entry.mode == .serve && P.kvCfg.getLsbD 63 && d.cplOk p b && d.rowsOk p b && decide (ntl ≤ 256) && zeroAt b 22 2 &&
      zeroAt b 30 2 && zeroAt b 38 2 && num b 8 6 % 16 == 0 && tl % 8 == 0 && (ntl == 0 || d.mapped p tl (8 * ntl) readKind) &&
      (P.seq 0).st.free && [1, 2].all fun q => (P.seq q).st.free || (P.seq q).st == .fault) then pure none
  else
    let rb ← chkFetch p (num b 0 6) (32 * n)
    let rows := (List.range n).map fun i => parseRow (slice rb (32 * i) 32)
    let total := totalTokens rows
    let acptOk := if rows.any fun r => r.kind == 2 then acpt % 4 == 0 && d.mapped p acpt (4 * n) readKind else acpt == 0
    if !acptOk || decide (65536 < total) then pure none
    else
      let tb ← chkFetch p tl (8 * ntl)
      let es := (List.range ntl).map fun i => tokEntry (slice tb (8 * i) 8)
      let good ← d.toksOk p total es
      if !good then pure none
      else pure (some
        { rowsAt := num b 0 6, prog := num b 8 6, tlist := es, cpl := num b 24 6, acpt := acpt, rows := rows, waves := [], wave := 0
          nwave := 0, phase := 0, overbudget := false, abort := false, coefs := (List.range 5).map fun i => num b (44 + 4 * i) 4
          pods0 := P.pods, bstart := d.beat, baseGen := [], basePos := [], bindCodes := [], undo := [] })
/-- Every row's entry of a step that R223 turns away. A row table that cannot be read gives no LEN: the new length is free. -/
def Dev.invalidRows (d : Dev) (p : Nat) (b : List Byte) : Nat → Except Dev Dev
  | 0 => .ok d
  | i + 1 =>
    match d.invalidRows p b i with
    | .error d => .error d
    | .ok d =>
      match if d.rowsOk p b then (some <$> chkFetch p (num b 0 6 + 32 * i) 32 : Chk (Option (List Byte))).on d else (.ok none, d) with
      | (.error c, e) => .error (d.stopFor p c e)
      | (.ok l, d) =>
        let (v, d) := match l with
          | some l => ((parseRow l).len, d)
          | none => d.free
        let k := l.bind fun l => (d.part p).slotOf (BitVec.ofNat 32 (num l 4 4))
        let s := match k with
          | some k => (d.part p).pod k
          | none => Reset.pod
        .ok (d.poke p (num b 24 6 + 16 * i) (natLe 2 Code.stepInvalid ++ [0, 0] ++ natLe 4 v ++ natLe 1 (k.getD 0xFF) ++ [0] ++
          natLe 2 s.gen.toNat ++ natLe 2 s.pins ++ [0, 0]))
/-- A step that R223 turns away. -/
def Dev.stepInvalid (d : Dev) (p : Nat) (b : List Byte) : Dev :=
  match if d.cplOk p b then d.invalidRows p b (num b 6 2) else .ok d with
  | .error d => d
  | .ok d => d.postCqe p Code.stepInvalid (natLe 2 Code.stepInvalid ++ List.replicate 8 0 ++ natLe 2 (num b 6 2) ++ natLe 4 0 ++ natLe 6 d.beat ++
      natLe 6 d.beat ++ List.replicate 4 0)

/-! ## Checks of rows, pausing and conflicts (R226, R227, R232) -/

/-- R226: the row with its pages, and its code. -/
def Dev.checkRow (d : Dev) (p : Nat) (r : StepRow) : Chk StepRow := do
  if r.bad then pure { r with code := some Code.rowInvalid }
  else
    let n := min r.npage r.uses
    let l ← chkFetch p r.plist (4 * n)
    let pages := (List.range n).map fun i => num l (4 * i) 4
    if pages.any fun x => decide ((d.part p).kvNpages ≤ x) then pure { r with code := some Code.rowInvalid }
    else if r.npage < r.uses then pure { r with code := some Code.pageShort }
    else pure { r with pages := pages }
def StepRow.isOpen (r : StepRow) : Bool := r.code.isNone
/-- Pauses against the budget. -/
def pauseRows (pods : List PodSlot) (coefs : List Nat) (budget : Nat) (rows : List StepRow) : List StepRow × Bool :=
  let isOver (l : List StepRow) : Bool := budget != 0 && decide (budget < estimate pods coefs (l.filter StepRow.isOpen))
  let pause (c : Nat) (l : List StepRow) : List StepRow := l.map fun r => if r.isOpen && r.cls == c then { r with code := some Code.paused } else r
  if !isOver rows then (rows, false)
  else
    let r3 := pause 3 rows
    if !isOver r3 then (r3, false)
    else
      let r2 := pause 2 r3
      (r2, isOver r2)
/-- R227 against the lower-numbered rows still to execute after pausing. -/
def conflictRows : List StepRow → List StepRow → List StepRow
  | _, [] => []
  | low, r :: rs =>
    if !r.isOpen then r :: conflictRows low rs
    else
      let clash := low.any fun l => r.pages.any l.written.contains || r.written.any l.pages.contains
      (if clash then { r with code := some Code.kvConflict } else r) :: conflictRows (r :: low) rs
/-- The wave that takes a row; none for a handle that no wave takes. -/
def waveOf (w : Waves) (r : StepRow) : Option Nat :=
  if r.null then some 1 else (w.waves.findIdx? fun l => l.contains r.handle).map (· + 1)
def placeRow (w : Waves) (r : StepRow) : StepRow :=
  if !r.isOpen then r
  else match waveOf w r with
    | some n => { r with wave := n }
    | none => { r with code := some Code.slotBusy }

/-! ## Completing rows and steps -/

/-- Completes row i with a code, not executed. -/
def Dev.failRow (d : Dev) (p i : Nat) (r : StepRow) (code : Nat) : Dev :=
  d.finishRow p i { r with code := some code, newlen := r.len, wave := 0 }
def Dev.onStep (d : Dev) (p : Nat) (f : StepRun → StepRun) : Dev := d.onPart p fun P => { P with step := P.step.map f }
/-- The rows of the running step. -/
def Dev.stepRows (d : Dev) (p : Nat) : List StepRow := ((d.part p).step.map (·.rows)).getD []
/-- R226 for the rows from index i on, in turn: a row takes its pages, or completes at once (R240). An error ends it with the code and what
the reads left. -/
def Dev.checkRows (d : Dev) (p : Nat) : Nat → List StepRow → Except (Nat × Dev) Dev
  | _, [] => .ok d
  | i, r :: rs =>
    match (d.checkRow p r).on d with
    | (.error c, e) => .error (c, e)
    | (.ok r, e) =>
      let d := match r.code with
        | some c => e.failRow p i r c
        | none => e.onStep p fun s => { s with rows := setAt s.rows i r }
      d.checkRows p (i + 1) rs
/-- Completes, from index i on, each row still open that the list gives a code, and lets every other one take what the list says of it. -/
def Dev.settleRows (d : Dev) (p : Nat) : Nat → List StepRow → Dev
  | _, [] => d
  | i, r :: rs =>
    let d := if !(((d.stepRows p)[i]?).map StepRow.isOpen).getD false then d
      else match r.code with
        | some c => d.failRow p i r c
        | none => d.onStep p fun s => { s with rows := setAt s.rows i r }
    d.settleRows p (i + 1) rs
/-- The end of a step (R242). -/
def Dev.stepDone (d : Dev) (p code : Nat) : Dev :=
  match (d.part p).step with
  | none => d
  | some s => (d.postCqe p code (stepBody s code d.beat)).onPart p fun P => { P with step := none }
/-- The binds of a wave: what is held already, then each new handle (R184, R186). A handle for which no slot can be taken fails
with SLOT_BUSY. -/
def Dev.bindWave (d : Dev) (p : Nat) (hs : List (BitVec 32)) : Dev :=
  let pods := (d.part p).pods
  let d := d.onPart p fun P => { P with pods := P.pods.map fun s => if hs.contains s.handle && s.st != .empty then { s with held := true } else s }
  (hs.filter fun h => !boundIn pods h && !pods.any fun s => s.handle == h && s.st == .binding).foldl (fun d h =>
    let fail (d : Dev) (c : Nat) : Dev := d.onStep p fun s => { s with bindCodes := (h, c) :: s.bindCodes }
    match (d.part p).pickSlot with
    | none => fail d Code.slotBusy
    | some k =>
      let (c, d) := d.beginBind p h.toNat k true
      if c == 0 then d else fail d c) d
/-- The next wave, or the step's end. -/
def Dev.nextWave (d : Dev) (p : Nat) : Dev :=
  match (d.part p).step with
  | none => d
  | some s =>
    if s.nwave ≤ s.wave then d.stepDone p 0
    else (d.onStep p fun s => { s with wave := s.wave + 1, phase := 0, bindCodes := [] }).bindWave p (s.waves.getD s.wave [])
/-- Runs a step that has passed R223 up to the binds of its first wave (R224). `d0` is the state before the command: it comes back to it where
a read waits at a barrier (R272). An error on the way finds the rows completed so far as they are (R241). -/
def Dev.stepBegin (d0 d : Dev) (p budget : Nat) (s : StepRun) : Dev :=
  match (d.onPart p fun P => { P with step := some s }).checkRows p 0 s.rows with
  | .error (c, e) => d0.stopFor p c e
  | .ok d =>
    let (rows, isOver) := pauseRows s.pods0 s.coefs budget (d.stepRows p)
    let rows := conflictRows [] rows
    let w := formWaves s.pods0 (rows.filter StepRow.isOpen)
    let d := d.onStep p fun s => { s with waves := w.waves, nwave := w.waves.length, overbudget := isOver }
    (d.settleRows p 0 (rows.map (placeRow w))).nextWave p
/-- STEP, once the stack regulators serve what it reads and writes (R315), and not in a beat that the peel uses (R392). -/
def Dev.stepCmd (d : Dev) (p : Nat) : Dev :=
  d.onQueue p 1 fun d e =>
    if !d.servable p [0, 1] || d.peeled p then d
    else match (d.parseStep p e.body).on d with
    | (.error c, x) => d.stopFor p c (x.cmdStarted p)
    | (.ok none, x) => x.stepInvalid p e.body
    | (.ok (some s), x) => if (d.part p).runs then d.stepBegin (x.cmdStarted p) p (num e.body 40 4) s else d

/-! ## Waves (R193, R228 to R230) -/

/-- The rows that the current wave executes, by index. -/
def StepRun.current (s : StepRun) : List (Nat × StepRow) :=
  ((List.range s.rows.length).zip s.rows).filter fun x => x.2.isOpen && x.2.wave == s.wave
/-- The token rows of a wave in wave order: row index, row, and which of its tokens. -/
def StepRun.tokens (s : StepRun) : List (Nat × StepRow × Nat) :=
  s.current.flatMap fun x => (List.range x.2.tokens).map fun j => (x.1, x.2, j)
/-- The step-wide index of a token row. -/
def StepRun.wide (s : StepRun) (x : Nat × StepRow × Nat) : Nat := totalTokens (s.rows.take x.1) + x.2.2
/-- The DTAG of a row: that of the slot that holds its handle, 0 for the null handle. -/
def Part.dtagFor (P : Part) (r : StepRow) : BitVec 64 :=
  if r.null then 0 else match P.slotOf r.handle with
    | some k => (P.pod k).dtag
    | none => 0
/-- Completes the rows whose handle's bind has failed. -/
def Dev.failBinds (d : Dev) (p : Nat) (s : StepRun) : Dev :=
  s.current.foldl (fun d x => match s.bindCodes.find? fun c => c.1 == x.2.handle with
    | some c => d.failRow p x.1 x.2 c.2
    | none => d) d
/-- R194 for rows with positions. -/
def Dev.compareTags (d : Dev) (p : Nat) : List (Nat × StepRow) → Except Dev Dev
  | [] => .ok d
  | (i, r) :: rest =>
    if r.len == 0 then d.compareTags p rest
    else
      let a := (d.part p).kvTagAt (r.pages.getD 0 0)
      match d.fetchAny p 0 a 8 with
      | .fault e c => .error (d.stopFor p c (if c == 0 then (e.waits? p (readRun 0 a 8)).getD e else e))
      | .bytes d l =>
        let d := if leNat l == ((d.part p).dtagFor r).toNat then d else d.failRow p i r Code.adapterMismatch
        d.compareTags p rest
/-- Writes bytes of partition space for the part itself, those of a KV extent where `kv` allows it: a byte with no place stops the
partition (R248, R250). -/
def Dev.partWrite (d : Dev) (p : Nat) (kv : Bool) (a : Nat) (bs : List Byte) : Except Dev Dev :=
  let s := d.sinkIn p kv 0 (byteTab a bs)
  let d := (d.chargeBytes p s.bytes).putBytes p [] s.bytes
  match s.fault with
  | some c => .error (d.pe c p)
  | none => .ok d
/-- The bits of slice i along a stored dimension: elements, padding of MX rows included, and the block scales. -/
def Geo.sliceBits (g : Geo) (dim i : Nat) : List (Int × Nat) :=
  let lens := (List.range g.d.ndim).map fun k => if k == dim then 1 else if k == 0 && isMx g.d.fmt then 32 * g.rowBlocks else g.d.len k
  let ixs := (List.range (lens.foldl (· * ·) 1)).map fun n => (unflat lens n).set dim i
  ixs.map (fun si => (g.bitAt si, fmtWidth g.d.fmt)) ++
  if g.d.smode != 5 then [] else
    (ixs.filter fun si => si.getD 0 0 % 32 == 0).map fun si => (8 * ((g.d.sptr + g.blockOf si : Nat) : Int), 8)
/-- Pairs of bit ranges that a copy of slices of `y` to slices of `x` moves. -/
def copyMoves (x y : Desc) (dim : Nat) (ps : List (Nat × Nat)) : List ((Int × Nat) × (Int × Nat)) :=
  ps.flatMap fun a => ((⟨y, 0⟩ : Geo).sliceBits dim a.1).zip ((⟨x, 0⟩ : Geo).sliceBits dim a.2)
def copyReads (y : Desc) (moves : List ((Int × Nat) × (Int × Nat))) : Reads :=
  moves.map fun m => (y.space, (bytesOfBits m.1.1 m.1.2).map Int.toNat)
/-- Whether a descriptor's spans meet no KV extent, those of every slice where LSEL is set (R248, R250). -/
def Part.descKvFree (P : Part) (x : Desc) : Bool :=
  let g : Geo := ⟨{ x with lsel := false }, 0⟩
  let ok (s : Int × Int) : Bool := x.space != 0 || P.kvFree s.1.toNat (s.2 - s.1).toNat
  ok g.span && (match g.scaleSpan with
    | some s => ok s
    | none => true)
/-- Copies slices of `y` to slices of `x` bit by bit, poison and all; base bytes keep the order of R271. -/
def Dev.copySlices (d : Dev) (p : Nat) (x y : Desc) (dim : Nat) (ps : List (Nat × Nat)) : Except Dev Dev :=
  let moves := copyMoves x y dim ps
  let rs := copyReads y moves
  if !((d.part p).descKvFree x && (d.part p).descKvFree y) then .error (d.pe Code.descInvalid p)
  else match d.gather p [] rs with
  | .stop d c => .error (d.pe c p)
  | .wait d => .ok d
  | .ok d =>
    let codes := moves.map fun m => d.codeAt p y.space m.1.1 m.1.2
    let t := (moves.zip codes).foldl (fun t m => addBits t m.1.2.1 m.1.2.2 m.2.1) []
    let s := d.sinkTab p x.space t
    let bad := ((moves.zip codes).filter fun m => m.2.2).flatMap fun m => bytesOfBits m.1.2.1 m.1.2.2
    let locs := bad.filterMap fun b => d.locate p (fun _ => false) x.space b.toNat
    let d := (d.chargeBytes p s.bytes).putBytes p [] s.bytes
    let d := locs.foldl (fun d l =>
      if l.sram then { d with sramBad := Ivl.add d.sramBad l.loc (l.loc + 1) }
      else d.onMem fun m => { m with bad := Ivl.add m.bad l.loc (l.loc + 1) }) d
    match s.fault with
    | some c => .error (d.pe c p)
    | none => .ok d
/-- LEN_DIM of DESC for every entry of the token list. -/
def Dev.writeLens (d : Dev) (p n : Nat) : List TokEntry → Except Dev Dev
  | [] => .ok d
  | e :: es => match d.partWrite p false (((d.part p).descTable 0).1 + 64 * e.desc + 28 + 7 * e.dim) (natLe 3 n) with
    | .error d => .error d
    | .ok d => d.writeLens p n es
/-- The (source index, target index) pairs of the copies of a code: 1 GATHER from the step-wide tensor to the wave's, 2 SCATTER back,
and the descriptors in the order (target, source) (R229). -/
def StepRun.copyPairs (s : StepRun) (op : Nat) : List (Nat × Nat) :=
  s.tokens.zipIdx.map fun t => if op == 1 then (s.wide t.1, t.2) else (t.2, s.wide t.1)
def copyEnds (op : Nat) (x y : Desc) : Desc × Desc := if op == 1 then (x, y) else (y, x)
/-- The two descriptors of a token list entry. -/
def Dev.tokDescs (d : Dev) (p : Nat) (e : TokEntry) : Chk (Desc × Desc) := do
  let x ← d.rawDesc p e.desc
  let y ← d.rawDesc p e.desc2
  pure (x, y)
/-- The copies of a code. -/
def Dev.runToks (d : Dev) (p op : Nat) (s : StepRun) : List TokEntry → Except Dev Dev
  | [] => .ok d
  | e :: es =>
    if e.op != op then d.runToks p op s es
    else
      match (d.tokDescs p e).on d with
      | (.error c, x) => .error (d.stopFor p c x)
      | (.ok (x, y), d) =>
        match d.copySlices p (copyEnds op x y).1 (copyEnds op x y).2 e.dim (s.copyPairs op) with
        | .error d => .error d
        | .ok d => d.runToks p op s es
/-- Marks p as waiting at a barrier that a copy of a wave stands before (R272); none where there is none. -/
def Dev.copiesWait (d : Dev) (p op : Nat) (s : StepRun) : Option Dev :=
  (s.tlist.filter fun e => e.op == op).findSome? fun e =>
    match (d.tokDescs p e).on d with
    | (.error c, x) => if c == 0 then some { d with bases := x.bases } else none
    | (.ok (x, y), _) => d.waits? p (copyReads (copyEnds op x y).2 (copyMoves (copyEnds op x y).1 (copyEnds op x y).2 e.dim (s.copyPairs op)))
/-- The same for the reads of acceptances at a wave's end. -/
def Dev.acptWaits (d : Dev) (p : Nat) (s : StepRun) : Option Dev :=
  (s.current.filter fun x => x.2.kind == 2).findSome? fun x => d.waits? p (readRun 0 (s.acpt + 4 * x.1) 4)
/-- Whether the copies of a code, and with those of SCATTER the acceptances, wait at a barrier. -/
def Dev.waveWaits (d : Dev) (p op : Nat) : Option Dev :=
  (d.part p).waveRun.bind fun s =>
    if s.abort then none else (d.copiesWait p op s).orElse fun _ => if op == 2 then d.acptWaits p s else none

/-! ## The end of a wave (R185, R237 to R241) -/

/-- Completes an executed row: `acc` is what a verify-k row's acceptance reads as. -/
def Dev.endRow (d : Dev) (p i : Nat) (r : StepRow) (acc : Int) : Dev :=
  let late := r.deadline != 0 && reached d.beat ((r.deadline + 1) % 2 ^ 48)
  let accBad := r.kind == 2 && !(decide (0 ≤ acc) && decide (acc ≤ r.vk))
  let a := if r.kind == 2 && !accBad then acc.toNat else 0
  let newlen := if accBad then r.len else if r.kind == 0 then r.len + r.tokens else r.len + 1 + a
  let k := if r.null then none else (d.part p).slotOf r.handle
  let s := match k with
    | some k => (d.part p).pod k
    | none => Reset.pod
  let clean := !r.shape && !accBad
  let wants := clean && r.keep && s.st == .bound
  let full := wants && decide (65535 ≤ s.pins)
  let pin := wants && !full
  let d := match k with
    | some k => if pin then d.onPart p fun P => P.onPod k fun s => { s with pins := s.pins + 1, taken := s.taken + 1 } else d
    | none => d
  let code := if r.shape then Code.adapterShape else if accBad then Code.acceptInvalid else if full then Code.pinLimit
    else if late then Code.late else 0
  d.finishRow p i { r with code := some code, newlen := newlen, acc := a, late := late, pin := pin }
/-- The acceptances of verify-k rows, by row index. -/
def acceptances (p acpt : Nat) : List (Nat × StepRow) → Chk (List Int)
  | [] => pure []
  | (i, r) :: rest => do
    let l ← chkFetch p (acpt + 4 * i) (if r.kind == 2 then 4 else 0)
    let t ← acceptances p acpt rest
    pure (sext 32 (leNat l) :: t)
/-- Writes the DTAG of a row into the tags of the pages it wrote, which lie in the KV extent (R237, R244). -/
def Dev.tagRow (d : Dev) (p : Nat) (g : BitVec 64) : List Nat → Except Dev Dev
  | [] => .ok d
  | n :: ns => match d.partWrite p true ((d.part p).kvTagAt n) (natLe 8 g.toNat) with
    | .error d => .error d
    | .ok d => d.tagRow p g ns
def Dev.tagRows (d : Dev) (p : Nat) : List (Nat × StepRow) → Except Dev Dev
  | [] => .ok d
  | x :: rest => match d.tagRow p ((d.part p).dtagFor x.2) x.2.written with
    | .error d => .error d
    | .ok d => d.tagRows p rest
/-- Lets the slots of a wave go. -/
def Dev.letGo (d : Dev) (p : Nat) : Dev :=
  let d := { d with useClock := d.useClock + 1 }
  (d.onPart p fun P => { P with pods := P.pods.map fun s =>
    let s := s.letGo d.useClock
    if s.st == .unbinding && s.pins == 0 && !s.held then s.emptied else s }).catSettle
/-- The end of a wave whose program ended with HCODE. -/
def Dev.endWave (d : Dev) (p hcode : Nat) : Dev :=
  match (d.part p).step with
  | none => d
  | some s =>
    match d.runToks p 2 s s.tlist with
    | .error d => d
    | .ok d =>
      match (acceptances p s.acpt s.current).on d with
      | (.error c, e) => d.stopFor p c e
      | (.ok accs, d) =>
        match d.tagRows p s.current with
        | .error d => d
        | .ok d =>
          let d := (s.current.zip accs).foldl (fun d x => d.endRow p x.1.1 x.1.2 x.2) d
          let d := d.letGo p
          if hcode == 0 then d.nextWave p
          else
            let d := d.onStep p fun s => { s with abort := true }
            (d.abortRows p 0 (((d.part p).step.map (·.rows)).getD [])).stepDone p Code.aborted
/-- A wave that has rows begins: it keeps the GEN of each base at its start, and has no position yet (R270, R271). -/
def Dev.beginWave (d : Dev) (p : Nat) : Dev :=
  let gens := (d.part p).declared.map fun b => (b, (d.base b).gen.toNat)
  d.onStep p fun s => { s with phase := 1, baseGen := gens, basePos := [], undo := [] }
/-- Starts the program of a wave over its rows. -/
def Dev.startProgram (d : Dev) (p : Nat) (s : StepRun) : Dev :=
  let n := s.tokens.length
  match d.writeLens p n s.tlist with
  | .error d => d
  | .ok d =>
    match d.runToks p 1 s s.tlist with
    | .error d => d
    | .ok d =>
      let d := ((d.setSum p 0 0 (BitVec.ofNat 64 n)).setSum p 0 1 (BitVec.ofNat 64 s.wave)).setSum p 0 2 (BitVec.ofNat 64 s.nwave)
      d.onSeq p 0 fun q => { q with st := .run, pc := s.prog, stack := [], hold := .none, mapBuilt := false }
/-- WAVE_START: every bind of the wave has ended, and the stack regulators serve what it reads and writes (R315). In a beat that the
peel uses it waits for its end (R392). A wave that no row is left for ends at once (log entry 32). -/
def Dev.waveStart (d : Dev) (p : Nat) : Dev :=
  let P := d.part p
  match P.step with
  | none => d
  | some s =>
    if s.phase != 0 || s.wave == 0 || !d.running p || P.pods.any (fun x => x.st == .binding) || !d.servable p [0, 1] || d.peeled p then d
    else
      let d := d.failBinds p s
      match d.compareTags p (((d.part p).step.map StepRun.current).getD []) with
      | .error d => d
      | .ok d =>
        match (d.part p).step with
        | none => d
        | some s =>
          if s.current.isEmpty then d.endWave p 0
          else
            let d := d.beginWave p
            match d.waveWaits p 1 with
            | some e => e.onStep p fun s => { s with phase := 0 }
            | none => d.startProgram p s

/-! ## Scrub (R243) -/

/-- Zeros to every block and the tag of a page. -/
def Dev.scrubPage (d : Dev) (p n : Nat) : Dev :=
  let P := d.part p
  let d := (List.range P.kvLayers).foldl (fun d l => (List.range P.kvGroups).foldl (fun d g =>
    d.poke p (P.kvBlock n l g) (List.replicate (2 * P.kvHalf) 0)) d) d
  d.poke p (P.kvTagAt n) (natLe 8 0)
/-- SCRUB, once the stack regulators serve what it reads and writes (R315), whatever EN is (R243; DESIGN CHOICE, log 52). -/
def Dev.scrubCmd (d : Dev) (p : Nat) : Dev :=
  d.onQueue p 3 fun d e =>
    let b := e.body
    let n := num b 8 4
    if !(num b 0 6 % 4 == 0 && decide (1 ≤ n) && decide (n ≤ 65536) && zeroAt b 6 2 && zeroAt b 12 52) then d.postCqe p Code.cmdInvalid []
    else if !d.servable p [0, 1] then d
    else match (chkFetch p (num b 0 6) (4 * n)).on d with
      | (.error c, x) => d.stopFor p c (x.cmdStarted p)
      | (.ok l, d) =>
        let pages := (List.range n).map fun i => num l (4 * i) 4
        if pages.any fun x => decide ((d.part p).kvNpages ≤ x) then d.postCqe p Code.scrubInvalid []
        else pages.foldl (fun d x => d.scrubPage p x) (d.cmdStarted p)
/-- SCRUB_COMPLETE. -/
def Dev.scrubDone (d : Dev) (p : Nat) : Dev :=
  match (d.part p).vf.cur with
  | some e => if e.cmd == 3 && e.started && (d.part p).st != .faulted && d.coresUp then d.postCqe p 0 [] else d
  | none => d

/-! ## Meanings -/

def execStep (p : PIx) (s : State) : Host.Outcome State Fault Refusal := s.onDev fun d => d.stepCmd p.val
def execWaveStart (p : PIx) (s : State) : Host.Outcome State Fault Refusal := s.onDev fun d => d.waveStart p.val
def execScrub (p : PIx) (s : State) : Host.Outcome State Fault Refusal := s.onDev fun d => d.scrubCmd p.val
def execScrubComplete (p : PIx) (s : State) : Host.Outcome State Fault Refusal := s.onDev fun d => d.scrubDone p.val

end Sys2Proof.Machine
end

