-- ==== Sys2Proof/Machine/Adapters.lean ====
section
/-! DEFINITION. Adapter application (R190 to R192): the pod-slot window's descriptor, segments, and the two halves. -/

namespace Sys2Proof.Machine

/-! ## Windows -/

/-- What the descriptor of a serving window looks like (R190, R234). HSET, LEN and FMT are checked by each window. -/
def windowForm (x : Desc) : Bool :=
  x.ndim == 2 && !x.lsel && x.space == 0 && x.conv == 0 && x.walk == 0 && x.sptr == 0 && x.hptr == 0 && !x.rsv &&
  (List.range 5).all fun i => x.stride i == 0 && (decide (i < 2) || x.len i == 0)
/-- A two-dimensional operand that no descriptor names: its format and lengths, dimension 0 first. -/
def flatGeo (fmt n0 n1 : Nat) : Geo :=
  ⟨{ parseDesc 0 [] with fmt := fmt, ndim := 2, walk := 8, lens := [n0, n1, 0, 0, 0] }, 0⟩
/-- Whether a step runs a wave's program. While a step's binds are pending none runs, so an adapter-apply operation is refused then as it is
outside a step; R190 speaks of that case alone (DESIGN CHOICE, log 137). -/
def Part.inWave (P : Part) : Bool := match P.step with
  | some s => s.phase == 1
  | none => false
/-- The token rows of the running wave. -/
def Part.waveTokens (P : Part) : List (Nat × StepRow × Nat) := (P.step.map StepRun.tokens).getD []

/-! ## Issue -/

def Desc.half (x : Desc) : Nat := x.addr / 64 % 2
/-- LAYER and PROJ of a window address (R190). -/
def Desc.pairKey (x : Desc) : Nat × Nat := (x.addr % 2 ^ 22 / 1024, x.addr / 128 % 8)
/-- The checks of an adapter-apply operation. An A half with ACC, or a B half without, is refused (R191; DEDUCED, log 143). -/
def Dev.adapterPlan (d : Dev) (p q w : Nat) : Chk Plan := do
  let P := d.part p
  let ix := (loopIndex (P.seq q).stack).getD 0
  need (tForward.form w && !tensorSplit w && P.inWave) Code.opInvalid
  let x ← d.descFor p q (tslot w 1) false true
  need (windowForm x && x.hset == 0 && arrayFmt x.fmt && x.blk == (if isMx x.fmt then 32 else 0) && x.addr % 64 == 0 &&
    (if x.half == 0 then x.len 0 == 64 && x.len 1 != 0 else x.len 1 == 64 && x.len 0 != 0)) Code.descInvalid
  need (accumulates w 1 == (x.half == 1)) Code.opInvalid
  let i ← d.arrayDescs p q w [0]
  let o ← d.outDescs p q w [(2, 1)]
  let l := Tab.put (o.foldl (fun l y => Tab.put l y.1 y.2) i) 1 x
  let a := geoIn l ix 0
  let c := geoIn l ix 2
  need (shapesOk a (flatGeo x.fmt (x.len 0) (x.len 1)) c && a.len 1 == P.waveTokens.length &&
    (List.range 5).all fun j => decide (j < 2) || (a.len j == 1 && c.len j == 1)) Code.descInvalid
  pure ⟨.adapter, l, [2], none⟩

/-! ## Running -/

/-- A matrix of an image in slot k: its geometry as r stored rows of n elements, seen transposed when `t`. -/
def matrixGeo (at0 f r n off : Nat) (t : Bool) : Geo :=
  let bytes := rowElems f n * fmtWidth f / 8
  ⟨{ parseDesc 0 [] with
      addr := at0 + off, fmt := f, ndim := 2, conv := if isMx f then 5 else 0, walk := if t then 1 else 8
      sptr := if isMx f then at0 + roundUp (off + cdiv (r * rowElems f n * fmtWidth f) 8) 64 else 0
      lens := [n, r, 0, 0, 0], strides := [0, (bytes : Int), 0, 0, 0] }, 0⟩
/-- A segment that an adapter applies to: the token rows (wave index), the scale, and the geometry of its matrix. -/
structure Seg where
  toks : List Nat
  rank : Nat
  scale : Val
  mat : Geo
/-- What the handle of slot k comes to: no pair or no image, a mismatch, or a segment. -/
inductive SegCase where
  | none
  | shape
  | seg (s : Seg)
/-- The segment of slot k for a window descriptor (R191). -/
def Dev.segment (d : Dev) (p k : Nat) (x : Desc) (toks : List Nat) : Chk SegCase := do
  let a := (d.part p).podAddr k
  let h ← chkFetch p a 64
  let tb ← chkFetch p (a + 64) (32 * num h 12 4)
  let pairs := (List.range (num h 12 4)).map fun i => pairAt (slice tb (32 * i) 32)
  match pairs.find? fun y => (y.layer, y.proj) == x.pairKey with
  | none => pure .none
  | some y =>
    let n := if x.half == 0 then y.din else y.dout
    let want := if x.half == 0 then x.len 1 else x.len 0
    if imgFmt h != x.fmt || n != want then pure .shape
    else
      let off := if x.half == 0 then y.aoff else y.boff
      pure (.seg ⟨toks, imgRank h, fmtF32.decode (num h 8 4), matrixGeo a (imgFmt h) (imgRank h) n off (x.half == 0)⟩)
/-- The pod slots that serve the wave, ascending, with the token rows of each. -/
def Part.segments (P : Part) : List (Nat × List Nat) :=
  let ts := P.waveTokens.zipIdx
  (List.range 16).filterMap fun k =>
    let l := (ts.filter fun t => !t.1.2.1.null && P.slotOf t.1.2.1.handle == some k).map (·.2)
    if l.isEmpty then none else some (k, l)
def Dev.segCases (d : Dev) (p : Nat) (x : Desc) : List (Nat × List Nat) → Chk (List (List Nat × SegCase))
  | [] => pure []
  | (k, l) :: t => do
    let a ← d.segment p k x l
    let b ← d.segCases p x t
    pure ((l, a) :: b)
/-- The product of a segment, its rows gathered. -/
def Dev.segProd (d : Dev) (p : Nat) (g0 : Geo) (xs : List In) (half : Nat) (u : Nat) (s : Seg) : Prod :=
  let k := if half == 0 then g0.len 0 else s.rank
  let n := if half == 0 then s.rank else s.mat.len 0
  let va := s.toks.flatMap fun i => (xs.drop (i * g0.len 0)).take k
  .whole (flatGeo g0.d.fmt k s.toks.length) va (flatGeo s.mat.d.fmt n k) (d.values p s.mat) (flatGeo 0 n s.toks.length) u
def Dev.segProds (d : Dev) (p : Nat) (g0 : Geo) (xs : List In) (half : Nat) : Nat → List Seg → List (Seg × Prod)
  | _, [] => []
  | u, s :: t =>
    let x := d.segProd p g0 xs half u s
    (s, x) :: d.segProds p g0 xs half (u + x.unitCount) t
/-- Row i of a geometry along logical dimension 1. -/
def Geo.rowAt (g : Geo) (i : Nat) : Geo :=
  if g.d.rank < 2 then g
  else
    let k := g.d.walkAt 1
    { g with d := { g.d with addr := ((g.d.addr : Int) + (i : Nat) * g.d.stride k).toNat, lens := g.d.lens.set k 1 } }
/-- The dot product of a segment at row m of it and column n. -/
def Prod.dotAt (x : Prod) (gl : List Glitch) (m n : Nat) : Fl := (treeOf Fl.add (x.partials gl [n, m])).getD .zero
/-- Starts an adapter-apply operation. -/
def Dev.startAdapter (d : Dev) (p q : Nat) (f : Flight) (gl : List Glitch) : Start :=
  match f.geo 0, Tab.get? f.descs 1, f.geo 2 with
  | some g0, some x, some g2 =>
    let P := d.part p
    match (d.segCases p x P.segments).on d with
    | (.error c, d) => stopWith c d
    | (.ok cs, d) =>
      let segs := cs.filterMap fun c => match c.2 with
        | .seg s => some s
        | _ => none
      let wrong := cs.flatMap fun c => match c.2 with
        | .shape => c.1
        | _ => []
      let reads := g0.reads ++ segs.flatMap (fun s => s.mat.reads) ++
        if x.half == 0 then g2.givenReads else segs.flatMap fun s => s.toks.flatMap fun i => (g2.rowAt i).reads
      match d.gather p gl reads with
      | .wait d => .wait d
      | .stop d c => .stop d c
      | .ok d =>
        let d := d.sliceRecords p gl
        let rows := P.waveTokens
        let bad := wrong.map fun i => (rows.getD i (0, parseRow [], 0)).1
        let d := d.onStep p fun s => { s with rows := s.rows.zipIdx.map fun r => if bad.contains r.2 then { r.1 with shape := true } else r.1 }
        let d := d.onSeq p q fun s => { s with mapBuilt := true }
        let acc (s : Seg) : List Bool := if x.half == 0 then [] else s.toks.flatMap fun i => (d.values p (g2.rowAt i)).map (·.bad)
        let xs := (d.segProds p g0 (d.values p g0) x.half 0 segs).map fun y => (y.1, { y.2 with accBad := acc y.1 })
        let cands := d.candidates p q ((d.part p).arraysOf q f.kind)
        let cyc := unitRuns f.no cands (xs.map (·.2))
        let d := d.poisonTiles f.no gl cands (xs.map (·.2))
        let find (i : Nat) : Option (Seg × Prod × Nat) :=
          xs.findSome? fun y => (y.1.toks.findIdx? (· == i)).map fun m => (y.1, y.2, m)
        let e :=
          if x.half == 0 then
            d.emitTo p q f g2 (f.srBase.getD 0 0) (elemsOf ((List.range (g2.len 1)).flatMap fun i =>
              match find i with
              | none => List.replicate 64 Fl.zero
              | some (s, y, m) => (List.range 64).map fun j => if j < s.rank then Fl.mul (.of s.scale) (y.dotAt gl m j) else .zero))
          else
            (List.range (g2.len 1)).foldl (fun e i =>
              match find i with
              | none => e
              | some (_, y, m) =>
                let g := g2.rowAt i
                e.append (d.emitTo p q f g 0 (elemsOf ((d.values p g).zipIdx.map fun v => Fl.add (.of v.1.v) (y.dotAt gl m v.2))))) Emit.empty
        .run d { f with started := true
                        result := { Reset.noResult with bytes := e.sink.bytes, fault := e.sink.fault, health := e.health, cycles := cyc } }
  | _, _, _ => .wait d

/-! ## Meanings -/

def execAdapterApply (p : PIx) (q : Strm) (s : State) : Host.Outcome State Fault Refusal :=
  s.onDev fun d => d.engineRow p.val (strmIx q) .adapter fun d w => d.adapterPlan p.val (strmIx q) w

end Sys2Proof.Machine
end

