-- ==== Sys2Proof/Machine/Firmware.lean ====
section
/-! DEFINITION. Bank images, the boot checks, and the configuration block (R352, R353, R374 to R379). -/

namespace Sys2Proof.Machine

/-- A 96-byte key or signature. -/
def key768 (l : List Byte) : BitVec 768 := BitVec.ofNat 768 (leNat l)
def dig384 (l : List Byte) : BitVec 384 := BitVec.ofNat 384 (leNat l)

/-! ## Bank images (Table 14-4, R375) -/

def Bank.svnH (b : Bank) : Nat := num b.image 10 2
def Bank.svnQ (b : Bank) : Nat := num b.image 12 2
/-- Heril, Quinad and the configuration block: i is 0, 1 or 2. -/
def Bank.blob (b : Bank) (i : Nat) : List Byte := slice b.image (num b.image (16 + 8 * i) 4) (num b.image (20 + 8 * i) 4)
def Bank.pubkey (b : Bank) : BitVec 768 := key768 (slice b.image 192 96)
/-- Whether image i lies within the bank and its size limit (R374). -/
def Bank.fits (b : Bank) (i lim : Nat) : Bool :=
  let off := num b.image (16 + 8 * i) 4
  let len := num b.image (20 + 8 * i) 4
  decide (len ≤ lim) && decide (off + len ≤ b.image.length) && decide (off + len ≤ 2 ^ 25)
/-- The manifest's digest: ACT is left out, since activation writes it later (log entry 22). -/
def Bank.digest (b : Bank) : BitVec 384 := Config.sha384 (slice b.image 4 4092)
/-- A field of the compatibility record of Heril (i = 0) or Quinad (i = 1). -/
def Bank.comp (b : Bank) (i off n : Nat) : Nat := num b.image (160 + 16 * i + off) n
/-- Checks 1 to 5 of Table 14-5. -/
def Bank.check1 (b : Bank) : Bool :=
  num b.image 4 4 == 0x4D460001 && num b.image 8 2 == 1 && Config.sha384 (slice b.image 192 96) == Config.fusedKeyDigest &&
  Config.ecdsaOk b.pubkey (slice b.image 4 3964) (key768 (slice b.image 3968 96))
def Bank.check2 (b : Bank) : Bool :=
  b.fits 0 (2 ^ 20) && b.fits 1 (2 ^ 23) && b.fits 2 (2 ^ 20) &&
  Config.sha384 (b.blob 0) == dig384 (slice b.image 64 48) && Config.sha384 (b.blob 1) == dig384 (slice b.image 112 48)
def Bank.floorOk (b : Bank) (s : Persist) : Bool := decide (s.floorH ≤ b.svnH) && decide (s.floorQ ≤ b.svnQ)
def Bank.check3 (b : Bank) (s : Persist) : Bool := b.floorOk s || s.permit == some b.digest
def Bank.check4 (b : Bank) (b1 : Bool) : Bool := bit (b.comp 0 4 2) (b2n b1) && bit (b.comp 1 4 2) (b2n b1)
def Bank.check5 (b : Bank) : Bool :=
  let h := b.comp 0 0 4
  let q := b.comp 1 0 4
  decide (b.comp 1 8 4 ≤ h) && decide (h ≤ b.comp 1 12 4) && decide (b.comp 0 8 4 ≤ q) && decide (q ≤ b.comp 0 12 4)
/-- A candidate (R376). -/
def Bank.candidate (b : Bank) : Bool := b.valid && b.act != 0xFFFFFFFF

def Persist.bank (s : Persist) (k : Bool) : Bank := if k then s.bankB else s.bankA
def Persist.setBank (s : Persist) (k : Bool) (b : Bank) : Persist := if k then { s with bankB := b } else { s with bankA := b }
/-- The running images (R352), and the bank that is not running. -/
def Dev.runBank (d : Dev) : Bank := d.persist.bank d.ckr.bank
def Dev.idleBank (d : Dev) : Bank := d.persist.bank (!d.ckr.bank)
/-- Whether a is higher than b (R377). -/
def actAbove (a b : BitVec 32) : Bool := a != b && decide ((a - b).toNat < 2 ^ 31)

/-! ## The configuration block (Tables 14-6 and 14-7) -/

/-- The directory entry of a section type: offset and length. -/
def cfgEntry (c : List Byte) (ty : Nat) : Option (Nat × Nat) :=
  ((List.range 7).find? fun i => num c (16 + 16 * i) 2 == ty).map fun i => (num c (20 + 16 * i) 4, num c (24 + 16 * i) 4)
/-- A section's bytes. -/
def cfgSection (c : List Byte) (ty : Nat) : List Byte :=
  match cfgEntry c ty with
  | some (o, n) => slice c o n
  | none => []
/-- The range checks on one section's fields. -/
def sectionOk (ty : Nat) (s : List Byte) : Bool :=
  match ty with
  | 1 => decide (1 ≤ s.length) && decide (num s 0 1 < 8) && allZero (s.drop 1)
  | 2 => decide (4144 ≤ s.length)
  | 3 => decide (100 ≤ s.length) && decide (num s 0 2 < 1024) && (List.range 24).all fun k =>
      (num s (4 + 4 * k) 2 == 0xFFFF || (decide (num s (4 + 4 * k) 2 < 1024) && decide (num s (6 + 4 * k) 1 < 24))) && decide (num s (7 + 4 * k) 1 < 2)
  | 4 => decide (4 ≤ s.length) && decide (num s 0 2 ≤ 1000) && decide (num s 2 2 ≤ 1050)
  | 5 => decide (40 ≤ s.length) && (List.range 5).all fun r =>
      let (a, b) := regImage (num s (8 * r) 8)
      decide (a ≤ b) && decide (b ≤ 1024) && fld (num s (8 * r) 8) 41 0 == 0
  | 6 => decide (8 ≤ s.length) && decide (num s 0 1 ≤ 64) && decide (8 + 80 * num s 0 1 ≤ s.length)
  | 7 => decide (13 ≤ s.length) && num s 0 4 % 2 == 0 && decide (60 ≤ num s 4 2) && decide (num s 12 1 < 2) && zeroAt s 6 2 && allZero (s.drop 13)
  | _ => false
/-- Whether a configuration block has its signature, under the key that its KEYSEL names (Table 14-6). -/
def cfgSigned (b : Bank) (creds : List (Option (BitVec 768))) (c : List Byte) : Bool :=
  let len := num c 8 4
  let ks := num c 12 1
  let key := if ks == 0 then some b.pubkey else if ks ≤ 4 then creds.getD (ks - 1) none else none
  decide (224 ≤ len) && decide (len ≤ c.length) && (match key with
    | some k => Config.ecdsaOk k (c.take (len - 96)) (key768 (slice c (len - 96) 96))
    | none => false)
/-- Check 7 (R379). -/
def cfgOk (b : Bank) (creds : List (Option (BitVec 768))) (c : List Byte) : Bool :=
  let len := num c 8 4
  num c 0 4 == 0x43460001 && num c 4 2 == 1 && num c 6 2 == 7 && decide (len ≤ 2 ^ 20) && zeroAt c 13 3 && cfgSigned b creds c &&
  (List.range 7).all fun i =>
    zeroAt c (18 + 16 * i) 2 && zeroAt c (28 + 16 * i) 4 && decide (num c (20 + 16 * i) 4 + num c (24 + 16 * i) 4 ≤ len) &&
    (cfgEntry c (i + 1)).isSome && sectionOk (i + 1) (cfgSection c (i + 1))

end Sys2Proof.Machine
end

