-- ==== Sys2Proof/Machine/Sec.lean ====
section
/-! DEFINITION. Trust (13): sessions, measurements, key release, presence, the seal, debug, credentials, key rotation and
firmware staging; the power-state and full-reset commands (14). -/

namespace Sys2Proof.Machine

/-! ## Zeroing keys (R339, R341, Table 13-2) -/

/-- A key slot whose keys are gone; its state and counts stay (Table 13-7). -/
def KGen.zeroed (k : KGen) : KGen := { k with key0 := none, key1 := none }
/-- Zeroes every key of Table 13-2 but the credentials and the fused secret, closes every session and ends every IDE
stream (R339; R341 does as R339 does, log 34). What lies under a zeroed key fails parity. -/
def Dev.zeroKeys (d : Dev) : Dev :=
  let d := d.onSec fun s =>
    { s with tkeys := [], shared := Tab.mapVal (fun _ (k : KGen) => k.zeroed) s.shared, devKey := none,
             drbgLive := false, sessions := [], ides := [], identity := none, aliasKey := none }
  let d : Dev := { d with parts := Tab.mapVal (fun _ (P : Part) => { P with kgen := P.kgen.zeroed }) d.parts }
  d.onMem fun m => { m with bad := m.ranges.foldl (fun b r => Ivl.add b r.lo (r.lo + r.len)) m.bad }

/-! ## Sessions (R334, R337, R345) -/

/-- Whether a credential slot of a kind is enrolled: E slots are 0 to 3, S slots 4 to 7. -/
def Persist.enrolled (s : Persist) (lo : Nat) : Bool := (List.range 4).any fun i => (s.creds.getD (lo + i) none).isSome
/-- The slot of a kind that holds a key. -/
def Persist.slotOf (s : Persist) (lo : Nat) (k : BitVec 768) : Option Nat :=
  ((List.range 4).find? fun i => s.creds.getD (lo + i) none == some k).map (lo + ·)
def Dev.openSession (d : Dev) (id : Nat) (s : Session) : Dev := d.onSec fun x => { x with sessions := Tab.put x.sessions id s }
/-- Whether Heril answers: it runs, and not in ROM recovery. -/
def Dev.herilUp (d : Dev) : Bool := d.coresUp && d.ckr.phase != 9
/-- MGMT_SESSION_OPEN: a client certificate that chains to an anchor in an E slot, or none while no E slot is enrolled. -/
def Dev.mgmtOpen (d : Dev) (id : Nat) (anchor : Option (BitVec 768)) (secret : BitVec 256) : Dev :=
  if !d.herilUp || (Tab.get? d.sec.sessions id).isSome then d
  else match anchor with
    | some k => match d.persist.slotOf 0 k with
      | some e => d.openSession id ⟨.ethernet, some e, secret, []⟩
      | none => d
    | none => if d.persist.enrolled 0 then d else d.openSession id ⟨.ethernet, none, secret, []⟩
/-- Whether SPDM is answered on a transport (R334). -/
def Dev.spdmUp (d : Dev) (w : Wire) : Bool :=
  d.herilUp && match w with
    | .pf0 => d.host.answering
    | .sideband => true
    | .ethernet => false
/-- Whether the alias key is there. -/
def Sec.ids (s : Sec) : Bool := s.aliasKey.isSome
/-- A response signed under the alias key; none while that key is gone (log entry 23). -/
def Dev.signed (d : Dev) (w : Wire) (body : List Byte) : Dev :=
  match d.sec.aliasKey with
  | some k => d.tell w (.spdm w (body ++ natLe 96 (Config.spdmSign k body).toNat))
  | none => d
def Dev.spdmCount (d : Dev) : Nat := (d.sec.sessions.filter fun x => x.2.wire != .ethernet).length
/-- SPDM_KEY_EXCHANGE: at most 8 sessions; the ninth receives ERROR SessionLimitExceeded. -/
def Dev.keyExchange (d : Dev) (w : Wire) (id : Nat) (requester : Option (BitVec 768)) (secret : BitVec 256) : Dev :=
  if !d.spdmUp w || !d.sec.ids || (Tab.get? d.sec.sessions id).isSome then d
  else if 8 ≤ d.spdmCount then d.tell w (.spdm w [0x7F, 0x0A])
  else
    let slot : Option (Option Nat) := match requester, w with
      | some k, .sideband => (d.persist.slotOf 4 k).map some
      | none, .sideband => if d.persist.enrolled 4 then none else some none
      | _, _ => some none
    match slot with
    | none => d
    | some c => (d.openSession id ⟨w, c, secret, []⟩).signed w (natLe 4 id)
def Dev.certificate (d : Dev) (w : Wire) : Dev := if d.spdmUp w then d.tell w (.spdm w d.sec.chain) else d
def Dev.challenge (d : Dev) (w : Wire) (nonce : BitVec 256) : Dev :=
  if d.spdmUp w then d.signed w (natLe 32 nonce.toNat) else d
def Dev.sessionEnd (d : Dev) (id : Nat) : Dev := d.onSec fun s => { s with sessions := Tab.erase s.sessions id }
/-- SESSION_END: its request is heard while the security processor runs (R390). -/
def Dev.sessionClose (d : Dev) (id : Nat) : Dev := if d.herilUp then d.sessionEnd id else d

/-! ## Measurements (R346, Tables 13-3 to 13-5) -/

def Persist.credMask (s : Persist) : Nat :=
  (List.range 8).foldl (fun n i => n + if (s.creds.getD i none).isSome then 2 ^ i else 0) 0
/-- Index 6. -/
def Dev.secRecord (d : Dev) : List Byte :=
  let s := d.sec
  natLe 1 (b2n s.debug + 2 * b2n s.staging + 4 * b2n s.staged + 8 * b2n s.recovery + 16 * b2n s.permit + 32 * b2n s.sealed) ++
  natLe 1 d.persist.credMask ++ natLe 2 d.runBank.svnH ++ natLe 2 d.runBank.svnQ ++ natLe 2 d.persist.floorH ++ natLe 2 d.persist.floorQ ++
  List.replicate 6 0
/-- The partition's 256 extent entries as bytes. -/
def Part.extBytes (P : Part) : List Byte := (List.range 256).flatMap fun e => (P.extWords e).flatMap (natLe 8)
/-- Index 16 + p. -/
def Dev.partRecord (d : Dev) (p : Nat) : List Byte :=
  let P := d.part p
  let bm := P.ext.foldl (fun n x => if x.2.kind == 1 && n / 2 ^ x.2.base % 2 == 0 then n + 2 ^ x.2.base else n) 0
  natLe 1 (stateCode P.st) ++ natLe 1 (modeCode P.entry.mode) ++
  natLe 1 (b2n P.entry.c0 + 2 * b2n P.entry.lent + 4 * b2n P.entry.guest) ++ natLe 1 (fld (d.partCtl p) 39 33) ++
  natLe 2 P.entry.tkd ++ natLe 1 (d.leader p) ++ [0] ++ natLe 4 P.inst.toNat ++ natLe 4 P.krot.toNat ++ natLe 12 (d.tileMask p) ++
  natLe 2 bm ++ [0, 0] ++ natLe 32 (Config.sha256 P.extBytes).toNat
/-- Index 80 + b. -/
def Dev.baseRecord (d : Dev) (b : Nat) : List Byte :=
  let B := d.base b
  natLe 1 B.st.code ++ [0] ++ natLe 2 B.gen.toNat ++ [0, 0, 0, 0] ++ natLe 32 B.manifest.toNat
/-- Index 5: every entry and REG_CFG, in partition order. An entry's STATE is no part of it: during a partition reset only index 16 + p
changes. -/
def Dev.tableBytes (d : Dev) : List Byte :=
  (List.range 64).flatMap fun p =>
    natLe 8 (d.partCtl p % 2 ^ 60) ++ natLe 16 (d.tileMask p) ++ natLe 8 (d.partRes p) ++ (List.range 5).flatMap fun r => natLe 8 ((d.part p).regCfg r)
/-- A measurement block's content; none for an index that is absent. -/
def Dev.measurement (d : Dev) (i : Nat) : Option (List Byte) :=
  let dig (l : List Byte) := natLe 48 (Config.sha384 l).toNat
  match i with
  | 1 => some (natLe 48 Config.romDigest.toNat)
  | 2 => some (dig (d.runBank.blob 0))
  | 3 => some (dig (d.runBank.blob 1))
  | 4 => some (natLe 48 d.cfg.digest.toNat)
  | 5 => some (dig d.tableBytes)
  | 6 => some d.secRecord
  | 7 => if d.sec.staged then some (natLe 48 d.idleBank.digest.toNat) else none
  | i => if decide (16 ≤ i) && decide (i < 80) then some (d.partRecord (i - 16))
         else if decide (80 ≤ i) && decide (i < 96) then some (d.baseRecord (i - 80)) else none
/-- The DMTF type of an index (Table 13-3); bit 7 says that the value is raw, not a digest. -/
def dmtfType (i : Nat) : Nat :=
  if i == 1 then 0 else if i ≤ 3 then 1 else if i == 4 then 3 else if i == 5 then 2 else if i == 6 then 0x85 else if i == 7 then 4 else 0x84
/-- A measurement block: index, specification 1, size, and the DMTF value with its type (PRESUMED from DSP0274, log 122). -/
def Dev.measureBlock (d : Dev) (i : Nat) : List Byte :=
  let v := (d.measurement i).getD []
  natLe 1 i ++ [1] ++ natLe 2 (v.length + 3) ++ natLe 1 (dmtfType i) ++ natLe 2 v.length ++ v
/-- SPDM_GET_MEASUREMENTS: all blocks from one state; absent indices are passed over. A signed response in a session is
that session's quote. -/
def Dev.measure (d : Dev) (w : Wire) (id : Option Nat) (ix : List Nat) (nonce : BitVec 256) : Dev :=
  let inSession := match id with
    | none => true
    | some s => (d.session s w).isSome
  if !d.spdmUp w || !inSession then d
  else
    let got := ix.filter fun i => (d.measurement i).isSome
    let body := natLe 32 nonce.toNat ++ got.flatMap d.measureBlock
    if !d.sec.ids then d.tell w (.spdm w body)
    else
      let d := d.signed w body
      match id with
      | none => d
      | some s => match Tab.get? d.sec.sessions s with
        | none => d
        | some x => d.openSession s { x with quoted := (x.quoted ++ [got]).eraseDups }

/-! ## Key release (R343, R347, R348) -/

/-- The fields of Table 13-6. -/
def keyPutForm (b : List Byte) : Bool :=
  b.length == 64 && num b 0 2 == 1 && decide (num b 2 2 < 1024) && decide (num b 4 1 < 2) && decide (num b 5 1 < 2) && zeroAt b 56 8 &&
  (if num b 4 1 == 0 then decide (num b 6 1 < 64) && num b 7 1 == 0 else num b 6 1 == 0 && decide (num b 7 1 < 16) && num b 8 4 == 0)
/-- The eight checks in order; the key and the slot's new content, or the code of the first that fails. One signed response holds both of
the indices that the first asks for. -/
def Dev.keyPutCheck (d : Dev) (s : Session) (b : List Byte) : Except Nat (Nat × TKey) :=
  let adapter := num b 4 1 == 0
  let p := num b 6 1
  let P := d.part p
  if !(s.quoted.any fun q => q.contains 6 && (!adapter || q.contains (16 + p))) then .error Code.keyNoquote
  else if d.sec.debug then .error Code.keyDebug
  else if bit (num b 5 1) 0 && (d.sec.staging || d.sec.staged) then .error Code.pendRefused
  else if !keyPutForm b then .error Code.keyInvalid
  else if adapter && !(P.st == .active || P.st == .yielded || P.st == .parked) then .error Code.keyState
  else if adapter && num b 8 4 != P.inst.toNat then .error Code.keyStale
  else match Config.unwrap (Config.wrapKey s.secret) (slice b 16 40) with
    | none => .error Code.keyInvalid
    | some k =>
      let t : TKey := ⟨!adapter, BitVec.ofNat 32 (num b 12 4), if adapter then P.entry.tkd else 0, p, num b 7 1, k⟩
      match Tab.get? d.sec.tkeys (num b 2 2) with
      | none => .ok (num b 2 2, t)
      | some o => if o.model == t.model && o.keyid == t.keyid && o.key == t.key then .ok (num b 2 2, t) else .error Code.keySlotBusy
/-- KEY_PUT. After a device-fatal error and in firmware recovery every KEY_PUT is refused with KEY_STATE (R378, R389). -/
def Dev.keyPut (d : Dev) (id : Nat) (b : List Byte) : Dev :=
  match Tab.get? d.sec.sessions id with
  | none => d
  | some s =>
    if s.wire == .ethernet || !d.herilUp then d
    else
      let answer (d : Dev) (c : Nat) : Dev := d.tell s.wire (.spdm s.wire (natLe 2 c))
      if d.err.deOpen || d.ckr.phase == 8 then answer d Code.keyState
      else match d.keyPutCheck s b with
        | .error c => answer d c
        | .ok (k, t) => answer (d.onSec fun x => { x with tkeys := Tab.put x.tkeys k t }) 0
/-- A MODEL key that a load or a replacement of its base still needs (R343). -/
def Dev.keyInUse (d : Dev) (t : TKey) : Bool :=
  t.model && ((d.base t.base).st == .loading || (d.base t.base).st == .failed || (d.base t.base).rst != .idle)
def Dev.tkeyDelete (d : Dev) (ch : Chan) : Dev :=
  d.command ch 0x201 (fun b => bodyLen 8 b && decide (num b 0 2 < 1024) && zeroAt b 2 6) fun d b =>
    let used := match Tab.get? d.sec.tkeys (num b 0 2) with
      | some t => d.keyInUse t
      | none => false
    if used then .now d Code.keyInUse []
    else ok (d.onSec fun s => { s with tkeys := Tab.erase s.tkeys (num b 0 2) })
def Dev.tkeyClearAll (d : Dev) (ch : Chan) : Dev :=
  d.command ch 0x202 emptyForm fun d _ => ok (d.onSec fun s => { s with tkeys := [] })

/-! ## Credentials (R337) -/

/-- Closes the sessions opened under a credential slot. -/
def Dev.closeCred (d : Dev) (k : Nat) : Dev :=
  d.onSec fun s => { s with sessions := s.sessions.filter fun x => x.2.cred != some k }
/-- The session of a management channel. -/
def chanSession : Chan → Option Nat
  | .ethernet s _ => some s
  | .sideband s _ => some s
  | _ => none
/-- CRED_ENROLL; an unenrolled session that enrolled a slot is closed (log entry 24). -/
def Dev.credEnroll (d : Dev) (ch : Chan) : Dev :=
  d.command ch 0x203 (fun b => bodyLen 104 b && decide (num b 0 1 < 8) && zeroAt b 1 7) fun d b =>
    let un := d.unenrolled ch
    let d := (d.closeCred (num b 0 1))
    let d : Dev := { d with persist := { d.persist with creds := setAt d.persist.creds (num b 0 1) (some (key768 (slice b 8 96))) } }
    ok (match chanSession ch with
      | some s => if un then d.sessionEnd s else d
      | none => d)
def Dev.credDelete (d : Dev) (ch : Chan) : Dev :=
  d.command ch 0x204 (fun b => bodyLen 8 b && decide (num b 0 1 < 8) && zeroAt b 1 7) fun d b =>
    let d := d.closeCred (num b 0 1)
    ok { d with persist := { d.persist with creds := setAt d.persist.creds (num b 0 1) none } }

/-! ## Debug, presence, seal, JTAG, IDE -/

/-- DEBUG_ENABLE (R341). -/
def Dev.debugEnable (d : Dev) (ch : Chan) : Dev :=
  d.command ch 0x205 emptyForm fun d _ =>
    let d := d.zeroKeys
    let d := d.live.foldl (fun d p => d.pe Code.debugOn p) d
    let d := (d.bases.map (·.1)).foldl Dev.emptyBase d
    let d : Dev := { d with cat := Tab.mapVal (fun i (e : CatEntry) => if e.st == .free then e else e.freed i) d.cat }
    ok (d.onSec fun s => { s with debug := true })
/-- Ends a pending presence command with PRESENCE_REQUIRED, its staging undone (R338). -/
def Dev.presUndo (d : Dev) : Dev :=
  match d.sec.presCmd with
  | none => d
  | some code =>
    if !d.coresUp then d else
    let k := d.sec.stageBank
    let d : Dev := match d.sec.stageOld with
      | some b => { d with persist := d.persist.setBank k b }
      | none => d
    (d.onSec fun s => { s with staging := false, stageNext := 0, stageData := [], stageOld := none, presCmd := none }).reply code 0
      Code.presenceRequired []
def Dev.presRelease (d : Dev) : Dev :=
  (d.onPins fun p => { p with presN := true, presHeld := false }).presUndo
/-- PRES_N has been low for a number of milliseconds. -/
def Dev.presAssert (d : Dev) (ms : Nat) : Dev := d.onPins fun p => { p with presN := false, presHeld := decide (100 ≤ ms) }
/-- The latch and the keys of R339. -/
def Dev.breakSeal (d : Dev) : Dev :=
  let d : Dev := { d with persist := { d.persist with sealed := true } }
  (d.onSec fun s => { s with sealed := true }).zeroKeys
/-- R339 with its record under a code; on auxiliary power alone there is nothing that records. -/
def Dev.openSeal (d : Dev) (code : Nat) : Dev := if d.pins.pwrGood then d.breakSeal.detect (rec0 code) else d.breakSeal
/-- One check of the seal loop, which a running AON domain makes: every two open ones in a row set the latch and zero the keys, and the
second of a run is recorded (R339, R365; log entry 25). -/
def Dev.sealCheck (d : Dev) (loopOpen : Bool) : Dev :=
  if !d.ckr.aonstb then d
  else
    let n := if loopOpen then d.sec.loopRun + 1 else 0
    let d := (d.onCkr fun c => { c with aonRun := true }).onSec fun s => { s with loopRun := min n 2 }
    if n == 2 then d.openSeal Code.sealOpen else if 2 < n then d.breakSeal else d
/-- An instruction on the JTAG port: 1 stands for IDCODE, 0 for BYPASS, every other number for another instruction. With
DEBUG set the spec says no more of those, and a free value answers. -/
def Dev.jtag (d : Dev) (ir : Nat) : Dev :=
  if ir == 1 then d.emit (.jtag false)
  else if ir == 0 || !d.sec.debug then d.emit (.jtag true)
  else
    let (v, d) := d.free
    d.emit (.jtag (v % 2 == 1))
/-- IDE_KM over an SPDM session on PF0: one link stream and four selective ones at most (R402, Table 13-2). -/
def Dev.ideKm (d : Dev) (id stream : Nat) (link : Bool) (lo hi : Nat) (key : BitVec 256) : Dev :=
  let others := d.sec.ides.filter fun x => x.1 != stream && x.2.link == link
  if (d.session id .pf0).isSome && d.spdmUp .pf0 && decide (others.length < if link then 1 else 4) then
    d.onSec fun s => { s with ides := Tab.put s.ides stream ⟨key, link, lo, hi, true⟩ }
  else d
/-- A stream becomes Insecure, and the queues of the VFs it covers stop. A function's routing ID is its number. -/
def Dev.ideFail (d : Dev) (stream : Nat) : Dev :=
  match Tab.get? d.sec.ides stream with
  | none => d
  | some x =>
    if !x.secure then d
    else
      let d := d.onSec fun s => { s with ides := Tab.put s.ides stream { x with secure := false } }
      let vs := (List.range 64).filter fun p => x.link || (decide (x.ridLo ≤ p + 1) && decide (p + 1 ≤ x.ridHi))
      vs.foldl Dev.qerr d

/-! ## Key rotation (R256, R349, R350) -/

def Dev.keyOf (d : Dev) : KeyRef → KGen
  | .part p => (d.part p.val).kgen
  | .base b => d.shared b.val
def Dev.setKey (d : Dev) (k : KeyRef) (g : KGen) : Dev :=
  match k with
  | .part p => d.onPart p.val fun P => { P with kgen := g }
  | .base b => d.setShared b.val g
/-- The physical ranges under a key. -/
def Dev.rangesOf (d : Dev) : KeyRef → List (Nat × Nat)
  | .part p => d.keyRanges p.val
  | .base b => (d.mem.ranges.filter (Range.ofBase b.val)).map fun r => (r.lo, r.len)
def keyRefOf (kind i : Nat) : KeyRef := if kind == 0 then .part (Fin.ofNat 64 i) else .base (Fin.ofNat 16 i)
def Dev.keyRotate (d : Dev) (ch : Chan) : Dev :=
  d.command ch 0x200 (fun b => bodyLen 8 b && decide (num b 0 1 < 2) && decide (num b 1 1 < if num b 0 1 == 0 then 64 else 16) && zeroAt b 2 6)
    fun d b =>
      let k := keyRefOf (num b 0 1) (num b 1 1)
      match (d.keyOf k).st with
      | .none => .now d Code.keyAbsent []
      | .rotating => .now d Code.keyGenBusy []
      | .stable => ok (d.setKey k { d.keyOf k with st := .rotating, sweep := none })
/-- Heril installs the new generation; CUR flips and the sweep starts. -/
def Dev.keyInstall (d : Dev) (k : KeyRef) : Dev :=
  let g := d.keyOf k
  if g.st == .rotating && g.sweep.isNone && d.coresUp then
    let (v, d) := d.draw
    let g := { g with cur := !g.cur, sweep := some 0 }
    d.setKey k (if g.cur then { g with key1 := some v } else { g with key0 := some v })
  else d
/-- The lowest page of [a, b) whose membership in the intervals is `inside`. -/
def Ivl.first (l : List (Nat × Nat)) (inside : Bool) (a b : Nat) : Option Nat :=
  let cands := a :: l.flatMap fun x => [x.1, x.2]
  (cands.filter fun c => decide (a ≤ c) && decide (c < b) && Ivl.mem l c == inside).min?
/-- The next page of a sweep: the lowest one under the key at or above the sweep's position that carries the old tag. -/
def Dev.nextPage (d : Dev) (k : KeyRef) (from_ : Nat) : Option Nat :=
  let cur := (d.keyOf k).cur
  ((d.rangesOf k).filterMap fun r => Ivl.first d.mem.tag1 (!cur) (max from_ (r.1 / 4096)) ((r.1 + r.2) / 4096)).min?
/-- The reader for which a sweep of a key works: the partition, against which its accesses count, or none for a shared key (R316). -/
def keyReader : KeyRef → Nat
  | .part p => p.val
  | .base _ => noPart
/-- One page of a sweep, once the stack regulators of a partition's key serve it (R315, R316): read and re-encrypted, its tag flipped,
its count moved. Its plaintext stays, and what fails in it goes on failing (R256, R259). -/
def Dev.sweepPage (d : Dev) (k : KeyRef) : Dev :=
  let g := d.keyOf k
  match g.st, g.sweep with
  | .rotating, some from_ =>
    match if d.coresUp && d.servable (keyReader k) [0, 1] then d.nextPage k from_ else none with
    | none => d
    | some n =>
      let g := (g.use g.cur (· + 1)).use (!g.cur) (· - 1)
      let d := (((d.charge (keyReader k) 0 4096).charge (keyReader k) 1 4096).readRange (keyReader k) (n * 4096) 4096)
      (d.setKey k { g with sweep := some (n + 1) }).setTags (n * 4096) 4096 g.cur
  | _, _ => d
/-- The old generation is zeroed once its use count is 0; KROT counts the rotations of a partition memory key. -/
def Dev.rotationDone (d : Dev) (k : KeyRef) : Dev :=
  let g := d.keyOf k
  if g.st == .rotating && g.sweep.isSome && d.coresUp && (if g.cur then g.use0 else g.use1) == 0 then
    let g := { g with st := .stable, sweep := none }
    let d := d.setKey k (if g.cur then { g with key0 := none } else { g with key1 := none })
    match k with
    | .part p => d.onPart p.val fun P => { P with krot := P.krot + 1 }
    | .base _ => d
  else d

/-! ## Firmware staging (R353 to R355, R425) -/

/-- Ends a staging without success: STAGING clears and the bank is left invalid. -/
def Dev.stageFail (d : Dev) : Dev :=
  let k := d.sec.stageBank
  let d : Dev := { d with persist := d.persist.setBank k Reset.bank }
  d.onSec fun s => { s with staging := false, stageNext := 0, stageData := [], stageOld := none, presCmd := none }
/-- Starts a staging into bank k. -/
def Dev.stageBegin (d : Dev) (k roll : Bool) : Dev :=
  let old := d.persist.bank k
  let d : Dev := { d with persist := d.persist.setBank k Reset.bank }
  d.onSec fun s => { s with staging := true, stageBank := k, stageRoll := roll, stageNext := 0, stageData := [], stageOld := some old }
/-- The form of Table 16-14. -/
def stageForm (b : List Byte) : Bool :=
  let fl := num b 1 1
  let inl := bit fl 0
  decide (32 ≤ b.length) && decide (fl < 4) && zeroAt b 2 6 && zeroAt b 28 4 && decide (num b 16 8 ≤ 2 ^ 25) &&
  (if inl then zeroAt b 8 8 && b.length == 32 + num b 16 8 else bit fl 1 && zeroAt b 24 4 && b.length == 32)
/-- FW_STAGE and FW_ROLLBACK. The last piece is answered by FW_STAGE_COMPLETE. -/
def Dev.stage (d : Dev) (ch : Chan) (code : Nat) (image : List Byte) : Dev :=
  let roll := code == 0x209
  d.command ch code (fun b => stageForm b && (bit (num b 1 1) 0 || d.dma) &&
      (num b 0 1 == 0xFF || (decide (num b 0 1 < 2) && d.ckr.phase == 9))) fun d b =>
    let inl := bit (num b 1 1) 0
    let last := bit (num b 1 1) 1
    let off := num b 24 4
    let bank := if num b 0 1 == 0xFF then !d.ckr.bank else num b 0 1 == 1
    let piece := if inl then b.drop 32 else fit (num b 16 8) image
    let take (d : Dev) : Done :=
      if 2 ^ 25 < off + piece.length then .now d.stageFail Code.cmdInvalid []
      else
        let d := d.onSec fun s => { s with stageData := s.stageData ++ piece, stageNext := off + piece.length }
        if last then .later (d.onSec fun s => { s with presCmd := if needsPresence code || isRecovery ch then some code else none }) 0 else ok d
    let ending := d.host.replies.any fun x => x.code == 0x206 || x.code == 0x209
    if d.sec.staging then
      if ending || !inl || off == 0 || d.sec.stageRoll != roll || bank != d.sec.stageBank then .now d Code.fwBusy []
      else if off != d.sec.stageNext then .now d.stageFail Code.cmdInvalid []
      else take d
    else if d.sec.staged then .now d Code.fwBusy []
    else if inl && off != 0 then .now d Code.cmdInvalid []
    else take (d.stageBegin bank roll)
/-- Ends a staging without success and answers it. -/
def Dev.stageRefuse (d : Dev) (status : Nat) : Dev :=
  d.stageFail.reply (if d.sec.stageRoll then 0x209 else 0x206) 0 status []
/-- FW_STAGE_COMPLETE: the bank is written, which a free value may say has failed, and its signatures, the configuration block's own among
them, compatibility and floors are checked; ROM recovery runs checks 1 to 5 alone, so that the permit's digest passes too (R378). A failed write
or signature completes with CMD_INVALID (log entry 26). -/
def Dev.stageComplete (d : Dev) : Dev :=
  let code := if d.sec.stageRoll then 0x209 else 0x206
  if !(d.host.replies.any fun x => x.code == code) || !d.sec.staging || !d.coresUp then d
  else
    let b : Bank := ⟨d.sec.stageData, true, 0xFFFFFFFF⟩
    let (w, d) := d.free
    if !(b.check1 && b.check2 && (d.ckr.phase == 9 || cfgSigned b d.persist.creds (b.blob 2))) || w % 2 == 1 then d.stageRefuse Code.cmdInvalid
    else if !(b.check4 d.host.b1 && b.check5) then (d.detect (rec0 Code.imageIncompat)).stageRefuse Code.imageIncompat
    else if !d.sec.stageRoll && !(if d.ckr.phase == 9 then b.check3 d.persist else b.floorOk d.persist) then
      (d.detect (rec0 Code.imageRollback)).stageRefuse Code.imageRollback
    else
      let k := d.sec.stageBank
      let roll := d.sec.stageRoll
      let s := d.persist.setBank k b
      let d : Dev := { d with persist := if roll then { s with permit := some b.digest } else s }
      let d := d.onSec fun s => { s with staging := false, staged := true, permit := s.permit || roll, stageNext := 0, stageData := [],
                                         stageOld := none, presCmd := none }
      d.reply code 0 0 []
/-- FW_DISCARD: the inactive bank becomes invalid; a staging in progress ends as a failed write. -/
def Dev.fwDiscard (d : Dev) (ch : Chan) : Dev :=
  d.command ch 0x207 emptyForm fun d _ =>
    let d := if d.sec.staging then ((d.stageFail.reply 0x206 0 Code.cmdInvalid []).reply 0x209 0 Code.cmdInvalid []) else d
    let s := d.persist.setBank (!d.ckr.bank) Reset.bank
    let d : Dev := { d with persist := { s with permit := none } }
    ok (d.onSec fun s => { s with staged := false, permit := false })
/-- The ACT that FW_ACTIVATE programs (R376, R378). -/
def Dev.nextAct (d : Dev) : BitVec 32 :=
  if d.ckr.phase == 9 then
    match d.persist.bankA.candidate, d.persist.bankB.candidate with
    | true, true => (if actAbove d.persist.bankA.act d.persist.bankB.act then d.persist.bankA.act else d.persist.bankB.act) + 1
    | true, false => d.persist.bankA.act + 1
    | false, true => d.persist.bankB.act + 1
    | false, false => 0
  else d.ckr.act + 1
/-- The bank that FW_ACTIVATE marks: the one staged, in ROM recovery the one its FW_STAGE named. -/
def Dev.stagedBank (d : Dev) : Bool := if d.ckr.phase == 9 then d.sec.stageBank else !d.ckr.bank
/-- FW_ACTIVATE; without STAGED it is CMD_INVALID (log entry 27). -/
def Dev.fwActivate (d : Dev) (ch : Chan) : Dev :=
  d.command ch 0x208 emptyForm fun d _ =>
    if !d.sec.staged then .now d Code.cmdInvalid []
    else
      let k := d.stagedBank
      ok { d with persist := d.persist.setBank k { d.persist.bank k with act := d.nextAct } }
/-- FW_FLOOR (R355). -/
def Dev.fwFloor (d : Dev) (ch : Chan) : Dev :=
  d.command ch 0x20A (fun b => bodyLen 8 b && zeroAt b 4 4) fun d b =>
    let h := num b 0 2
    let q := num b 2 2
    if decide (d.runBank.svnH < h) || decide (h < d.persist.floorH) || decide (d.runBank.svnQ < q) || decide (q < d.persist.floorQ) then
      .now d Code.floorInvalid []
    else ok { d with persist := { d.persist with floorH := h, floorQ := q } }

/-! ## FULL_RESET and PWR_SET (R361, R362, R373) -/

/-- A body that holds one byte: of that byte alone, or of 8 bytes with the others 0 (log entry 28). -/
def byteForm (lim : Nat) (b : List Byte) : Bool := (bodyLen 1 b || bodyLen 8 b) && decide (num b 0 1 < lim) && zeroAt b 1 7
def Dev.fullResetCmd (d : Dev) (ch : Chan) : Dev :=
  d.command ch 0x134 (byteForm 3) fun d b =>
    ok (d.onCkr fun c =>
      match num b 0 1 with
      | 0 => { c with nowDue := true }
      | 1 => { c with perstArm := true }
      | _ => { c with perstArm := false })
/-- PWR_BUSY of R361. -/
def Dev.pwrBusy (d : Dev) : Bool :=
  (d.parts.any fun x => x.2.st != .unused && x.2.st != .parked) ||
  (d.bases.any fun x => x.2.st == .loading || x.2.rst != .idle) ||
  (d.parts.any fun x => x.2.kgen.st == .rotating || x.2.pods.any fun s => s.st == .binding) ||
  (d.sec.shared.any fun x => x.2.st == .rotating) || d.lnk.st != .nosched
/-- A domain under a new source; a change of a running domain's source is a switch (R360). -/
def Dom.switch (m : Dom) (src : Nat) (gated : Bool) : Dom :=
  { m with src := src, gated := gated, switches := if m.src == src || m.src == 2 || src == 2 then m.switches else satAdd 16 m.switches 1 }
/-- The domains in a power state with the root locked (Table 14-1). -/
def Ckr.domsIn (c : Ckr) (st : Nat) : List Dom := (List.range 6).map fun i =>
  let m := c.doms.getD i Reset.dom
  if st == 2 then (if i < 3 then m.switch 2 true else m.switch 1 false) else m.switch 0 (st == 1 && decide (i < 3) && !m.slpen)
/-- The clocks and links of a power state (Table 14-1). -/
def Dev.enterPwr (d : Dev) (st : Nat) : Dev :=
  let d := d.onCkr fun c => { c with pwr := st, pllLock := c.pllLock && st != 2, doms := c.domsIn st }
  let down := st == 2 || (st == 1 && (d.ckr.doms.getD 1 Reset.dom).gated)
  if down then d.txIdle else if st == 0 then d.trainPorts else d
/-- PWR_SET. The return from DEEP ends when the root has locked again. -/
def Dev.pwrSet (d : Dev) (ch : Chan) : Dev :=
  d.command ch 0x133 (byteForm 3) fun d b =>
    let st := num b 0 1
    if d.ckr.pwr == 0 && st != 0 && d.pwrBusy then .now d Code.pwrBusy []
    else if d.ckr.pwr == 2 && st != 2 then .later d st
    else ok (if st == d.ckr.pwr then d else d.enterPwr st)

/-! ## Meanings -/

def execTkeyDelete (ch : Chan) (s : State) : Host.Outcome State Fault Refusal := s.onDev fun d => d.tkeyDelete ch
def execTkeyClearAll (ch : Chan) (s : State) : Host.Outcome State Fault Refusal := s.onDev fun d => d.tkeyClearAll ch
def execKeyPut (sess : Nat) (body : List Byte) (s : State) : Host.Outcome State Fault Refusal := s.onDev fun d => d.keyPut sess body
def execCredEnroll (ch : Chan) (s : State) : Host.Outcome State Fault Refusal := s.onDev fun d => d.credEnroll ch
def execCredDelete (ch : Chan) (s : State) : Host.Outcome State Fault Refusal := s.onDev fun d => d.credDelete ch
def execDebugEnable (ch : Chan) (s : State) : Host.Outcome State Fault Refusal := s.onDev fun d => d.debugEnable ch
def execFwStage (ch : Chan) (image : List Byte) (s : State) : Host.Outcome State Fault Refusal := s.onDev fun d => d.stage ch 0x206 image
def execFwDiscard (ch : Chan) (s : State) : Host.Outcome State Fault Refusal := s.onDev fun d => d.fwDiscard ch
def execFwActivate (ch : Chan) (s : State) : Host.Outcome State Fault Refusal := s.onDev fun d => d.fwActivate ch
def execFwRollback (ch : Chan) (image : List Byte) (s : State) : Host.Outcome State Fault Refusal := s.onDev fun d => d.stage ch 0x209 image
def execFwFloor (ch : Chan) (s : State) : Host.Outcome State Fault Refusal := s.onDev fun d => d.fwFloor ch
def execFwStageComplete (s : State) : Host.Outcome State Fault Refusal := s.onDev Dev.stageComplete
def execFullReset (ch : Chan) (s : State) : Host.Outcome State Fault Refusal := s.onDev fun d => d.fullResetCmd ch
def execPwrSet (ch : Chan) (s : State) : Host.Outcome State Fault Refusal := s.onDev fun d => d.pwrSet ch
def execSpdmGetMeasurements (w : Wire) (sess : Option Nat) (indices : List Nat) (nonce : BitVec 256) (s : State) :
    Host.Outcome State Fault Refusal := s.onDev fun d => d.measure w sess indices nonce
def execSpdmKeyExchange (w : Wire) (sess : Nat) (requester : Option (BitVec 768)) (secret : BitVec 256) (s : State) :
    Host.Outcome State Fault Refusal := s.onDev fun d => d.keyExchange w sess requester secret
def execSpdmGetCertificate (w : Wire) (s : State) : Host.Outcome State Fault Refusal := s.onDev fun d => d.certificate w
def execSpdmChallenge (w : Wire) (nonce : BitVec 256) (s : State) : Host.Outcome State Fault Refusal := s.onDev fun d => d.challenge w nonce
def execMgmtSessionOpen (sess : Nat) (anchor : Option (BitVec 768)) (secret : BitVec 256) (s : State) :
    Host.Outcome State Fault Refusal := s.onDev fun d => d.mgmtOpen sess anchor secret
def execSessionEnd (sess : Nat) (s : State) : Host.Outcome State Fault Refusal := s.onDev fun d => d.sessionClose sess
def execIdeKm (sess : Nat) (k : KeyedStream) (link : Bool) (ridLo ridHi : Nat) (s : State) : Host.Outcome State Fault Refusal :=
  s.onDev fun d => d.ideKm sess k.stream link ridLo ridHi k.key
def execIdeIntegrityFail (stream : Nat) (s : State) : Host.Outcome State Fault Refusal := s.onDev fun d => d.ideFail stream
def execPresRelease (s : State) : Host.Outcome State Fault Refusal := s.onDev Dev.presRelease
def execPresNAssert (ms : Nat) (s : State) : Host.Outcome State Fault Refusal := s.onDev fun d => d.presAssert ms
def execSealCheck (loopOpen : Bool) (s : State) : Host.Outcome State Fault Refusal := s.onDev fun d => d.sealCheck loopOpen
def execJtagInstruction (ir : Nat) (s : State) : Host.Outcome State Fault Refusal := s.onDev fun d => d.jtag ir
def execKeyRotate (ch : Chan) (s : State) : Host.Outcome State Fault Refusal := s.onDev fun d => d.keyRotate ch
def execKeyGenInstalled (k : KeyRef) (s : State) : Host.Outcome State Fault Refusal := s.onDev fun d => d.keyInstall k
def execKeySweepPage (k : KeyRef) (s : State) : Host.Outcome State Fault Refusal := s.onDev fun d => d.sweepPage k
def execKeyRotationComplete (k : KeyRef) (s : State) : Host.Outcome State Fault Refusal := s.onDev fun d => d.rotationDone k

end Sys2Proof.Machine
end

