-- ==== Sys2Proof/Machine/Boot.lean ====
section
/-! DEFINITION. Supplies, resets, boot, clocks, the loupe counter, thermal behaviour and the host link's own events
(14, 16, 17). -/

namespace Sys2Proof.Machine

/-! ## Full reset (R371, R372, R381) -/

/-- What a full reset leaves: everything at its reset state but the persistent store, the AON domain and the pins. -/
def Dev.cleared (d : Dev) : Dev :=
  { Reset.dev with
    persist := d.persist
    pins := { d.pins with faultN := true, thermN := true, beatOut := false }
    ckr := { Reset.ckr with aonstb := d.ckr.aonstb, clkFail := d.ckr.clkFail, cause := d.ckr.cause, nfull := d.ckr.nfull,
                            refOk := d.ckr.refOk, bootIn := d.ckr.bootIn, aonRun := d.ckr.aonRun, hotReset := d.ckr.hotReset }
    err := { Reset.err with lastDe := d.err.lastDe }
    sec := { Reset.sec with loopRun := min d.sec.loopRun 1, drbg := d.sec.drbg }
    host := { Reset.host with b1 := d.host.b1 }
    out := d.out
    fresh := d.fresh }
/-- A full reset with its cause. -/
def Dev.fullReset (d : Dev) (cause : Nat) : Dev :=
  d.cleared.onCkr fun c => { c with cause := cause, nfull := min (c.nfull + 1) (2 ^ 32 - 1), booting := true }

/-! ## Boot (R376 to R380, R442) -/

def Dev.setPhase (d : Dev) (n : Nat) : Dev := (d.onCkr fun c => { c with phase := n }).pfEvent 5
/-- The candidates in descending ACT order: true names bank B. -/
def Persist.order (s : Persist) : List Bool :=
  let l := if s.bankA.candidate && s.bankB.candidate && actAbove s.bankB.act s.bankA.act then [true, false] else [false, true]
  l.filter fun k => (s.bank k).candidate
/-- Checks 1 to 3 over the candidates: the first that passes, with the records of those that fail. -/
def Dev.pickBank (d : Dev) : List Bool → Option Bool × Dev
  | [] => (none, d)
  | k :: ks =>
    let b := d.persist.bank k
    if !(b.check1 && b.check2) then ((d.detect (rec0 Code.bootBankBad)).onCkr fun c => { c with fallbk := true }).pickBank ks
    else if !b.check3 d.persist then ((d.detect (rec0 Code.imageRollback)).onCkr fun c => { c with fallbk := true }).pickBank ks
    else (some k, d)
/-- The configuration block's fields take effect (Table 14-7). -/
def Dev.loadConfig (d : Dev) (c : List Byte) : Dev :=
  let s (ty : Nat) := cfgSection c ty
  let d := d.onCkr fun k => { k with doms := (List.range 6).map fun i =>
    { k.doms.getD i Reset.dom with slpen := decide (3 ≤ i) || bit (num (s 1) 0 1) i } }
  let l := s 3
  let d := d.onLnk fun k =>
    { k with devid := BitVec.ofNat 10 (num l 0 2), linkMap := (List.range 24).map fun i => (num l (4 + 4 * i) 2, num l (6 + 4 * i) 1) }
  let d := (List.range 24).foldl (fun d i => d.onPort i fun p => { p with rateMax := bit (num l (7 + 4 * i) 1) 0 }) d
  let v := s 7
  let d : Dev :=
    { d with
      therm := { d.therm with tthr := num (s 4) 0 2, tlim := num (s 4) 2 2 }
      cfg := { catsz := num v 0 4
               regdef := (List.range 5).map fun r => regImage (num (s 5) (8 * r) 8)
               plan := (List.range (num (s 6) 0 1)).map fun j => slice (s 6) (8 + 80 * j) 80
               stackDigest := dig384 (slice (s 2) 4096 48)
               digest := Config.sha384 (c.take (num c 8 4))
               loaded := true } }
  let d := d.onMem fun m => { m with interval := num v 4 2 }
  let d := d.onErr fun e => { e with ylimit := BitVec.ofNat 32 (num v 8 4) }
  d.onHost fun h => { h with idereq := bit (num v 12 1) 0 }
/-- Heril starts: identity keys, the seal latch, the floors and the flags are loaded (R332, R356, R376). -/
def Dev.startHeril (d : Dev) (k recovery : Bool) : Dev :=
  let b := d.persist.bank k
  let o := d.persist.bank (!k)
  -- the permit is used up: the floors are lowered to the SVNs of the images booted (R355; log entry 29)
  let s := d.persist
  let s := if s.permit.isSome then { s with floorH := min s.floorH b.svnH, floorQ := min s.floorQ b.svnQ, permit := none } else s
  let d : Dev := { d with persist := s }
  let d := d.onCkr fun c => { c with bank := k, act := b.act }
  let d := d.onHost fun h => { h with hver := BitVec.ofNat 32 (b.comp 0 0 4), qver := if recovery then 0 else BitVec.ofNat 32 (b.comp 1 0 4) }
  let al := Config.aliasKeyOf s.fuse (Config.sha384 (b.blob 0))
  d.onSec fun x => { x with sealed := s.sealed, permit := s.permit.isSome, recovery := recovery, identity := some (Config.identityKey s.fuse), aliasKey := some al,
                            chain := Config.certChain (Config.identityKey s.fuse) al, drbgLive := true, loaded := true,
                            staged := o.valid && o.act == 0xFFFFFFFF && o.check1 && o.check2 }
/-- PF0 begins to answer configuration requests, unless HOST_PERST_N still holds the link in reset. Without its supplies it answers none
(R433). -/
def Dev.answerHost (d : Dev) : Dev := d.onHost fun h => { h with answering := d.pins.perstN && d.pins.pwrGood, hostReset := !d.pins.perstN }
/-- Firmware recovery with a reason (R378). -/
def Dev.recover (d : Dev) (k : Bool) (reason : Nat) : Dev :=
  (((d.startHeril k true).onCkr fun c => { c with reason := reason, booting := false }).setPhase 8).answerHost
/-- The boot ROM's run, to PHASE CTRL or into recovery. -/
def Dev.boot (d : Dev) : Dev :=
  match d.pickBank d.persist.order with
  | (none, d) => ((d.onCkr fun c => { c with reason := 6, booting := false }).setPhase 9).answerHost
  | (some k, d) =>
    let img := d.persist.bank k
    if !img.check4 d.host.b1 then (d.detect (rec0 Code.imageIncompat)).recover k 1
    else if !img.check5 then (d.detect (rec0 Code.imageIncompat)).recover k 2
    else if d.persist.sealed then d.recover k 3
    else if decide (d.ckr.bootIn.rootCount < 31990400) || decide (32009600 < d.ckr.bootIn.rootCount) then d.recover k 4
    else if !cfgOk img d.persist.creds (img.blob 2) then (d.detect (rec0 Code.configInvalid)).recover k 5
    else
      let d := ((d.startHeril k false).loadConfig (img.blob 2)).onCkr fun c => { c with lock := true, booting := false }
      ((d.onHost fun h => { h with lock := true }).setPhase 1).trainPorts.answerHost
/-- Starts the boot ROM: SEC, CTL and MGT on REF, the others stopped until the root locks (R359, R380). It needs REFCLK (R436). -/
def Dev.tryBoot (d : Dev) : Dev :=
  if !d.released || d.ckr.phase != 0 || !d.ckr.booting || !d.ckr.refOk || d.ckr.pllLock then d
  else d.onCkr fun c => { c with doms := (List.range 6).map fun i =>
    if i < 3 then (c.doms.getD i Reset.dom).switch 2 true else { c.doms.getD i Reset.dom with src := 1 } }
/-- Whether the boot ROM waits for the junctions to cool: while one exceeds TTHR − 10.0 °C, and after the reset that recovers THERMAL_LIMIT
until all read below that (R442). -/
def Dev.tooHot (d : Dev) : Bool :=
  let t : Int := d.ckr.bootIn.presTmax
  decide (t > d.therm.tthr - 100) || (d.ckr.hotReset && decide (t ≥ d.therm.tthr - 100))
/-- The boot ROM goes on once the root has locked and no junction is too hot (R367, R380, R442). -/
def Dev.bootRom (d : Dev) : Dev :=
  if !d.released || d.ckr.phase != 0 || !d.ckr.booting || !d.ckr.pllLock || d.tooHot then d
  else (d.onCkr fun c => { c with hotReset := false }).boot
/-- The junction maximum of sensors 1 to 4. -/
def junction (s : List Int) : Int := (s.take 4).foldl max (s.headD 0)
/-- The junction maximum of a sample; a stack above 95.0 °C counts as one at TLIM (R442). -/
def Therm.maximum (t : Therm) : Int := if 950 < t.sensors.getD 4 0 then max (junction t.sensors) t.tlim else junction t.sensors
/-- What the boot ROM meets after a reset that no release of RESET_N brings: the junctions as the last sample had them (R442), and a count
of ROOT edges that no command carries, a free value (R367; log 7). -/
def Dev.bootReadings (d : Dev) : Dev :=
  let (n, d) := d.free
  d.onCkr fun c => { c with bootIn := { c.bootIn with presTmax := d.therm.maximum.toNat, rootCount := n } }
/-- A full reset with RESET_N high: the boot follows, with no pin sampled (R339). -/
def Dev.resetBoot (d : Dev) (cause : Nat) : Dev := (d.bootReadings.fullReset cause).tryBoot
/-- The full reset that power-on brings is counted once RESET_N is released. -/
def Dev.countPowerOn (d : Dev) : Dev := if d.ckr.nfull == 0 then d.onCkr fun c => { c with nfull := 1 } else d
/-- RESET_N comes to count as released (R357, R436): the pins are sampled, PRES_N low with the loop closed clears the seal latch (R339),
and the boot begins. PRES_N counts for one release. -/
def Dev.resetUp (d : Dev) : Dev :=
  if !d.released then d
  else
    let b := d.ckr.bootIn
    let d := (d.onPins fun p => { p with sbMode := b.sbMode }).onCkr fun c => { c with bootIn := { b with presLow := false } }
    let d : Dev := if b.presLow && b.loopClosed then { d with persist := { d.persist with sealed := false } } else d
    d.countPowerOn.tryBoot

/-! ## Supplies (R357, R435 to R438) -/

/-- The AON domain starts; RST_CAUSE and ERR_LASTDE return to their reset values. -/
def Dev.powerOnAux (d : Dev) : Dev :=
  if d.pins.aux then d
  else
    let d := (d.onCkr fun c => { c with aonstb := false, aonRun := true, clkFail := 0, nfull := 0, refOk := false, hotReset := false }).cleared
    ((d.onErr fun e => { e with lastDe := Reset.err.lastDe }).onPins fun p => { p with aux := true }).fullReset 0 |>.onCkr fun c => { c with nfull := 0 }
/-- The crystal is stable, and the AON domain counts REFCLK from now on: it is good until REFCLK_LOSS says otherwise (log 20). -/
def Dev.aonStable (d : Dev) : Dev :=
  if !d.pins.aux || d.ckr.aonstb then d else (d.onCkr fun c => { c with aonstb := true, aonRun := true, refOk := true }).resetUp
def Dev.power48v (d : Dev) : Dev := (d.powerOnAux).onPins fun p => { p with v48 := true }
/-- PWR_GOOD is released: after a power fault a full reset follows (R437). -/
def Dev.setPwrGood (d : Dev) : Dev :=
  if !d.pins.v48 || d.pins.pwrGood then d
  else
    let d := d.onPins fun p => { p with pwrGood := true }
    (if d.ckr.phase == 0 && !d.err.deOpen then d else d.bootReadings.fullReset 1).resetUp
/-- The PCIe link is down, its transmitters idle. -/
def Dev.pcieDown (d : Dev) : Dev := d.onHost fun h => { h with linkUp := false, lrate := 0, lwidth := 0, flit := false }
/-- The module on auxiliary power alone: PWR_GOOD is low, its outputs are released and its links idle, the keys are gone with the
security processor's supply, and no full reset is armed or due any more (R433, R438). -/
def Dev.auxOnly (d : Dev) : Dev :=
  (((d.zeroKeys.pcieDown).onHost fun h => { h with answering := false }).onCkr fun c => { c with perstArm := false, nowDue := false }).onPins fun p =>
    { p with pwrGood := false, beatOut := false, faultN := true, thermN := true }
/-- A supply or a rail out of its limits drives PWR_GOOD low (R430); while RESET_N counts as high it is a device-fatal error (R436,
R437). -/
def Dev.powerFault (d : Dev) : Dev :=
  if !d.pins.pwrGood then d
  else (if d.released then d.detect (rec0 Code.powerFault) else d).auxOnly
/-- The 48 V input falls away: in an orderly power-down with RESET_N low, or behind a power fault; with RESET_N high its fall is one
(R437, R438). -/
def Dev.remove48v (d : Dev) : Dev := if d.pins.v48 then d.powerFault.onPins fun p => { p with v48 := false } else d
/-- Everything but the persistent store is lost. -/
def Dev.removeAux (d : Dev) : Dev :=
  if d.pins.v48 then d
  else { Reset.dev with persist := d.persist, host := { Reset.host with b1 := d.host.b1 }, out := d.out, fresh := d.fresh,
                        sec := { Reset.sec with drbg := d.sec.drbg } }

/-! ## Reset pins and commands -/

/-- RESET_N low for 10 µs; where it already counted as low, only the pin changes (R357, R436). -/
def Dev.resetAssert (d : Dev) (us : Nat) : Dev :=
  if decide (us < 10) || !d.pins.resetN then d
  else
    let up := d.released
    let d := d.onPins fun p => { p with resetN := false }
    if up then d.fullReset 1 else d
def Dev.resetRelease (d : Dev) (b : BootIn) : Dev :=
  if d.pins.resetN then d
  else ((d.onPins fun p => { p with resetN := true }).onCkr fun c => { c with bootIn := b }).resetUp
/-- FULL_RESET_NOW expires: the full reset, of a part that runs on its supplies and is not in the hold state (R371, R390, R438). -/
def Dev.nowExpiry (d : Dev) : Dev := if d.released && d.ckr.nowDue && !d.err.holdst then d.resetBoot 2 else d
/-- A VF's queues stopped as by EN 0: a running command's entry and the entries held are discarded and counted. -/
def Vf.stop (v : Vf) : Vf :=
  { v with en := false, discard := v.cur.isSome, heldCqe := [], lost := satAdd 16 v.lost v.heldCqe.length }
/-- Host-link reset (R400). -/
def Dev.linkReset (d : Dev) : Dev :=
  let d : Dev := { d with parts := Tab.mapVal (fun _ (P : Part) =>
    { P with vf := { P.vf.stop with vstat := 0, view := [], viewDropped := 0 } }) d.parts }
  let d := d.onSec fun s => { s with ides := [] }
  d.onHost fun h =>
    { h with fns := [], int := 0, ystat := 0, linkUp := false, lrate := 0, lwidth := 0, flit := false, answering := false, hostReset := true
             mb0 := { h.mb0 with discard := h.mb0.busy }, mb1 := { h.mb1 with discard := h.mb1.busy } }
/-- HOST_PERST_N is asserted: an armed full reset, or a host-link reset; in the hold state and without supplies
neither (R371, R390, R438). -/
def Dev.hostPerst (d : Dev) : Dev :=
  let d := d.onPins fun p => { p with perstN := false }
  if d.err.holdst || !d.pins.pwrGood then d else if d.ckr.perstArm then d.resetBoot 3 else d.linkReset
def Dev.perstRelease (d : Dev) : Dev :=
  let d := d.onPins fun p => { p with perstN := true }
  if d.ckr.phase != 0 then d.answerHost else d

/-! ## Readiness (R380) -/

/-- One entry of the default partition plan, applied as PART_SET would, or skipped with its refusal code logged (R379). The spec
names no code for a DISTIL entry: PART_INVALID (DESIGN CHOICE, log 113). -/
def Dev.planned (d : Dev) (b : List Byte) : Dev :=
  let q := parseSet b
  let (st, d') := if !q.form then (Code.cmdInvalid, d) else if q.entry.mode == .distil then (Code.partInvalid, d) else d.applySet q
  if st == 0 then d' else d.onHost fun h => { h with planLog := h.planLog ++ [(q.part, st)] }
/-- Stacks trained: a device key, PHASE MEM, and the default plan (R254, R379). -/
def Dev.stacksTrained (d : Dev) (record : BitVec 384) : Dev :=
  if d.ckr.phase != 1 || !d.coresUp || !d.ckr.pllLock then d
  else
    let (k, d) := d.draw
    let d := d.onSec fun s => { s with devKey := some k }
    let d := if d.cfg.stackDigest == record then d else d.detect (rec0 Code.configInvalid)
    let d := d.setPhase 2
    d.cfg.plan.foldl Dev.planned d
def Dev.phaseReady (d : Dev) (ms : Nat) : Dev :=
  if d.ckr.phase == 2 && d.coresUp then (d.onCkr fun c => { c with tboot := min ms 0xFFFF }).setPhase 3 else d

/-! ## Clocks (R358 to R365) -/

/-- The stacks' contents are lost: their cells fail until they are written (R364). -/
def Dev.loseStacks (d : Dev) : Dev :=
  d.onMem fun m => { m with bytes := [], bad := m.ranges.foldl (fun b r => Ivl.add b r.lo (r.lo + r.len)) m.bad }
/-- The firmware restarts after a clock failure. -/
def Dev.clockBack (d : Dev) : Dev :=
  ((d.onCkr fun c => { c with clockWait := false, clockLost := false }).loseStacks).detect (rec0 Code.clockLost)
/-- Every domain that the power state clocks moves to ROOT (Table 14-1). -/
def Dev.toRoot (d : Dev) : Dev := d.onCkr fun c => { c with pllLock := true, doms := c.domsIn (if c.pwr == 1 then 1 else 0) }
/-- The root lock is accepted: at boot, where the boot ROM counts ROOT, after a clock failure, or on the way out of DEEP. -/
def Dev.rootLock (d : Dev) : Dev :=
  if d.ckr.pllLock || !d.ckr.refOk || !d.released || d.err.holdst then d
  else if d.ckr.pwr == 2 then
    match d.host.replies.find? fun x => x.code == 0x133 with
    | some x => if d.ckr.clockWait then d else ((d.toRoot).enterPwr x.key).reply 0x133 x.key 0 []
    | none => d
  else
    (if d.ckr.clockWait then d.toRoot.clockBack else d.toRoot).bootRom
/-- What happens at once at a clock failure (R364). -/
def Dev.clockStop (d : Dev) (kind : Nat) : Dev :=
  ((d.txIdle.stopClocks).pcieDown).onCkr fun c => { c with pllLock := false, clkFail := kind, clockLost := true }
/-- REFCLK is lost: the AON counter says so in every state; with RESET_N low nothing runs on it (R363 to R365). -/
def Dev.refLost (d : Dev) : Dev :=
  if !d.ckr.refOk then d
  else
    let d := d.onCkr fun c => { c with refOk := false }
    if !d.released then d
    else if d.ckr.pwr == 2 then
      d.onCkr fun c => { c with refLoss := satAdd 16 c.refLoss 1, clkFail := 1, clockWait := true,
                                doms := c.doms.map fun m => { m with src := 2, gated := true } }
    else d.clockStop 1
def Dev.rootLost (d : Dev) : Dev := if d.ckr.pllLock && d.ckr.pwr != 2 then d.clockStop 2 else d
/-- The AON clock stops: a stopped crystal counts as an open seal (R363, R365). -/
def Dev.crystalLost (d : Dev) : Dev :=
  if d.ckr.aonstb && d.ckr.aonRun then (d.onCkr fun c => { c with clkFail := 3, aonRun := false }).openSeal Code.aonLost else d
/-- REFCLK counts as returned. In DEEP the domains go on from REF; after a clock failure the root must lock first (R364). -/
def Dev.refBack (d : Dev) : Dev :=
  if d.ckr.refOk || !d.ckr.aonstb then d
  else
    let d := d.onCkr fun c => { c with refOk := true }
    if d.err.holdst || d.ckr.clockLost then d
    else if d.ckr.clockWait then
      d.onCkr fun c => { c with clockWait := false, doms := (List.range 6).map fun i =>
        let m := c.doms.getD i Reset.dom
        if i < 3 then m else { m with src := 1, gated := false } }
    else d.tryBoot
def Dev.cdcTimeout (d : Dev) (crossing : BitVec 32) : Dev :=
  if d.ckr.clockWait || d.err.holdst || !d.released then d
  else (d.onCkr fun c => { c with cdcTmo := satAdd 16 c.cdcTmo 1 }).detect { rec0 Code.cdcTimeout with unit := 5, aux := crossing.toNat }

/-! ## The loupe counter (R366) -/

def Ckr.msel (c : Ckr) : Nat := fld c.loupeSel.toNat 15 12
def Ckr.rsel (c : Ckr) : Nat := fld c.loupeSel.toNat 11 8
def Ckr.lport (c : Ckr) : Nat := fld c.loupeSel.toNat 7 0
/-- Whether a clock of R366 has edges. -/
def Dev.clockRuns (d : Dev) (sel : Nat) : Bool :=
  match sel with
  | 0 => d.ckr.pllLock
  | 7 => d.ckr.refOk
  | 8 => d.ckr.aonRun
  | 9 => d.ckr.pllLock && d.lnk.st != .beatlost
  | 10 => (d.port d.ckr.lport).st != 0
  | n => let m := d.ckr.doms.getD (n - 1) Reset.dom
         m.src != 2 && !m.gated
/-- The select and gate fields of a write. -/
def Ckr.loupeFields (c : Ckr) (v : W64) : Ckr :=
  { c with loupeSel := ((v >>> 40).setWidth 24) &&& 0xFFFF, loupeGate := v.setWidth 32 }
def Dev.loupeStart (d : Dev) (v : W64) : Dev :=
  if !v.getLsbD 63 then d
  else
    d.onCkr fun c =>
      let c := c.loupeFields v
      let bad := decide (10 < c.msel) || decide (10 < c.rsel) || ((c.msel == 10 || c.rsel == 10) && decide (23 < c.lport)) || c.loupeGate == 0
      { c with loupeDone := false, loupeErr := bad, loupeStart := !bad }
/-- The gate ends; it never does while the reference stands still. -/
def Dev.loupeEnd (d : Dev) (count : Nat) : Dev :=
  if d.ckr.loupeStart && d.clockRuns d.ckr.rsel then
    d.onCkr fun c => { c with loupeStart := false, loupeDone := true
                              loupeCount := if d.clockRuns c.msel then min count (2 ^ 40 - 1) else 0 }
  else d
def Dev.loupeAbort (d : Dev) (v : W64) : Dev :=
  if v.getLsbD 63 then d else d.onCkr fun c => { c.loupeFields v with loupeStart := false }

/-! ## Thermal (R439 to R442) -/

/-- A change of the duty D: leaving or reaching 16 is recorded and signalled. -/
def Dev.setDuty (d : Dev) (n : Nat) : Dev :=
  let old := d.therm.duty
  let d : Dev := { d with therm := { d.therm with duty := n } }
  if (old == 16) == (n == 16) then d
  else ((d.onPins fun p => { p with thermN := n == 16 }).detect (rec0 Code.thermalThrottle)).pfEvent 6
/-- One sample. While the boot ROM waits for the junctions to cool, only that is decided. -/
def Dev.thermal (d : Dev) (readings : List Int) : Dev :=
  if !d.pins.pwrGood then d
  else
    let d : Dev := { d with therm := { d.therm with sensors := readings } }
    let t := d.therm.maximum
    if d.ckr.booting then
      if t == d.therm.tthr - 100 then d else (d.onCkr fun c => { c with bootIn := { c.bootIn with presTmax := t.toNat } }).bootRom
    else
      let n := d.therm.duty
      let d := d.setDuty (if d.therm.tthr ≤ t then max (n - 1) 4 else if t ≤ d.therm.tthr - 30 && decide (n < 16) then n + 1 else n)
      let hot := if d.therm.tlim ≤ t then d.therm.hot + 1 else 0
      let d : Dev := { d with therm := { d.therm with hot := hot } }
      if hot == 2 then (d.onCkr fun c => { c with hotReset := true }).detect (rec0 Code.thermalLimit) else d
/-- A PLDM read of a numeric sensor, on the sideband or PF0, with its thresholds. -/
def Dev.pldm (d : Dev) (w : Wire) (sensor : Nat) : Dev :=
  if !d.spdmUp w || sensor == 0 || decide (12 < sensor) then d
  else
    let v : Int := if sensor == 12 then d.therm.duty else d.therm.sensors.getD (sensor - 1) 0
    let lim : Option Int × Option Int :=
      if sensor ≤ 4 then (some d.therm.tthr, some d.therm.tlim) else if sensor == 5 then (some 850, some 950) else (none, none)
    d.tell w (.pldm sensor v lim.1 lim.2)
/-- An MCTP control message. The sideband answers one on auxiliary power alone (R438), so whatever runs beside it: also in the hold
state and with the clocks stopped, where it answers no command (DEDUCED, log 138). -/
def Dev.mctp (d : Dev) (w : Wire) : Dev :=
  let up := match w with
    | .sideband => d.pins.aux
    | .pf0 => d.coresUp && d.host.answering
    | .ethernet => false
  if up then d.tell w (.mctp w) else d

/-! ## Device-fatal events of the package -/

def Dev.watchdog (d : Dev) : Dev := if d.coresUp then d.detect (rec0 Code.fwWatchdog) else d
def Dev.d2dDown (d : Dev) (die : Nat) : Dev :=
  if !d.released then d else d.detect { rec0 Code.d2dLinkDown with unit := 4, index := die }
def Dev.d2dRetry (d : Dev) : Dev := d.onErr fun e => { e with d2dRetry := satAdd 32 e.d2dRetry 1 }

/-! ## Meanings -/

def execFullResetNowExpiry (s : State) : Host.Outcome State Fault Refusal := s.onDev Dev.nowExpiry
def execPldmRequest (w : Wire) (sensor : Nat) (s : State) : Host.Outcome State Fault Refusal := s.onDev fun d => d.pldm w sensor
def execMctpControl (w : Wire) (s : State) : Host.Outcome State Fault Refusal := s.onDev fun d => d.mctp w
def execPowerOnAux (s : State) : Host.Outcome State Fault Refusal := s.onDev Dev.powerOnAux
def execAonStable (s : State) : Host.Outcome State Fault Refusal := s.onDev Dev.aonStable
def execPower48vApplied (s : State) : Host.Outcome State Fault Refusal := s.onDev Dev.power48v
def execPwrGood (s : State) : Host.Outcome State Fault Refusal := s.onDev Dev.setPwrGood
def execPowerFault (s : State) : Host.Outcome State Fault Refusal := s.onDev Dev.powerFault
def execPower48vRemoved (s : State) : Host.Outcome State Fault Refusal := s.onDev Dev.remove48v
def execAuxPowerRemoved (s : State) : Host.Outcome State Fault Refusal := s.onDev Dev.removeAux
def execPllLock (s : State) : Host.Outcome State Fault Refusal := s.onDev Dev.rootLock
def execRefclkLoss (s : State) : Host.Outcome State Fault Refusal := s.onDev Dev.refLost
def execRootLoss (s : State) : Host.Outcome State Fault Refusal := s.onDev Dev.rootLost
def execCrystalLoss (s : State) : Host.Outcome State Fault Refusal := s.onDev Dev.crystalLost
def execRefclkReturn (s : State) : Host.Outcome State Fault Refusal := s.onDev Dev.refBack
def execLoupeStart (value : W64) (s : State) : Host.Outcome State Fault Refusal := s.onDev fun d => d.pf0Write fun d => d.loupeStart value
def execLoupeDone (count : Nat) (s : State) : Host.Outcome State Fault Refusal := s.onDev fun d => d.loupeEnd count
def execLoupeAbort (value : W64) (s : State) : Host.Outcome State Fault Refusal := s.onDev fun d => d.pf0Write fun d => d.loupeAbort value
def execCdcTimeout (crossing : BitVec 32) (s : State) : Host.Outcome State Fault Refusal := s.onDev fun d => d.cdcTimeout crossing
def execResetNAssert (us : Nat) (s : State) : Host.Outcome State Fault Refusal := s.onDev fun d => d.resetAssert us
def execResetNRelease (b : BootIn) (s : State) : Host.Outcome State Fault Refusal := s.onDev fun d => d.resetRelease b
def execHostPerst (s : State) : Host.Outcome State Fault Refusal := s.onDev Dev.hostPerst
def execHostPerstRelease (s : State) : Host.Outcome State Fault Refusal := s.onDev Dev.perstRelease
def execPcieLinkDown (s : State) : Host.Outcome State Fault Refusal := s.onDev Dev.pcieDown
def execStackTrainingComplete (record : BitVec 384) (s : State) : Host.Outcome State Fault Refusal := s.onDev fun d => d.stacksTrained record
def execPhaseReady (ms : Nat) (s : State) : Host.Outcome State Fault Refusal := s.onDev fun d => d.phaseReady ms
def execThermalSample (readings : List Int) (s : State) : Host.Outcome State Fault Refusal := s.onDev fun d => d.thermal readings
def execFwWatchdog (_quinad : Bool) (s : State) : Host.Outcome State Fault Refusal := s.onDev Dev.watchdog
def execD2dLinkDown (die : Fin 20) (s : State) : Host.Outcome State Fault Refusal := s.onDev fun d => d.d2dDown die.val
def execD2dCrcRetry (s : State) : Host.Outcome State Fault Refusal := s.onDev Dev.d2dRetry
def execCkrLock (s : State) : Host.Outcome State Fault Refusal :=
  s.onDev fun d => d.pf0Write fun d => d.onCkr fun c => { c with lock := true }
def execGlbLock (s : State) : Host.Outcome State Fault Refusal :=
  s.onDev fun d => d.pf0Write fun d => d.onHost fun h => { h with lock := true }

end Sys2Proof.Machine
end

