-- ==== Sys2Proof/Machine/Coll.lean ====
section
/-! DEFINITION. Collective operations (11): their checks at issue, what each flow carries, reductions in canonical order, the
gather cache with its version records, layout epochs, and their completion. -/

namespace Sys2Proof.Machine

/-! ## Fields and records (R292, R300) -/

def collSched (w : Nat) : Nat := byt w 3 2
def collRel (w : Nat) : Bool := bit (byt w 15 15) 0
/-- The codes whose record holds the TID (Table 15-3). -/
def codeHasTid (c : Nat) : Bool := c == Code.peerLate || c == Code.collNosched || c == Code.collCover || c == Code.epochOrder
/-- Stops a partition for a COLL operation of a transfer. -/
def Dev.peColl (d : Dev) (code p q pc tid : Nat) : Dev :=
  let r := { recS code p q with aux := if codeHasTid code then tid else 0 }
  if (d.part p).st == .faulted then d.detect r else (d.detect r).onSeq p q fun s => { s with pc := pc }
/-- Whether a kind reduces: ALLREDUCE or REDSCAT. -/
def reduces (k : Nat) : Bool := k == 1 || k == 2
/-- Slots that a kind names: DSRC and DDST (Table 11-8). -/
def collSlots (k : Nat) (root : Bool) : Bool × Bool := if k == 6 then (false, false) else if k == 4 then (root, !root) else (true, true)
/-- R300 at issue. -/
def Part.epochOk (P : Part) (k : Nat) (t : Transfer) : Bool :=
  if reduces k then t.epoch == P.epoch.toNat && !P.drained
  else if k == 5 then t.epoch == (P.epoch + 1).toNat && P.drained
  else true
/-- The bytes of an area that PERMUTE moves: the descriptor's span, and whole records for a tensor of master weights. -/
def Geo.area (g : Geo) : Nat × Nat :=
  let n := (g.span.2 - g.span.1).toNat
  (g.span.1.toNat, if g.d.fmt == 1 then n + 10 else n)
/-- A target of a bit copy: nothing is converted, so of CONV only where its scales lie matters (R42; R294). -/
def Desc.copied (x : Desc) : Desc := { x with conv := fld x.conv 4 0 + 64 * fld x.conv 8 6 }
/-- The checks of a COLL operation at issue. -/
def Dev.collPlan (d : Dev) (p q k w : Nat) : Chk Plan := do
  let P := d.part p
  let ix := (loopIndex (P.seq q).stack).getD 0
  need (decide (byt w 15 15 < 8) && sdstOk (sdstOf w)) Code.opInvalid
  match d.lnk.active with
  | none => reject Code.collNosched
  | some s =>
    match s.trans.find? fun t => t.tid == collSched w with
    | none => reject Code.collNosched
    | some t => do
      let (src, dst) := collSlots k (t.rank == 0)
      need (t.ckind == k && t.part == p && (slotAt w 4 != 0xFFFF) == src && (slotAt w 6 != 0xFFFF) == dst) Code.opInvalid
      need (P.epochOk k t) Code.epochOrder
      let cache := k == 3 && bit (byt w 15 15) 1
      let check := k == 3 && bit (byt w 15 15) 2
      let a ← if src then (do
          let x ← d.descFor p q (slotAt w 4) false false
          let g : Geo := ⟨x, ix⟩
          need (!reduces k || (if t.rankMode then x.fmt == 0 else d.spanOk p q x.space (x.addr, ((x.addr + 128 + g.nodeBytes : Nat) : Int)))) Code.descInvalid
          pure [(1, x)]) else pure []
      let out (i : Nat) : Chk Desc := do
          let x ← d.descFor p q i true false
          need (x.smode != 1 && x.smode != 2) Code.descInvalid
          pure x
      let b ← if dst then (do
          let x ← out (slotAt w 6)
          pure [(0, if reduces k then x else x.copied)]) else pure []
      let v ← if cache || check then (do
          let x ← out (slotAt w 6 + 1)
          pure [(2, x.copied)]) else pure []
      let l := (a ++ b ++ v).foldl (fun l x => Tab.put l x.1 x.2) ([] : List (Nat × Desc))
      let geo (i : Nat) : Geo := geoIn l ix i
      need (k != 5 || (geo 0).d.space != (geo 1).d.space ||
        !(decide ((geo 0).area.1 < (geo 1).area.1 + (geo 1).area.2) && decide ((geo 1).area.1 < (geo 0).area.1 + (geo 0).area.2))) Code.descInvalid
      let anchor := if collRel w then (d.beat + byt w 14 9) % 2 ^ 48 else byt w 14 9
      pure ⟨.coll, l, (b ++ v).map (·.1),
        some ⟨t.tid, k, s.actBeat, anchor, cache, check, t, s.flows.filter (fun f => f.tid == t.tid), [], [], 0, none⟩⟩
/-- Issues a COLL operation. -/
def Dev.collRow (d : Dev) (p q k : Nat) : Dev :=
  d.onRow p q (.coll k) fun d w =>
    d.checked ((d.collPlan p q k w).on d) (fun e c => e.peColl c p q (e.seq p q).pc (collSched w)) fun e x => e.issue p q w x

/-! ## What flows carry -/

/-- Bytes with their poison. -/
abbrev Flow := List (Byte × Bool)
def plainFlow (l : List Byte) : Flow := l.map fun b => (b, false)
/-- The cells of the flows to a device, which take the bytes one flow after the other. -/
def cellsFor : List FlowEnt → Flow → List FlowCell
  | [], _ => []
  | f :: fs, l =>
    (List.range f.ncell).map (fun i =>
      let c := (l.drop (512 * i)).take 512
      ⟨f.flow, i, fit 512 (c.map (·.1)), c.any (·.2)⟩) ++ cellsFor fs (l.drop (512 * f.ncell))
/-- The other member devices that an operation receives from, and those that it sends to. -/
def Dev.peersIn (d : Dev) (c : CollRun) : List Nat := ((c.flows.filter fun f => f.dst == d.lnk.devid.toNat).map (·.src)).eraseDups
def Dev.peersOut (d : Dev) (c : CollRun) : List Nat := ((c.flows.filter fun f => f.src == d.lnk.devid.toNat).map (·.dst)).eraseDups
/-- The cells of an operation, where each device is sent `f` of it. -/
def Dev.cellsOut (d : Dev) (c : CollRun) (f : Nat → Flow) : List FlowCell :=
  (d.peersOut c).flatMap fun x => cellsFor (c.flows.filter fun e => e.src == d.lnk.devid.toNat && e.dst == x) (f x)
/-- The bytes received by one flow. -/
def CollRun.flowBytes (c : CollRun) (f : FlowEnt) : Flow :=
  (List.range f.ncell).flatMap fun i => match c.got.find? fun y => y.flow == f.flow && y.seq == i with
    | some y => (fit 512 y.payload).map fun b => (b, y.bad)
    | none => []
/-- The bytes received from a device. -/
def Dev.received (d : Dev) (c : CollRun) (src : Nat) : Flow :=
  (c.flows.filter fun f => f.dst == d.lnk.devid.toNat && f.src == src).flatMap c.flowBytes
/-- Whether every cell that an operation expects has been received (R293). -/
def Dev.allReceived (d : Dev) (c : CollRun) : Bool :=
  c.flows.all fun f => f.dst != d.lnk.devid.toNat || (List.range f.ncell).all fun i => c.got.any fun y => y.flow == f.flow && y.seq == i
/-- Bytes cut to n; what the flows do not bring is free. -/
def Dev.fitFree (d : Dev) (n : Nat) (l : Flow) : Flow :=
  l.take n ++ (List.range (n - l.length)).map fun i => (BitVec.ofNat 8 (Config.freeNat (d.fresh + i)), false)

/-! ## Tensors as bytes, for the kinds that copy bits -/

/-- The scale groups of a list of stored indices, ascending. -/
def Geo.groupsOf (g : Geo) (ixs : List (List Nat)) : List Nat :=
  if g.d.smode == 0 then [] else ((ixs.map g.group).foldl (fun t k => Tab.put t k ()) []).map (·.1)
def Geo.part (g : Geo) (lo n : Nat) : List (List Nat) := (g.indices.drop lo).take n
/-- Bytes of the packed elements of n elements, and of these with the scales of elements lo and up. -/
def Geo.packed (g : Geo) (n : Nat) : Nat := cdiv (n * fmtWidth g.d.fmt) 8
def Geo.imageLen (g : Geo) (lo n : Nat) : Nat := g.packed n + ((g.groupsOf (g.part lo n)).map fun k => (g.scaleAt k).2).sum
/-- Elements lo to lo + n - 1 of a tensor as bytes: their codes in logical order, packed, then the scales of their groups. -/
def Dev.imageOf (d : Dev) (p : Nat) (g : Geo) (lo n : Nat) : Flow :=
  let w := fmtWidth g.d.fmt
  let ixs := g.part lo n
  let cs := (ixs.map fun si => d.codeAt p g.d.space (g.bitAt si) w).zipIdx
  let v := cs.foldl (fun a x => a + x.1.1 * 2 ^ (w * x.2)) 0
  let bad (k : Nat) : Bool := cs.any fun x => x.1.2 && decide (w * x.2 < 8 * k + 8) && decide (8 * k < w * x.2 + w)
  ((natLe (g.packed ixs.length) v).zipIdx.map fun b => (b.1, bad b.2)) ++
  (g.groupsOf ixs).flatMap fun k =>
    let s := d.scaleCode p g k
    (natLe (g.scaleAt k).2 s.1).map fun b => (b, s.2)
/-- A sink whose bytes at some addresses carry poison. -/
def Dev.sinkBad (d : Dev) (p space : Nat) (t : Tab (Nat × Nat)) (bad : List Nat) : Sink :=
  let s := d.sinkTab p space t
  { s with bytes := (s.bytes.zip t).map fun x => if bad.contains x.2.1 then { x.1 with bad := true } else x.1 }
/-- Writes such bytes over elements lo to lo + n - 1 of a tensor. -/
def Dev.sinkImage (d : Dev) (p : Nat) (g : Geo) (lo n : Nat) (l : Flow) : Sink :=
  let w := fmtWidth g.d.fmt
  let ixs := g.part lo n
  let v := leNat (l.map (·.1))
  let poisoned (b m : Nat) : Bool := ((l.drop (b / 8)).take ((b + m + 7) / 8 - b / 8)).any (·.2)
  let el := ixs.zipIdx.map fun x => (g.bitAt x.1, w, (v >>> (w * x.2)) % 2 ^ w, poisoned (w * x.2) w)
  let gs := (g.groupsOf ixs).foldl (fun (s : Nat × List (Int × Nat × Nat × Bool)) k =>
    let (a, m) := g.scaleAt k
    (s.1 + m, s.2 ++ [(8 * (a : Int), 8 * m, (v >>> (8 * s.1)) % 2 ^ (8 * m), poisoned (8 * s.1) (8 * m))])) (g.packed ixs.length, [])
  let all := el ++ gs.2
  let t := all.foldl (fun t x => addBits t x.1 x.2.1 x.2.2.1) []
  d.sinkBad p g.d.space t ((all.filter fun x => x.2.2.2).flatMap fun x => (bytesOfBits x.1 x.2.1).map Int.toNat)
/-- The bytes of an area from an offset, and the sink that writes bytes there. -/
def Dev.areaBytes (d : Dev) (p : Nat) (g : Geo) (off n : Nat) : Flow :=
  (List.range (min n (g.area.2 - off))).map fun i =>
    let c := d.codeAt p g.d.space (8 * ((g.area.1 + off + i : Nat) : Int)) 8
    (BitVec.ofNat 8 c.1, c.2)
def Dev.sinkArea (d : Dev) (p : Nat) (g : Geo) (off : Nat) (l : Flow) : Sink :=
  let l := l.take (g.area.2 - off)
  d.sinkBad p g.d.space (l.zipIdx.map fun x => (g.area.1 + off + x.2, x.1.1.toNat, 255))
    (l.zipIdx.filterMap fun x => if x.1.2 then some (g.area.1 + off + x.2) else none)

/-! ## Node areas and their records (R295, R296) -/

/-- Bytes of a space that an operation has already read, as they stand. -/
def Dev.bytesIn (d : Dev) (p space a n : Nat) : List Byte :=
  (readRun space a n).flat.map fun r => match d.locate p (d.sees p) r.1 r.2 with
    | some l => d.byteAt l
    | none => 0
/-- A node: its first span and height, the first element of its range, and its values. -/
structure Node where
  a : Nat
  h : Nat
  e0 : Nat
  vals : List Val
  deriving DecidableEq, Repr
/-- Node i of a node area header: first span and height. -/
def nodeEntry (h : List Byte) (i : Nat) : Nat × Nat := let n := num h (4 + 4 * i) 4; (fld n 15 0, fld n 20 16)
def nodeEntries (h : List Byte) : List (Nat × Nat) := (List.range (min (num h 0 2) 31)).map (nodeEntry h)
/-- The geometry of node i of an area. -/
def Geo.node (g : Geo) (i : Nat) : Geo := g.at' (g.d.addr + 128 + i * g.nodeBytes)
/-- The nodes of an area whose header is h. -/
def Dev.nodesAt (d : Dev) (p : Nat) (g : Geo) (h : List Byte) : List Node :=
  (nodeEntries h).zipIdx.map fun x => ⟨x.1.1, x.1.2, 0, (d.values p (g.node x.2)).map (·.v)⟩
/-- The part of a node in elements lo to lo + n - 1. -/
def Node.cut (x : Node) (lo n : Nat) : Option Node :=
  let s := max x.e0 lo
  let t := min (x.e0 + x.vals.length) (lo + n)
  if s < t then some ⟨x.a, x.h, s, (x.vals.drop (s - x.e0)).take (t - s)⟩ else none
def cutNodes (l : List Node) (lo n : Nat) : List Node := l.filterMap fun x => x.cut lo n
def f32Bytes (l : List Val) : List Byte := l.flatMap fun v => natLe 4 v.to32.toNat
/-- A node on the wire. -/
def Node.wire (x : Node) (total epoch : Nat) : List Byte :=
  fit 64 (natLe 2 x.a ++ natLe 1 x.h ++ [0] ++ natLe 2 total ++ natLe 2 epoch ++ natLe 8 x.e0 ++ natLe 8 x.vals.length) ++
  fit (roundUp (4 * x.vals.length) 64) (f32Bytes x.vals)
/-- n F32 values from the head of received bytes; a poisoned one is NaN. -/
def takeVals (l : Flow) (n : Nat) : List Val :=
  (List.range n).map fun i =>
    let c := (l.drop (4 * i)).take 4
    if c.any (·.2) then .nan false else .of32 (BitVec.ofNat 32 (leNat (c.map (·.1))))
/-- A record as received: its node, GNSPAN and EPOCH. -/
structure NodeRec where
  node : Node
  total : Nat
  epoch : Nat
/-- The records of received bytes, with fuel for their number; none where a poisoned byte lies in a record's header. A header
that counts no element ends them. -/
def parseNodes : Nat → Flow → Option (List NodeRec)
  | 0, _ => some []
  | k + 1, l =>
    let hd := l.take 64
    let h := hd.map (·.1)
    let n := num h 16 8
    if hd.any (·.2) then none
    else if hd.length < 64 || n == 0 then some []
    else (parseNodes k (l.drop (64 + roundUp (4 * n) 64))).map fun t =>
      ⟨⟨num h 0 2, num h 2 1, num h 8 8, takeVals (l.drop 64) n⟩, num h 4 2, num h 6 2⟩ :: t
/-- Whether nodes over one element range tile spans 0 to total - 1. -/
def spansTile (total : Nat) : Nat → Nat → List Node → Bool
  | 0, _, _ => false
  | k + 1, lo, l =>
    if total ≤ lo then l.isEmpty
    else match l.filter fun x => x.a == lo with
      | [x] => lo % 2 ^ x.h == 0 && spansTile total k (lo + 2 ^ x.h) (l.filter fun y => y.a != lo)
      | _ => false
/-- Whether element ranges, ascending, tile lo to hi - 1. -/
def rangesTile (hi : Nat) : Nat → List (Nat × Nat) → Bool
  | lo, [] => lo == hi
  | lo, (a, n) :: t => a == lo && rangesTile hi (lo + n) t
def nodeRanges (l : List Node) : List (Nat × Nat) :=
  (l.foldl (fun t x => Tab.put t x.e0 x.vals.length) ([] : Tab Nat))
def Node.inRange (x : Node) (r : Nat × Nat) : Bool := x.e0 == r.1 && x.vals.length == r.2
/-- R296 for elements lo to lo + n - 1: every element is covered once, and children of a parent cover equal ranges. -/
def covers (total lo n : Nat) (l : List Node) : Bool :=
  let rs := nodeRanges l
  rangesTile (lo + n) lo rs && (l.all fun x => rs.any x.inRange) &&
  rs.all fun r => spansTile total (total + 1) 0 (l.filter fun x => x.inRange r)
/-- The root over spans lo to lo + n - 1, with fuel for its height: each parent is formed once, left child first (R78, R81). -/
def combine : Nat → Nat → Nat → List (Nat × Fl) → Fl
  | 0, _, _, _ => .zero
  | k + 1, lo, n, l =>
    match l with
    | [] => .zero
    | [x] => x.2
    | _ =>
      let m := 2 ^ (n - 1).log2
      .add (combine k lo m (l.filter fun x => x.1 < lo + m)) (combine k (lo + m) (n - m) (l.filter fun x => lo + m ≤ x.1))
/-- The roots of elements lo to lo + n - 1. -/
def roots (total lo n : Nat) (l : List Node) : List Fl :=
  (List.range n).map fun i =>
    let e := lo + i
    combine 20 0 total ((l.filter fun x => decide (x.e0 ≤ e) && decide (e < x.e0 + x.vals.length)).map fun x => (x.a, .of (x.vals.getD (e - x.e0) .zero)))
/-- GNSPAN of the node area that a descriptor names, as its TENSOR operation gave it; a free value where none wrote it. -/
def Dev.gnspan (d : Dev) (p : Nat) (x : Desc) : Nat :=
  (Tab.get? (d.part p).gnspans (x.addr + x.space * 2 ^ 48)).getD (Config.freeNat d.fresh % 65536)
/-- A TENSOR operation that completed has written node areas: their GNSPAN is kept. -/
def Dev.noteSpans (d : Dev) (p : Nat) (f : Flight) : Dev :=
  if !(f.kind.isTensor && tensorSplit f.w) then d
  else
    let note (t : Tab Nat) (k : Nat) : Tab Nat := match Tab.get? f.descs k with
      | some x => Tab.put t (x.addr + x.space * 2 ^ 48) (byt f.w 15 14)
      | none => t
    d.onPart p fun P => { P with gnspans := f.slots.foldl note P.gnspans }

/-! ## Starting (R293) -/

/-- The slice of the result that another member takes: all of n elements, or its own. -/
def CollRun.sliceFor (c : CollRun) (n dst : Nat) : Nat × Nat := if c.ckind == 2 then Config.peerSlice c.tid dst else (0, n)
/-- The version record of a shard that this device owns and begins to send at an UPD_STEP (R298). -/
def Dev.versionRecord (d : Dev) (p step : Nat) (shard : Flow) : List Byte :=
  fit 64 (natLe 4 step ++ natLe 2 d.lnk.devid.toNat ++ natLe 2 (d.part p).epoch.toNat ++ [1] ++ List.replicate 7 0 ++
    natLe 8 (Config.crc64 (shard.map (·.1))).toNat)
/-- Whether version records travel with shards. -/
def CollRun.versioned (c : CollRun) : Bool := c.cache || c.check
/-- A shard of n elements on the wire, with its record where the operation keeps records. -/
def Dev.shardWire (d : Dev) (p step : Nat) (c : CollRun) (g : Geo) : Flow :=
  let l := d.imageOf p g 0 g.size
  if c.versioned then l ++ plainFlow (List.replicate (roundUp l.length 64 - l.length) 0) ++ plainFlow (d.versionRecord p step l) else l
/-- Takes from a port each cell that waits for the operation and that it has not got yet; they give their credits back. -/
def CollRun.takeFrom (c : CollRun) (x : CollRun × Dev) (l : Nat) : CollRun × Dev :=
  (x.2.port l).waiting.foldl (fun x w =>
    if (c.flows.any fun f => f.flow == w.cell.flow) && !x.1.has w.cell then
      ({ x.1 with got := x.1.got ++ [w.cell] }, x.2.onPort l fun s => s.unbuffer w)
    else x) x
/-- Cells that waited for the operation at the ports (R287), and the state without them. Before its anchor it takes none (R293), and none
once its table is no longer in force (R289). -/
def Dev.takeWaiting (d : Dev) (c : CollRun) : List FlowCell × Dev :=
  if !reached d.beat c.anchor || !d.inForce c then ([], d)
  else
    let (c, d) := (d.lnk.ports.map (·.1)).foldl c.takeFrom ({ c with got := [] }, d)
    (c.got, d)
/-- The operation runs, with the UPD_STEP of its start until its send begins (R298): its cells are made ready, and those that waited are
delivered. -/
def Dev.collRuns (d : Dev) (p : Nat) (f : Flight) (c : CollRun) (stamp : Option Nat) (send : Nat → Flow) : Start :=
  let (w, d) := d.takeWaiting c
  .run d { f with started := true, imm := (d.part p).upd.step, coll := some { c with toSend := d.cellsOut c send, got := w, stamp := stamp } }
/-- Whether a reduction of the partition that a test picks is still in flight, for DRAIN (R300). Its epoch is CUR, as R300 demands at
issue. -/
def Part.reducing (P : Part) (old : Flight → Bool) : Bool :=
  P.flights.any fun x => old x.2 && match x.2.coll with
    | some c => reduces c.ckind
    | none => false
/-- The shards that a PERMUTE moves at this device: by its flows, and its own moves. -/
def Dev.movedShards (d : Dev) (c : CollRun) : List Nat :=
  ((c.flows.filter fun e => e.src == d.lnk.devid.toNat || e.dst == d.lnk.devid.toNat).map (·.flow)) ++
  (List.range (Config.ownMoves c.tid).length).map (65536 + ·)
/-- From its start on, both layouts own what a PERMUTE moves (R301). -/
def Dev.moveShards (d : Dev) (p : Nat) (c : CollRun) : Dev :=
  let e := (d.part p).epoch
  d.onPart p fun P => { P with shards := (d.movedShards c).foldl (fun t k => Tab.put t k [e.toNat, (e + 1).toNat]) P.shards }
/-- Starts a COLL operation; in HOLD and BEATLOST none starts (R303). -/
def Dev.startColl (d : Dev) (p : Nat) (f : Flight) (gl : List Glitch) : Start :=
  match f.coll with
  | none => .wait d
  | some c =>
    if d.lnk.frozen then .wait d
    else if c.ckind == 6 then (if (d.part p).reducing fun x => decide (x.no < f.no) then .wait d else d.collRuns p f c none fun _ => [])
    else match f.geo 1 with
      | none => d.collRuns p f c none fun _ => []
      | some g =>
        if reduces c.ckind && !c.trans.rankMode then
          match (chkRead p g.d.space g.d.addr 128).on d with
          | (.error e, d) => stopWith e d
          | (.ok h, d) =>
            if num h 2 2 != c.trans.epoch then .stop d Code.epochOrder
            else match d.gather p gl ((List.range (nodeEntries h).length).flatMap fun i => (g.node i).reads) with
              | .wait d => .wait d
              | .stop d e => .stop d e
              | .ok d =>
                let ns := d.nodesAt p g h
                let total := d.gnspan p g.d
                d.collRuns p f c none fun dst =>
                  let (lo, n) := c.sliceFor g.size dst
                  plainFlow ((cutNodes ns lo n).flatMap fun x => x.wire total c.trans.epoch)
        else
          let rs : Reads := if c.ckind == 5 then (List.range g.area.2).map fun i => (g.d.space, [g.area.1 + i]) else g.reads
          match d.gather p gl rs with
          | .wait d => .wait d
          | .stop d e => .stop d e
          | .ok d =>
            if reduces c.ckind then
              let vs := (d.values p g).map (·.v)
              d.collRuns p f c none fun dst =>
                let (lo, n) := c.sliceFor g.size dst
                plainFlow (f32Bytes ((vs.drop lo).take n))
            else if c.ckind == 5 then
              let (w, d) := (d.moveShards p c).takeWaiting c
              let out := c.flows.filter fun e => e.src == d.lnk.devid.toNat
              let send := out.flatMap fun e => cellsFor [e] (d.areaBytes p g (Config.flowFrom e.flow) (512 * e.ncell))
              .run d { f with started := true, coll := some { c with toSend := send, got := w } }
            else
              let l := if c.ckind == 3 then d.shardWire p (d.part p).upd.step.toNat c g else d.imageOf p g 0 g.size
              d.collRuns p f c (if c.ckind == 3 && c.versioned then some (l.length - 64) else none) fun _ => l

/-! ## Completing (R294 to R301) -/

/-- What completing comes to. -/
structure CollEnd where
  sink : Sink
  health : List HcAdd
  stale : Bool
def CollRun.poisoned (c : CollRun) : Bool := c.got.any (·.bad)
/-- The results of a reduction, converted into DDST (R294, R50). -/
def Dev.reduceEnd (d : Dev) (p q : Nat) (f : Flight) (g : Geo) (vs : List Fl) : CollEnd :=
  let e := d.emitTo p q f g (f.srBase.getD 0 0) (elemsOf vs)
  ⟨e.sink, e.health, false⟩
/-- The first element of the result that this device writes. -/
def CollRun.first (c : CollRun) : Nat := if c.ckind == 2 then c.trans.slice0 else 0
/-- A reduction in NODE mode (R296). Its header was read and checked at its start. -/
def Dev.nodeEnd (d : Dev) (p q : Nat) (f : Flight) (c : CollRun) (src dst : Geo) : Chk CollEnd :=
  let h := d.bytesIn p src.d.space src.d.addr 128
  match ((d.peersIn c).map fun x => let l := d.received c x; parseNodes (l.length / 64 + 1) l).foldr (fun a b => match a, b with
      | some x, some y => some (x ++ y)
      | _, _ => none) (some []) with
  | none => reject Code.parityCtrl
  | some rs => do
    let total := d.gnspan p src.d
    let l := cutNodes (d.nodesAt p src h ++ rs.map (·.node)) c.first dst.size
    need (rs.all fun r => r.epoch == c.trans.epoch) Code.epochOrder
    need ((rs.all fun r => r.total == total) && covers total c.first dst.size l) Code.collCover
    pure (d.reduceEnd p q f dst (roots total c.first dst.size l))
/-- Takes n free values. -/
def Dev.skip (d : Dev) (n : Nat) : Dev := { d with fresh := d.fresh + n }
/-- A reduction in RANK mode: the contributions are the leaves, in rank order (R297). -/
def Dev.rankEnd (d : Dev) (p q : Nat) (f : Flight) (c : CollRun) (src dst : Geo) : Chk CollEnd := do
  let n := dst.size
  let own := ((d.values p src).drop c.first).take n |>.map (·.v)
  let leaf (j : Nat) : List Val :=
    if j == c.trans.rank then own
    else takeVals (d.fitFree (4 * n) (match (d.peersIn c).find? fun x => Config.peerRank c.tid x == j with
      | some x => d.received c x
      | none => [])) n
  let ls := (List.range c.trans.nmemb).map leaf
  set (d.skip (4 * n))
  pure (d.reduceEnd p q f dst ((List.range n).map fun i => (treeOf Fl.add (ls.map fun l => .of (l.getD i .zero))).getD .zero))
/-- A record of the gather cache's CEs: owner and TID (Table 15-3). -/
def recGather (code p owner tid : Nat) : ErrRec := { recP code p with aux := owner + tid * 2 ^ 16 }
/-- What one arriving shard does: its data, and its version record (R298, R299). With CHECK the record that stands there is read first. -/
def shardEnd (p : Nat) (c : CollRun) (dst : Geo) (recs : Option Geo) (own : Bool) (rank lo n : Nat) (l : Flow) : Chk CollEnd := do
  let d ← get
  let m := dst.imageLen lo n
  let shard := d.fitFree m l
  match recs with
  | none =>
    set (d.skip m)
    pure ⟨d.sinkImage p dst lo n shard, [], false⟩
  | some g =>
    let r := (d.fitFree (roundUp m 64 + 64) l).drop (roundUp m 64)
    let v := r.map (·.1)
    let owner := num v 4 2
    let a := g.d.addr + 64 * rank
    set (d.skip (m + 128))
    need (!r.any (·.2)) Code.parityCtrl
    let old ← if c.check && !own then chkRead p g.d.space a 64 else pure []
    let crc := num v 16 8
    let valid := bit (num old 8 1) 0
    let stale := valid && num old 0 4 != num v 0 4
    let bad := Config.crc64 (shard.map (·.1)) != BitVec.ofNat 64 crc || (valid && !stale && num old 16 8 != crc)
    let d ← get
    let d := if bad then d.detect (recGather Code.gatherBad p owner c.tid) else d
    let d := if stale then d.detect (recGather Code.shardStale p owner c.tid) else d
    set d
    let data := d.sinkImage p dst lo n (if bad then shard.map fun b => (b.1, true) else shard)
    let keep := if stale then Sink.empty else d.sinkBytes p g.d.space a v
    pure ⟨data.append keep, [], stale⟩
/-- A shard that ALLGATHER takes: whether it is the device's own, its rank, its first element, its elements, and its bytes. -/
structure Shard' where
  own : Bool
  rank : Nat
  lo : Nat
  n : Nat
  bytes : Flow
/-- What a list of shards does. -/
def shardsEnd (p : Nat) (c : CollRun) (dst : Geo) (recs : Option Geo) : List Shard' → Chk CollEnd
  | [] => pure ⟨.empty, [], false⟩
  | x :: xs => do
    let a ← shardEnd p c dst recs x.own x.rank x.lo x.n x.bytes
    let b ← shardsEnd p c dst recs xs
    pure ⟨a.sink.append b.sink, [], a.stale || b.stale⟩
/-- ALLGATHER: the own shard and every shard received. -/
def Dev.gatherEnd (d : Dev) (p step : Nat) (c : CollRun) (src dst : Geo) (recs : Option Geo) : Chk CollEnd :=
  shardsEnd p c dst recs (⟨true, c.trans.rank, c.trans.slice0, c.trans.slicen, d.shardWire p step c src⟩ ::
    (d.peersIn c).map fun x => ⟨false, Config.peerRank c.tid x, (Config.peerSlice c.tid x).1, (Config.peerSlice c.tid x).2, d.received c x⟩)
/-- PERMUTE: the pieces that stay and those received. -/
def Dev.permuteEnd (d : Dev) (p : Nat) (c : CollRun) (src dst : Geo) : Sink :=
  let own := (Config.ownMoves c.tid).foldl (fun s m => s.append (d.sinkArea p dst m.2.1 (d.areaBytes p src m.1 m.2.2))) Sink.empty
  (c.flows.filter fun f => f.dst == d.lnk.devid.toNat).foldl (fun s f => s.append (d.sinkArea p dst (Config.flowTo f.flow) (c.flowBytes f))) own
/-- What a COLL operation whose cells have all moved writes. ALLGATHER, BCAST and PERMUTE copy bits and convert nothing, so they count
in no set (DESIGN CHOICE, log 120). -/
def Dev.collEnd (d : Dev) (p q : Nat) (f : Flight) (c : CollRun) : Chk CollEnd :=
  match c.ckind, f.geo 1, f.geo 0 with
  | 1, some s, some t => if c.trans.rankMode then d.rankEnd p q f c s t else d.nodeEnd p q f c s t
  | 2, some s, some t => if c.trans.rankMode then d.rankEnd p q f c s t else d.nodeEnd p q f c s t
  | 3, some s, some t => d.gatherEnd p f.imm.toNat c s t (f.geo 2)
  | 4, none, some t => do
    let m := t.imageLen 0 t.size
    set (d.skip m)
    pure ⟨d.sinkImage p t 0 t.size (d.fitFree m ((d.peersIn c).flatMap (d.received c))), [], false⟩
  | 5, some s, some t => pure ⟨d.permuteEnd p c s t, [], false⟩
  | _, _, _ => pure ⟨.empty, [], false⟩
/-- What the completion of DRAIN and PERMUTE does to the layout epoch (R300, R301). -/
def Part.epochAfter (P : Part) (q k : Nat) : Part :=
  if k == 6 then { P with drained := true }
  else if k == 5 then { P with drained := false, epoch := P.epoch + 1, permuting := some q }
  else P
/-- PEER_LATE: a receive is incomplete at anchor + LEN + 64 beats, and the beats spent held. -/
def Dev.peerLate (d : Dev) (p q ix : Nat) : Dev :=
  match (d.seq p q).opAt ix with
  | none => d
  | some f => match f.coll with
    | none => d
    | some c =>
      if d.running p && !d.allReceived c && reached d.beat ((c.anchor + c.trans.len + 64 + c.extend) % 2 ^ 48) then
        d.peColl Code.peerLate p q f.pc c.tid
      else d
/-- A write of LNK_PORT_STAT CLRCNT. -/
def Dev.portClear (d : Dev) (l : Nat) : Dev :=
  (d.onPort l fun s => { s with beatErr := 0, schedErr := 0, crcErr := 0, fecCorr := 0 }).onLnk fun k => { k with edgeErr := 0, flywheel := 0 }

/-! ## Meanings -/

def execAllreduce (p : PIx) (q : Strm) (s : State) : Host.Outcome State Fault Refusal := s.onDev fun d => d.collRow p.val (strmIx q) 1
def execRedscat (p : PIx) (q : Strm) (s : State) : Host.Outcome State Fault Refusal := s.onDev fun d => d.collRow p.val (strmIx q) 2
def execAllgather (p : PIx) (q : Strm) (s : State) : Host.Outcome State Fault Refusal := s.onDev fun d => d.collRow p.val (strmIx q) 3
def execBcast (p : PIx) (q : Strm) (s : State) : Host.Outcome State Fault Refusal := s.onDev fun d => d.collRow p.val (strmIx q) 4
def execPermute (p : PIx) (q : Strm) (s : State) : Host.Outcome State Fault Refusal := s.onDev fun d => d.collRow p.val (strmIx q) 5
def execDrain (p : PIx) (q : Strm) (s : State) : Host.Outcome State Fault Refusal := s.onDev fun d => d.collRow p.val (strmIx q) 6
def execPeerLate (p : PIx) (q : Strm) (ix : Nat) (s : State) : Host.Outcome State Fault Refusal := s.onDev fun d => d.peerLate p.val (strmIx q) ix
def execPortClrcnt (l : LIx) (s : State) : Host.Outcome State Fault Refusal := s.onDev fun d => d.pf0Write fun d => d.portClear l.val

end Sys2Proof.Machine
end

