-- ==== Sys2Proof/Machine/Vector.lean ====
section
/-! DEFINITION. VEC operations of the vector engines (05): slots and fields of Table 05-2, shapes (R131, R132), the steps of
each VOP, soft-maximum (R141 to R144), normalisation (R145, R146), summaries (R138), and the counters of R148. -/

namespace Sys2Proof.Machine

/-! ## Fields (R128, R129, R137, R138) -/

/-- Which inputs a VOP takes and which VMOD bits it uses (Table 05-2). -/
structure VopUse where
  a : Bool
  b : Bool
  imm : Bool
  dst : Bool
  mods : Nat
/-- Table 05-2; `len` is LENMASK, which gives SMX its DSRC2. -/
def vopUse (v : Nat) (len : Bool) : VopUse :=
  let ew (a b i : Bool) : VopUse := ⟨a, b, i, true, 0xF00⟩
  if v == 0x02 then ew false false true
  else if v == 0x09 then ew true false true
  else if v == 0x0A then ew true true true
  else if (decide (3 ≤ v) && decide (v ≤ 8)) || v == 0x1C || v == 0x1D || v == 0x22 then ew true true false
  else if decide (0x28 ≤ v) && decide (v ≤ 0x2B) then ⟨true, false, false, false, 0⟩
  else if v == 0x30 then ⟨true, len, true, true, 0xF0E⟩
  else if v == 0x31 then ⟨true, true, true, true, 0xF04⟩
  else if v == 0x34 || v == 0x35 then ew true true true
  else if v == 0x36 || v == 0x37 then ew true true false
  else if decide (0x40 ≤ v) && decide (v ≤ 0x47) then ⟨false, false, false, false, 1⟩
  else ew true false false
/-- The rule that a VOP places on its IMM value (R109, R142, R144, R145). An ε of -0 is at +0 in the order of IEEE 754, and is taken
(DESIGN CHOICE, log 118). -/
def vopImmOk (v : Nat) (imm : Val) : Bool :=
  if v == 0x30 || v == 0x31 then imm.isFinite && Val.lt .zero imm
  else if v == 0x34 || v == 0x35 then imm.isFinite && Val.le .zero imm
  else true
def sumkOf (w : Nat) : Nat := fld (vmodOf w) 11 8
/-- SUMK and SDST of a VOP that writes a tensor (R138). -/
def sumkOk (v w : Nat) : Bool :=
  let k := sumkOf w
  decide (k < 8) && (k != 0) == sdstOn (sdstOf w) && (decide (k < 6) || v == 0x30 || v == 0x31)
/-- IMM and IMMREG where a VOP uses IMM: a register operand, or a value that meets `ok` (R104, R109). -/
def immForm (q w : Nat) (ok : Nat → Bool) : Bool :=
  if immReg w then decide (immOf w < 128) && regOk q (immOf w) else ok (immOf w)
def noImm (w : Nat) : Bool := immOf w == 0 && !immReg w
/-- Whether a slot holds an index just where it is used (R129). -/
def slotUse (w b : Nat) (used : Bool) : Bool := (slotAt w b != 0xFFFF) == used
/-- What every VEC word meets: VMOD bits of the VOP's own, reserved bits, SDST (R103, R104, R128). -/
def vecForm (w mods : Nat) : Bool :=
  byt w 11 11 == 0 && Nat.land (vmodOf w % 2 ^ 15) (2 ^ 15 - 1 - mods) == 0 && sdstOk (sdstOf w)
/-- The form of a VOP on the vector engines for stream q. -/
def vopForm (q v w : Nat) : Bool :=
  let u := vopUse v (bit (vmodOf w) 3)
  vecForm w u.mods && slotUse w 4 u.dst && slotUse w 6 u.a && slotUse w 8 u.b &&
  (if u.imm then immForm q w fun n => vopImmOk v (fmtF32.decode n) else noImm w) &&
  (if u.dst then sumkOk v w else sdstOn (sdstOf w))
/-- The form of a scalar VOP (R137). -/
def scalarForm (q v w : Nat) : Bool :=
  let simm := bit (vmodOf w) 0
  vecForm w 1 && slotAt w 4 == 0xFFFF && sdstOn (sdstOf w) && byt w 7 7 == 0 && byt w 9 9 == 0 && regOk q (byt w 6 6) &&
  (if simm then byt w 8 8 == 0 && immForm q w fun _ => true else noImm w) &&
  (if decide (0x46 ≤ v) then byt w 8 8 == 0 else simm || regOk q (byt w 8 8))

/-! ## Descriptors and shapes (R130 to R132) -/

/-- Sources of a VOP: (slot, descriptor index), and its targets; Table 05-3. Slots: 0 DDST, 1 DSRC1, 2 to 4 DSRC2 and the two
after it, 5 and 6 the two after DDST. -/
def vopSources (v w : Nat) : List (Nat × Nat) :=
  let u := vopUse v (bit (vmodOf w) 3)
  let b := slotAt w 8
  (if u.a then [(1, slotAt w 6)] else []) ++ (if u.b then [(2, b)] else []) ++
  (if v == 0x34 then [(3, b + 1)] else if v == 0x36 || v == 0x37 then [(3, b + 1), (4, b + 2)] else [])
def vopTargets (v w : Nat) : List (Nat × Nat) :=
  let t := slotAt w 4
  let u := vopUse v false
  (if u.dst then [(0, t)] else []) ++
  (if (v == 0x30 && bit (vmodOf w) 1) || (decide (0x34 ≤ v) && decide (v ≤ 0x37)) then [(5, t + 1)] else []) ++
  (if v == 0x36 then [(6, t + 2)] else [])
/-- Reads and checks a list of descriptors. -/
def Dev.vecDescs (d : Dev) (p q : Nat) (tgt : Bool) : List (Nat × Nat) → Chk (List (Nat × Desc))
  | [] => pure []
  | (k, i) :: ks => do
    let x ← d.descFor p q i tgt false
    let l ← d.vecDescs p q tgt ks
    pure (Tab.put l k x)
/-- Same logical lengths; a dimension that one lacks has length 1 there, for an update VOP too (R131, R153; DESIGN CHOICE, log 142). -/
def sameShape (a b : Geo) : Bool := (List.range 5).all fun j => a.len j == b.len j
/-- Lengths of a source that broadcasts to a destination (R131). -/
def broadcasts (s t : Geo) : Bool := (List.range 5).all fun j => s.len j == 1 || s.len j == t.len j
/-- A row vector of x: its dimension 0, and 1 elsewhere. -/
def rowVec (x v : Geo) : Bool := v.len 0 == x.len 0 && (List.range 5).all fun j => j == 0 || v.len j == 1
/-- One entry of n values for each row of x. -/
def perRow (n : Nat) (x v : Geo) : Bool := v.len 0 == n && (List.range 5).all fun j => j == 0 || v.len j == x.len j
/-- Shapes, formats and spaces of a VOP's operands (R130, R131, R146). RDOT's b has exactly a's shape: R131 gives it none (DESIGN CHOICE,
log 135). -/
def vopShapes (v : Nat) (g : Nat → Option Geo) : Bool :=
  let on (k : Nat) (f : Geo → Bool) : Bool := match g k with
    | some x => f x
    | none => true
  match g 1 with
  | none => true
  | some a =>
    if v < 0x20 then on 0 fun t => broadcasts a t && on 2 fun b => broadcasts b t
    else if v < 0x28 then (on 0 fun t => perRow 1 a t) && on 2 fun b => sameShape a b
    else if v < 0x30 then true
    else
      (on 0 fun t => sameShape a t) &&
      (if v == 0x30 then (on 2 fun l => perRow 1 a l && l.d.fmt == 13) && on 5 fun s => perRow 1 a s
       else if v == 0x31 then on 2 fun y => sameShape a y
       else if v == 0x34 then (on 2 fun c => rowVec a c) && (on 3 fun c => rowVec a c) && on 5 fun s => perRow 2 a s
       else if v == 0x35 then (on 2 fun c => rowVec a c) && on 5 fun s => perRow 1 a s
       else
         let bank (c : Geo) : Bool := rowVec a c && c.d.space == 2 && c.d.fmt == 0
         (on 2 fun x => sameShape a x) && (on 3 fun c => rowVec a c) && (on 4 fun s => perRow (if v == 0x36 then 2 else 1) a s) &&
         on 5 bank && on 6 bank)
/-- Whether two descriptors are identical in the sense of R132. -/
def identical (a b : Desc) : Bool :=
  a.space == b.space && a.addr == b.addr && a.fmt == b.fmt && a.ndim == b.ndim && a.lens == b.lens &&
  a.strides == b.strides && a.walk == b.walk
/-- Whether the byte spans of two geometries overlap. -/
def spansMeet (a b : Geo) : Bool := a.d.space == b.d.space && decide (a.span.1 < b.span.2) && decide (b.span.1 < a.span.2)
/-- R132. -/
def overlapOk (v : Nat) (srcs tgts : List (Nat × Geo)) : Bool :=
  tgts.all fun t => srcs.all fun s => !spansMeet s.2 t.2 || (decide (v < 0x20) && t.1 == 0 && s.1 == 1 && identical s.2.d t.2.d)
/-- The checks of a tensor VOP at issue. -/
def Dev.vopPlan (d : Dev) (p q v w : Nat) : Chk Plan := do
  let ix := (loopIndex ((d.part p).seq q).stack).getD 0
  need (vopForm q v w) Code.opInvalid
  let s ← d.vecDescs p q false (vopSources v w)
  let t ← d.vecDescs p q true (vopTargets v w)
  let geo (l : List (Nat × Desc)) : List (Nat × Geo) := l.map fun x => (x.1, ⟨x.2, ix⟩)
  let all := t.foldl (fun l x => Tab.put l x.1 x.2) s
  need (vopShapes v fun k => (Tab.get? all k).map fun x => ⟨x, ix⟩) Code.descInvalid
  need (overlapOk v (geo s) (geo t)) Code.descInvalid
  pure ⟨.vec, all, t.map (·.1), none⟩
/-- Issues a VOP on the vector engines. -/
def Dev.vopRow (d : Dev) (p q v : Nat) : Dev := d.engineRow p q (.vop v) fun d w => d.vopPlan p q v w
/-- Issues a scalar VOP. -/
def Dev.scalarRow (d : Dev) (p q v : Nat) : Dev :=
  d.engineRow p q (.vop v) fun _ w => do
    need (scalarForm q v w) Code.opInvalid
    pure ⟨.scalar, [], [], none⟩

/-! ## Element-wise steps (R127, R129, R139, R140) -/

/-- Rounds an operand into F32 as a step of its own. -/
def Fl.round (a : Fl) : Fl :=
  let r := a.v.r32.pos
  ⟨r, a.o || (r.isInf && a.v.isFinite)⟩
/-- s := RCP(1 + EXP(-a)). The negation is not rounded: it is no F32 step of its own, of which R140 says nothing (DESIGN CHOICE, log
135). -/
def sigmoid (a : Fl) : Fl := .rcp (.add .one (.exp (.neg a)))
/-- a > 0. -/
def positive (a : Fl) : Bool := Val.lt .zero a.v
/-- The result of an element-wise VOP other than COPY and FILL. -/
def ewStep (v : Nat) (imm a b : Fl) : Fl :=
  match v with
  | 0x03 => .add a b
  | 0x04 => .sub a b
  | 0x05 => .mul a b
  | 0x06 => .div a b
  | 0x07 => (Fl.max a b).round
  | 0x08 => (Fl.min a b).round
  | 0x09 => .mul a imm
  | 0x0A => .add (.mul imm a) b
  | 0x0B => a.abs.round
  | 0x0C => a.neg.round
  | 0x10 => .exp a
  | 0x11 => .ln a
  | 0x12 => .rcp a
  | 0x13 => .rsqrt a
  | 0x18 => if a.v.isNaN then .of Val.qnan else if positive a then a.round else .zero
  | 0x19 => .mul a (sigmoid a)
  | 0x1C => if a.v.isNaN then .of Val.qnan else if positive a then b.round else .zero
  | _ =>
    let s := sigmoid a
    .mul b (.mul s (.add .one (.mul a (.sub .one s))))
/-- The results of an element-wise VOP, in the destination's logical order. -/
def ewResults (v : Nat) (imm : Fl) (t : Geo) (a b : List Nat × List In) : List Fl :=
  t.logical.map fun li =>
    let x := (pick a.1 a.2 li).v
    if v == 0x01 then .of x else if v == 0x02 then imm else ewStep v imm (.enter x) (.enter (pick b.1 b.2 li).v)

/-! ## Reductions (R136, R137) -/

/-- The exact maximum of a row of values, NaN if it holds one. -/
def rowMax (l : List Fl) : Fl :=
  match l with
  | [] => .zero
  | a :: t =>
    let r := t.foldl Fl.max a
    if r.v.isNaN then .of Val.qnan else r
/-- The canonical dot product of two rows. -/
def rowDot (a b : List Fl) : Fl := dotF (a.map (·.v)) (b.map (·.v))
def rowSum (a : List Fl) : Fl := canon (a.map (·.v))
/-- A row reduction: 0 sum, 1 sum of squares, 2 dot product, 3 maximum, 4 largest magnitude. -/
def reduceRow (k : Nat) (a b : List Fl) : Fl :=
  match k with
  | 0 => rowSum a
  | 1 => rowDot a a
  | 2 => rowDot a b
  | 3 => rowMax a
  | _ => rowMax (a.map Fl.abs)
/-- The value of a tensor reduction (28h to 2Bh) for SDST. -/
def tensorReduce (v : Nat) (a : List In) : BitVec 64 :=
  let x := a.map fun i => Fl.enter i.v
  let f (r : Fl) : BitVec 64 := BitVec.ofNat 64 r.v.to32.toNat
  match v with
  | 0x28 => f (rowSum x)
  | 0x29 => f (rowDot x x)
  | 0x2A => f (reduceRow 4 x []).round
  | _ => BitVec.ofNat 64 (x.filter fun i => !i.v.isFinite).length

/-! ## Soft-maximum (R142 to R144) -/

/-- What a row came to: 0 ordinary or NaN, 1 empty, 2 infinite-entry. -/
structure SmxRow where
  y : List Fl
  lam : Fl
  case : Nat
  deriving DecidableEq, Repr
/-- Table 05-7 and R143 on the z values of a row. -/
def smxRow (log : Bool) (z : List Fl) : SmxRow :=
  let ninf : Fl := .of (.inf true)
  let pinf (x : Fl) : Bool := x.v == .inf false
  let k := (z.filter pinf).length
  if z.any fun x => x.v.isNaN then ⟨z.map fun _ => .of Val.qnan, .of Val.qnan, 0⟩
  else if 0 < k then
    let n : Fl := .of (Val.ofNat k).r32
    let hit := if log then n.ln.neg else n.rcp
    ⟨z.map fun x => if pinf x then { hit with o := x.o } else if log then ninf else .zero, ⟨.inf false, z.any (·.o)⟩, 2⟩
  else if z.all fun x => x.v == .inf true then ⟨z.map fun _ => if log then ninf else .zero, ninf, 1⟩
  else
    let m := (z.filter fun x => x.v.isFinite).foldl (fun a x => if a.v.isFinite && !Val.lt a.v x.v then a else x) ninf
    let e := z.map fun x => (Fl.sub x m).exp
    let s := canonF e
    let ls := s.ln
    ⟨if log then z.map fun x => .sub (.sub x m) ls else e.map fun x => .div x s, .add m ls, 0⟩
/-- The z values of a row under LENMASK: positions at or beyond the length are -∞; a poisoned length makes the row NaN (R142). -/
def maskRow (len : Option In) (z : List Fl) : List Fl :=
  match len with
  | none => z
  | some l =>
    match l.v with
    | .fin s m e =>
      let n : Nat := if s then 0 else if 0 ≤ e then m <<< e.toNat else m >>> (-e).toNat
      z.zipIdx.map fun x => if x.2 < n then x.1 else .of (.inf true)
    | _ => z.map fun _ => .of Val.qnan
/-- A row of SMXB (R144): dx, and whether the row is empty. A NaN in dy or y gives NaN throughout, as the rule's closing words say, also
where the steps of LOG would leave other positions finite (log 118). -/
def smxbRow (log : Bool) (tau : Fl) (dy y : List Fl) : List Fl × Bool :=
  if y.all fun x => if log then x.v == .inf true else x.v.isZero then (y.map fun _ => .zero, true)
  else if dy.any (·.v.isNaN) || y.any (·.v.isNaN) then (y.map fun _ => .of Val.qnan, false)
  else if log then
    let c := canonF dy
    (List.zipWith (fun a b => .mul tau (.sub a (.mul b.exp c))) dy y, false)
  else
    let c := canonF (List.zipWith Fl.mul dy y)
    (List.zipWith (fun a b => .mul tau (.mul b (.sub a c))) dy y, false)

/-! ## Normalisation (R145, R146) -/

/-- A forward row: y, and the statistics to save. An RMSNORM row that holds an infinity follows the steps: NaN where the infinities stand
and a zero elsewhere (DESIGN CHOICE, log 118). -/
def normRow (ln : Bool) (eps : Fl) (x gamma beta : List Fl) : List Fl × List Fl :=
  let n : Fl := .of (Val.ofNat x.length)
  let mu := Fl.div (canonF x) n
  let dv := if ln then x.map fun a => .sub a mu else x
  let v := Fl.div (canonF (dv.map fun a => .mul a a)) n
  let r := (Fl.add v eps).rsqrt
  let s := List.zipWith (fun a c => Fl.mul (.mul a r) c) dv gamma
  (if ln then List.zipWith Fl.add s beta else s, if ln then [mu, r] else [r])
/-- x̂ of a row from its saved statistics. -/
def xhatRow (ln : Bool) (stat x : List Fl) : List Fl :=
  if ln then x.map fun a => .mul (.sub a (stat.getD 0 .zero)) (stat.getD 1 .zero) else x.map fun a => .mul a (stat.getD 0 .zero)
/-- A backward row: dx. -/
def normbRow (ln : Bool) (stat dy xhat gamma : List Fl) : List Fl :=
  let n : Fl := .of (Val.ofNat dy.length)
  let g := List.zipWith Fl.mul dy gamma
  let a := Fl.div (canonF g) n
  let b := Fl.div (canonF (List.zipWith Fl.mul g xhat)) n
  let r := stat.getD (if ln then 1 else 0) .zero
  List.zipWith (fun gi x => .mul r (.sub (if ln then .sub gi a else gi) (.mul x b))) g xhat
/-- Column j of a list of rows. -/
def column (rows : List (List Fl)) (j : Nat) : List Fl := rows.map fun r => r.getD j .zero

/-! ## A whole VOP -/

/-- The outputs of a VOP: values by target slot, empty rows and infinite-entry rows. -/
structure VecOut where
  outs : List (Nat × List Fl)
  empties : Nat
  infs : Nat
/-- Computes a VOP that writes tensors. `v k` are the values of slot k, `g k` its geometry. -/
def vecCompute (vop w : Nat) (imm : Fl) (g : Nat → Geo) (v : Nat → List In) : VecOut :=
  let fl (k : Nat) : List Fl := (v k).map fun i => Fl.enter i.v
  let rows (k : Nat) : List (List Fl) := pieces ((g k).len 0) (fl k)
  if vop < 0x20 then ⟨[(0, ewResults vop imm (g 0) ((g 1).lens, v 1) ((g 2).lens, v 2))], 0, 0⟩
  else if vop < 0x28 then
    let b := rows 2
    ⟨[(0, (rows 1).zipIdx.map fun r => reduceRow (vop - 0x20) r.1 (b.getD r.2 []))], 0, 0⟩
  else if vop == 0x30 then
    let len (i : Nat) : Option In := if bit (vmodOf w) 3 then some ((v 2).getD i ⟨.zero, false⟩) else none
    let rs := (rows 1).zipIdx.map fun r => smxRow (bit (vmodOf w) 2) (maskRow (len r.2) (r.1.map fun x => .mul imm x))
    ⟨[(0, rs.flatMap (·.y)), (5, rs.map (·.lam))], (rs.filter (·.case == 1)).length, (rs.filter (·.case == 2)).length⟩
  else if vop == 0x31 then
    let y := rows 2
    let rs := (rows 1).zipIdx.map fun r => smxbRow (bit (vmodOf w) 2) imm r.1 (y.getD r.2 [])
    ⟨[(0, rs.flatMap (·.1))], (rs.filter (·.2)).length, 0⟩
  else if vop == 0x34 || vop == 0x35 then
    let rs := (rows 1).map fun r => normRow (vop == 0x34) imm r (fl 2) (fl 3)
    ⟨[(0, rs.flatMap (·.1)), (5, rs.flatMap (·.2))], 0, 0⟩
  else
    let ln := vop == 0x36
    let stats := pieces (if ln then 2 else 1) (fl 4)
    let dy := rows 1
    let xh := (rows 2).zipIdx.map fun r => xhatRow ln (stats.getD r.2 []) r.1
    let dx := dy.zipIdx.flatMap fun r => normbRow ln (stats.getD r.2 []) r.1 (xh.getD r.2 []) (fl 3)
    let prod := List.zipWith (List.zipWith Fl.mul) dy xh
    let bank (k : Nat) (cs : List (List Fl)) : List Fl := (fl k).zipIdx.map fun x => .add x.1 (canonF (column cs x.2))
    ⟨[(0, dx), (5, bank 5 prod), (6, bank 6 dy)], 0, 0⟩

/-! ## Running -/

/-- The IMM value of an operation when it starts, which one that has started has kept (R109, R111). -/
def Dev.immValue (d : Dev) (p q : Nat) (f : Flight) : BitVec 32 :=
  let w := f.w
  if f.started then f.imm
  else if immReg w then (d.sum p (regOf q (immOf w % 128))).setWidth 32 else BitVec.ofNat 32 (immOf w)
/-- Writes the outputs of an operation in slot order, each with its own random range. -/
def Dev.emitAll (d : Dev) (p q : Nat) (f : Flight) (val : Nat → List Fl) : List Emit :=
  (f.slots.zip f.srBase).map fun x =>
    match f.geo x.1 with
    | some g => d.emitTo p q f g x.2 (elemsOf (val x.1))
    | none => .empty
/-- The summary of an operation that writes tensors, for SDST. -/
def sumsOf (w : Nat) (v : BitVec 64) : List (Nat × BitVec 64) :=
  if sdstOn (sdstOf w) then [(fld (sdstOf w) 4 0, v)] else []
/-- Starts a tensor VOP. -/
def Dev.startVec (d : Dev) (p q : Nat) (f : Flight) (gl : List Glitch) : Start :=
  let w := f.w
  let vop := byt w 1 1
  let imm := d.immValue p q f
  let srcs := (f.descs.map (·.1)).filter fun k => !f.slots.contains k
  let banks := if vop == 0x36 || vop == 0x37 then f.slots.filter (· != 0) else []
  if immReg w && !vopImmOk vop (.of32 imm) then .stop d Code.opInvalid
  else match d.gather p gl (((srcs ++ banks).flatMap fun k => ((f.geo k).map Geo.reads).getD []) ++
      f.slots.flatMap fun k => ((f.geo k).map Geo.givenReads).getD []) with
  | .wait d => .wait d
  | .stop d c => .stop d c
  | .ok d =>
    let g (k : Nat) : Geo := (f.geo k).getD ⟨parseDesc 0 [], 0⟩
    let v (k : Nat) : List In := if srcs.contains k || banks.contains k then d.values p (g k) else []
    let bad := (srcs ++ banks).any (fun k => (v k).any (·.bad)) || f.slots.any fun k => d.readsFail p (g k).givenReads
    let d := d.vePoisoned p bad
    if decide (0x28 ≤ vop) && decide (vop < 0x30) then
      .run d { f with started := true, imm := imm, result := { Reset.noResult with sums := sumsOf w (tensorReduce vop (v 1)) } }
    else
      let o := vecCompute vop w (.of (.of32 imm)) g v
      let es := d.emitAll p q f (fun k => Tab.get [] o.outs k)
      let flags := es.foldl (fun n e => Nat.lor n e.flags) (32 * b2n bad + 64 * b2n (decide (0 < o.empties)) + 128 * b2n (decide (0 < o.infs)))
      let sink := es.foldl (fun s e => s.append e.sink) Sink.empty
      let prim := (es.getD 0 .empty).written
      .run d { f with started := true, imm := imm
                      result := { Reset.noResult with
                        bytes := sink.bytes, fault := sink.fault, health := es.flatMap (·.health), empties := o.empties, infs := o.infs
                        sums := sumsOf w (summary (sumkOf w) prim flags o.empties o.infs) } }
/-- The result of a scalar VOP (R137). -/
def scalarStep (v : Nat) (a b : Fl) : Fl :=
  match v with
  | 0x40 => .add a b
  | 0x41 => .sub a b
  | 0x42 => .mul a b
  | 0x43 => .div a b
  | 0x44 => (Fl.min a b).round
  | 0x45 => (Fl.max a b).round
  | 0x46 => .rcp a
  | _ => .rsqrt a
/-- Starts a scalar VOP. -/
def Dev.startScalar (d : Dev) (p q : Nat) (f : Flight) : Start :=
  let w := f.w
  let reg (n : Nat) : Fl := .of (.of32 ((d.sum p (regOf q n)).setWidth 32))
  let imm := d.immValue p q f
  let b := if bit (vmodOf w) 0 then .of (.of32 imm) else reg (byt w 8 8)
  let r := scalarStep (byt w 1 1) (reg (byt w 6 6)) b
  .run d { f with started := true, imm := imm
                  result := { Reset.noResult with sums := sumsOf w (BitVec.ofNat 64 r.v.to32.toNat) } }
/-- A write of VE_STAT CLRCNT: the counters of the leader tile's window. -/
def Dev.veClear (d : Dev) (p : Nat) : Dev := d.onPart p fun P => { P with smxEmpty := 0, smxInf := 0 }

/-! ## Meanings -/

def execCopy (p : PIx) (q : Strm) (s : State) : Host.Outcome State Fault Refusal := s.onDev fun d => d.vopRow p.val (strmIx q) 0x1
def execFill (p : PIx) (q : Strm) (s : State) : Host.Outcome State Fault Refusal := s.onDev fun d => d.vopRow p.val (strmIx q) 0x2
def execAdd (p : PIx) (q : Strm) (s : State) : Host.Outcome State Fault Refusal := s.onDev fun d => d.vopRow p.val (strmIx q) 0x3
def execSub (p : PIx) (q : Strm) (s : State) : Host.Outcome State Fault Refusal := s.onDev fun d => d.vopRow p.val (strmIx q) 0x4
def execMul (p : PIx) (q : Strm) (s : State) : Host.Outcome State Fault Refusal := s.onDev fun d => d.vopRow p.val (strmIx q) 0x5
def execDiv (p : PIx) (q : Strm) (s : State) : Host.Outcome State Fault Refusal := s.onDev fun d => d.vopRow p.val (strmIx q) 0x6
def execMax (p : PIx) (q : Strm) (s : State) : Host.Outcome State Fault Refusal := s.onDev fun d => d.vopRow p.val (strmIx q) 0x7
def execMin (p : PIx) (q : Strm) (s : State) : Host.Outcome State Fault Refusal := s.onDev fun d => d.vopRow p.val (strmIx q) 0x8
def execScale (p : PIx) (q : Strm) (s : State) : Host.Outcome State Fault Refusal := s.onDev fun d => d.vopRow p.val (strmIx q) 0x9
def execAxpy (p : PIx) (q : Strm) (s : State) : Host.Outcome State Fault Refusal := s.onDev fun d => d.vopRow p.val (strmIx q) 0xa
def execAbs (p : PIx) (q : Strm) (s : State) : Host.Outcome State Fault Refusal := s.onDev fun d => d.vopRow p.val (strmIx q) 0xb
def execNeg (p : PIx) (q : Strm) (s : State) : Host.Outcome State Fault Refusal := s.onDev fun d => d.vopRow p.val (strmIx q) 0xc
def execExp (p : PIx) (q : Strm) (s : State) : Host.Outcome State Fault Refusal := s.onDev fun d => d.vopRow p.val (strmIx q) 0x10
def execLn (p : PIx) (q : Strm) (s : State) : Host.Outcome State Fault Refusal := s.onDev fun d => d.vopRow p.val (strmIx q) 0x11
def execRcp (p : PIx) (q : Strm) (s : State) : Host.Outcome State Fault Refusal := s.onDev fun d => d.vopRow p.val (strmIx q) 0x12
def execRsqrt (p : PIx) (q : Strm) (s : State) : Host.Outcome State Fault Refusal := s.onDev fun d => d.vopRow p.val (strmIx q) 0x13
def execRelu (p : PIx) (q : Strm) (s : State) : Host.Outcome State Fault Refusal := s.onDev fun d => d.vopRow p.val (strmIx q) 0x18
def execSilu (p : PIx) (q : Strm) (s : State) : Host.Outcome State Fault Refusal := s.onDev fun d => d.vopRow p.val (strmIx q) 0x19
def execDrelu (p : PIx) (q : Strm) (s : State) : Host.Outcome State Fault Refusal := s.onDev fun d => d.vopRow p.val (strmIx q) 0x1c
def execDsilu (p : PIx) (q : Strm) (s : State) : Host.Outcome State Fault Refusal := s.onDev fun d => d.vopRow p.val (strmIx q) 0x1d
def execRsum (p : PIx) (q : Strm) (s : State) : Host.Outcome State Fault Refusal := s.onDev fun d => d.vopRow p.val (strmIx q) 0x20
def execRsumsq (p : PIx) (q : Strm) (s : State) : Host.Outcome State Fault Refusal := s.onDev fun d => d.vopRow p.val (strmIx q) 0x21
def execRdot (p : PIx) (q : Strm) (s : State) : Host.Outcome State Fault Refusal := s.onDev fun d => d.vopRow p.val (strmIx q) 0x22
def execRmax (p : PIx) (q : Strm) (s : State) : Host.Outcome State Fault Refusal := s.onDev fun d => d.vopRow p.val (strmIx q) 0x23
def execRamax (p : PIx) (q : Strm) (s : State) : Host.Outcome State Fault Refusal := s.onDev fun d => d.vopRow p.val (strmIx q) 0x24
def execTsum (p : PIx) (q : Strm) (s : State) : Host.Outcome State Fault Refusal := s.onDev fun d => d.vopRow p.val (strmIx q) 0x28
def execTsumsq (p : PIx) (q : Strm) (s : State) : Host.Outcome State Fault Refusal := s.onDev fun d => d.vopRow p.val (strmIx q) 0x29
def execTamax (p : PIx) (q : Strm) (s : State) : Host.Outcome State Fault Refusal := s.onDev fun d => d.vopRow p.val (strmIx q) 0x2a
def execTnfcnt (p : PIx) (q : Strm) (s : State) : Host.Outcome State Fault Refusal := s.onDev fun d => d.vopRow p.val (strmIx q) 0x2b
def execSmx (p : PIx) (q : Strm) (s : State) : Host.Outcome State Fault Refusal := s.onDev fun d => d.vopRow p.val (strmIx q) 0x30
def execSmxb (p : PIx) (q : Strm) (s : State) : Host.Outcome State Fault Refusal := s.onDev fun d => d.vopRow p.val (strmIx q) 0x31
def execLnorm (p : PIx) (q : Strm) (s : State) : Host.Outcome State Fault Refusal := s.onDev fun d => d.vopRow p.val (strmIx q) 0x34
def execRmsnorm (p : PIx) (q : Strm) (s : State) : Host.Outcome State Fault Refusal := s.onDev fun d => d.vopRow p.val (strmIx q) 0x35
def execLnormb (p : PIx) (q : Strm) (s : State) : Host.Outcome State Fault Refusal := s.onDev fun d => d.vopRow p.val (strmIx q) 0x36
def execRmsnormb (p : PIx) (q : Strm) (s : State) : Host.Outcome State Fault Refusal := s.onDev fun d => d.vopRow p.val (strmIx q) 0x37
def execScalarAdd (p : PIx) (q : Strm) (s : State) : Host.Outcome State Fault Refusal := s.onDev fun d => d.scalarRow p.val (strmIx q) 0x40
def execScalarSub (p : PIx) (q : Strm) (s : State) : Host.Outcome State Fault Refusal := s.onDev fun d => d.scalarRow p.val (strmIx q) 0x41
def execScalarMul (p : PIx) (q : Strm) (s : State) : Host.Outcome State Fault Refusal := s.onDev fun d => d.scalarRow p.val (strmIx q) 0x42
def execScalarDiv (p : PIx) (q : Strm) (s : State) : Host.Outcome State Fault Refusal := s.onDev fun d => d.scalarRow p.val (strmIx q) 0x43
def execScalarMin (p : PIx) (q : Strm) (s : State) : Host.Outcome State Fault Refusal := s.onDev fun d => d.scalarRow p.val (strmIx q) 0x44
def execScalarMax (p : PIx) (q : Strm) (s : State) : Host.Outcome State Fault Refusal := s.onDev fun d => d.scalarRow p.val (strmIx q) 0x45
def execScalarRcp (p : PIx) (q : Strm) (s : State) : Host.Outcome State Fault Refusal := s.onDev fun d => d.scalarRow p.val (strmIx q) 0x46
def execScalarRsqrt (p : PIx) (q : Strm) (s : State) : Host.Outcome State Fault Refusal := s.onDev fun d => d.scalarRow p.val (strmIx q) 0x47
def execVeClrcnt (p : PIx) (s : State) : Host.Outcome State Fault Refusal := s.onDev fun d => d.pf0Write fun d => d.veClear p.val

end Sys2Proof.Machine
end

