-- ==== Sys2Proof/Machine/Distil.lean ====
section
/-! DEFINITION. The periscope path (08): the buffer and its slots, window operations of teacher and student, the loss numerics,
and the distillation registers' commands. -/

namespace Sys2Proof.Machine

/-! ## Configuration and the buffer (R204, R205, R210, R221) -/

def Dist.full (x : Dist) : Bool := x.cfg.getLsbD 63
def Dist.topk (x : Dist) : Nat := fld x.cfg.toNat 47 40
def Dist.ttok (x : Dist) : Nat := fld x.cfg.toNat 36 24
def Dist.vocab (x : Dist) : Nat := fld x.cfg.toNat 23 0
def Dist.tau (x : Dist) : Val := .of32 (x.temp.setWidth 32)
def Dist.alpha (x : Dist) : Val := .of32 ((x.temp >>> 32).setWidth 32)
/-- T of R205. -/
def Dist.tile (x : Dist) : Nat := if x.full then 64 else x.ttok
def Dist.slotBytes (x : Dist) : Nat := if x.full then 64 * x.vocab * 2 else x.tile * (16 + 8 * x.topk)
def Dist.nslots (x : Dist) : Nat := if x.slotBytes == 0 then 0 else min 4096 (x.pbanks * 2 ^ 21 / x.slotBytes)
/-- R210. -/
def Dist.paramsOk (x : Dist) : Bool :=
  decide (1 ≤ x.pbanks) && decide (x.pbanks ≤ 16) && x.nslots != 0 && x.vocab != 0 &&
  (x.full || (decide (1 ≤ x.topk) && decide (x.topk ≤ 128) && decide (x.topk ≤ x.vocab) && decide (1 ≤ x.ttok) && decide (x.ttok ≤ 4096))) &&
  x.tau.isFinite && Val.lt .zero x.tau && x.alpha.isFinite && Val.le .zero x.alpha && Val.le x.alpha .one &&
  fld x.win.toNat 63 42 != fld x.win.toNat 41 20
def Dist.setSlot (x : Dist) (k : Nat) (s : BufSlot) : Dist :=
  { x with slots := setAt (x.slots ++ List.replicate (k + 1 - x.slots.length) ⟨.free, 0⟩) k s }
/-- Where byte o of buffer slot k lies. The ring begins at the lowest bank of the buffer (log entry 33). -/
def Dev.bufAt (d : Dev) (p k o : Nat) : Nat :=
  let x := (d.part p).dist
  sramAt (d.leader p) ((16 - x.pbanks) * 2 ^ 21 + k * x.slotBytes + o)
/-- Bytes of a slot as a number, and whether one of them fails its parity check. -/
def Dev.bufNum (d : Dev) (p k o n : Nat) : Nat × Bool :=
  let as := (List.range n).map fun i => d.bufAt p k (o + i)
  (leNat (as.map (Memory.read d.sram)), as.any (Ivl.mem d.sramBad))
/-- Reads values of a slot, each an offset and a number of bytes: failing ones are recorded with the student leader and their
bank (R220). -/
def Dev.bufTouch (d : Dev) (p k : Nat) (vs : List (Nat × Nat)) : Dev :=
  let els := vs.map fun v => (List.range v.2).map fun i => d.bufAt p k (v.1 + i)
  (d.parityData p (els.map fun e => e.map fun a => (a % 2 ^ 25, ⟨true, a, false, false, none⟩))).vePoisoned p (els.flatten.any (Ivl.mem d.sramBad))
def Dev.onDist (d : Dev) (p : Nat) (f : Dist → Dist) : Dev := d.onPart p fun P => { P with dist := f P.dist }

/-! ## Rows (R214) -/

def RowAcc.zero : RowAcc := ⟨[], 0, 0, false⟩
/-- The span pair of a span's values. -/
def spanPair (j : Nat) (vs : List Fl) : SpanPair :=
  let mu := (vs.filter fun v => v.v.isFinite).foldl (fun a v => if a.v.isFinite then Fl.max a v else v) (.of (.inf true))
  let terms := vs.map fun v => if v.v == .inf true then Val.zero else (Fl.exp (.sub v mu)).v
  let sigma := if mu.v.isFinite then (spanPartials terms).getD 0 .zero else .zero
  ⟨j, mu.v.to32, sigma.v.to32⟩
/-- A row with the values of a chunk that begins at entry v0. -/
def RowAcc.add (a : RowAcc) (v0 : Nat) (vs : List Fl) : RowAcc :=
  { pairs := a.pairs ++ ((pieces 2048 vs).zipIdx (v0 / 2048)).map fun x => spanPair x.2 x.1
    infs := a.infs + (vs.filter fun v => v.v == .inf false).length
    fins := a.fins + (vs.filter fun v => v.v.isFinite).length
    nan := a.nan || vs.any fun v => v.v.isNaN }
/-- The join of R214. -/
def joinPair (a b : Fl × Fl) : Fl × Fl :=
  let mu := Fl.max a.1 b.1
  let t (x : Fl × Fl) : Fl := if x.1.v == .inf true then .zero else .mul x.2 (Fl.exp (.sub x.1 mu))
  if mu.v == .inf true then (mu, .zero) else (mu, .add (t a) (t b))
/-- What a whole row comes to (R214): Table 05-7's cases, and λ of the ordinary one. -/
inductive RowCase where
  | nan
  | inf (k : Nat)
  | empty
  | ord (lam : Fl)
def RowAcc.resolve (a : RowAcc) : RowCase :=
  if a.nan then .nan
  else if a.infs != 0 then .inf a.infs
  else if a.fins == 0 then .empty
  else
    let r := (treeOf joinPair (a.pairs.map fun x => (Fl.of (.of32 x.mu), Fl.of (.of32 x.sigma)))).getD (.of (.inf true), .zero)
    .ord (.add r.1 r.2.ln)
def RowCase.isNan : RowCase → Bool
  | .nan => true
  | _ => false
def RowCase.isEmpty : RowCase → Bool
  | .empty => true
  | _ => false
def RowCase.isInf : RowCase → Bool
  | .inf _ => true
  | _ => false
def countFl (n : Nat) : Fl := .of (Val.ofNat n).r32
/-- p and lp of an entry of value v. -/
def RowCase.prob (c : RowCase) (v : Fl) : Fl × Fl :=
  match c with
  | .ord lam => let lp := Fl.sub v lam; (lp.exp, lp)
  | .inf k => if v.v == .inf false then ((countFl k).rcp, (countFl k).ln.neg) else (.zero, .of (.inf true))
  | _ => (.of Val.qnan, .of Val.qnan)

/-! ## The teacher's records (R217) -/

/-- Puts an entry into a descending list, behind the entries that are not smaller. -/
def insertEntry (x : Nat × BitVec 32) : List (Nat × BitVec 32) → List (Nat × BitVec 32)
  | [] => [x]
  | y :: ys => if Val.lt (.of32 y.2) (.of32 x.2) then x :: y :: ys else y :: insertEntry x ys
/-- The running selection of K entries after a chunk; a NaN takes no place in it (R217; DESIGN CHOICE, log 57). -/
def selectTop (k v0 : Nat) (kept : List (Nat × BitVec 32)) (us : List Fl) : List (Nat × BitVec 32) :=
  us.zipIdx.foldl (fun l u => if u.1.v.isNaN || u.1.v == .inf true then l else (insertEntry (v0 + u.2, u.1.v.to32) l).take k) kept
/-- Table 08-2. -/
def topkRecord (k : Nat) (r : TokenRun) : List Byte :=
  let c := r.soft.resolve
  let lse : Val := match c with
    | .nan => Val.qnan
    | .inf _ => .inf false
    | .empty => .inf true
    | .ord lam => lam.v
  let s := canonF ((r.kept.map fun e => Fl.exp (.sub (.of (.of32 e.2)) (.of lse))) ++ List.replicate (k - r.kept.length) .zero)
  let rho : Fl := match c with
    | .inf n => .mul (countFl (n - min n k)) (countFl n).rcp
    | _ => Fl.max .zero (.sub .one s)
  natLe 4 lse.to32.toNat ++ natLe 4 rho.v.to32.toNat ++ natLe 4 r.soft.infs ++
  natLe 1 (b2n c.isNan + 2 * b2n c.isInf + 4 * b2n c.isEmpty) ++ natLe 1 r.kept.length ++ [0, 0] ++
  (r.kept.flatMap fun e => natLe 4 e.1 ++ natLe 4 e.2.toNat) ++
  (List.range (k - r.kept.length)).flatMap fun _ => natLe 4 0xFFFFFFFF ++ natLe 4 (Val.inf true).to32.toNat
/-- A record as the student reads it. `bad` is a record with a poisoned byte. -/
structure TopRec where
  lse : Val
  rho : Val
  kinf : Nat
  flags : Nat
  entries : List (Nat × BitVec 32)
  bad : Bool
def Dev.readRecord (d : Dev) (p s i : Nat) : TopRec :=
  let k := (d.part p).dist.topk
  let o := i * (16 + 8 * k)
  let f (b n : Nat) : Nat := (d.bufNum p s (o + b) n).1
  let es := (List.range (f 13 1)).map fun j => (f (16 + 8 * j) 4, BitVec.ofNat 32 (f (20 + 8 * j) 4))
  ⟨.of32 (BitVec.ofNat 32 (f 0 4)), .of32 (BitVec.ofNat 32 (f 4 4)), f 8 4, f 12 1, es, (d.bufNum p s o (16 + 8 * k)).2⟩

/-! ## The student's rows (R215, R216, R218) -/

/-- What the slot says of one token: F16 values of the chunk in FULL mode, a record in TOPK mode. -/
inductive Soft where
  | full (vs : List Fl)
  | top (r : TopRec)
/-- Whether the hard term is active for a token. -/
def Dist.hardOn (x : Dist) (r : TokenRun) : Bool := !x.alpha.isZero && r.label.isSome
/-- Pass 1 of a chunk of logits for one token. -/
def Dist.pass1 (x : Dist) (v0 : Nat) (soft : Soft) (r : TokenRun) (z : List Fl) : TokenRun :=
  let vs := z.map fun a => Fl.div a (.of x.tau)
  let r := { r with soft := r.soft.add v0 vs, hard := if x.hardOn r then r.hard.add v0 z else r.hard }
  match soft with
  | .full ts => { r with teach := r.teach.add v0 ts }
  | .top t =>
    let isRec (i : Nat) : Bool := t.entries.any fun e => e.1 == i
    let hits := t.entries.filterMap fun e =>
      if decide (v0 ≤ e.1) && decide (e.1 < v0 + vs.length) then some (e.1, (vs.getD (e.1 - v0) .zero).v.to32) else none
    { r with kept := r.kept ++ hits, rest := r.rest.add v0 (vs.zipIdx.map fun u => if isRec (v0 + u.2) then .of (.inf true) else u.1) }
/-- Whether g and L of a token are NaN, and whether they are +0. -/
def Dist.tokenCase (x : Dist) (soft : Soft) (r : TokenRun) : Bool × Bool :=
  let act := [r.soft.resolve] ++ (if x.hardOn r then [r.hard.resolve] else [])
  match soft with
  | .full _ => let act := r.teach.resolve :: act; (act.any RowCase.isNan, act.any RowCase.isEmpty)
  | .top t => (act.any RowCase.isNan || t.bad || bit t.flags 0, act.any RowCase.isEmpty || bit t.flags 2)
/-- ρ_s and lp_rest (R218). -/
def restTerms (r : TokenRun) : Fl × Fl :=
  match r.soft.resolve with
  | .inf k => let rho := Fl.mul (countFl r.rest.infs) (countFl k).rcp; (rho, rho.ln)
  | .ord lam =>
    let l : Fl := match r.rest.resolve with
      | .ord l => l
      | _ => .of (.inf true)
    let lp := Fl.sub l lam
    (lp.exp, lp)
  | _ => (.of Val.qnan, .of Val.qnan)
/-- pt and lpt of a recorded entry of value u. -/
def TopRec.prob (t : TopRec) (u : Val) : Fl × Fl :=
  if bit t.flags 1 then RowCase.prob (.inf t.kinf) (.of u)
  else let lp := Fl.sub (.of u) (.of t.lse); (lp.exp, lp)
/-- k of an entry. -/
def softTerm (pt lpt lps : Fl) : Fl := if pt.v.isZero then .zero else .mul pt (.sub lpt lps)
/-- Pass 2 of a chunk for one token: the gradient and the token's run with the terms of its loss. A teacher value that fails its check
only now makes its row NaN from this chunk on (R220). -/
def Dist.pass2 (x : Dist) (v0 : Nat) (soft : Soft) (r : TokenRun) (z : List Fl) : List Fl × TokenRun :=
  let r := match soft with
    | .full ts => { r with teach := { r.teach with nan := r.teach.nan || ts.any fun t => t.v.isNaN } }
    | .top _ => r
  let (nan, empty) := x.tokenCase soft r
  if nan then (z.map fun _ => .of Val.qnan, r)
  else if empty then (z.map fun _ => .zero, r)
  else
    let cs := r.soft.resolve
    let ch := r.hard.resolve
    let tau := Fl.of x.tau
    let a1 := Fl.sub .one (.of x.alpha)
    let hard := x.hardOn r
    let (rhoS, _) := restTerms r
    let one (n : Nat) (zv : Fl) : Fl × Fl :=
      let (ps, lps) := cs.prob (.div zv tau)
      let (pt, k) : Fl × Fl := match soft with
        | .full ts => let (pt, lpt) := r.teach.resolve.prob (ts.getD n .zero); (pt, softTerm pt lpt lps)
        | .top t => match t.entries.find? fun e => e.1 == v0 + n with
          | some e => let (pt, lpt) := t.prob (.of32 e.2); (pt, softTerm pt lpt lps)
          | none => (if ps.v.isZero then .zero else .mul ps (.div (.of t.rho) rhoS), .zero)
      let gs := Fl.div (.sub ps pt) tau
      let h : Fl := if r.label == some (v0 + n) then .one else .zero
      (if hard then .add (.mul a1 gs) (.mul (.of x.alpha) (.sub (ch.prob zv).1 h)) else gs, k)
    let os := z.zipIdx.map fun a => one a.2 a.1
    let lqy := match r.label with
      | some y => if hard && decide (v0 ≤ y) && decide (y < v0 + z.length) then (ch.prob (z.getD (y - v0) .zero)).2.v.to32 else r.lqy
      | none => r.lqy
    (os.map (·.1), { r with lqy := lqy, ksum := r.ksum ++ (spanPartials (os.map fun o => o.2.v)).map fun s => s.v.to32 })
/-- L of a token after its last chunk. -/
def Dist.loss (x : Dist) (soft : Soft) (r : TokenRun) : Fl :=
  let (nan, empty) := x.tokenCase soft r
  if nan then .of Val.qnan
  else if empty then .zero
  else
    let lsoft : Fl := match soft with
      | .full _ => (treeOf Fl.add (r.ksum.map fun s => Fl.of (.of32 s))).getD .zero
      | .top t =>
        let cs := r.soft.resolve
        let ks := t.entries.map fun e =>
          let (pt, lpt) := t.prob (.of32 e.2)
          softTerm pt lpt (cs.prob (.of (.of32 ((r.kept.find? fun k => k.1 == e.1).map (·.2) |>.getD 0)))).2
        let (_, lpRest) := restTerms r
        let rho := Fl.of t.rho
        .add (canonF (ks ++ List.replicate (x.topk - ks.length) .zero)) (if t.rho.isZero then .zero else .mul rho (.sub rho.ln lpRest))
    if x.hardOn r then .add (.mul (.sub .one (.of x.alpha)) lsoft) (.mul (.of x.alpha) (Fl.neg (.of (.of32 r.lqy)))) else lsoft

/-! ## Issue (R209, R213) -/

/-- The output descriptor of a window operation. -/
def Dist.windowForm (x : Dist) (y : Desc) : Bool :=
  y.ndim == 2 && !y.lsel && y.fmt == 0 && y.blk == 0 && y.space == 0 && y.stride 0 == 0 && y.stride 1 == ((4 * x.vocab : Nat) : Int) &&
  y.walk == 8 && y.conv == 0 && y.sptr == 0 && y.hptr == 0 && !y.rsv && y.addr % 4 == 0 && y.len 0 != 0 && y.len 1 != 0 &&
  (List.range 5).all fun i => decide (i < 2) || (y.len i == 0 && y.stride i == 0)
/-- Inputs of a window operation and its output's form. -/
def Dev.windowDescs (d : Dev) (p q w : Nat) (hset : Bool) : Chk (List (Nat × Desc)) := do
  let P := d.part p
  let ix := (loopIndex (P.seq q).stack).getD 0
  let x ← d.descFor p q (tslot w 2) true true
  need (P.dist.windowForm x && !accumulates w 1 && (!hset || x.hset == 0xFFFF || decide (x.hset < P.entry.hscount))) Code.descInvalid
  let i ← d.arrayDescs p q w [0, 1]
  let a := geoIn i ix 0
  let b := geoIn i ix 1
  need (shapesOk a b ⟨x, 0⟩ && (List.range 5).all fun j => decide (j < 2) || (a.len j == 1 && b.len j == 1)) Code.descInvalid
  pure (Tab.put i 2 x)
def Dev.teacherPlan (d : Dev) (p q w : Nat) : Chk Plan := do
  need (tForward.form w && !tensorSplit w && q == 3) Code.opInvalid
  let l ← d.windowDescs p q w (d.part p).dist.full
  pure ⟨.teacherWin, l, [], none⟩
/-- Whether a student window operation that issues now will run in pass 2: the operations in flight before it each take their
chunk first. -/
def Part.studentPass (P : Part) : Bool :=
  let x := P.dist
  let ops := (P.seq 0).items.filterMap fun i => match i with
    | .op f => if f.kind == .studentWin then Tab.get? f.descs 2 else none
    | .post _ _ _ => none
  ops.foldl (fun b y => if y.v0 + y.len 0 == x.vocab then !b else b) x.sPass2
/-- A student window operation: the outputs of pass 2 are looked up now for their ranges and hazards, and read at the start. -/
def Dev.studentPlan (d : Dev) (p q w : Nat) : Chk Plan := do
  let P := d.part p
  need (tForward.form w && !tensorSplit w && q == 0) Code.opInvalid
  let l ← d.windowDescs p q w false
  let i := tslot w 2
  let (b, n) := P.descTable q
  let y := Tab.get (parseDesc 0 []) l 2
  let outs := if !P.studentPass then [] else if y.v0 + y.len 0 == P.dist.vocab then [(5, i + 1), (6, i + 2)] else [(5, i + 1)]
  let outs := outs.filter fun o => decide (o.2 < n)
  let l := outs.foldl (fun l o => Tab.put l o.1 (parseDesc (b + 64 * o.2) (d.peek p (b + 64 * o.2) 64))) l
  pure ⟨.studentWin, l, outs.map (·.1), none⟩

/-! ## Starting (R207, R211, R212, R213) -/

/-- The PSC_SEQUENCE cases that both sides share. -/
def Dist.seqBad (x : Dist) (v0 w expect : Nat) : Bool :=
  v0 != expect || decide (x.vocab < v0 + w) || (w % 2048 != 0 && v0 + w != x.vocab)
/-- Whether an earlier window operation of the same group is in flight: they start one at a time. -/
def Part.windowAhead (P : Part) (f : Flight) : Bool := P.flights.any fun x => x.2.kind == f.kind && decide (x.2.no < f.no)
def freshRun : TokenRun := ⟨.zero, .zero, .zero, .zero, [], none, 0, []⟩
/-- The logits of a chunk by token, with their product. -/
def logits (gl : List Glitch) (x : Prod) (w t : Nat) : List (List Fl) :=
  (List.range t).map fun i => (List.range w).map fun n => x.dotAt gl i n
/-- The product of a window operation. -/
def Dev.windowProd (d : Dev) (p : Nat) (g0 g1 : Geo) (x : Desc) : Prod :=
  .whole g0 (d.values p g0) g1 (d.values p g1) ⟨x, 0⟩ 0
/-- Starts a teacher window operation. -/
def Dev.startTeacher (d : Dev) (p q : Nat) (f : Flight) (gl : List Glitch) : Start :=
  match f.geo 0, f.geo 1, Tab.get? f.descs 2 with
  | some g0, some g1, some y =>
    let X := (d.part p).dist
    let v0 := y.v0
    let w := y.len 0
    let t := y.len 1
    if (d.part p).windowAhead f then .wait d
    else if !X.paramsOk then .stop d Code.opInvalid
    else if X.seqBad v0 w X.tV0 || decide (X.tile < t) then .stop d Code.pscSequence
    else if v0 == 0 && (X.slot X.head).st != .free then .wait d
    else match d.gather p gl (g0.reads ++ g1.reads) with
    | .wait d => .wait d
    | .stop d c => .stop d c
    | .ok d =>
      let d := d.sliceRecords p gl
      let d := if v0 != 0 then d else d.onDist p fun x =>
        { x.setSlot x.head ⟨.filling, t⟩ with head := (x.head + 1) % x.nslots, tseq := x.tseq + 1, tRun := [] }
      let X := (d.part p).dist
      let slot := (X.head + X.nslots - 1) % X.nslots
      let pr := d.windowProd p g0 g1 y
      let cands := d.candidates p q ((d.part p).arraysOf q f.kind)
      let d := d.poisonTiles f.no gl cands [pr]
      let us := (logits gl pr w t).map fun r => r.map fun z => Fl.div z (.of X.tau)
      let out (o : Nat) (bs : List Byte) : List OutByte := bs.zipIdx.map fun b => ⟨true, d.bufAt p slot (o + b.2), b.1, false⟩
      let res := { Reset.noResult with cycles := unitRuns f.no cands [pr] }
      if X.full then
        let c := convert ⟨2, 0, false, false, false⟩ (List.replicate (w * t) 0) [] [] 0 q 0 (elemsOf us.flatten)
        .run d { f with started := true
                        result := { res with
                          bytes := c.codes.zipIdx.flatMap fun e => out (2 * (e.2 / w * X.vocab + v0 + e.2 % w)) (natLe 2 e.1)
                          health := match (d.part p).entry.hcGlobal y.hset with
                            | some n => [⟨n, c.cats⟩]
                            | none => [] } }
      else
        let runs := us.zipIdx.map fun u =>
          let r := X.tRun.getD u.2 freshRun
          { r with soft := r.soft.add v0 u.1, kept := selectTop X.topk v0 r.kept u.1 }
        let last := v0 + w == X.vocab
        .run d { f with started := true
                        result := { res with
                          tokens := runs
                          bytes := if last then runs.zipIdx.flatMap fun r => out (r.2 * (16 + 8 * X.topk)) (topkRecord X.topk r.1) else []
                          empties := if last then (runs.filter fun r => r.soft.resolve.isEmpty).length else 0
                          infs := if last then (runs.filter fun r => r.soft.resolve.isInf).length else 0 } }
  | _, _, _ => .wait d
/-- D2 + 1 and D2 + 2 of a student window operation, under the loop index of its issue: both valid and with no amax pass (R135), and
with the lengths of what this chunk writes: LEN_0 and LEN_1, and 1 beyond. D2 + 1 may have any output's FMT (R213; DESIGN CHOICE, log 57). -/
def Dev.studentOuts (d : Dev) (p q : Nat) (ix : Option Nat) (i w t : Nat) (second last : Bool) : Chk (Desc × Desc) := do
  let a ← d.descAt p q ix (i + 1) true false
  let b ← d.descAt p q ix (i + 2) true false
  need (a.smode != 1 && a.smode != 2 && b.smode != 1 && b.smode != 2) Code.descInvalid
  let lens (x : Desc) (m n : Nat) : Bool := x.len 0 == m && x.len 1 == n && (⟨x, 0⟩ : Geo).size == m * n
  need (!second || lens a w t) Code.descInvalid
  need (!last || (b.fmt == 0 && lens b 1 t)) Code.descInvalid
  pure (a, b)
/-- The reads of the labels of a token tile. -/
def Dist.labelReads (x : Dist) (t : Nat) : Reads :=
  let n := fld x.lbl.toNat 63 48
  if x.alpha.isZero || n == 0 then []
  else (List.range t).flatMap fun i => readRun 0 (fld x.lbl.toNat 47 2 * 4 + 4 * (x.sseq.toNat % n * x.tile + i)) 4
/-- The label of token i: none where there is no valid one, poisoned or not (R215; DESIGN CHOICE, log 57). -/
def Dev.labelOf (d : Dev) (p i : Nat) : Option Nat × Bool :=
  let x := (d.part p).dist
  let n := fld x.lbl.toNat 63 48
  if x.alpha.isZero || n == 0 then (none, false)
  else
    let (c, bad) := d.codeAt p 0 (8 * ((fld x.lbl.toNat 47 2 * 4 + 4 * (x.sseq.toNat % n * x.tile + i) : Nat) : Int)) 32
    (if decide (c < 2 ^ 31) && decide (c < x.vocab) then some c else none, bad)
/-- What the slot says of token i of a chunk. -/
def Dev.softOf (d : Dev) (p s i v0 w : Nat) : Soft :=
  let x := (d.part p).dist
  if x.full then
    .full ((List.range w).map fun n =>
      let (c, bad) := d.bufNum p s (2 * (i * x.vocab + v0 + n)) 2
      if bad then .of Val.qnan else .of (decodeElem 2 c))
  else .top (d.readRecord p s i)
/-- The values of a slot that a chunk reads, each an offset and a number of bytes. -/
def Dist.softReads (x : Dist) (t v0 w : Nat) : List (Nat × Nat) :=
  if x.full then (List.range t).flatMap fun i => (List.range w).map fun n => (2 * (i * x.vocab + v0 + n), 2)
  else (List.range (t * (4 + 2 * x.topk))).map fun k => (4 * k, 4)
/-- Puts what entries (v, i) come to, entry v of token i, into the logical order of an output whose LEN_0 counts the entries. -/
def Geo.byEntry (g : Geo) (vs : List (List Fl)) : List Fl :=
  g.indices.map fun si => (vs.getD (si.getD 1 0) []).getD (si.getD 0 0) .zero
/-- Starts a student window operation; its checks stand before its wait for a slot (R207; DESIGN CHOICE, log 57). -/
def Dev.startStudent (d : Dev) (p q : Nat) (f : Flight) (gl : List Glitch) : Start :=
  match f.geo 0, f.geo 1, Tab.get? f.descs 2 with
  | some g0, some g1, some y =>
    let X := (d.part p).dist
    let v0 := y.v0
    let w := y.len 0
    let t := y.len 1
    let last := v0 + w == X.vocab
    let begins := v0 == 0 && !X.sPass2
    if (d.part p).windowAhead f then .wait d
    else if !X.paramsOk then .stop d Code.opInvalid
    else match (d.studentOuts p q f.loopIx (tslot f.w 2) w t X.sPass2 (X.sPass2 && last)).on d with
    | (.error c, d) => stopWith c d
    | (.ok (y1, y2), d) =>
      if X.seqBad v0 w X.sV0 then .stop d Code.pscSequence
      else if begins && (X.slot X.tail).st != .ready then .wait d
      else if t != (X.slot X.tail).tokens then .stop d Code.pscSequence
      else
        let o1 : Geo := ⟨y1, f.loopIx.getD 0⟩
        let o2 : Geo := ⟨y2, f.loopIx.getD 0⟩
        let outs := if X.sPass2 then o1.givenReads ++ (if last then o2.givenReads else []) else []
        match d.gather p gl (g0.reads ++ g1.reads ++ (if begins then X.labelReads t else []) ++ outs) with
        | .wait d => .wait d
        | .stop d c => .stop d c
        | .ok d =>
          let d := (d.sliceRecords p gl).bufTouch p X.tail (X.softReads t v0 w)
          let d := d.onDist p fun x => if begins then { x.setSlot x.tail ⟨.pass1, t⟩ with sseq0 := x.sseq.toNat, sRun := [] } else x
          let pr := d.windowProd p g0 g1 y
          let cands := d.candidates p q ((d.part p).arraysOf q f.kind)
          let d := d.poisonTiles f.no gl cands [pr]
          let zs := logits gl pr w t
          let soft (i : Nat) : Soft := d.softOf p X.tail i v0 w
          let runs := (List.range t).map fun i =>
            if begins then
              let (l, bad) := d.labelOf p i
              { freshRun with label := l, hard := { RowAcc.zero with nan := bad } }
            else X.sRun.getD i freshRun
          let res := { Reset.noResult with cycles := unitRuns f.no cands [pr] }
          if !X.sPass2 then
            let runs' := (runs.zip zs).zipIdx.map fun r => X.pass1 v0 (soft r.2) r.1.1 r.1.2
            let rows := runs'.flatMap fun r =>
              [r.soft.resolve] ++ (if X.full then [r.teach.resolve] else []) ++ (if X.hardOn r then [r.hard.resolve] else [])
            .run d { f with started := true
                            result := { res with
                              tokens := runs'
                              nolbl := if begins && !X.alpha.isZero then (runs.filter fun r => r.label.isNone).length else 0
                              empties := if last then (rows.filter RowCase.isEmpty).length else 0
                              infs := if last then (rows.filter RowCase.isInf).length else 0 } }
          else
            let os := (runs.zip zs).zipIdx.map fun r => X.pass2 v0 (soft r.2) r.1.1 r.1.2
            let runs' := os.map (·.2)
            let base (k : Nat) : Nat := ((f.slots.zip f.srBase).find? fun s => s.1 == k).map (·.2) |>.getD 0
            let e := d.emitTo p q f o1 (base 5) (elemsOf (o1.byEntry (os.map (·.1))))
            let e := if last then e.append (d.emitTo p q f o2 (base 6) (elemsOf (o2.byEntry (runs'.zipIdx.map fun r => [X.loss (soft r.2) r.1])))) else e
            .run d { f with started := true
                            result := { res with tokens := runs', bytes := e.sink.bytes, fault := e.sink.fault, health := e.health } }
  | _, _, _ => .wait d

/-! ## Completing (Table 08-1, R211) -/

/-- What the completion of a window operation does to its group. -/
def Dev.windowDone (d : Dev) (p : Nat) (f : Flight) : Dev :=
  match Tab.get? f.descs 2 with
  | none => d
  | some y =>
    let d := d.onPart p fun P => { P with dist := P.dist.noteStalls P.creditStall P.slotStall }
    let d := d.onDist p fun x =>
      let next := y.v0 + y.len 0
      let last := next == x.vocab
      let next := if last then 0 else next
      if f.kind == .teacherWin then
        let k := (x.head + x.nslots - 1) % x.nslots
        let x := { x with tRun := if last then [] else f.result.tokens, tV0 := next }
        if last then x.setSlot k ⟨.ready, y.len 1⟩ else x
      else
        let x := { x with sRun := f.result.tokens, sV0 := next, nolbl := satAdd 32 x.nolbl f.result.nolbl }
        if !last then x
        else if !x.sPass2 then { x.setSlot x.tail ⟨.pass2, y.len 1⟩ with sPass2 := true }
        else { x.setSlot x.tail ⟨.free, 0⟩ with sPass2 := false, sRun := [], tail := (x.tail + 1) % x.nslots, sseq := x.sseq + 1 }
    d.addRows p f.result.empties f.result.infs

/-! ## Registers and the deadlock rule (R208, R221) -/

/-- Whether the distillation registers of a partition may be written. -/
def Part.distIdle (P : Part) : Bool := P.entry.mode == .distil && P.streams.all fun q => (P.seq q).st.quiet
/-- A write of DIST_CFG. -/
def Dev.distCfg (d : Dev) (p : Nat) (v : BitVec 64) : Dev :=
  let P := d.part p
  if P.distIdle && P.dist.slots.all fun s => s.st == .free then
    d.onDist p fun x =>
      { x with cfg := v &&& 0x80F8FF1FFFFFFFFF, slots := [], head := 0, tail := 0, tV0 := 0, sV0 := 0, sPass2 := false, tRun := [], sRun := [] }
  else d
def Dev.distClear (d : Dev) (p : Nat) : Dev :=
  if (d.part p).entry.mode == .distil then d.onDist p fun x => { x with nolbl := 0, tstall := 0, sstall := 0 } else d
/-- PSC_DEADLOCK. -/
def Dev.pscDeadlock (d : Dev) (p : Nat) : Dev :=
  let P := d.part p
  if d.running p && P.creditStall && [0, 1, 2].all fun q => (P.seq q).st.quiet then
    d.pe Code.pscDeadlock p
  else d

/-! ## Meanings -/

def execTeacherWindowOp (p : PIx) (q : Strm) (s : State) : Host.Outcome State Fault Refusal :=
  s.onDev fun d => d.engineRow p.val (strmIx q) .teacher fun d w => d.teacherPlan p.val (strmIx q) w
def execStudentWindowOp (p : PIx) (q : Strm) (s : State) : Host.Outcome State Fault Refusal :=
  s.onDev fun d => d.engineRow p.val (strmIx q) .student fun d w => d.studentPlan p.val (strmIx q) w
def execDistCfgWrite (p : PIx) (value : W64) (s : State) : Host.Outcome State Fault Refusal := s.onDev fun d => d.pf0Write fun d => d.distCfg p.val value
def execDistClrcnt (p : PIx) (s : State) : Host.Outcome State Fault Refusal := s.onDev fun d => d.pf0Write fun d => d.distClear p.val
def execPscDeadlock (p : PIx) (s : State) : Host.Outcome State Fault Refusal := s.onDev fun d => d.pscDeadlock p.val

end Sys2Proof.Machine
end

