-- ==== Sys2Proof/Machine/Errors.lean ====
section
/-! DEFINITION. The error aggregator, the handler and the peel test (15). -/

namespace Sys2Proof.Machine

/-! ## Acceptance (R386, R387, R413) -/

/-- Whether a new record merges into a queued one. -/
def ErrRec.merges (r q : ErrRec) : Bool :=
  q.code == r.code && q.part == r.part && q.unit == r.unit && q.index == r.index && q.bank == r.bank &&
  !(Code.cls r.code == 2 && r.mover)
/-- REP of the first matching queued record rises by 1. -/
def mergeInto (r : ErrRec) : List ErrRec → List ErrRec
  | [] => []
  | q :: qs => if r.merges q then { q with rep := satAdd 8 q.rep 1 } :: qs else q :: mergeInto r qs
/-- Removes the newest CE of a queue, given in reverse order. -/
def dropCe : List ErrRec → Option (List ErrRec)
  | [] => none
  | q :: qs => if Code.cls q.code == 1 then some qs else (dropCe qs).map (q :: ·)
/-- The queue after an accepted record, and how many records were dropped. -/
def enqueue (queue : List ErrRec) (r : ErrRec) : List ErrRec × Nat :=
  if queue.any r.merges then (mergeInto r queue, 0)
  else if queue.length < 32 then (queue ++ [r], 0)
  else if Code.cls r.code == 1 then (queue, 1)
  else match dropCe queue.reverse with
    | some l => (l.reverse ++ [r], 1)
    | none => (queue, 1)
/-- The VF's copy of a record: no physical address, REP 0. -/
def ErrRec.copy (r : ErrRec) : ErrRec :=
  let r := { r with rep := 0 }
  if r.phys then { r with addr := 0, av := false } else r
/-- Copies a record into a view of at most 8. -/
def Vf.addView (v : Vf) (r : ErrRec) : Vf :=
  if v.view.length < 8 then { v with view := v.view ++ [r.copy.bytes] } else { v with viewDropped := satAdd 16 v.viewDropped 1 }
/-- ERROR_RECORD_ACCEPT: the next detected record is accepted. -/
def Dev.accept (d : Dev) : Dev :=
  match d.err.detected with
  | [] => d
  | r :: rest =>
    let r := { r with seq := d.err.nextSeq.toNat }
    let (q, n) := enqueue d.err.queue r
    let d := d.onErr fun e =>
      { e with detected := rest, nextSeq := e.nextSeq + 1, queue := q, dropped := satAdd 16 e.dropped n, todo := e.todo ++ [r]
               lastDe := if Code.cls r.code == 3 && r.mover then r.bytes else e.lastDe }
    let d := d.pfEvent 2
    if r.pv then (d.onVf r.part fun v => v.addView r).vfEvent r.part 1 1 else d

/-! ## The handler (R388, R389, R447) -/

/-- The unhandled record of highest class, the oldest within it. -/
def pickRec (l : List ErrRec) : Option ErrRec :=
  match l.find? fun r => Code.cls r.code == 3 with
  | some r => some r
  | none => match l.find? fun r => Code.cls r.code == 2 with
    | some r => some r
    | none => l.head?
/-- The class being handled (HCLASS). -/
def ErrSt.hclass (e : ErrSt) : Nat :=
  match e.handling with
  | [] => 0
  | r :: _ => Code.cls r.code
/-- FAULT_N is low while a DE is handled, in the hold state and while DEGRADED is set (R430); unpowered and in reset it is released
(R433). -/
def Dev.faultLine (d : Dev) : Dev :=
  d.onPins fun p => { p with faultN := !(d.released && (d.err.hclass == 3 || d.err.holdst || d.err.degraded)) }
/-- ERROR_HANDLE: the handler takes a record when it is free or when the record's class is higher. -/
def Dev.handle (d : Dev) : Dev :=
  if !d.coresUp then d
  else match pickRec d.err.todo with
    | none => d
    | some r =>
      if d.err.hclass < Code.cls r.code then
        (d.onErr fun e => { e with todo := e.todo.erase r, handling := r :: e.handling }).faultLine
      else d
/-- RECORD_HANDLED: a PE's partition has its pending queue entry completed; after a DE its handling is complete. -/
def Dev.handled (d : Dev) : Dev :=
  match d.err.handling with
  | [] => d
  | r :: rest =>
    if !d.coresUp then d
    else
      let d := d.onErr fun e => { e with handling := rest }
      let d := if Code.cls r.code == 2 && r.pv then (d.endQueueCmd r.part).onPart r.part fun P => { P with step := none } else d
      let d := if Code.cls r.code == 3 && r.mover then d.onErr fun e => { e with deDone := true } else d
      d.faultLine

/-! ## The peel (R391 to R393) -/

/-- Beats of each test (Table 15-4). -/
def peelLen (test : Nat) : Nat := if test == 4 then 80 else 4
/-- The partition that owns a tile. -/
def Dev.ownerOf (d : Dev) (t : Nat) : Option Nat :=
  (d.parts.find? fun x => x.2.st != .unused && !x.2.entry.guest && x.2.claims.getLsbD t).map (·.1)
/-- Whether the peel runs at all. -/
def Dev.peelRuns (d : Dev) : Bool := d.err.peelEn && d.ckr.pwr == 0 && decide (2 ≤ d.ckr.phase) && decide (d.ckr.phase ≤ 3) && d.coresUp
/-- Whether the peel may use a beat of a tile: the streams of its owner were quiet at the beat's start, and nothing of it has begun since,
which would have waited for the beat's end (R392). -/
def Dev.peelable (d : Dev) (t : Nat) : Bool :=
  !d.err.peelFail.getLsbD t &&
  match d.ownerOf t with
  | none => true
  | some p => d.err.peelPmask.getLsbD p && (d.part p).quietBeat && (d.part p).quiet
def Dev.peelStart (d : Dev) (t : Nat) : Dev :=
  if d.peelRuns && !d.err.peelFail.getLsbD t && !(d.tile t).peelOn then
    d.onTile t fun s => { s with peelOn := true, peelTest := 0, peelBeat := 0, peelRerun := false }
  else d
/-- A test of a tile has ended well: the next test, or the end of the round. The march is for unassigned tiles. -/
def Dev.peelNext (d : Dev) (t : Nat) : Dev :=
  let n := (d.tile t).peelTest + 1
  if n == 5 || (n == 4 && (d.ownerOf t).isSome) then
    (d.onTile t fun s => { s with peelOn := false, peelTest := 0, peelBeat := 0, peelRerun := false }).onErr fun e =>
      { e with peelRounds := satAdd 32 e.peelRounds 1 }
  else d.onTile t fun s => { s with peelTest := n, peelBeat := 0, peelRerun := false }
/-- A second mismatch: PEEL_FAIL (R393). -/
def Dev.peelFailed (d : Dev) (t : Nat) : Dev :=
  let test := (d.tile t).peelTest
  let d := d.onTile t fun s => { s with peelOn := false, peelTest := 0, peelBeat := 0, peelRerun := false }
  let d := d.onErr fun e => { e with peelFail := e.peelFail ||| (1#96 <<< t), degraded := true }
  ((d.detect { rec0 Code.peelFail with unit := 1, index := t, aux := test }).pfEvent 7).faultLine
/-- PEEL_TEST_BEAT: one whole beat of a tile, at most 40 in any 4,096; at a test's last beat its signature is compared. -/
def Dev.peelBeat (d : Dev) (t : Nat) (ok : Bool) : Dev :=
  let used := (d.tile t).peelWin
  if !(d.peelRuns && d.peelable t && (d.tile t).peelOn && decide (used.length < 40) && !used.contains 0) then d
  else
    let d := d.onTile t fun s => { s with peelWin := 0 :: used, peelBeat := s.peelBeat + 1 }
    let d := d.onErr fun e => { e with peelBeats := satAdd 32 e.peelBeats 1 }
    if (d.tile t).peelBeat < peelLen (d.tile t).peelTest then d
    else if ok then d.peelNext t
    else if (d.tile t).peelRerun then d.peelFailed t
    else d.onTile t fun s => { s with peelBeat := 0, peelRerun := true }

/-! ## Meanings -/

def execErrorRecordAccept (s : State) : Host.Outcome State Fault Refusal := s.onDev Dev.accept
def execErrorHandle (s : State) : Host.Outcome State Fault Refusal := s.onDev Dev.handle
def execRecordHandled (s : State) : Host.Outcome State Fault Refusal := s.onDev Dev.handled
def execErrPop (s : State) : Host.Outcome State Fault Refusal :=
  s.onDev fun d => d.pf0Write fun d => d.onErr fun e => { e with queue := e.queue.drop 1 }
def execErrClrcnt (s : State) : Host.Outcome State Fault Refusal :=
  s.onDev fun d => d.pf0Write fun d => d.onErr fun e => { e with dropped := 0, d2dRetry := 0, peFlt := 0 }
def execVerrPop (p : PIx) (s : State) : Host.Outcome State Fault Refusal :=
  s.onDev fun d => d.vfWrite p.val fun d => d.onVf p.val fun v => { v with view := v.view.drop 1 }
def execPeelRoundStart (t : TIx) (s : State) : Host.Outcome State Fault Refusal := s.onDev fun d => d.peelStart t.val
def execPeelTestBeat (t : TIx) (signatureOk : Bool) (s : State) : Host.Outcome State Fault Refusal := s.onDev fun d => d.peelBeat t.val signatureOk

end Sys2Proof.Machine
end

