-- ==== Sys2Proof/Machine/Kv.lean ====
section
/-! DEFINITION. The KV window (R233 to R236): KV appends and attention operations. -/

namespace Sys2Proof.Machine

/-! ## Window addresses -/

/-- (l, g, h) of a KV-window address, where R234 gives one. -/
def Part.kvAddr (P : Part) (a : Nat) : Option (Nat × Nat × Nat) :=
  let o := a % 2 ^ 26 / 64
  let l := o / 256
  let g := o % 256 / 2
  if a % 64 == 0 && decide (l < P.kvLayers) && decide (g < P.kvGroups) then some (l, g, o % 2) else none
/-- The bit of element c at position pos of a half of block (n, l, g), and the address of its scale. -/
def Part.kvPlace (P : Part) (n l g h pos c : Nat) : Nat × Nat :=
  let b := P.kvBlock n l g + h * P.kvHalf
  let i := pos * P.kvHd + c
  (8 * b + i * fmtWidth P.kvFmt, b + P.kvElems + i / 32)
/-- What reading a position of a row touches: its elements, and in MX formats their scales. -/
def Part.kvPlaces (P : Part) (r : StepRow) (l g h t : Nat) : Places :=
  (List.range P.kvHd).flatMap fun c =>
    let (b, s) := P.kvPlace (r.pages.getD (t / 16) 0) l g h (t % 16) c
    (0, (b : Int), fmtWidth P.kvFmt) :: (if isMx P.kvFmt && c % 32 == 0 then [bytePlace 0 s 1] else [])
/-- Element c at position t of a row. -/
def Dev.kvElem (d : Dev) (p : Nat) (r : StepRow) (l g h t c : Nat) : In :=
  let P := d.part p
  let (b, s) := P.kvPlace (r.pages.getD (t / 16) 0) l g h (t % 16) c
  let (x, bad) := d.codeAt p 0 (b : Int) (fmtWidth P.kvFmt)
  if !isMx P.kvFmt then (if bad then ⟨.nan false, true⟩ else ⟨decodeElem P.kvFmt x, false⟩)
  else
    let (sc, sb) := d.codeAt p 0 (8 * (s : Int)) 8
    if bad || sb then ⟨.nan false, true⟩ else ⟨decodeBlock P.kvFmt x sc, false⟩

/-! ## KV append (R234) -/

/-- The checks of a KV append. -/
def Dev.appendPlan (d : Dev) (p q w : Nat) : Chk Plan := do
  let P := d.part p
  need (vopForm q 1 w && P.inWave) Code.opInvalid
  let x ← d.descFor p q (slotAt w 4) true true
  need (windowForm x && x.targetOk P.entry.hscount && (P.kvAddr x.addr).isSome && x.len 0 == P.kvHd && decide (x.fmt < 15) &&
    x.blk == (if isMx x.fmt then 32 else 0)) Code.descInvalid
  let y ← d.descFor p q (slotAt w 6) false false
  need (y.ndim == 2 && !y.lsel && (⟨y, 0⟩ : Geo).lens == [P.kvHd, P.waveTokens.length] && x.len 1 == P.waveTokens.length) Code.descInvalid
  pure ⟨.kvAppend, [(0, x), (1, y)], [0], none⟩
/-- Starts a KV append: each token's vector is converted into the block format and goes to its position. -/
def Dev.startAppend (d : Dev) (p q : Nat) (f : Flight) (gl : List Glitch) : Start :=
  let P := d.part p
  match Tab.get? f.descs 0, f.geo 1 with
  | some x, some g1 =>
    match P.kvAddr x.addr, d.gather p gl g1.reads with
    | none, _ => .wait d
    | _, .wait d => .wait d
    | _, .stop d c => .stop d c
    | some (l, g, h), .ok d =>
      let vs := d.values p g1
      let bad := vs.any (·.bad)
      let d := d.vePoisoned p bad
      let mx := isMx P.kvFmt
      let hd := P.kvHd
      let groups := (List.range vs.length).map fun i => if mx then i / hd * (hd / 32) + i % hd / 32 else 0
      let c := convert ⟨P.kvFmt, if mx then 5 else 0, false, false, false⟩ groups [] [] f.srKey.toNat q (f.srBase.getD 0 0)
        (elemsOf (vs.map fun v => .of v.v))
      let place (i : Nat) : Nat × Nat :=
        let (_, r, j) := P.waveTokens.getD (i / hd) (0, parseRow [], 0)
        let t := r.len + j
        P.kvPlace (r.pages.getD (t / 16) 0) l g h (t % 16) (i % hd)
      let scales := c.scales.foldl (fun t s => Tab.put t s.1 s.2) []
      let t := c.codes.zipIdx.foldl (fun t y => addBits t ((place y.2).1 : Int) (fmtWidth P.kvFmt) y.1) []
      let t := scales.foldl (fun t s => addBits t (8 * ((place (s.1 / (hd / 32) * hd + s.1 % (hd / 32) * 32)).2 : Int)) 8 s.2) t
      let sink := d.sinkIn p true 0 t
      let written := (groups.zip c.codes).map fun y => decodeIn P.kvFmt (if mx then 5 else 0) y.2 (if mx then Tab.get? scales y.1 else none)
      .run d { f with started := true
                      result := { Reset.noResult with
                        bytes := sink.bytes, fault := sink.fault
                        health := match P.entry.hcGlobal x.hset with
                          | some n => [⟨n, c.cats⟩]
                          | none => []
                        sums := sumsOf f.w (summary (sumkOf f.w) written (Nat.lor c.flags (32 * b2n bad)) 0 0) } }
  | _, _ => .wait d

/-! ## Attention (R235) -/

/-- The checks of an attention operation. -/
def Dev.attentionPlan (d : Dev) (p q w : Nat) : Chk Plan := do
  let P := d.part p
  let ix := (loopIndex (P.seq q).stack).getD 0
  need (tForward.form w && !tensorSplit w && !accumulates w 1 && P.inWave) Code.opInvalid
  let x ← d.descFor p q (tslot w 1) false true
  need (windowForm x && x.len 0 == P.kvHd && x.len 1 == 1 && arrayFmt x.fmt && x.blk == (if isMx x.fmt then 32 else 0) &&
    (match P.kvAddr x.addr with
      | some (_, _, h) => h == 0
      | none => false)) Code.descInvalid
  let i ← d.arrayDescs p q w [0]
  let o ← d.outDescs p q w [(2, 1)]
  let l := Tab.put (o.foldl (fun l y => Tab.put l y.1 y.2) i) 1 x
  let ok (g : Geo) : Bool := g.d.ndim == 3 && !g.d.lsel && g.len 0 == P.kvHd && g.len 1 == P.waveTokens.length && decide (g.len 2 ≤ 64)
  need (ok (geoIn l ix 0) && ok (geoIn l ix 2) && (geoIn l ix 0).len 2 == (geoIn l ix 2).len 2) Code.descInvalid
  pure ⟨.attention, l, [2], none⟩
/-- One token of one head: its outputs, its row of scores, and the products that gave both. -/
structure Attend where
  out : List Fl
  row : SmxRow
  prods : List Prod
/-- Attention of one query vector over the first n positions of a row. Its products take units from u on. -/
def attend (gl : List Glitch) (hd fq fkv u : Nat) (qv : List In) (ks vs : List (List In)) : Attend :=
  let n := ks.length
  let a := Prod.whole (flatGeo fq hd 1) qv (flatGeo fkv n hd) ((List.range hd).flatMap fun c => ks.map fun k => k.getD c ⟨.zero, false⟩) (flatGeo 0 n 1) u
  let row := smxRow false ((List.range n).map fun t => a.dotAt gl 0 t)
  let b := Prod.whole (flatGeo 0 n 1) (row.y.map fun y => ⟨y.v, false⟩) (flatGeo fkv hd n) vs.flatten (flatGeo 0 hd 1) (u + a.unitCount)
  let ovf := row.y.any (·.o)
  ⟨(List.range hd).map fun c => let r := b.dotAt gl 0 c; { r with o := r.o || ovf }, row, [a, b]⟩
/-- Attention of every token and head, in logical order of the output. -/
def Dev.attendAll (d : Dev) (p : Nat) (gl : List Glitch) (l g fq : Nat) (qs : List In) : Nat → List (Nat × Nat × StepRow × Nat) → List Attend
  | _, [] => []
  | u, (i, _, r, j) :: rest =>
    let P := d.part p
    let n := r.len + j + 1
    let el (h t : Nat) : List In := (List.range P.kvHd).map fun c => d.kvElem p r l g h t c
    let x := attend gl P.kvHd fq P.kvFmt u ((qs.drop (i * P.kvHd)).take P.kvHd) ((List.range n).map (el 0)) ((List.range n).map (el 1))
    x :: d.attendAll p gl l g fq qs (u + x.prods.foldl (fun m y => m + y.unitCount) 0) rest
/-- What an attention operation reads through its window. -/
def Part.attentionPlaces (P : Part) (x : Desc) : Places :=
  match P.kvAddr x.addr with
  | none => []
  | some (l, g, _) => (((P.step.map StepRun.current).getD []).map (·.2)).flatMap fun r =>
      (List.range (r.len + r.tokens)).flatMap fun t => P.kvPlaces r l g 0 t ++ P.kvPlaces r l g 1 t
/-- Starts an attention operation. -/
def Dev.startAttention (d : Dev) (p q : Nat) (f : Flight) (gl : List Glitch) : Start :=
  let P := d.part p
  match f.geo 0, (Tab.get? f.descs 1).bind fun x => (P.kvAddr x.addr).map fun a => (a, (P.attentionPlaces x).reads), f.geo 2 with
  | some g0, some ((l, g, _), kv), some g2 =>
    if d.meetsKv p (g0.reads ++ g2.givenReads) then .stop d Code.extUnmapped
    else match d.gatherAny p gl (g0.reads ++ kv ++ g2.givenReads) with
    | .wait d => .wait d
    | .stop d c => .stop d c
    | .ok d =>
      let d := d.sliceRecords p gl
      let toks := (List.range (g0.len 2)).flatMap fun e => P.waveTokens.zipIdx.map fun t => (e * P.waveTokens.length + t.2, t.1)
      let xs := d.attendAll p gl l g g0.d.fmt (d.values p g0) 0 toks
      let cands := d.candidates p q (P.arraysOf q f.kind)
      let prods := xs.flatMap (·.prods)
      let d := d.poisonTiles f.no gl cands prods
      let e := d.emitTo p q f g2 (f.srBase.getD 0 0) (elemsOf (xs.flatMap (·.out)))
      .run d { f with started := true
                      result := { Reset.noResult with
                        bytes := e.sink.bytes, fault := e.sink.fault, health := e.health, cycles := unitRuns f.no cands prods
                        empties := (xs.filter fun x => x.row.case == 1).length, infs := (xs.filter fun x => x.row.case == 2).length } }
  | _, _, _ => .wait d

/-! ## Meanings -/

def execKvAppend (p : PIx) (q : Strm) (s : State) : Host.Outcome State Fault Refusal :=
  s.onDev fun d => d.engineRow p.val (strmIx q) .kvAppend fun d w => d.appendPlan p.val (strmIx q) w
def execAttention (p : PIx) (q : Strm) (s : State) : Host.Outcome State Fault Refusal :=
  s.onDev fun d => d.engineRow p.val (strmIx q) .attention fun d w => d.attentionPlan p.val (strmIx q) w

end Sys2Proof.Machine
end

