-- ==== Sys2Proof/Machine/Update.lean ====
section
/-! DEFINITION. The update engines (06): records (R149, R150), UPD with its coefficient tables, curves and columns (R158 to
R164), telemetry (R166 to R168), EXPORT and RINIT (R169, R170), and STALLS (R171). -/

namespace Sys2Proof.Machine

/-! ## Issue (R150 to R153, R169, R170) -/

/-- A records descriptor. -/
def Desc.recordsOk (x : Desc) : Bool :=
  x.fmt == 1 && x.space == 0 && x.addr % 16 == 0 && x.stride 0 != 0 && (x.strides.all fun s => s % 16 == 0)
/-- The rule that an update VOP places on IMM (R109, Table 06-3). -/
def updImmOk (v n : Nat) : Bool := if v == 0x80 then (fmtF32.decode n).isFinite else if v == 0x82 then n == 0 else decide (n < 2 ^ 14)
/-- The form of an update-engine word of stream q (R151, R152, R168, R199). -/
def updForm (q v w : Nat) : Bool :=
  q != 3 && vecForm w (if v == 0x80 then 7 else 0) && slotUse w 4 true && slotUse w 6 true && slotUse w 8 false &&
  immForm q w (updImmOk v) && (if v == 0x80 then !(sdstOn (sdstOf w) && fld (sdstOf w) 4 0 == 31) else !sdstOn (sdstOf w))
def updKind (v : Nat) : OpKind := if v == 0x80 then .upd else if v == 0x82 then .exportOp else .rinit
/-- The checks of an update-engine operation at issue. -/
def Dev.updPlan (d : Dev) (p q v w : Nat) : Chk Plan := do
  let ix := (loopIndex ((d.part p).seq q).stack).getD 0
  need (updForm q v w) Code.opInvalid
  let t ← d.descFor p q (slotAt w 4) true false
  let s ← d.descFor p q (slotAt w 6) false false
  let gt : Geo := ⟨t, ix⟩
  let gs : Geo := ⟨s, ix⟩
  need (v != 0x80 || !bit (vmodOf w) 0 || s.space == 2) Code.opInvalid
  let rec' := if v == 0x82 then gs else gt
  need (rec'.d.recordsOk && d.spanOk p q 0 (rec'.span.1, rec'.span.2 + 10) && sameShape gt gs) Code.descInvalid
  need (v != 0x80 || (s.fmt == 0 && s.smode == 0 && (s.space == 0 || s.space == 2))) Code.descInvalid
  need (v != 0x82 || !(t.smode == 1 || t.smode == 2 || t.fmt == 1 || t.fmt == 13 || t.fmt == 14)) Code.descInvalid
  pure ⟨updKind v, [(0, t), (1, s)], [0], none⟩
/-- Issues an update-engine operation. -/
def Dev.updRow (d : Dev) (p q v : Nat) : Dev := d.engineRow p q (.vop v) fun d w => d.updPlan p q v w

/-! ## Coefficients (R160 to R163) -/

/-- A group's coefficients c0 to c7, flags and η(t). -/
structure Coef where
  c : List Fl
  abs : Bool
  noden : Bool
  sign : Bool
  eta : Fl
  deriving DecidableEq, Repr
def Coef.at' (k : Coef) (i : Nat) : Fl := k.c.getD i .zero
/-- An F32 at an offset of a byte string. -/
def f32At (b : List Byte) (o : Nat) : Val := fmtF32.decode (num b o 4)
/-- η(t) past a curve's first point (R162). -/
def etaGo (t : Nat) : List (Nat × Val) → Fl
  | [] => .zero
  | [(_, r)] => .of r
  | (s0, r0) :: (s1, r1) :: rest =>
    if t < s1 then
      let i (n : Nat) : Fl := .of (Val.ofNat n).r32
      .add (.of r0) (.mul (.div (i (t - s0)) (i (s1 - s0))) (.sub (.of r1) (.of r0)))
    else etaGo t ((s1, r1) :: rest)
/-- η(t) on a curve (R162). -/
def etaOf (t : Nat) (l : List (Nat × Val)) : Fl :=
  match l with
  | [] => .zero
  | (s0, r0) :: _ => if t ≤ s0 then .of r0 else etaGo t l
/-- Steps strictly rising, rates finite. -/
def curveOk : List (Nat × Val) → Bool
  | (s0, r0) :: (s1, r1) :: rest => decide (s0 < s1) && r0.isFinite && curveOk ((s1, r1) :: rest)
  | [(_, r)] => r.isFinite
  | [] => false
/-- Reads what directs the part's work, with a code of its own where it lies in no extent that serves it. A curve or column in a KV extent
is as one outside the extents: UPD_TABLE_INVALID, where R248 alone would give EXT_UNMAPPED (DESIGN CHOICE, log 121). -/
def coefBytes (p a n unmapped : Nat) : Chk (List Byte) :=
  tryCatch (chkFetch p a n) fun c => reject (if c == Code.extUnmapped then unmapped else c)
/-- Reads and checks the entry, curve and column entry of a group for step t (R161). Of the column at BCCOL only the entry that is read
must lie in an extent (DESIGN CHOICE, log 121). -/
def coefOf (p ctab t g : Nat) : Chk Coef := do
  need (decide (g < fld ctab 63 51)) Code.updTableInvalid
  let e ← coefBytes p (fld ctab 47 6 * 64 + 64 * g) 64 Code.extUnmapped
  let fl := num e 32 2
  let npts := num e 34 2
  let curve := num e 36 6
  let bccol := num e 42 6
  let bclen := num e 48 2
  need (decide (fl < 8) && !(bit fl 1 && bit fl 2) && zeroAt e 50 14 && decide (1 ≤ npts) && decide (npts ≤ 1024) &&
    (bccol == 0) == (bclen == 0) && curve % 8 == 0 && bccol % 8 == 0) Code.updTableInvalid
  let cb ← coefBytes p curve (8 * npts) Code.updTableInvalid
  let pts := (List.range npts).map fun i => (num cb (8 * i) 4, f32At cb (8 * i + 4))
  need (curveOk pts) Code.updTableInvalid
  let base := (List.range 8).map fun i => Fl.of (f32At e (4 * i))
  let c ← if bccol == 0 then pure base else do
    let col ← coefBytes p (bccol + 8 * min t (bclen - 1)) 8 Code.updTableInvalid
    need ((f32At col 0).isFinite && (f32At col 4).isFinite) Code.updTableInvalid
    pure (setAt (setAt base 4 (.of (f32At col 0))) 6 (.of (f32At col 4)))
  pure ⟨c, bit fl 0, bit fl 1, bit fl 2, etaOf t pts⟩

/-! ## The recurrence (R158, R159) -/

/-- The values of one update: g, the new moments, wf, delta, and the exact difference that the master is rounded from. -/
structure Upd where
  g : Fl
  m1 : Fl
  m2 : Fl
  wf : Fl
  delta : Fl
  w : Val
  deriving DecidableEq, Repr
def signOf (x : Fl) : Fl :=
  match x.v with
  | .nan _ => .of Val.qnan
  | v => if v.isZero then x else ⟨.fin v.sign 1 0, x.o⟩
def recurrence (k : Coef) (nodecay : Bool) (imm : Fl) (w m1 m2 graw : Val) : Upd :=
  let g := Fl.mul imm (.of graw)
  let m1n := Fl.add (.mul (k.at' 0) (.of m1)) (.mul (k.at' 1) g)
  let q := if k.abs then g.abs else Fl.mul g g
  let m2n := Fl.add (.mul (k.at' 2) (.of m2)) (.mul (k.at' 3) q)
  let n := Fl.add (.mul (k.at' 4) m1n) (.mul (k.at' 5) g)
  let u := if k.noden then n else if k.sign then signOf n else Fl.div n (.add m2n.sqrt (k.at' 6))
  let wf := (Fl.of w).round
  let v := if nodecay then u else Fl.add u (.mul (k.at' 7) wf)
  let delta := Fl.mul k.eta v
  ⟨g, m1n, m2n, wf, delta, Val.add w delta.v.neg⟩
/-- Encodes a value into a format without scale, with the counts of Table 02-8. -/
def encodeCount (fmt : Nat) (v : Val) (o : Bool) : Nat × List Nat :=
  let e := encodeElem fmt .nearest false false false v.quo
  (e.code, category v.quo (o && (decodeElem fmt e.code).isInf) e false)

/-! ## Records -/

/-- What an UPD makes of one record. -/
structure UpdRec where
  addr : Nat
  group : Option Nat
  frozen : Bool
  bytes : List Byte
  cats : List Nat
  g : Val
  wf : Val
  delta : Val
  stalled : Bool
  nnf : Bool
  deriving DecidableEq, Repr
/-- A field of a record, NaN where a byte of it is poisoned (R156). -/
def Dev.recField (d : Dev) (p a off w fmt : Nat) : Val :=
  let (c, bad) := d.codeAt p 0 (8 * ((a + off : Nat) : Int)) w
  if bad then Val.qnan else decodeElem fmt c
/-- Updates one record with a group's coefficients. -/
def Dev.updOne (d : Dev) (p : Nat) (k : Coef) (imm : Fl) (a gf : Nat) (graw : Val) : UpdRec :=
  if bit gf 12 then ⟨a, some (gf % 4096), true, [], zeroCats, .zero, .zero, .zero, false, false⟩
  else
    let u := recurrence k (bit gf 13) imm (d.recField p a 0 48 1) (d.recField p a 6 32 0) (d.recField p a 10 32 0) graw
    let (cw, kw) := encodeCount 1 u.w u.delta.o
    let (c1, k1) := encodeCount 0 u.m1.v u.m1.o
    let (c2, k2) := encodeCount 0 u.m2.v u.m2.o
    let (old, bad) := d.codeAt p 0 (8 * (a : Int)) 48
    { addr := a, group := some (gf % 4096), frozen := false, bytes := natLe 6 cw ++ natLe 4 c1 ++ natLe 4 c2
      cats := addCats kw (addCats k1 k2), g := u.g.v, wf := u.wf.v, delta := u.delta.v
      stalled := u.delta.v.isFinite && !u.delta.v.isZero && !bad && cw == old
      nnf := !(decodeElem 1 cw).isFinite || !u.m1.v.isFinite || !u.m2.v.isFinite }
/-- A record whose GF field is poisoned. It is kept out of the telemetry records (R156); it stays out of the operation's GSQ and RATIO too
(DESIGN CHOICE, log 136). -/
def updNan (a : Nat) : UpdRec :=
  ⟨a, none, true, natLe 6 (fmtX48.nanCode false) ++ natLe 4 0x7FC00000 ++ natLe 4 0x7FC00000, [3, 0, 0, 0, 0, 0, 3], .zero, .zero, .zero, false, false⟩
/-- Updates records in logical order, with the groups met so far; a failed group check ends them with its code. -/
def updGo (d : Dev) (p t : Nat) (imm : Fl) : Tab Coef → List (Nat × Val) → List UpdRec × Option Nat × Dev
  | _, [] => ([], none, d)
  | ks, (a, graw) :: rest =>
    let (gf, bad) := d.codeAt p 0 (8 * ((a + 14 : Nat) : Int)) 16
    if bad then
      let (l, e) := updGo d p t imm ks rest
      (updNan a :: l, e)
    else
      let k : Except Nat Coef × Dev := match Tab.get? ks (gf % 4096) with
        | some k => (.ok k, d)
        | none => (coefOf p (d.part p).upd.ctab.toNat t (gf % 4096)).on d
      match k.1 with
      | .error c => ([], some c, k.2)
      | .ok x =>
        let (l, e) := updGo k.2 p t imm (Tab.put ks (gf % 4096) x) rest
        (d.updOne p x imm a gf graw :: l, e)

/-- Writes a record back: its new bytes, and the rest as read, failing bytes still failing (R154, R156). -/
def Dev.sinkRecord (d : Dev) (p a : Nat) (bs : List Byte) : Sink :=
  d.sinkTab p 0 ((List.range 16).map fun i => match bs[i]? with
    | some b => (a + i, b.toNat, 255)
    | none => (a + i, 0, 0))

/-! ## Telemetry (R166 to R168) -/

/-- Canonical sums of squares of g, wf and delta over non-frozen records; one with a poisoned GF field counts as frozen here (log 136). -/
def squares (l : List UpdRec) : Fl × Fl × Fl :=
  let l := l.filter fun r => !r.frozen
  (dotF (l.map (·.g)) (l.map (·.g)), dotF (l.map (·.wf)) (l.map (·.wf)), dotF (l.map (·.delta)) (l.map (·.delta)))
def ratioOf (dsq wsq : Fl) : Fl :=
  if wsq.v.isZero then (if dsq.v.isZero then .zero else .of (.inf false)) else .div dsq.sqrt wsq.sqrt
/-- The telemetry record of a group at address a. With TACC and an equal stored STEP it adds to what stands there. -/
def Dev.teleRecord (d : Dev) (p t a : Nat) (tacc : Bool) (l : List UpdRec) : List Byte :=
  let (g, w, dl) := squares l
  let live := l.filter fun r => !r.frozen
  let n (f : UpdRec → Bool) : Nat := (live.filter f).length
  let (old, bad) := d.codeAt p 0 (8 * (a : Int)) 32
  let add := tacc && !bad && old == t
  let sum (o : Nat) (x : Fl) : Fl := if add then .add (.of (d.recField p a o 32 0)) x else x
  let cnt (o c : Nat) : List Byte := natLe 4 (satAdd 32 (if add then (d.codeAt p 0 (8 * ((a + o : Nat) : Int)) 32).1 else 0) c)
  let f (x : Fl) : List Byte := natLe 4 x.v.to32.toNat
  let g := sum 4 g
  let w := sum 8 w
  let dl := sum 12 dl
  natLe 4 t ++ f g ++ f w ++ f dl ++ f (ratioOf dl w) ++ cnt 20 live.length ++ cnt 24 (n (·.stalled)) ++ cnt 28 (n (·.nnf))
/-- The groups met and where their telemetry records lie, by ascending group; none while telemetry is off. -/
def Dev.teleAt (d : Dev) (p : Nat) (l : List UpdRec) : List (Nat × Nat) :=
  let tele := (d.part p).upd.tele.toNat
  if !bit tele 0 then []
  else ((l.filterMap (·.group)).foldl (fun t g => Tab.put t g ()) ([] : Tab Unit)).map fun g => (g.1, fld tele 47 5 * 32 + 32 * g.1)
/-- Telemetry of every group met. -/
def Dev.teleSink (d : Dev) (p t : Nat) (tacc : Bool) (l : List UpdRec) : Sink :=
  (d.teleAt p l).foldl (fun s g => s.append (d.sinkBytes p 0 g.2 (d.teleRecord p t g.2 tacc (l.filter fun r => r.group == some g.1)))) .empty
/-- What TACC reads of the telemetry records at some addresses: each STEP, and the whole record where STEP is t (R167, R384). -/
def teleFetch (p t : Nat) : List Nat → Chk Unit
  | [] => pure ()
  | a :: as => do
    let l ← chkFetch p a 4
    if leNat l == t then
      let _ ← chkFetch p a 32
      teleFetch p t as
    else teleFetch p t as

/-! ## Running -/

/-- Addresses of a geometry's elements, in logical order. -/
def Geo.addrs (g : Geo) : List Nat := g.indices.map fun si => (g.bitAt si / 8).toNat
/-- What an UPD reads for its records in logical order: each record whole, and its gradient. -/
def updReads (gt gs : Geo) : List Reads :=
  (gt.addrs.zip gs.reads).map fun x => readRun 0 x.1 6 ++ readRun 0 (x.1 + 6) 4 ++ readRun 0 (x.1 + 10) 4 ++ readRun 0 (x.1 + 14) 2 ++ [x.2]
/-- How many leading records of an UPD have a place in full. -/
def Dev.updFound (d : Dev) (p : Nat) (rs : List Reads) : Nat :=
  (rs.takeWhile fun r => (d.locateAll p r.flat).isSome && !d.meetsKv p r).length
/-- What an UPD writes for the records it has updated, and then for an operation that reaches its end: all records before all gradients, so
a record write that stops the partition leaves every gradient as it is (DESIGN CHOICE, log 136). -/
def Dev.updSink (d : Dev) (p : Nat) (f : Flight) (gs : Geo) (t : Nat) (l : List UpdRec) (e : Option Nat) : Sink :=
  let recs := l.foldl (fun s r => s.append (d.sinkRecord p r.addr r.bytes)) Sink.empty
  let clr := if bit (vmodOf f.w) 0 then
      d.sinkTab p gs.d.space ((gs.indices.take l.length).foldl (fun t si => addBits t (gs.bitAt si) 32 0) []) else .empty
  (recs.append clr).append (match e with
    | some c => ⟨[], some c⟩
    | none => d.teleSink p t (bit (vmodOf f.w) 2) l)
/-- Starts an UPD. Its records are met in logical order, so a record or gradient that has no place stops it with EXT_UNMAPPED behind the
records before it, whose own groups are checked first (R161; log 136). All that it reads is read before the group checks (DESIGN CHOICE,
log 142). -/
def Dev.startUpd (d : Dev) (p q : Nat) (f : Flight) (gl : List Glitch) : Start :=
  let w := f.w
  let imm := d.immValue p q f
  match f.geo 0, f.geo 1 with
  | some gt, some gs =>
    let rs := updReads gt gs
    let m := d.updFound p rs
    if !updImmOk 0x80 imm.toNat then .stop d Code.opInvalid
    else match d.gather p gl (rs.take m).flatten with
    | .wait d => .wait d
    | .stop d c => .stop d c
    | .ok d =>
      let t := (d.part p).upd.step.toNat
      let grads := (d.values p gs).map (·.v)
      let (l, e, d) := updGo d p t (.of (.of32 imm)) [] ((gt.addrs.zip grads).take m)
      let e := if e.isNone && decide (m < rs.length) then some Code.extUnmapped else e
      match (if e.isNone && bit (vmodOf w) 2 then teleFetch p t ((d.teleAt p l).map (·.2)) else if e == some 0 then reject 0 else pure ()).on d with
      | (.error c, d) => stopWith c d
      | (.ok _, d) =>
        let s := d.updSink p f gs t l e
        let (gsq, wsq, dsq) := squares l
        let r := fld (sdstOf w) 4 0
        let f32 (x : Fl) : BitVec 64 := BitVec.ofNat 64 x.v.to32.toNat
        .run d { f with started := true, imm := imm
                        result := { Reset.noResult with
                          bytes := s.bytes, fault := s.fault
                          health := match (d.part p).entry.hcGlobal gt.d.hset with
                            | some n => [⟨n, l.foldl (fun c r => addCats c r.cats) zeroCats⟩]
                            | none => []
                          sums := if sdstOn (sdstOf w) then [(r, f32 gsq), (r + 1, f32 (ratioOf dsq wsq))] else []
                          stalls := (l.filter (·.stalled)).length, stepInc := bit (vmodOf w) 1 } }
  | _, _ => .wait d
/-- Starts an EXPORT. -/
def Dev.startExport (d : Dev) (p q : Nat) (f : Flight) (gl : List Glitch) : Start :=
  let imm := d.immValue p q f
  match f.geo 0, f.geo 1 with
  | some gt, some gs =>
    if !updImmOk 0x82 imm.toNat then .stop d Code.opInvalid
    else match d.gather p gl (gs.reads ++ gt.givenReads) with
    | .wait d => .wait d
    | .stop d c => .stop d c
    | .ok d =>
      let e := d.emitTo p q f gt (f.srBase.getD 0 0) ((d.values p gs).map fun x => ⟨x.v, false⟩)
      .run d { f with started := true, imm := imm
                      result := { Reset.noResult with bytes := e.sink.bytes, fault := e.sink.fault, health := e.health } }
  | _, _ => .wait d
/-- Starts a RINIT. -/
def Dev.startRinit (d : Dev) (p q : Nat) (f : Flight) (gl : List Glitch) : Start :=
  let imm := d.immValue p q f
  match f.geo 0, f.geo 1 with
  | some gt, some gs =>
    if !updImmOk 0x83 imm.toNat then .stop d Code.opInvalid
    else match d.gather p gl gs.reads with
    | .wait d => .wait d
    | .stop d c => .stop d c
    | .ok d =>
      let enc := (d.values p gs).map fun x => encodeCount 1 x.v false
      let s := (gt.addrs.zip enc).foldl (fun s y =>
        s.append (d.sinkBytes p 0 y.1 (natLe 6 y.2.1 ++ List.replicate 8 0 ++ natLe 2 imm.toNat))) Sink.empty
      let cats := enc.foldl (fun c y => addCats c (addCats y.2 [2, 2, 0, 0, 0, 0, 0])) zeroCats
      .run d { f with started := true, imm := imm
                      result := { Reset.noResult with
                        bytes := s.bytes, fault := s.fault
                        health := match (d.part p).entry.hcGlobal gt.d.hset with
                          | some n => [⟨n, cats⟩]
                          | none => [] } }
  | _, _ => .wait d
/-- What the completion of an update operation adds to the registers (R152, R164). An abandoned UPD does not complete: the stalled records
that it has written are not counted in STALLS, on which R161 is silent (DESIGN CHOICE, log 136). -/
def Dev.updDone (d : Dev) (p : Nat) (r : OpResult) : Dev :=
  d.onPart p fun P => { P with upd := { P.upd with stalls := satAdd 32 P.upd.stalls r.stalls, step := if r.stepInc then P.upd.step + 1 else P.upd.step } }
/-- A write of UPD_STAT CLRCNT. -/
def Dev.updClear (d : Dev) (p : Nat) : Dev :=
  d.onPart p fun P => { P with upd := { P.upd with stalls := 0 } }

/-! ## Meanings -/

def execUpd (p : PIx) (q : Strm) (s : State) : Host.Outcome State Fault Refusal := s.onDev fun d => d.updRow p.val (strmIx q) 0x80
def execExport (p : PIx) (q : Strm) (s : State) : Host.Outcome State Fault Refusal := s.onDev fun d => d.updRow p.val (strmIx q) 0x82
def execRinit (p : PIx) (q : Strm) (s : State) : Host.Outcome State Fault Refusal := s.onDev fun d => d.updRow p.val (strmIx q) 0x83
def execUpdClrcnt (p : PIx) (s : State) : Host.Outcome State Fault Refusal := s.onDev fun d => d.pf0Write fun d => d.updClear p.val

end Sys2Proof.Machine
end

