-- ==== Sys2Proof/Machine/Events.lean ====
section
/-! DEFINITION. The start and the completion of issued engine operations (R98, R111, R155), and the end of a program (R119). -/

namespace Sys2Proof.Machine

/-! ## Starting -/

/-- Starts an operation of its kind: what it reads, and what it will write. -/
def Dev.startKind (d : Dev) (p q : Nat) (f : Flight) (gl : List Glitch) : Start :=
  match f.kind with
  | .forward => d.startTensor p q f gl
  | .pair => d.startTensor p q f gl
  | .dxOnly => d.startTensor p q f gl
  | .dwOnly => d.startTensor p q f gl
  | .adapter => d.startAdapter p q f gl
  | .attention => d.startAttention p q f gl
  | .teacherWin => d.startTeacher p q f gl
  | .studentWin => d.startStudent p q f gl
  | .kvAppend => d.startAppend p q f gl
  | .vec => d.startVec p q f gl
  | .scalar => d.startScalar p q f
  | .upd => d.startUpd p q f gl
  | .exportOp => d.startExport p q f gl
  | .rinit => d.startRinit p q f gl
  | .coll => d.startColl p f gl
/-- Replaces an operation in flight. -/
def Dev.setFlight (d : Dev) (p q : Nat) (f : Flight) : Dev := d.onFlight p q fun g => if g.no == f.no then f else g
/-- The TID of an operation's transfer; 0 for what is no COLL operation. -/
def Flight.tid (f : Flight) : Nat := (f.coll.map (·.tid)).getD 0
/-! ### Races between streams (R100) -/

/-- Whether an operation f touches bytes that an operation e of another stream writes: by their descriptors, or the one in the (layer,
group) of the KV window that the other appends to. -/
def races (e f : Flight) : Bool :=
  (e.kind == .kvAppend && f.kind == .attention && e.kvKey == f.kvKey) || e.spans.any fun a => a.out && f.spans.any a.meets
/-- What an operation reads beside the elements that its descriptors name: the other fields of parameter records, node areas, the area
that a PERMUTE moves, labels, and the KV pages of an attention operation. -/
def Dev.extraPlaces (d : Dev) (p : Nat) (f : Flight) (k : Nat) (x : Desc) : Places :=
  let g : Geo := ⟨x, f.loopIx.getD 0⟩
  let nodes (n : Nat) : Places := (List.range n).flatMap fun i => (g.node i).places
  if f.records k then g.addrs.flatMap fun a => [bytePlace 0 (a + 6) 4, bytePlace 0 (a + 10) 4, bytePlace 0 (a + 14) 2]
  else if f.kind == .attention && k == 1 then (d.part p).attentionPlaces x
  else if f.kind == .studentWin && k == 2 then
    ((d.part p).dist.labelReads (x.len 1)).filterMap fun r => (r.2.head?).map fun a => bytePlace r.1 a 4
  else if tensorSplit f.w && f.slots.contains k then nodes 31
  else match f.coll with
    | none => []
    | some c =>
      if c.ckind == 5 then (List.range g.area.2).map fun i => bytePlace x.space (g.area.1 + i) 1
      else if reduces c.ckind && !c.trans.rankMode then
        (List.range 32).map (fun i => bytePlace x.space (x.addr + 4 * i) 4) ++ nodes (nodeEntries (d.bytesIn p x.space x.addr 128)).length
      else []
/-- The elements and scales that an operation reads, which is more than it writes over: a COLL operation reads no target at its start. -/
def Dev.placesOf (d : Dev) (p : Nat) (f : Flight) : Places :=
  (f.descs.filter fun x => f.kind != .coll || !f.slots.contains x.1).flatMap fun x =>
    (if f.windowSlot == some x.1 then [] else (⟨x.2, f.loopIx.getD 0⟩ : Geo).places) ++ d.extraPlaces p f x.1 x.2
/-- The bytes that an operation reads, as they stand. -/
def Dev.seenOf (d : Dev) (p : Nat) (f : Flight) : List OutByte :=
  (d.placesOf p f).reads.flat.filterMap fun r => (d.locate p (d.sees p) r.1 r.2).map fun l => ⟨l.sram, l.loc, d.byteAt l, d.failsAt l⟩
/-- Sets a byte at a place, with its check. -/
def Dev.putAt (d : Dev) (l : Loc) (v : Byte) (bad : Bool) : Dev :=
  let d := if l.sram then d.sramWrite l.loc [v] else d.writePa l.loc [v]
  if !bad then d
  else if l.sram then { d with sramBad := Ivl.add d.sramBad l.loc (l.loc + 1) }
  else d.onMem fun m => { m with bad := Ivl.add m.bad l.loc (l.loc + 1) }
/-- The memory with some bytes as an operation has seen them; and with the bytes at the same places back as they stand in d. -/
def OutByte.place (o : OutByte) : Loc := ⟨o.sram, o.loc, false, false, none⟩
def Dev.overlay (d : Dev) (l : List OutByte) : Dev := l.foldl (fun d o => d.putAt o.place o.val o.bad) d
def Dev.unmix (e d : Dev) (l : List OutByte) : Dev := l.foldl (fun e o => e.putAt o.place (d.byteAt o.place) (d.failsAt o.place)) e
/-- Gives w bits of a space the values that another operation's bytes have for them. -/
def Dev.mixBits (d : Dev) (p space : Nat) (b : Int) (w : Nat) (ws : List OutByte) : Dev :=
  (bytesOfBits b w).zipIdx.foldl (fun d y =>
    match d.locate p (d.sees p) space y.1.toNat with
    | none => d
    | some l => match ws.find? fun o => o.sram == l.sram && o.loc == l.loc with
      | none => d
      | some o =>
        let m := (((2 ^ w - 1) <<< (b % 8).toNat) >>> (8 * y.2)) % 256
        d.putAt l (BitVec.ofNat 8 (Nat.lor (Nat.land (d.byteAt l).toNat (255 - m)) (Nat.land o.val.toNat m))) (o.bad || (m != 255 && d.failsAt l))) d
/-- The memory as an operation reads it in a race: each of its elements and scales from before or after, by free choices of draw k. -/
def Dev.mixIn (d : Dev) (p k : Nat) (f : Flight) (ws : List OutByte) : Dev :=
  (d.placesOf p f).zipIdx.foldl (fun d y => if Config.readsAfter k y.2 then d.mixBits p y.1.1 y.1.2.1 y.1.2.2 ws else d) d
/-- Starts an operation of its kind while other streams' operations write what it reads (R100). It keeps what its start went by: the
glitches, the bytes seen, and a window operation the periscope path. -/
def Dev.raceStart (d : Dev) (p q : Nat) (f : Flight) (gl : List Glitch) : Start :=
  let ws := (d.part p).flights.reverse.flatMap fun x => if x.1 != q && x.2.started && races x.2 f then x.2.result.bytes.reverse else []
  let (k, e) := if ws.isEmpty then (0, d) else d.free
  let m := if ws.isEmpty then d else e.mixIn p k f ws
  match m.startKind p q f gl with
  | .wait e => .wait (e.unmix d ws)
  | .stop e c => .stop (e.unmix d ws) c
  | .run e f' => .run (e.unmix d ws) { f' with
      gl := gl, seen := m.seenOf p f, path := if f.kind == .teacherWin || f.kind == .studentWin then some (d.part p).dist else none }
/-- A COLL operation whose cells that wait to be sent carry what another reading of its inputs gives. -/
def CollRun.resend (c : CollRun) (dev step : Nat) (c' : CollRun) : CollRun :=
  let c' := if c.stamp.isNone then c'.begin dev step else c'
  { c with toSend := c.toSend.map fun y => (c'.toSend.find? fun z => z.flow == y.flow && z.seq == y.seq).getD y }
/-- A started operation with what another reading of its inputs gives. What its start did beside stays done: its units, and what it asked of
the regulators (log 95). -/
def Flight.reread (g g' : Flight) (dev : Nat) (seen : List OutByte) : Flight :=
  { g with
    seen := seen
    result := { g'.result with cycles := g.result.cycles }
    coll := match g.coll, g'.coll with
      | some c, some c' => some (c.resend dev g.imm.toNat c')
      | c, _ => c }
/-- A state with nothing that only holds a start back: the domain runs, and no base is in replacement. -/
def Dev.unheld (d : Dev) : Dev :=
  { d.onLnk fun l => { l with st := .run } with bases := Tab.mapVal (fun _ (B : Base) => { B with rst := .idle }) d.bases }
/-- The running operations of other streams that read what f writes read it from before or after too (R100). Each is started anew on what it
saw at its start, with its glitches, its register operand and its place in the periscope path. -/
def Dev.raceInto (d : Dev) (p q : Nat) (f : Flight) : Dev :=
  (d.part p).flights.foldl (fun d x =>
    let g := x.2
    if x.1 == q || !g.started || !races f g then d
    else
      let (k, d) := d.free
      let m := (d.overlay g.seen).unheld
      let m := match g.path with
        | some y => m.onDist p fun _ => y
        | none => m
      let m := m.mixIn p k g f.result.bytes.reverse
      match m.startKind p x.1 g g.gl with
      | .run e g' => { d.setFlight p x.1 (g.reread g' d.lnk.devid.toNat (m.seenOf p g)) with fresh := e.fresh }
      | _ => d) d

/-! ### Regulators -/

/-- What a started operation asks of the regulators besides the stack units that it has read: the stack units that it writes, and what it
sends over TD–TD links outside the periscope channel, which is free. Its marks are what the three regulators must have served by its end:
it waits for its own requests, which those before them precede, and for no regulator that it asks nothing of (R20, R315, R316; log 105). d0
is the state before its start. -/
def Dev.account (d0 d : Dev) (p : Nat) (f : Flight) : Dev × Flight :=
  let d := (d.chargeBytes p f.result.bytes).charge p 2 (Config.fabricBytes f.no)
  (d, { f with mark := [0, 1, 2].map fun r => if (d.bucket p r).asked = (d0.bucket p r).asked then 0 else (d.bucket p r).asked })
/-- Whether the regulators have served what an operation asked for. -/
def Dev.served (d : Dev) (p : Nat) (f : Flight) : Bool := f.mark.zipIdx.all fun m => decide (m.1 ≤ (d.bucket p m.2).served)
/-- Starts an operation whose checks let it run; e is the state after its hot-channel lists were read. Its start can make others ready
(R101, R111). -/
def Dev.launch (d e : Dev) (p q : Nat) (f : Flight) (gl : List Glitch) : Dev :=
  match e.raceStart p q f gl with
  | .wait e => { d with bases := e.bases }
  | .stop e c => if f.kind == .coll then e.peColl c p q f.pc f.tid else e.peOp c p q f.pc
  | .run e f =>
    let (e, f) := d.account e p { f with tags := gl.filter fun g => match g with
      | .tag _ => true
      | _ => false }
    ((e.setFlight p q f).onPart p Part.markReady).raceInto p q f
/-- OP_START: dependencies, hazards and engines allow the operation at item ix of a stream to run (R98, R99, R101, R111). A hot-channel list
that waited for an earlier operation is read now (R62). -/
def Dev.opStart (d : Dev) (p q ix : Nat) (gl : List Glitch) : Dev :=
  let P := d.part p
  match (P.seq q).opAt ix with
  | none => d
  | some f =>
    if f.started || !d.running p || !P.depsMet q f || !d.engineReady p q f then d
    else match controlGlitch gl, deviceGlitch gl with
      | none, none => match (lateLists p (P.listsDue f) f).on d with
        | (.error c, e) => if c == 0 then { d with bases := e.bases } else e.peOp c p q f.pc
        | (.ok f, e) => d.launch e p q f gl
      | c, n =>
        let d := match c with
          | some t => (d.detect { recP Code.parityCtrl p with unit := 1, index := t }).onSeq p q fun s => { s with pc := f.pc }
          | none => d
        match n with
        | some n => d.parityDev n
        | none => d

/-! ## Completing -/

/-- Completes the operation at item ix of a stream, where it runs and is of a kind and the regulators have served its accesses: its
result takes effect, then `after`. -/
def Dev.complete (d : Dev) (p q ix : Nat) (kind : OpKind → Bool) (after : Dev → Flight → Dev) : Dev :=
  match (d.seq p q).opAt ix with
  | none => d
  | some f =>
    if !(f.started && kind f.kind && d.running p && d.served p f && (f.kind.isUpd || d.ownsBeat p)) then d
    else
      let d := d.applyResult p q f
      if (d.part p).st == .faulted then d else after (d.retire p q f.no) f
/-- TENSOR_COMPLETE. -/
def Dev.tensorComplete (d : Dev) (p q ix : Nat) : Dev :=
  d.complete p q ix OpKind.isTensor fun d f =>
    if f.kind == .teacherWin || f.kind == .studentWin then d.windowDone p f
    else (d.addRows p f.result.empties f.result.infs).noteSpans p f
/-- VEC_COMPLETE. -/
def Dev.vecComplete (d : Dev) (p q ix : Nat) : Dev :=
  d.complete p q ix OpKind.isVec fun d f => d.addRows p f.result.empties f.result.infs
/-- UPDATE_OP_COMPLETE. -/
def Dev.updComplete (d : Dev) (p q ix : Nat) : Dev :=
  d.complete p q ix OpKind.isUpd fun d f => d.updDone p f.result

/-- What a COLL operation whose cells have all moved writes, by what it saw of its inputs at its start; and the state after it. -/
def Dev.collResult (d : Dev) (p q : Nat) (f : Flight) (c : CollRun) : Except Nat Flight × Dev :=
  let (r, e) := (d.overlay f.seen).collEnd p q f c |>.on (d.overlay f.seen)
  (r.map fun x => { f with result := { Reset.noResult with
      bytes := x.sink.bytes, fault := x.sink.fault, health := x.health
      sums := if sdstOn (sdstOf f.w) then [(fld (sdstOf f.w) 4 0, BitVec.ofNat 64 (b2n x.stale + 2 * b2n c.poisoned))] else [] } },
    e.unmix d f.seen)
/-- COLL_COMPLETE: every cell sent and received; the outputs are written, and the summary (R293), once the stack-write regulator serves
them. A DRAIN waits for every reduction of its epoch (R300). -/
def Dev.collComplete (d : Dev) (p q ix : Nat) : Dev :=
  match (d.seq p q).opAt ix with
  | none => d
  | some f => match f.coll with
    | none => d
    | some c =>
      if !(f.started && c.toSend.isEmpty && d.allReceived c && d.running p && !d.lnk.frozen && d.served p f && d.servable p [1]) ||
          (c.ckind == 6 && (d.part p).reducing fun _ => true) then d
      else match d.collResult p q f c with
        | (.error k, e) => if k == 0 then { d with bases := e.bases } else e.peColl k p q f.pc c.tid
        | (.ok f, e) =>
          let e := ((e.raceInto p q f).chargeBytes p f.result.bytes).applyResult p q f
          if (e.part p).st == .faulted then e else (e.retire p q f.no).onPart p fun P => P.epochAfter q c.ckind

/-! ## The end of a program -/

/-- HALT_REACHED. In a running wave the program of SQF ends the wave (R230), once the stack regulators serve the copies and rows (R315). -/
def Dev.haltReached (d : Dev) (p q : Nat) : Dev :=
  let P := d.part p
  let s := P.seq q
  match s.hold with
  | .halt code =>
    let ends := q == 0 && (match (d.part p).step with
      | some r => r.phase == 1 && !r.abort
      | none => false)
    if !(d.running p && s.st == .run && s.items.isEmpty && (!ends || d.servable p [0, 1])) then d
    else match if q == 0 then d.waveWaits p 2 else none with
    | some d => d
    | none =>
      let d := d.onSeq p q fun s => { s with st := .halted, hold := .none, stack := [], hcode := BitVec.ofNat 32 code }
      let d := d.vfEvent p (3 + q) (3 + q)
      if ends then d.endWave p code else d
  | _ => d

/-! ## Meanings -/

def execOpStart (p : PIx) (q : Strm) (ix : Nat) (gl : List Glitch) (s : State) : Host.Outcome State Fault Refusal :=
  s.onDev fun d => d.opStart p.val (strmIx q) ix gl
def execTensorComplete (p : PIx) (q : Strm) (ix : Nat) (s : State) : Host.Outcome State Fault Refusal :=
  s.onDev fun d => d.tensorComplete p.val (strmIx q) ix
def execVecComplete (p : PIx) (q : Strm) (ix : Nat) (s : State) : Host.Outcome State Fault Refusal :=
  s.onDev fun d => d.vecComplete p.val (strmIx q) ix
def execUpdateOpComplete (p : PIx) (q : Strm) (ix : Nat) (s : State) : Host.Outcome State Fault Refusal :=
  s.onDev fun d => d.updComplete p.val (strmIx q) ix
def execCollComplete (p : PIx) (q : Strm) (ix : Nat) (s : State) : Host.Outcome State Fault Refusal :=
  s.onDev fun d => d.collComplete p.val (strmIx q) ix
def execHaltReached (p : PIx) (q : Strm) (s : State) : Host.Outcome State Fault Refusal := s.onDev fun d => d.haltReached p.val (strmIx q)

end Sys2Proof.Machine
end

