-- ==== Sys2Proof/Machine/Weights.lean ====
section
/-! DEFINITION. Extents, the staging aperture, base weights with their loading, re-check and replacement under load (10, 16). -/

namespace Sys2Proof.Machine

/-! ## Extents (R247 to R250, R407) -/

/-- Table 16-6, with the bytes that it reserves. -/
def extForm (b : List Byte) : Bool :=
  let kind := fld (num b 2 1) 2 0
  bodyLen 32 b && decide (num b 0 1 < 64) && fld (num b 2 1) 6 3 == 0 && zeroAt b 4 4 &&
  (kind == 1 || (num b 3 1 == 0 && num b 16 8 == 0))
/-- Whether [a, a + n) and [b, b + m) share an address. -/
def meets (a n b m : Nat) : Bool := decide (a < b + m) && decide (b < a + n)
/-- Whether the slots of an enabled POD_CFG or the pages and tags of an enabled KV_CFG lie within a range of partition addresses. -/
def Part.configured (P : Part) (a n : Nat) : Bool :=
  (P.podCfg.getLsbD 63 && meets a n (P.podAddr 0) (16 * P.podStride)) ||
  (P.kvCfg.getLsbD 63 && (meets a n P.kvBaseAt (P.kvBlock P.kvNpages 0 0 - P.kvBaseAt) || meets a n (P.kvTagAt 0) (8 * P.kvNpages)))
/-- Whether a clear of an entry is allowed (R407). -/
def Part.clearable (P : Part) (e : Nat) : Bool :=
  P.quiet && P.step.isNone && (match Tab.get? P.ext e with
    | some x => !P.configured x.vbase x.len
    | none => true)
/-- The EXT_INVALID cases of a set (R249). -/
def Dev.extBad (d : Dev) (p e kind b vbase off len : Nat) : Bool :=
  (Tab.get? (d.part p).ext e).isSome || decide (3 < kind) || vbase % 2 ^ 21 != 0 || off % 2 ^ 21 != 0 || len % 2 ^ 21 != 0 ||
  len == 0 || decide (2 ^ 40 < len) || decide (2 ^ 48 < vbase + len) ||
  ((d.part p).ext.any fun x => meets vbase len x.2.vbase x.2.len) ||
  (kind == 1 && !((d.base b).st == .ready && decide (b < 16) && decide (off + len ≤ baseLength (d.base b))))
/-- Sets an entry; a range of its own is filled with zeros and tagged first, once the stack-write regulator serves the fill (R315, R316). -/
def Dev.extPut (d : Dev) (p e kind b vbase off len : Nat) : Done :=
  if kind == 1 then .now (d.onPart p fun P => { P with ext := Tab.put P.ext e ⟨1, b, vbase, off, len⟩ }) 0 (natLe 8 0)
  else match d.alloc len (.extent p e) with
    | none => .now d Code.memFull []
    | some (lo, d) =>
      if !d.servable p [1] then .wait else
      let (k, d) := (d.zeroFor p lo len).tagNew (d.part p).kgen lo len
      .now (d.onPart p fun P => { P with ext := Tab.put P.ext e ⟨kind, 0, vbase, lo, len⟩, kgen := k }) 0 (natLe 8 lo)
/-- Whether an entry has a range of its own. -/
def Part.ownRange (P : Part) (e : Nat) : Bool := match Tab.get? P.ext e with
  | some x => x.kind != 1
  | none => false
/-- Clears an entry; a range of its own is zeroed and freed. -/
def Dev.extClear (d : Dev) (p e : Nat) : Dev :=
  match Tab.get? (d.part p).ext e with
  | none => d
  | some x =>
    let d := if x.kind == 1 then d else
      let (k, d) := (d.zeroFor p x.pbase x.len).tagOld (d.part p).kgen x.pbase x.len
      (d.freeRanges fun r => decide (r.owner = .extent p e)).onPart p fun P => { P with kgen := k }
    d.onPart p fun P => { P with ext := Tab.erase P.ext e }
/-- EXT_SET. -/
def Dev.extSet (d : Dev) (ch : Chan) : Dev :=
  d.command ch 0x130 extForm fun d b =>
    let p := num b 0 1
    let e := num b 1 1
    let kind := fld (num b 2 1) 2 0
    let set := bit (num b 2 1) 7
    let st := (d.part p).st
    if !ready d then .now d Code.notReady []
    else if st == .unused || st == .setup || st == .resetting || (!set && !(d.part p).clearable e) then .now d Code.partBusy []
    else if !set then (if (d.part p).ownRange e && !d.servable p [1] then .wait else .now (d.extClear p e) 0 (natLe 8 0))
    else if d.extBad p e kind (num b 3 1) (num b 8 8) (num b 16 8) (num b 24 8) then .now d Code.extInvalid []
    else d.extPut p e kind (num b 3 1) (num b 8 8) (num b 16 8) (num b 24 8)

/-! ## The staging aperture (R251, R415) -/

/-- The PA of a byte that BAR2 reaches. -/
def Dev.staged (d : Dev) (p a : Nat) : Option Nat :=
  if 2 ^ 36 ≤ a then none
  else match d.pa? p a with
    | some x => if x.kind == 2 then some x.pa else none
    | none => none
/-- EXT_HOST, once, at the first refused byte. -/
def Dev.extHost (d : Dev) (p addr n : Nat) : Dev :=
  match (List.range n).find? fun i => (d.staged p (addr + i)).isNone with
  | none => d
  | some i => d.detect { recP Code.extHost p with av := true, addr := addr + i }
/-- A host write of staging bytes: a unit written in part is read first, and a failed tag discards the write (R260, R261). -/
def Dev.stagingWrite (d : Dev) (p addr : Nat) (gl : List Glitch) (bs : List Byte) : Dev :=
  d.writeAll p gl (bs.zipIdx.filterMap fun x => (d.staged p (addr + x.2)).map fun a => (a, x.1))
/-- A host read: each byte as staging memory holds it, or all ones; EP where a poisoned byte was met. On A0 a read that lies
partly outside returns all ones for every byte (erratum E2). -/
def Dev.stagingRead (d : Dev) (p addr : Nat) (gl : List Glitch) (n : Nat) : Dev :=
  let pas := (List.range n).map fun i => d.staged p (addr + i)
  if !d.host.b1 && pas.any (·.isNone) then d.emit (.readData p (List.replicate n 0xFF) false)
  else
    let d := d.readUnits p gl (unitsOf (pas.filterMap id))
    let bad (x : Option Nat) : Bool := match x with
      | some a => Ivl.mem d.mem.bad a
      | none => false
    d.emit (.readData p (pas.map fun x => match x with
      | some a => if bad x then 0xFF else Memory.read d.mem.bytes a
      | none => 0xFF) (pas.any bad))
/-- BAR2_ACCESS: one TLP, as the host-DMA and stack regulators serve it (R315, R415). In the hold state reads return all ones and writes are
discarded (R390). A read that does not reach the function, carries a PASID prefix or comes outside the streams that IDEREQ demands completes
as Unsupported Request, and such a write is discarded (R397, R401, R402). A parity failure on a control path of the stack's controller is
PARITY_DEV (R384). -/
def Dev.bar2 (d : Dev) (p addr : Nat) (wr : Option (List Byte)) (n : Nat) (via : Via) (gl : List Glitch) : Dev :=
  if !d.host.answering then d
  else if d.err.holdst then
    match wr with
    | none => d.emit (.readData p (List.replicate n 0xFF) false)
    | some _ => d
  else if !d.vfOpen p || !d.admits (p + 1) via then
    match wr with
    | none => d.emit (.regData (p + 1) none)
    | some _ => d
  else if !d.servable p [0, 1, 4] then d
  else match deviceGlitch gl with
    | some k => d.parityDev k
    | none => match wr with
      | some bs => ((d.charge p 4 bs.length).stagingWrite p addr gl bs).extHost p addr bs.length
      | none => ((d.charge p 4 n).stagingRead p addr gl n).extHost p addr n

/-! ## Manifests (R262, R265, R423) -/

/-- A shard table entry. -/
def parseShard (b : List Byte) : Shard := ⟨num b 0 2, num b 8 8, num b 16 8, BitVec.ofNat 256 (num b 32 32), false, false, 0⟩
def shardForm (b : List Byte) : Bool := zeroAt b 2 6 && zeroAt b 24 8
/-- Whether the shards of layer j tile it: each lies in it, none overlaps another, and their lengths add up to it. -/
def tilesLayer (sh : List Shard) (j : Nat) : Bool :=
  let l := sh.filter fun s => s.layer == j
  let size := layerSize sh j
  !l.isEmpty && (l.all fun s => decide (1 ≤ s.length) && decide (s.length ≤ 2 ^ 30) && decide (s.offset + s.length ≤ size)) &&
  l.zipIdx.all fun x => (l.drop (x.2 + 1)).all fun t => !meets x.1.offset x.1.length t.offset t.length
/-- Layers never fall along a shard table, so that a layer's shards stand together (R262). -/
def layersRise : List Shard → Bool
  | [] => true
  | [_] => true
  | s :: t :: rest => decide (s.layer ≤ t.layer) && layersRise (t :: rest)
/-- Reads a plaintext manifest for a body that names nlayer layers and homes of lbuf bytes; none when it is invalid. -/
def readManifest (m : List Byte) (mlen nlayer lbuf : Nat) : Option (List Shard) :=
  let n := num m 2 2
  let entries := (List.range n).map fun i => slice m (64 + 64 * i) 64
  let sh := entries.map parseShard
  if num m 0 2 == nlayer && mlen == 64 + 64 * n && m.length == mlen && zeroAt m 4 60 && entries.all shardForm && layersRise sh &&
      (sh.all fun s => decide (s.layer < nlayer)) && (List.range nlayer).all fun j => tilesLayer sh j && decide (layerSize sh j ≤ lbuf) then
    some sh
  else none
/-- The LIVE MODEL key of a base (R344). -/
def Dev.modelKey (d : Dev) (b : Nat) : Option (BitVec 256) :=
  (d.sec.tkeys.find? fun x => x.2.model && x.2.base == b).map fun x => x.2.key
/-- The fields that BASE_DEFINE and BASE_REPLACE share. -/
def defineForm (b : List Byte) : Bool :=
  decide (num b 0 1 < 16) && zeroAt b 1 1 && decide (1 ≤ num b 2 2) && decide (num b 2 2 ≤ 4096) && decide (2 ≤ num b 4 4) && num b 4 4 % 2 == 0 &&
  zeroAt b 48 16
/-- SRC, PORT, FWD, ADDR and LEN as BASE_LOAD has them. -/
def sourceForm (src port fwd addr len : Nat) : Bool :=
  decide (src < 2) && (if src == 0 then port == 0 else decide (port < 24) && addr == 0 && len == 0) && (decide (fwd < 24) || fwd == 0xFF)
/-- The authenticated manifest of a body: its shards and its SHA-256, or the code of its refusal. -/
def Dev.manifest (d : Dev) (b : List Byte) (cipher : List Byte) : Except Nat (List Shard × BitVec 256) :=
  match d.modelKey (num b 0 1) with
  | none => .error Code.keyAbsent
  | some k => match gcmPlain k (BitVec.ofNat 96 (num b 20 12)) cipher (BitVec.ofNat 128 (num b 32 16)) with
    | none => .error Code.baseAuth
    | some m => match readManifest m (num b 16 4) (num b 2 2) (num b 4 4 * 2 ^ 20) with
      | none => .error Code.manifestInvalid
      | some sh => .ok (sh, Config.sha256 m)

/-! ## Base commands (R264, R265, R270, R273) -/

/-- BASE_DEFINE: homes are allocated, and Heril generates generation 0 of the shared key. -/
def Dev.baseDefine (d : Dev) (ch : Chan) (cipher : List Byte) : Dev :=
  d.command ch 0x110 (fun b => bodyLen 64 b && defineForm b && d.dma) fun d b =>
    let x := num b 0 1
    let lbuf := num b 4 4 * 2 ^ 20
    let n := num b 2 2
    if !ready d then .now d Code.notReady []
    else if (d.base x).st != .empty then .now d Code.baseBusy []
    else match d.manifest b cipher with
      | .error c => .now d c []
      | .ok (sh, g) => match d.allocs lbuf (.home x) n with
        | none => .now d Code.memFull []
        | some (homes, d) =>
          let (k, d) := d.draw
          let d := homes.foldl (fun d h => d.setTags h lbuf false) d
          let d := d.setShared x ⟨.stable, false, n * (lbuf / 4096), 0, some k, none, none⟩
          ok (d.onBase x fun B => { Reset.base with st := .loading, gen := B.gen, nlayer := n, lbuf := lbuf, homes := homes, shards := sh, manifest := g })
/-- BASE_LOAD: from now on shards not yet verified are received from the source. -/
def Dev.baseLoad (d : Dev) (ch : Chan) : Dev :=
  d.command ch 0x111 (fun b => bodyLen 32 b && decide (num b 0 1 < 16) && zeroAt b 4 4 && zeroAt b 24 8 &&
      sourceForm (num b 1 1) (num b 2 1) (num b 3 1) (num b 8 8) (num b 16 8) && (num b 1 1 != 0 || d.dma)) fun d b =>
    let again (s : Shard) : Shard := if s.stored then s else { s with fails := 0 }
    ok ((d.shardEnds (num b 0 1)).onBase (num b 0 1) fun B =>
      { B with loading := true, src := num b 1 1, port := num b 2 1, fwd := num b 3 1, shards := B.shards.map again })
/-- Whether a partition of a mode other than SERVE declares a base, or any partition at all. -/
def Dev.declaredBy (d : Dev) (b : Nat) (f : Part → Bool) : Bool :=
  d.parts.any fun x => x.2.st != .unused && f x.2 && x.2.declared.contains b
/-- BASE_REPLACE: buffers are allocated under the shared key, and new layers are received. -/
def Dev.baseReplace (d : Dev) (ch : Chan) (cipher : List Byte) : Dev :=
  d.command ch 0x112 (fun b => bodyLen 96 b && defineForm b && decide (1 ≤ num b 64 2) && decide (num b 64 2 ≤ num b 2 2) && zeroAt b 69 3 && zeroAt b 88 8 &&
      sourceForm (num b 66 1) (num b 67 1) (num b 68 1) (num b 72 8) (num b 80 8) && d.dma) fun d b =>
    let x := num b 0 1
    let B := d.base x
    if B.st != .ready || B.rst != .idle then .now d Code.baseBusy []
    else if d.declaredBy x fun P => P.entry.mode != .serve then .now d Code.baseInUse []
    else match d.manifest b cipher with
      | .error c => .now d c []
      | .ok (sh, g) =>
        if num b 2 2 != B.nlayer || num b 4 4 * 2 ^ 20 != B.lbuf then .now d Code.manifestInvalid []
        else match d.allocs B.lbuf (.buffer x) (num b 64 2) with
          | none => .now d Code.memFull []
          | some (bufs, d) =>
            let (k, d) := bufs.foldl (fun (y : KGen × Dev) h => y.2.tagNew y.1 h B.lbuf) (d.shared x, d)
            ok (((d.setShared x k).shardEnds x).onBase x fun B =>
              { B with rst := .fill, rprev := .fill, front := 0, nbuf := num b 64 2, bufs := bufs, staging := [], newShards := sh, newManifest := g,
                       switched := false, bwait := 0, waiters := [], loading := true, src := num b 66 1, port := num b 67 1, fwd := num b 68 1 })
/-- Frees physical ranges of a base: buffers no longer needed leave its use counts. -/
def Dev.freeBufs (d : Dev) (b : Nat) (los : List Nat) : Dev :=
  let n := (d.base b).lbuf
  let (k, d) := los.foldl (fun (y : KGen × Dev) h => y.2.tagOld y.1 h n) (d.shared b, d)
  (d.setShared b k).freeRanges fun r => r.ofBase b && los.contains r.lo
/-- The replacement's registers of a base that is IDLE again; FRONT stays as it is (Table 10-7). -/
def Base.idle (B : Base) : Base :=
  { B with rst := .idle, rprev := .idle, nbuf := 0, bufs := [], staging := [], newShards := [], newManifest := 0,
           switched := false, waiters := [], loading := false }
/-- BASE_ABORT: only before the switch, with FRONT 0. -/
def Dev.baseAbort (d : Dev) (ch : Chan) : Dev :=
  d.command ch 0x113 (fun b => bodyLen 8 b && decide (num b 0 1 < 16) && zeroAt b 1 7) fun d b =>
    let x := num b 0 1
    let B := d.base x
    if B.rst == .idle || B.switched || B.front != 0 then .now d Code.baseBusy []
    else ok ((d.freeBufs x (B.bufs ++ B.staging.map (·.2))).onBase x Base.idle)
/-- BASE_REMOVE. -/
def Dev.baseRemove (d : Dev) (ch : Chan) : Dev :=
  d.command ch 0x114 (fun b => bodyLen 8 b && decide (num b 0 1 < 16) && zeroAt b 1 7) fun d b =>
    if d.declaredBy (num b 0 1) fun _ => true then .now d Code.baseInUse [] else ok (d.emptyBase (num b 0 1))

/-! ## Receiving shards (R264, R266, R269, R270, R273) -/

def noShard : Shard := ⟨0, 0, 0, 0, false, false, 0⟩
/-- Whether a plaintext is the shard. -/
def Shard.isOf (s : Shard) (plain : Option (List Byte)) : Bool :=
  match plain with
  | some l => l.length == s.length && imageDigest l == s.digest
  | none => false
/-- The next layer that a free buffer may take: the lowest one at or above FRONT with no buffer yet. -/
def Base.nextLayer (B : Base) : Nat :=
  ((List.range B.nlayer).find? fun j => decide (B.front ≤ j) && (Tab.get? B.staging j).isNone).getD B.nlayer
/-- The range that takes a shard of layer j of the new manifest, if one does now: the home of a layer already swapped, or a buffer. -/
def Base.bufferFor (B : Base) (j : Nat) : Option Nat :=
  if j < B.front then B.homes[j]? else match Tab.get? B.staging j with
  | some h => some h
  | none => if j == B.nextLayer then B.bufs.head? else none
/-- Whether layer j already holds its new shards: the front has passed it in a replacement under way (R273). -/
def Base.swapped (B : Base) (j : Nat) : Bool := B.rst != .idle && B.switched && decide (j < B.front)
/-- Whether shard i of the current table is wanted: the base is being loaded, or the shard is BAD and its layer not swapped. -/
def Base.wantsOld (B : Base) (i : Nat) : Bool :=
  match B.shards[i]? with
  | none => false
  | some s => ((B.st == .loading || B.st == .failed) && B.loading && !s.stored) || (B.st == .ready && s.bad && !B.swapped s.layer)
/-- Whether shard i of the new manifest is wanted, and a buffer takes it. -/
def Base.wantsNew (B : Base) (i : Nat) : Bool :=
  match B.newShards[i]? with
  | none => false
  | some s => B.rst != .idle && (!s.stored || s.bad) && (B.bufferFor s.layer).isSome
/-- Whether every shard of a layer is stored. -/
def layerStored (sh : List Shard) (j : Nat) : Bool := sh.all fun s => s.layer != j || s.stored
/-- How many new layers are staged and verified. -/
def Base.stagedCount (B : Base) : Nat := if B.rst == .idle then 0 else ((List.range B.nlayer).filter (layerStored B.newShards)).length
/-- BASE_LOAD_FAIL, with the base and the shard. -/
def Dev.loadFail (d : Dev) (b i : Nat) : Dev := d.detect { rec0 Code.baseLoadFail with aux := b + i * 2 ^ 32 }
/-- A delivery of shard i of the current table. -/
def Dev.takeOld (d : Dev) (b i : Nat) (plain : Option (List Byte)) : Dev :=
  let B := d.base b
  let s := B.shards.getD i noShard
  if s.isOf plain then
    let d := d.storeBase (d.baseHolder b) (B.homes.getD s.layer 0 + s.offset) (plain.getD [])
    d.onBase b fun B =>
      let sh := setAt B.shards i { s with stored := true, bad := false, fails := 0 }
      let done := (B.st == .loading || B.st == .failed) && sh.all (·.stored)
      { B with shards := sh, st := if done then .ready else B.st, loading := B.loading && !done }
  else
    let d := (d.onBase b fun B => { B with shards := setAt B.shards i { s with fails := s.fails + 1 } }).emit (.shardRequest b i)
    if s.fails == 3 then
      (d.onBase b fun B => if B.st == .ready then B else { B with st := .failed, loading := false }).loadFail b i
    else d
/-- A replacement with enough layers staged switches: GEN advances (R272). -/
def Base.switch (B : Base) : Base :=
  if B.rst == .fill && decide (min B.nbuf B.nlayer ≤ B.stagedCount) then { B with rst := .front, rprev := .front, front := 0, switched := true, gen := B.gen + 1 }
  else B
/-- A delivery of shard i of the new manifest. FAILED ends once no shard is left that has failed four deliveries and not been delivered and
verified since, a BAD one that is stored among them (R273). -/
def Dev.takeNew (d : Dev) (b i : Nat) (plain : Option (List Byte)) : Dev :=
  let B := d.base b
  let s := B.newShards.getD i noShard
  match B.bufferFor s.layer with
  | none => d
  | some h =>
    let d := d.onBase b fun B =>
      if s.layer < B.front then B else { B with staging := Tab.put B.staging s.layer h, bufs := B.bufs.filter (· != h) }
    if s.isOf plain then
      let d := d.storeBase (d.baseHolder b) (h + s.offset) (plain.getD [])
      d.onBase b fun B =>
        let sh := setAt B.newShards i { s with stored := true, bad := false, fails := 0 }
        let well := sh.all fun t => decide (t.fails < 4)
        ({ B with newShards := sh, rst := if B.rst == .failed && well then B.rprev else B.rst } : Base).switch
    else
      let d := (d.onBase b fun B => { B with newShards := setAt B.newShards i { s with fails := s.fails + 1 } }).emit (.shardRequest b i)
      if s.fails == 3 then (d.onBase b fun B => if B.rst == .failed then B else { B with rprev := B.rst, rst := .failed }).loadFail b i else d
/-- SHARD_RECEIVED, while the management cores run (R364, R390), and once the stack regulators of the partition that it is counted against serve
its stores (R315, R316). The first device of a chain forwards it (R267). A device without the owner's key forwards only (R267). The digest
tells a delivery for a BAD shard from one of the replacement under way. -/
def Dev.shardReceived (d : Dev) (b : Nat) (h cipher : List Byte) : Dev :=
  let B := d.base b
  let i := num h 4 4
  let wanted := h.length == 64 && num h 0 1 == b && (B.wantsOld i || B.wantsNew i)
  let k? := d.modelKey b
  if !d.coresUp || (k?.isSome && wanted && !d.servable (d.baseHolder b) [0, 1]) then d
  else
    let d := (d.chainStart b (h ++ cipher)).shardEnds b
    match if wanted then k? else none with
    | none => d
    | some k =>
    let plain := gcmPlain k (BitVec.ofNat 96 (num h 8 12)) cipher (BitVec.ofNat 128 (num h 32 16))
    if B.wantsOld i && (!B.wantsNew i || (B.shards.getD i noShard).isOf plain) then d.takeOld b i plain
    else if B.wantsNew i then d.takeNew b i plain
    else d

/-! ## The front, and the scrubber (R268, R269, R272) -/

/-- Whether a running wave of a partition is an old wave of a base that has not passed layer j. -/
def Dev.holdsFront (d : Dev) (p b j : Nat) : Bool :=
  match (d.part p).step with
  | none => false
  | some s => s.phase == 1 && !s.abort && !d.sees p b && decide (s.position b ≤ j + 1)
/-- LAYER_SWAP, while the management cores run (R364, R390): layer FRONT is staged and no old wave needs it. The new waves that wait for
it wait no longer. -/
def Dev.layerSwap (d : Dev) (b : Nat) : Dev :=
  let B := d.base b
  match Tab.get? B.staging B.front with
  | none => d
  | some h =>
    if !d.coresUp || B.rst != .front || !layerStored B.newShards B.front || (d.parts.any fun x => d.holdsFront x.1 b B.front) then d
    else
      let old := B.homes.getD B.front 0
      let d := d.onBase b fun B =>
        { B with homes := setAt B.homes B.front h, staging := Tab.erase B.staging B.front, bufs := B.bufs ++ [old], front := B.front + 1,
                 waiters := B.waiters.filter fun w => decide (B.front < w.2) }
      if B.front + 1 < B.nlayer then d
      else
        let d := (d.freeBufs b (d.base b).bufs).onMem fun m =>
          { m with ranges := m.ranges.map fun r => if r.ofBase b then { r with owner := .home b } else r }
        d.onBase b fun B => { B with shards := B.newShards, manifest := B.newManifest }.idle
/-- The shards of index i that the base holds now: of the new table where its layer has been swapped, of the old one elsewhere; in
the middle of a replacement an index can name one of each. -/
def Base.checked (B : Base) (i : Nat) : List (Bool × Shard) :=
  let news := (B.newShards[i]?.toList.filter fun s => B.swapped s.layer).map fun s => (true, s)
  let olds := (B.shards[i]?.toList.filter fun s => !B.swapped s.layer).map fun s => (false, s)
  olds ++ news
/-- How many shards are BAD now (R274). -/
def Base.badCount (B : Base) : Nat :=
  ((List.range (max B.shards.length B.newShards.length)).flatMap B.checked).countP fun x => x.2.bad
/-- One shard of a re-check: a BAD one fails until its new delivery is stored (R268, R269). -/
def Dev.recheckOne (d : Dev) (b i : Nat) (late : Bool) (gl : List Glitch) (x : Bool × Shard) : Dev :=
  let s := x.2
  let a := (d.base b).homes.getD s.layer 0 + s.offset
  let d := d.readUnits noPart gl (unitsOf ((List.range s.length).map (a + ·)))
  let good := !s.bad && Ivl.count d.mem.bad a (a + s.length) == 0 && s.isOf (some (Memory.readList d.mem.bytes a s.length))
  let d := d.onMem fun m => { m with checked := satAdd 32 m.checked 1, lag := if late then satAdd 32 m.lag 1 else m.lag }
  if good then d
  else
    let y := { s with bad := true, fails := if s.bad then s.fails else 0 }
    let d := d.onBase b fun B => if x.1 then { B with newShards := setAt B.newShards i y } else { B with shards := setAt B.shards i y }
    (d.detect { rec0 Code.shardBad with aux := b + i * 2 ^ 32 }).emit (.shardRequest b i)
/-- SHARD_RECHECK, in RUN only (R362). -/
def Dev.recheck (d : Dev) (b i : Nat) (late : Bool) (gl : List Glitch) : Dev :=
  if (d.base b).st != .ready || !ready d || !d.coresUp || d.ckr.pwr != 0 || d.ckr.clockWait then d
  else match deviceGlitch gl with
    | some k => d.parityDev k
    | none => ((d.base b).checked i).foldl (fun d x => d.recheckOne b i late gl x) d
/-- A write of MEM_ERR CLRCNT. -/
def Dev.memClear (d : Dev) (k : Nat) : Dev := d.onMem fun m => { m with ce := setAt m.ce k 0, ue := setAt m.ue k 0 }

/-! ## Meanings -/

def execExtSet (ch : Chan) (s : State) : Host.Outcome State Fault Refusal := s.onDev fun d => d.extSet ch
def execBar2Access (p : PIx) (addr : Nat) (wr : Option (List Byte)) (len : Nat) (via : Via) (gl : List Glitch) (s : State) :
    Host.Outcome State Fault Refusal := s.onDev fun d => d.bar2 p.val addr wr len via gl
def execBaseDefine (ch : Chan) (manifest : List Byte) (s : State) : Host.Outcome State Fault Refusal := s.onDev fun d => d.baseDefine ch manifest
def execBaseLoad (ch : Chan) (s : State) : Host.Outcome State Fault Refusal := s.onDev fun d => d.baseLoad ch
def execBaseReplace (ch : Chan) (manifest : List Byte) (s : State) : Host.Outcome State Fault Refusal := s.onDev fun d => d.baseReplace ch manifest
def execBaseAbort (ch : Chan) (s : State) : Host.Outcome State Fault Refusal := s.onDev fun d => d.baseAbort ch
def execBaseRemove (ch : Chan) (s : State) : Host.Outcome State Fault Refusal := s.onDev fun d => d.baseRemove ch
def execShardReceived (b : Fin 16) (header cipher : List Byte) (s : State) : Host.Outcome State Fault Refusal :=
  s.onDev fun d => d.shardReceived b.val header cipher
def execLayerSwap (b : Fin 16) (s : State) : Host.Outcome State Fault Refusal := s.onDev fun d => d.layerSwap b.val
def execShardRecheck (b : Fin 16) (shard : Nat) (late : Bool) (gl : List Glitch) (s : State) : Host.Outcome State Fault Refusal :=
  s.onDev fun d => d.recheck b.val shard late gl
def execMemClrcnt (k : Fin 16) (s : State) : Host.Outcome State Fault Refusal := s.onDev fun d => d.pf0Write fun d => d.memClear k.val

end Sys2Proof.Machine
end

