-- ==== Sys2Proof/Machine/RegMap.lean ====
section
/-! DEFINITION. The register map of PF0 BAR0 and of a VF's BAR0 (Tables 16-4 and 16-7 and the register sections of every
chapter): which register lies at an offset, and what it reads as. Every register begins at a multiple of 8. -/

namespace Sys2Proof.Machine

/-- The registers, by block. -/
inductive Reg where
  | glbId | glbErrata | glbFwver | glbCtl | glbStat | glbInt | glbYstat
  | ckrStat | ckrDom (i : Nat) | loupeCtl | loupeRes | rstCause | bootStat
  | partCtl (p : Nat) | partTiles (p : Nat) (hi : Bool) | partRes (p : Nat) | partYield (p : Nat) (view : Bool)
  | regCfg (p r : Nat) | slow (p : Nat) | ledgerStat | ylimit | srKey (p : Nat) | srCtr (p i : Nat)
  | distCfg (p : Nat) | distTemp (p : Nat) | distWin (p : Nat) | distLbl (p : Nat) | distSeq (p : Nat) | distSrT (p : Nat)
  | distStat (p : Nat) | distStall (p : Nat)
  | hc (n i : Nat) | hcStat (n : Nat) | errStat | errCtl | errCnt | errRec (i : Nat) | lastDe (i : Nat)
  | peelCfg | peelPmask | peelStat | peelFail (hi : Bool)
  | lnkId | lnkBeat | beatLoad | lnkHold | lnkSched | portStat (l : Nat) | portCnt (l : Nat) | lnkEpoch (p : Nat)
  | ext (p e i : Nat) | updCtab (p : Nat) | updTele (p : Nat) | updStep (p : Nat) | updStat (p : Nat)
  | podCfg (p : Nat) | podWin (p : Nat) | podSlot (p k : Nat) | podHandle (p k : Nat) | podDtag (p k : Nat) | catStat
  | kvCfg (p : Nat) | kvBase (p : Nat) | kvPages (p : Nat) | kvTag (p : Nat) | kvWin (p : Nat) | srvStat (p : Nat)
  | baseStat (b : Nat) | baseRepl (b : Nat) | memErr (k : Nat) | memLast | scrubCfg | scrubStat
  | arrStat (t : Nat) | arrCyc (t i : Nat) | arrLend (t : Nat)
  | sqDesc (p : Nat) (teach : Bool) | sqStat (p q : Nat) | sqFence (p q : Nat) | sqHalt (p q : Nat) | sqSum (p q r : Nat)
  | sem (p n : Nat) | veEmpty (p : Nat) | veInf (p : Nat) | veStat (p : Nat)
  | mbCtl (m : Fin 2) | mbReq (m : Fin 2) (off : Nat) | mbResp (m : Fin 2) (off : Nat)
  | secStat | kgenP (p : Nat) | kgenS (b : Nat) | tkey (k : Nat)
  | sqBase (p : Nat) | cqBase (p : Nat) | qCfg (p : Nat) | sqTail (p : Nat) | cqHead (p : Nat) | qStat (p : Nat)
  | bell (p q : Nat) (resume : Bool) | vstat (p : Nat) | verrStat (p : Nat) | verrRec (p i : Nat)
  deriving DecidableEq, Repr

/-! ## Where a register lies -/

/-- The first n 8-byte places from an offset, and which of them an offset is. -/
def wordIn (base n o : Nat) : Option Nat := if base ≤ o && o < base + 8 * n then some ((o - base) / 8) else none
/-- Index and remainder of an offset in n blocks of a size from a base. -/
def blockOf (base size n o : Nat) : Option (Nat × Nat) :=
  if base ≤ o && o < base + size * n then some ((o - base) / size, (o - base) % size) else none

/-- A leader tile's window, offsets 2000h to 5FFFh (R126, R148); in a teacher leader's, the registers of SQF alone (R198). -/
def windowReg (p : Nat) (teach : Bool) (o : Nat) : Option Reg :=
  let strm (s : Nat) : Option Nat := if !teach then some s else if s == 0 then some 3 else none
  if o == 0x2000 then some (.sqDesc p teach)
  else match blockOf 0x2100 0x20 3 o with
    | some (s, r) => (strm s).bind fun q =>
        if r == 0 then some (.sqStat p q) else if r == 8 then some (.sqFence p q) else if r == 0x10 then some (.sqHalt p q) else none
    | none => match blockOf 0x2800 0x100 3 o with
      | some (s, r) => (strm s).map fun q => .sqSum p q (r / 8)
      | none =>
        if teach then none
        else match wordIn 0x3000 256 o with
          | some n => some (.sem p n)
          | none =>
            if o == 0x4000 then some (.veEmpty p) else if o == 0x4008 then some (.veInf p) else if o == 0x4010 then some (.veStat p) else none
/-- Whose streams a tile leads, and whether as a teacher leader; its owner's before a bubble guest's. -/
def Dev.leads (d : Dev) (t : Nat) : Option (Nat × Bool) :=
  match d.parts.find? fun x => x.2.st.hasTiles && !x.2.entry.guest && x.2.entry.leader == t with
  | some x => some (x.1, false)
  | none => match d.parts.find? fun x => x.2.st.hasTiles && x.2.entry.mode == .distil && (maskTiles x.2.entry.tiles).head? == some t with
    | some x => some (x.1, true)
    | none => (d.parts.find? fun x => x.2.st.hasTiles && x.2.entry.guest && d.leader x.1 == t).map fun x => (x.1, false)
/-- A tile's window in PF0 BAR0. -/
def Dev.tileReg (d : Dev) (t o : Nat) : Option Reg :=
  if o == 0x1000 then some (.arrStat t)
  else match wordIn 0x1008 3 o with
    | some i => some (.arrCyc t i)
    | none =>
      if o == 0x1020 then some (.arrLend t)
      else (d.leads t).bind fun x => windowReg x.1 x.2 o
def glbReg (o : Nat) : Option Reg :=
  if o == 0 then some .glbId else if o == 0x10 then some .glbErrata else if o == 0x18 then some .glbFwver
  else if o == 0x20 then some .glbCtl else if o == 0x28 then some .glbStat else if o == 0x30 then some .glbInt
  else if o == 0x38 then some .glbYstat else none
def ckrReg (o : Nat) : Option Reg :=
  if o == 0 then some .ckrStat
  else match wordIn 0x100 6 o with
    | some i => some (.ckrDom i)
    | none =>
      if o == 0x200 then some .loupeCtl else if o == 0x208 then some .loupeRes
      else if o == 0x300 then some .rstCause else if o == 0x308 then some .bootStat else none
/-- The 40h bytes of one partition's distillation registers. -/
def distReg (p o : Nat) : Option Reg :=
  [Reg.distCfg p, .distTemp p, .distWin p, .distLbl p, .distSeq p, .distSrT p, .distStat p, .distStall p][o / 8]?
def srReg (p o : Nat) : Reg := if o == 0 then .srKey p else .srCtr p (o / 8 - 1)
def entryReg (p : Nat) (view : Bool) (o : Nat) : Option Reg :=
  [Reg.partCtl p, .partTiles p false, .partTiles p true, .partRes p, .partYield p view][o / 8]?
def prtReg (o : Nat) : Option Reg :=
  match blockOf 0 0x40 64 o with
  | some (p, r) => entryReg p false r
  | none => match blockOf 0x10000 0x40 64 o with
    | some (p, r) => if r < 0x28 then some (.regCfg p (r / 8)) else none
    | none => match wordIn 0x20000 64 o with
      | some p => some (.slow p)
      | none =>
        if o == 0x30000 then some .ledgerStat else if o == 0x30008 then some .ylimit
        else match blockOf 0x180000 0x20 64 o with
          | some (p, r) => some (srReg p r)
          | none => (blockOf 0x190000 0x40 64 o).bind fun x => distReg x.1 x.2
/-- One counter set's eight registers. -/
def setReg (n r : Nat) : Reg := if r == 0x38 then .hcStat n else .hc n (r / 8)
def errReg (o : Nat) : Option Reg :=
  if o == 0 then some .errStat else if o == 8 then some .errCtl else if o == 0x10 then some .errCnt
  else if o == 0x10000 then some .peelCfg else if o == 0x10008 then some .peelPmask else if o == 0x10010 then some .peelStat
  else if o == 0x10018 then some (.peelFail false) else if o == 0x10020 then some (.peelFail true)
  else match wordIn 0x20 4 o with
    | some i => some (.errRec i)
    | none => match wordIn 0x40 4 o with
      | some i => some (.lastDe i)
      | none => (blockOf 0x200000 0x40 8192 o).map fun x => setReg x.1 x.2
def lnkReg (o : Nat) : Option Reg :=
  if o == 0 then some .lnkId else if o == 8 then some .lnkBeat else if o == 0x10 then some .beatLoad
  else if o == 0x18 then some .lnkHold else if o == 0x20 then some .lnkSched
  else match blockOf 0x1000 0x20 24 o with
    | some (l, r) => if r == 0 then some (.portStat l) else if r == 8 then some (.portCnt l) else none
    | none => (wordIn 0x2000 64 o).map .lnkEpoch
def updReg (p o : Nat) : Option Reg := [Reg.updCtab p, .updTele p, .updStep p, .updStat p][o / 8]?
def kvReg (p o : Nat) : Option Reg := [Reg.kvCfg p, .kvBase p, .kvPages p, .kvTag p, .kvWin p, .srvStat p][o / 8]?
def slotReg (p k o : Nat) : Option Reg := [Reg.podSlot p k, .podHandle p k, .podDtag p k][o / 8]?
def podReg (p o : Nat) : Option Reg :=
  if o == 0 then some (.podCfg p) else if o == 8 then some (.podWin p)
  else (blockOf 0x200 0x20 16 o).bind fun x => slotReg p x.1 x.2
def hubReg (o : Nat) : Option Reg :=
  match blockOf 0 0x2000 64 o with
  | some (p, r) => if r % 0x20 == 0x18 then none else some (.ext p (r / 0x20) (r % 0x20 / 8))
  | none => match blockOf 0x80000 0x20 64 o with
    | some (p, r) => updReg p r
    | none => match blockOf 0x90000 0x400 64 o with
      | some (p, r) => podReg p r
      | none => match blockOf 0xB0000 0x40 64 o with
        | some (p, r) => kvReg p r
        | none => match blockOf 0xC0000 0x40 16 o with
          | some (b, r) => if r == 0 then some (.baseStat b) else if r == 8 then some (.baseRepl b) else none
          | none => match blockOf 0xD0000 0x10 16 o with
            | some (k, r) => if r == 0 then some (.memErr k) else none
            | none =>
              if o == 0xA0000 then some .catStat else if o == 0xD0100 then some .memLast
              else if o == 0xD0200 then some .scrubCfg else if o == 0xD0208 then some .scrubStat else none
/-- One mailbox's 64 KiB: the control register, and the two buffers as 8-byte places. -/
def boxReg (m : Fin 2) (o : Nat) : Option Reg :=
  if o == 0 then some (.mbCtl m)
  else match wordIn 0x1000 512 o with
    | some i => some (.mbReq m (8 * i))
    | none => (wordIn 0x2000 512 o).map fun i => .mbResp m (8 * i)
def mbxReg (o : Nat) : Option Reg :=
  if o < 0x10000 then boxReg 0 o
  else if o < 0x20000 then boxReg 1 (o - 0x10000)
  else if o == 0x400000 then some .secStat
  else match wordIn 0x400100 64 o with
    | some p => some (.kgenP p)
    | none => match wordIn 0x400400 16 o with
      | some b => some (.kgenS b)
      | none => (wordIn 0x401000 1024 o).map .tkey
/-- Table 16-4. -/
def Dev.pfReg (d : Dev) (o : Nat) : Option Reg :=
  if o < 0x100000 then glbReg o
  else if o < 0x200000 then ckrReg (o - 0x100000)
  else if o < 0x400000 then prtReg (o - 0x200000)
  else if o < 0x800000 then errReg (o - 0x400000)
  else if o < 0x1000000 then lnkReg (o - 0x800000)
  else if o < 0x2000000 then hubReg (o - 0x1000000)
  else match blockOf 0x2000000 0x40000 96 o with
    | some (t, r) => d.tileReg t r
    | none => if 0x8000000 ≤ o && o < 0x9000000 then mbxReg (o - 0x8000000) else none
/-- The queue registers and doorbells of a VF. -/
def queueReg (p o : Nat) : Option Reg :=
  match [Reg.sqBase p, .cqBase p, .qCfg p, .sqTail p, .cqHead p, .qStat p][o / 8]? with
  | some r => some r
  | none => (blockOf 0x1000 0x20 4 o).bind fun x =>
      if x.2 == 0 then some (.bell p x.1 false) else if x.2 == 8 then some (.bell p x.1 true) else none
/-- The mirrored registers of a VF from 1_1000h on. -/
def mirrorReg (p o : Nat) : Option Reg :=
  match blockOf 0x11000 0x20 1 o with
  | some (_, r) => some (srReg p r)
  | none => match blockOf 0x11040 0x40 1 o with
    | some (_, r) => distReg p r
    | none => match blockOf 0x11080 0x20 1 o with
      | some (_, r) => updReg p r
      | none => match blockOf 0x110C0 0x30 1 o with
        | some (_, r) => kvReg p r
        | none => match blockOf 0x11200 0x20 16 o with
          | some (k, r) => slotReg p k r
          | none => match blockOf 0x11410 0x28 1 o with
            | some (_, r) => entryReg p true r
            | none => match wordIn 0x11440 5 o with
              | some r => some (.regCfg p r)
              | none =>
                if o == 0x11100 then some (.podCfg p) else if o == 0x11108 then some (.podWin p)
                else if o == 0x11400 then some (.lnkEpoch p) else if o == 0x11408 then some (.slow p)
                else if o == 0x11480 then some (.kgenP p) else none
/-- Table 16-7: the view of partition p. -/
def Dev.vfReg (d : Dev) (p o : Nat) : Option Reg :=
  let P := d.part p
  let tiled := P.st.hasTiles && d.leader p != 0x7F
  if o < 0x2000 then queueReg p o
  else if o < 0x6000 then (if tiled then windowReg p false o else none)
  else if o < 0xA000 then none
  else if o < 0xE000 then (if tiled && P.entry.mode == .distil then windowReg p true (o - 0x8000) else none)
  else if o == 0x10000 then some (.vstat p)
  else if o == 0x10008 then some (.verrStat p)
  else match wordIn 0x10020 4 o with
    | some i => some (.verrRec p i)
    | none => match blockOf 0x80000 0x40 8192 o with
      | some (n, r) => if n < P.entry.hscount then some (setReg (P.entry.hsbase + n) r) else none
      | none => mirrorReg p o
/-- Registers of 32 bits; every other one has 64. -/
def Reg.narrow : Reg → Bool
  | .arrStat _ => true
  | .sqHalt _ _ => true
  | .veStat _ => true
  | _ => false

/-! ## What a register reads as -/

/-- A word made of fields, each with its lowest bit. -/
def pack (l : List (Nat × Nat)) : Nat := l.foldl (fun n x => n + x.1 * 2 ^ x.2) 0
/-- An 8-byte place of a byte string. -/
def word8 (l : List Byte) (i : Nat) : Nat := num l (8 * i) 8
def linkCode : LinkState → Nat
  | .nosched => 0
  | .armed => 1
  | .run => 2
  | .hold => 3
  | .beatlost => 4
def seqCode : SeqState → Nat
  | .idle => 0
  | .run => 1
  | .waitSem => 2
  | .waitBeat => 3
  | .stopped => 4
  | .halted => 5
  | .fault => 6
def podCode : PodState → Nat
  | .empty => 0
  | .binding => 1
  | .bound => 2
  | .unbinding => 3
/-- The stream (1 forward, 2 backward, 3 update) whose operation holds array a of a tile; the teacher's is forward (R95). In a bubble the
arrays are the guest's, and outside one the host's (R326). -/
def Dev.roleOf (d : Dev) (t a : Nat) : Nat :=
  match d.ownerOf t with
  | none => 0
  | some p =>
    let runs (r : Nat) : Option Nat := ((d.part r).flights.find? fun x => d.ownsBeat r && x.2.kind.isTensor && x.2.started &&
      ((d.part r).arraysOf x.1 x.2.kind).contains a && (d.groupTiles r x.1).contains t).map (·.1)
    if a == 2 && (d.tile t).bwLent then 1
    else match (p :: d.live.filter fun r => (d.part r).entry.guest && (d.part r).entry.hostp == p).findSome? runs with
      | some 3 => 1
      | some q => q + 1
      | none => 0
/-- The VEC operation that a partition runs; of two, as a DISTIL partition's teacher and student groups may run, that of the
lowest-numbered stream, of which R148 says nothing (DESIGN CHOICE, log 67). -/
def Part.vecRun (P : Part) : Option Flight := (P.flights.find? fun x => x.2.kind.isVec && x.2.started).map (·.2)
/-- DIST_* of a partition that is not DISTIL read as after reset (R221). -/
def Part.distView (P : Part) : Dist := if P.entry.mode == .distil then P.dist else Reset.dist
/-- OWNER of a counter set: the partition in whose range it lies, and of a set in none, the last that counted in it. -/
def Dev.hcOwner (d : Dev) (n : Nat) : Nat :=
  match d.parts.find? fun x => x.2.st != .unused && decide (x.2.entry.hsbase ≤ n) && decide (n < x.2.entry.hsbase + x.2.entry.hscount) with
  | some x => x.1
  | none => (d.hcSet n).owner
/-- GLB, CKR and MBX registers. -/
def Dev.readCtl (d : Dev) : Reg → Nat
  | .glbId => pack [(0x2064, 48), (b2n d.host.b1, 40)]
  | .glbErrata => pack [(b2n d.host.b1, 1), (b2n d.host.b1, 0)]
  | .glbFwver => pack [(d.host.hver.toNat, 32), (d.host.qver.toNat, 0)]
  | .glbCtl => pack [(b2n d.host.lock, 63), (b2n d.host.idereq, 62)]
  | .glbStat => pack [(d.host.lrate, 61), (d.host.lwidth, 56), (b2n d.host.flit, 55), (d.host.badacc, 32)]
  | .glbInt => d.host.int.toNat
  | .glbYstat => d.host.ystat.toNat
  | .ckrStat => pack [(b2n d.ckr.lock, 63), (d.ckr.pwr, 60), (b2n d.ckr.aonstb, 59), (b2n d.ckr.pllLock, 58), (b2n d.ckr.refOk, 57),
      (b2n d.ckr.perstArm, 56), (d.ckr.refLoss, 32), (d.ckr.cdcTmo, 16)]
  | .ckrDom i =>
    let m := d.ckr.doms.getD i Reset.dom
    pack [(m.src, 62), (b2n m.gated, 61), (1, 60), (b2n (m.slpen || decide (3 ≤ i)), 59), (b2n (decide (3 ≤ i)), 58), (m.switches, 32)]
  | .loupeCtl => pack [(b2n d.ckr.loupeStart, 63), (b2n d.ckr.loupeDone, 62), (b2n d.ckr.loupeErr, 61), (d.ckr.loupeSel.toNat, 40),
      (d.ckr.loupeGate.toNat, 0)]
  | .loupeRes => d.ckr.loupeCount
  | .rstCause => pack [(d.ckr.cause, 60), (d.ckr.clkFail, 58), (d.ckr.nfull, 0)]
  | .bootStat => pack [(d.ckr.phase, 60), (d.ckr.reason, 56), (b2n d.ckr.bank, 55), (b2n d.ckr.fallbk, 54), (d.ckr.tboot, 32), (d.ckr.act.toNat, 0)]
  | .mbCtl m => pack [(b2n (d.host.mb m).busy, 62), (b2n (d.host.mb m).done, 61), (b2n (d.host.mb m).ovr, 60)]
  | .mbReq m o => num (d.host.mb m).req o 8
  | .mbResp m o => num (d.host.mb m).resp o 8
  | .secStat =>
    let s := d.sec
    if !s.loaded then 0
    else pack [(b2n s.sealed, 63), (b2n s.debug, 62), (b2n s.staging, 61), (b2n s.staged, 60), (b2n s.permit, 59), (b2n d.pins.presHeld, 58),
      (b2n (s.loopRun != 0), 57), (b2n s.recovery, 56), (d.persist.credMask, 48), (d.persist.floorH, 16), (d.persist.floorQ, 0)]
  | .kgenP p => (d.part p).kgen.word
  | .kgenS b => (d.shared b).word
  | .tkey k => match Tab.get? d.sec.tkeys k with
    | none => 0
    | some x => pack [(1, 63), (b2n x.model, 62), (b2n (!x.model), 61), (if x.model then 0 else x.ownerp, 55), (if x.model then x.base else 0, 51), (if x.model then 0 else x.tkd, 41),
        (x.keyid.toNat, 0)]
  | _ => 0
/-- PRT, ERR and LNK registers. -/
def Dev.readPart (d : Dev) : Reg → Nat
  | .partCtl p => d.partCtl p
  | .partTiles p hi => if hi then d.tileMask p / 2 ^ 64 else d.tileMask p % 2 ^ 64
  | .partRes p => d.partRes p
  | .partYield p _ => (d.part p).yieldWord
  | .regCfg p r => (d.part p).regCfg r
  | .slow p => (d.part p).slowWord
  | .ledgerStat => pack [(d.err.mism.toNat, 56), (d.err.abeat.toNat, 0)]
  | .ylimit => d.err.ylimit.toNat
  | .srKey p => (d.part p).srKey.toNat
  | .srCtr p i => ((d.part p).srCtr.getD i 0).toNat
  | .distCfg p => if (d.part p).entry.mode == .distil then pack [((d.part p).dist.cfg.toNat, 0), ((d.part p).entry.nteach, 56)] else 0
  | .distTemp p => (d.part p).distView.temp.toNat
  | .distWin p => (d.part p).distView.win.toNat
  | .distLbl p => (d.part p).distView.lbl.toNat
  | .distSeq p => pack [((d.part p).distView.tseq.toNat, 32), ((d.part p).distView.sseq.toNat, 0)]
  | .distSrT p => (d.part p).distView.srT.toNat
  | .distStat p =>
    let x := (d.part p).distView
    pack [(x.nslots, 51), (((List.range x.nslots).filter fun k => (x.slot k).st == .free).length, 38), (x.nolbl, 0)]
  | .distStall p => pack [((d.part p).distView.tstall, 32), ((d.part p).distView.sstall, 0)]
  | .hc n i => (d.hcSet n).cats.getD i 0
  | .hcStat n => pack [(b2n (d.hcSet n).satf, 62), (d.hcOwner n, 32), ((d.hcSet n).ops, 0)]
  | .errStat => pack [(b2n d.err.holdst, 63), (b2n d.err.degraded, 62), (d.err.hclass, 60), (d.err.queue.length, 48), (d.err.dropped, 32),
      (d.err.nextSeq.toNat, 0)]
  | .errCnt => pack [(d.err.d2dRetry, 32), (d.err.peFlt, 16)]
  | .errRec i => match d.err.queue with
    | [] => 0
    | r :: _ => word8 r.bytes i
  | .lastDe i => word8 d.err.lastDe i
  | .peelCfg => pack [(b2n d.err.peelEn, 63), (d.err.peelPeriod, 0)]
  | .peelPmask => d.err.peelPmask.toNat
  | .peelStat => pack [(d.err.peelRounds, 32), (d.err.peelBeats, 0)]
  | .peelFail hi => if hi then d.err.peelFail.toNat / 2 ^ 64 else d.err.peelFail.toNat % 2 ^ 64
  | .lnkId => d.lnk.devid.toNat
  | .lnkBeat => pack [(linkCode d.lnk.st, 61), (d.lnk.count.toNat, 0)]
  | .beatLoad => pack [(b2n d.lnk.loadArm, 63), (d.lnk.loadVal.toNat, 0)]
  | .lnkHold => pack [(b2n d.lnk.holdArm, 62), (d.lnk.holdCause, 59), (b2n (d.lnk.latched || d.lnk.st == .hold || d.lnk.st == .beatlost), 58),
      (d.lnk.resume.toNat, 0)]
  | .lnkSched => match d.lnk.active with
    | none => 0
    | some s => pack [(1, 63), (s.period, 32), (s.id, 0)]
  | .portStat l =>
    let x := d.port l
    pack [(x.st, 62), (b2n x.rate, 61), (b2n x.rateMax, 60), (x.ldly, 58), (x.pdev, 38), (x.pport, 33), (x.beatErr, 16), (d.lnk.edgeErr, 0)]
  | .portCnt l => pack [(d.lnk.flywheel, 48), ((d.port l).schedErr, 32), ((d.port l).crcErr, 16), ((d.port l).fecCorr, 0)]
  | .lnkEpoch p => pack [(b2n (d.part p).drained, 63), ((d.part p).epoch.toNat, 0)]
  | _ => 0
/-- HUB registers. -/
def Dev.readHub (d : Dev) : Reg → Nat
  | .ext p e i => ((d.part p).extWords e).getD i 0
  | .updCtab p => (d.part p).upd.ctab.toNat
  | .updTele p => (d.part p).upd.tele.toNat
  | .updStep p => (d.part p).upd.step.toNat
  | .updStat p => pack [(b2n ((d.part p).flights.any fun x => x.2.kind.isUpd && x.2.started), 63), ((d.part p).upd.stalls, 0)]
  | .podCfg p => (d.part p).podCfg.toNat
  | .podWin p => (d.part p).podWin.toNat
  | .podSlot p k =>
    let s := (d.part p).pod k
    pack [(podCode s.st, 62), (b2n s.held, 61), (s.gen.toNat, 32), (s.pins, 16)]
  | .podHandle p k => if ((d.part p).pod k).st == .empty then 0xFFFFFFFF else ((d.part p).pod k).handle.toNat
  | .podDtag p k => if ((d.part p).pod k).st == .empty then 0 else ((d.part p).pod k).dtag.toNat
  | .catStat => pack [((d.cat.filter fun x => x.2.st != .free).length, 32), ((d.cfg.catsz * 2 ^ 20 - d.catUsed) / 2 ^ 20, 0)]
  | .kvCfg p => (d.part p).kvCfg.toNat
  | .kvBase p => (d.part p).kvBase.toNat
  | .kvPages p => (d.part p).kvPages.toNat
  | .kvTag p => (d.part p).kvTag.toNat
  | .kvWin p => (d.part p).kvWin.toNat
  | .srvStat p => match (d.part p).step with
    | none => 0
    | some s => pack [(1, 63), (s.wave, 32), (s.nwave, 16), (countRows s.rows fun r => r.code.isSome, 0)]
  | .baseStat b =>
    let B := d.base b
    pack [(B.st.code, 61), (B.nlayer, 48), (B.gen.toNat, 32), (B.shards.length, 16), (B.badCount, 0)]
  | .baseRepl b =>
    let B := d.base b
    pack [(B.rst.code, 62), (B.front, 48), (B.stagedCount, 34), (B.bwait, 0)]
  | .memErr k => pack [(d.mem.ce.getD k 0, 32), (d.mem.ue.getD k 0, 0)]
  | .memLast => pack [(b2n d.mem.lastValid, 63), (d.mem.lastKind, 61), (d.mem.lastOwner, 50), (d.mem.lastPa / 64 * 64, 0)]
  | .scrubCfg => d.mem.interval
  | .scrubStat => pack [(d.mem.lag, 32), (d.mem.checked, 0)]
  | _ => 0
/-- Tile registers and a VF's own. -/
def Dev.readTile (d : Dev) : Reg → Nat
  | .arrStat t => pack [(b2n (d.tile t).poison, 15), (match d.ownerOf t with
      | some p => gangCode (d.part p).entry.gang
      | none => 3, 8), (d.roleOf t 0, 4), (d.roleOf t 1, 2), (d.roleOf t 2, 0)]
  | .arrCyc t i => if (d.ownerOf t).isNone then 0 else [(d.tile t).cycFa, (d.tile t).cycBx, (d.tile t).cycBw].getD i 0
  | .arrLend t => if (d.ownerOf t).isNone then 0 else pack [((d.tile t).lendMax, 48), ((d.tile t).lendCyc, 0)]
  | .sqDesc p teach => (if teach then (d.part p).sqDescT else (d.part p).sqDesc).toNat
  | .sqStat p q =>
    let s := d.seq p q
    pack [(seqCode s.st, 60), (s.stack.length, 56), ((s.items.filter fun i => match i with
      | .op _ => true
      | .post _ _ _ => false).length, 52), (s.pc, 0)]
  | .sqFence p q => pack [(b2n (d.seq p q).fenceValid, 63), ((d.seq p q).fid.toNat, 0)]
  | .sqHalt p q => (d.seq p q).hcode.toNat
  | .sqSum p q r => (d.sum p (q, r)).toNat
  | .sem p n => (d.part p).semv n
  | .veEmpty p => (d.part p).smxEmpty
  | .veInf p => (d.part p).smxInf
  | .veStat p => pack [(b2n (d.part p).vecRun.isSome, 17), (b2n (d.part p).vePoison, 16), (match (d.part p).vecRun with
      | some f => byt f.w 1 1
      | none => 0, 8)]
  | .sqBase p => (d.part p).vf.sqBase.toNat
  | .cqBase p => (d.part p).vf.cqBase.toNat
  | .qCfg p => let v := (d.part p).vf
    pack [(b2n v.en, 63), (b2n v.ien, 62), (v.cqsz, 8), (v.sqsz, 0)]
  | .sqTail p => (d.part p).vf.sqTail
  | .cqHead p => (d.part p).vf.cqHead
  | .qStat p => let v := (d.part p).vf
    pack [(b2n v.qerr, 63), (b2n v.phase, 62), (v.lost, 32), (v.cqTail, 16), (v.sqHead, 0)]
  | .vstat p => (d.part p).vf.vstat.toNat
  | .verrStat p => pack [((d.part p).vf.view.length, 16), ((d.part p).vf.viewDropped, 0)]
  | .verrRec p i => match (d.part p).vf.view with
    | [] => 0
    | r :: _ => word8 r i
  | _ => 0
/-- What a register reads as: each register has its value in one of the four groups, and 0 in the others. -/
def Dev.readReg (d : Dev) (r : Reg) : Nat := d.readCtl r + d.readPart r + d.readHub r + d.readTile r

end Sys2Proof.Machine
end

