-- ==== Sys2Proof/Machine/Regs.lean ====
section
/-! DEFINITION. Host accesses to registers (R10, R11, R404) and the configuration space (R397), the write rules of every chapter's registers, the queues of a VF
(R408 to R411), and functions that can master the bus again (R401, R416). A write reaches a register with a mask of the bits
it covers and, where it covers the register whole, with its WO fields acting. -/

namespace Sys2Proof.Machine

/-- The stored bits `rw` of a register after a write of the bits of mask m. -/
def mix (old rw m v : W64) : W64 := (old &&& ~~~(m &&& rw)) ||| (v &&& (m &&& rw))
/-- Bits hi:lo as a mask. -/
def bitsMask (hi lo : Nat) : W64 := BitVec.ofNat 64 (2 ^ (hi + 1) - 2 ^ lo)
/-- Whether every one of SQF, SQB and SQU is IDLE, STOPPED or HALTED (R126, R171). -/
def Part.still (P : Part) : Bool := [0, 1, 2].all fun q => (P.seq q).st.quiet
/-- Whether no stream is in RUN, WAIT_SEM or WAIT_BEAT (R196, R244). -/
def Part.resting (P : Part) : Bool := P.streams.all fun q => !(P.seq q).st.busy

/-! ## Pod-slot and KV configuration (R196, R244) -/

/-- Whether [a, a + n) lies in one extent of a kind. -/
def Part.inExtent (P : Part) (kind a n : Nat) : Bool :=
  P.ext.any fun x => x.2.kind == kind && decide (x.2.vbase ≤ a) && decide (a + n ≤ x.2.vbase + x.2.len)
/-- What a write of POD_CFG EN = 1 needs. -/
def Part.podValid (P : Part) : Bool :=
  let w := fld P.podWin.toNat 47 22 * 2 ^ 22
  P.entry.mode == .serve && P.podStride != 0 && P.inExtent 0 (P.podAddr 0) (16 * P.podStride) &&
  !meets w (2 ^ 22) (P.podAddr 0) (16 * P.podStride)
/-- What a write of KV_CFG EN = 1 needs. -/
def Part.kvValid (P : Part) : Bool :=
  let w := fld P.kvWin.toNat 47 26 * 2 ^ 26
  let f := P.kvFmt
  let pages := P.kvBlock P.kvNpages 0 0 - P.kvBaseAt
  (f == 2 || f == 3 || f == 6 || f == 7) && decide (1 ≤ P.kvGroups) && decide (P.kvGroups ≤ 128) && decide (1 ≤ P.kvLayers) &&
  decide (16 ≤ P.kvHd) && decide (P.kvHd ≤ 2048) && P.kvHd % 16 == 0 && (!isMx f || P.kvHd % 32 == 0) &&
  (P.ext.any fun x => x.2.kind == 3 && decide (x.2.vbase ≤ P.kvBaseAt) && decide (P.kvBaseAt + pages ≤ x.2.vbase + x.2.len) &&
    decide (x.2.vbase ≤ P.kvTagAt 0) && decide (P.kvTagAt P.kvNpages ≤ x.2.vbase + x.2.len)) &&
  ([P.podWindow, P.twin, P.swin].filterMap id).all fun o => !meets w (2 ^ 26) o.1 o.2
/-- A write of POD_CFG or POD_WIN: stored while every slot is EMPTY and no stream runs; a refused EN = 1 drops the write. -/
def Dev.podWrite (d : Dev) (p : Nat) (m : W64) (f : Part → Part) : Dev :=
  let P := d.part p
  let Q := f P
  if P.resting && P.pods.all (fun s => s.st == .empty) && (!(m.getLsbD 63 && Q.podCfg.getLsbD 63) || Q.podValid) then d.setPart p Q else d
/-- A write of KV_CFG to KV_WIN. -/
def Dev.kvWrite (d : Dev) (p : Nat) (en : Bool) (f : Part → Part) : Dev :=
  let P := d.part p
  let Q := f P
  if P.resting && P.step.isNone && (!(en && Q.kvCfg.getLsbD 63) || Q.kvValid) then d.setPart p Q else d

/-! ## Queues (R408 to R411) -/

/-- A completion queue or submission queue size as stored (R408). -/
def queueSize (n : Nat) : Nat := if 4 ≤ n && n ≤ 12 then n else 4
/-- The sizes, stored while EN is 0, and IEN. -/
def Vf.config (v : Vf) (m w : W64) : Vf :=
  let n := w.toNat
  { v with ien := if m.getLsbD 62 then bit n 62 else v.ien
           cqsz := if m.getLsbD 8 && !v.en then queueSize (fld n 11 8) else v.cqsz
           sqsz := if m.getLsbD 0 && !v.en then queueSize (fld n 3 0) else v.sqsz }
/-- EN = 1: QERR and the pointers clear, PHASE is 1. -/
def Vf.start (v : Vf) : Vf := { v with en := true, qerr := false, sqHead := 0, cqTail := 0, sqTail := 0, cqHead := 0, phase := true }
/-- A write of Q_CFG. -/
def Dev.qCfg (d : Dev) (p : Nat) (m w : W64) : Dev :=
  d.onVf p fun v =>
    let v := v.config m w
    if !m.getLsbD 63 then v else if w.getLsbD 63 then v.start else v.stop
/-- A write of Q_SQTAIL. -/
def Dev.sqTail (d : Dev) (p : Nat) (w : W64) : Dev :=
  let n := fld w.toNat 11 0
  if 2 ^ (d.part p).vf.sqsz ≤ n then d.qerr p else d.onVf p fun v => { v with sqTail := n }
/-- A write of Q_CQHEAD: entries that wait for room are written. -/
def Dev.cqHead (d : Dev) (p : Nat) (w : W64) : Dev :=
  let n := fld w.toNat 11 0
  if 2 ^ (d.part p).vf.cqsz ≤ n then d.qerr p else (d.onVf p fun v => { v with cqHead := n }).flushCqes p
/-- Whether a submission queue entry is a queue command with nothing nonzero where it is reserved (R409, R417). -/
def sqeForm (e : List Byte) : Bool :=
  let cmd := num e 0 2
  let len := num e 2 2
  zeroAt e 8 8 && zeroAt e 80 48 && decide (len ≤ 64) && zeroAt e (16 + len) (64 - len) &&
  ((cmd == 1 && len == 64) || (cmd == 3 && len == 32) || (cmd == 2 && len == 32 && decide (1 ≤ num e 16 1) && decide (num e 16 1 ≤ 4)))
/-- Whether the part may fetch the next entry: the host-DMA regulator serves the read too (R315). -/
def Dev.mayFetch (d : Dev) (p : Nat) : Bool :=
  let v := (d.part p).vf
  v.en && !v.qerr && v.cur.isNone && v.heldCqe.isEmpty && v.room && v.sqHead != v.sqTail && d.masters (p + 1) && d.hostOpen && d.servable p [4]
/-- SQE_FETCH. A PCIe error stops the queue; an entry that is no queue command completes with CMD_INVALID, and every one does so while
queue commands are refused. -/
def Dev.sqeFetch (d : Dev) (p : Nat) (entry : List Byte) (pcieOk : Bool) : Dev :=
  if !d.mayFetch p then d
  else if !pcieOk then (d.charge p 4 128).qerr p
  else
    let e := fit 128 entry
    let x : Sqe := ⟨num e 0 2, num e 4 4, slice e 16 64, false⟩
    let d := (d.charge p 4 128).onVf p fun v => { v with sqHead := (v.sqHead + 1) % 2 ^ v.sqsz, cur := some x, discard := false }
    if sqeForm e then
      match d.queueRefusal with
      | some c => d.refuseQueue p c x
      | none => d
    else if x.cmd == 2 then d.slotDone p Code.cmdInvalid x.slotHandle none
    else d.postCqe p Code.cmdInvalid []

/-! ## Counters, mailboxes -/

/-- A write of HC_STAT CLEAR: the counters, OPS and SATF (R66). -/
def Dev.hcClear (d : Dev) (n : Nat) : Dev := d.setHc n { Reset.hcSet with owner := (d.hcSet n).owner }
/-- A write of MB_CTL GO: a code that Table 16-5 gives no mailbox is answered at once. -/
def Dev.mbGo (d : Dev) (m : Fin 2) : Dev :=
  let b := d.host.mb m
  if b.busy then d.onMb m fun b => { b with ovr := true }
  else
    let d := d.onMb m fun b => { b with busy := true, discard := false }
    let r := parseReq (fit 4096 b.req)
    if listedCode r.cmd then d else d.answer (.mailbox m) r.tag r.cmd Code.cmdInvalid []
/-- A write of 8 bytes of a request buffer, under the mask; discarded while BUSY, and counted (R404, R405). -/
def Dev.mbWrite (d : Dev) (m : Fin 2) (off : Nat) (k v : W64) : Dev :=
  let b := d.host.mb m
  if b.busy then d.badAccess
  else
    let old := fit 4096 b.req
    d.onMb m fun b => { b with req := patch old off (natLe 8 (mix (BitVec.ofNat 64 (num old off 8)) (BitVec.allOnes 64) k v).toNat) }

/-! ## Writes -/

/-- The WO fields of a register. -/
def Reg.wo : Reg → W64
  | .partYield _ view => if view then 0 else bitsMask 63 63
  | .distStat _ => bitsMask 37 37
  | .hcStat _ => bitsMask 63 63
  | .errCtl => bitsMask 63 62
  | .lnkHold => bitsMask 63 63
  | .portStat _ => bitsMask 32 32
  | .updStat _ => bitsMask 62 62
  | .memErr _ => bitsMask 63 63
  | .arrStat _ => bitsMask 16 16
  | .veStat _ => bitsMask 31 31
  | .mbCtl _ => bitsMask 63 63
  | .bell _ _ _ => BitVec.allOnes 64
  | .verrStat _ => bitsMask 63 63
  | _ => 0

/-- The actions of WO fields, of a write that covers the register whole. -/
def Dev.act (d : Dev) (r : Reg) (v : W64) : Dev :=
  let b (i : Nat) := v.getLsbD i
  match r with
  | .partYield p view => if !view && b 63 && (d.part p).st == .active then d.yieldPart p else d
  | .distStat p => if b 37 then d.distClear p else d
  | .hcStat n => if b 63 then d.hcClear n else d
  | .errCtl =>
    let d := if b 63 then d.onErr fun e => { e with queue := e.queue.drop 1 } else d
    if b 62 then d.onErr fun e => { e with dropped := 0, d2dRetry := 0, peFlt := 0 } else d
  | .lnkHold => if b 63 then d.raiseHold 5 else d
  | .portStat l => if b 32 then d.portClear l else d
  | .updStat p => if b 62 then d.updClear p else d
  | .memErr k => if b 63 then d.memClear k else d
  | .arrStat t => if b 16 then d.arrClear t else d
  | .veStat p => if b 31 then d.veClear p else d
  | .mbCtl m => if b 63 then d.mbGo m else d
  | .bell p q resume => if resume then d.streamResume p q v.toNat else d.streamStart p q v.toNat
  | .verrStat p => if b 63 then d.onVf p fun x => { x with view := x.view.drop 1 } else d
  | _ => d

/-- A permitted write of a distillation register other than DIST_CFG, DIST_SR_T among them (R221; DEDUCED against R201, log 144). -/
def Dev.distWrite (d : Dev) (p : Nat) (f : Dist → Dist) : Dev :=
  if (d.part p).distIdle then d.onPart p fun P => { P with dist := f P.dist } else d
/-- A write of an update-engine register (R171). -/
def Dev.updWrite (d : Dev) (p : Nat) (f : UpdRegs → UpdRegs) : Dev :=
  if (d.part p).still then d.onPart p fun P => { P with upd := f P.upd } else d
/-- UPD_CTAB with COUNT at most 4,096. -/
def ctabWord (w : W64) : W64 :=
  if 4096 < fld w.toNat 63 51 then BitVec.ofNat 64 (4096 * 2 ^ 51 + fld w.toNat 47 0) else w
/-- A write of LOUPE_CTL: START where the write covers it, the other fields as stored (R366, R381). -/
def Dev.loupeWrite (d : Dev) (m v : W64) : Dev :=
  let w := mix (BitVec.ofNat 64 (d.readCtl .loupeCtl)) (bitsMask 63 63 ||| bitsMask 55 40 ||| bitsMask 31 0) m v
  if !m.getLsbD 63 then d.onCkr fun c => c.loupeFields w
  else if w.getLsbD 63 then d.loupeStart w else d.loupeAbort w
/-- A write of LNK_HOLD's ARM and RESUME (R304). -/
def Dev.holdWrite (d : Dev) (m v : W64) : Dev :=
  let w := mix (BitVec.ofNat 64 (d.readPart .lnkHold)) (bitsMask 62 62 ||| bitsMask 47 0) m v
  if m.getLsbD 62 then d.holdArm w else d.onLnk fun k => { k with resume := w.setWidth 48 }

/-- What a write stores and what its 1s clear in GLB, CKR, PRT, ERR, LNK and MBX. -/
def Dev.storeCtl (d : Dev) (r : Reg) (m v : W64) : Dev :=
  let on (i : Nat) := m.getLsbD i && v.getLsbD i
  match r with
  | .glbCtl =>
    if d.host.lock then d
    else d.onHost fun h => { h with lock := on 63, idereq := if m.getLsbD 62 then v.getLsbD 62 else h.idereq }
  | .glbInt => d.onHost fun h => { h with int := h.int &&& ~~~((m &&& v).setWidth 8) }
  | .glbYstat => d.onHost fun h => { h with ystat := h.ystat &&& ~~~(m &&& v) }
  | .ckrStat => d.onCkr fun c => { c with lock := c.lock || on 63 }
  | .ckrDom i =>
    if d.ckr.lock || !m.getLsbD 59 || decide (3 ≤ i) then d
    else d.onCkr fun c => { c with doms := setAt c.doms i { c.doms.getD i Reset.dom with slpen := v.getLsbD 59 } }
  | .loupeCtl => d.loupeWrite m v
  | .ledgerStat => d.onErr fun e => { e with mism := e.mism &&& ~~~(((m &&& v) >>> 56).setWidth 6) }
  | .ylimit => d.onErr fun e => { e with ylimit := (mix (e.ylimit.setWidth 64) (bitsMask 31 0) m v).setWidth 32 }
  | .srKey p => d.onPart p fun P => { P with srKey := mix P.srKey (BitVec.allOnes 64) m v }
  | .srCtr p i => d.onPart p fun P => { P with srCtr := setAt P.srCtr i (mix (P.srCtr.getD i 0) (BitVec.allOnes 64) m v) }
  | .distCfg p => d.distCfg p (mix (d.part p).dist.cfg (BitVec.allOnes 64) m v)
  | .distTemp p => d.distWrite p fun x => { x with temp := mix x.temp (BitVec.allOnes 64) m v }
  | .distWin p => d.distWrite p fun x => { x with win := mix x.win (bitsMask 63 20) m v }
  | .distLbl p => d.distWrite p fun x => { x with lbl := mix x.lbl (bitsMask 63 2) m v }
  | .distSeq p => d.distWrite p fun x =>
    let w := mix (x.tseq ++ x.sseq) (BitVec.allOnes 64) m v
    { x with tseq := (w >>> 32).setWidth 32, sseq := w.setWidth 32 }
  | .distSrT p => d.distWrite p fun x => { x with srT := mix x.srT (BitVec.allOnes 64) m v }
  | .peelCfg => d.onErr fun e =>
    { e with peelEn := if m.getLsbD 63 then v.getLsbD 63 else e.peelEn
             peelPeriod := if m.getLsbD 0 then max 1 (fld v.toNat 15 0) else e.peelPeriod }
  | .peelPmask => d.onErr fun e => { e with peelPmask := mix e.peelPmask (BitVec.allOnes 64) m v }
  | .lnkId => if d.host.lock then d else d.onLnk fun k => { k with devid := (mix (k.devid.setWidth 64) (bitsMask 9 0) m v).setWidth 10 }
  | .beatLoad => d.beatLoad (mix (BitVec.ofNat 64 (d.readPart .beatLoad)) (bitsMask 63 63 ||| bitsMask 47 0) m v)
  | .lnkHold => d.holdWrite m v
  | .portStat l => if m.getLsbD 60 then d.onPort l fun s => { s with rateMax := v.getLsbD 60 } else d
  | .lnkEpoch p =>
    if (d.part p).quiet then d.onPart p fun P => { P with epoch := (mix (P.epoch.setWidth 64) (bitsMask 15 0) m v).setWidth 16 } else d
  | .mbCtl i => d.onMb i fun b => { b with done := b.done && !on 61, ovr := b.ovr && !on 60 }
  | .mbReq i off => d.mbWrite i off m v
  | _ => d
/-- What a write stores and what its 1s clear in HUB, the tiles and a VF. -/
def Dev.storeRest (d : Dev) (r : Reg) (m v : W64) : Dev :=
  let on (i : Nat) := m.getLsbD i && v.getLsbD i
  match r with
  | .updCtab p => d.updWrite p fun u => { u with ctab := ctabWord (mix u.ctab (bitsMask 63 51 ||| bitsMask 47 6) m v) }
  | .updTele p => d.updWrite p fun u => { u with tele := mix u.tele (bitsMask 47 5 ||| 1) m v }
  | .updStep p => d.updWrite p fun u => { u with step := (mix (u.step.setWidth 64) (bitsMask 31 0) m v).setWidth 32 }
  | .podCfg p => d.podWrite p m fun P => { P with podCfg := mix P.podCfg (bitsMask 63 63 ||| bitsMask 59 20) m v }
  | .podWin p => d.podWrite p 0 fun P => { P with podWin := mix P.podWin (bitsMask 47 22) m v }
  | .kvCfg p => d.kvWrite p (m.getLsbD 63) fun P => { P with kvCfg := mix P.kvCfg (bitsMask 63 63 ||| bitsMask 59 24) m v }
  | .kvBase p => d.kvWrite p false fun P => { P with kvBase := mix P.kvBase (bitsMask 47 12) m v }
  | .kvPages p => d.kvWrite p false fun P => { P with kvPages := mix P.kvPages (bitsMask 23 0) m v }
  | .kvTag p => d.kvWrite p false fun P => { P with kvTag := mix P.kvTag (bitsMask 47 3) m v }
  | .kvWin p => d.kvWrite p false fun P => { P with kvWin := mix P.kvWin (bitsMask 47 26) m v }
  | .memLast => d.onMem fun x => { x with lastValid := x.lastValid && !on 63 }
  | .scrubCfg => if m.getLsbD 0 then d.onMem fun x => { x with interval := max 60 (fld v.toNat 15 0) } else d
  | .arrStat t => d.onTile t fun x => { x with poison := x.poison && !on 15 }
  | .sqDesc p teach => d.onPart p fun P =>
    let w := mix (if teach then P.sqDescT else P.sqDesc) (bitsMask 63 6) m v
    if teach then { P with sqDescT := w } else { P with sqDesc := w }
  | .sqFence p q => d.onSeq p q fun s =>
    { s with fenceValid := if m.getLsbD 63 then v.getLsbD 63 else s.fenceValid
             fid := (mix (s.fid.setWidth 64) (bitsMask 31 0) m v).setWidth 32 }
  | .sqSum p q i => if (d.seq p q).st.quiet then d.setSum p q i (mix (d.sum p (q, i)) (BitVec.allOnes 64) m v) else d
  | .sem p n =>
    if (d.part p).still && m.getLsbD 0 then d.onPart p fun P => P.setSem n (fld v.toNat 31 0) else d
  | .veStat p => d.onPart p fun P => { P with vePoison := P.vePoison && !on 16 }
  | .sqBase p => d.onVf p fun x => if x.en then x else { x with sqBase := mix x.sqBase (bitsMask 63 12) m v }
  | .cqBase p => d.onVf p fun x => if x.en then x else { x with cqBase := mix x.cqBase (bitsMask 63 12) m v }
  | .qCfg p => d.qCfg p m v
  | .sqTail p => if m.getLsbD 0 then d.sqTail p v else d
  | .cqHead p => if m.getLsbD 0 then d.cqHead p v else d
  | .vstat p => d.onVf p fun x => { x with vstat := x.vstat &&& ~~~((m &&& v).setWidth 9) }
  | _ => d
/-- A write of the bits of mask m of a register; `whole` where it covers it. -/
def Dev.regWrite (d : Dev) (r : Reg) (whole : Bool) (m v : W64) : Dev :=
  let d := (d.storeCtl r m v).storeRest r m v
  if whole then d.act r v else if v &&& m &&& r.wo == 0 then d else d.badAccess
/-- The function number whose memory request a host write is. -/
def fnIx : Fn → Nat
  | .pf0 => 0
  | .vf p => p.val + 1
/-- Whether host accesses reach the registers through a function. -/
def Dev.fnOpen (d : Dev) : Fn → Bool
  | .pf0 => d.hostOpen && !(d.fn 0).d3hot
  | .vf p => d.vfOpen p.val
/-- The register at a BAR0 offset of a function. -/
def Dev.regAt (d : Dev) (f : Fn) (o : Nat) : Option Reg :=
  match f with
  | .pf0 => d.pfReg o
  | .vf p => d.vfReg p.val o
/-- The mask and value that a write of 4 or 8 bytes brings to the 8 bytes it lies in. -/
def lane (off size : Nat) (v : W64) : W64 × W64 :=
  if size == 8 then (BitVec.allOnes 64, v)
  else if off % 8 == 4 then (bitsMask 63 32, v <<< 32) else (bitsMask 31 0, v &&& bitsMask 31 0)
/-- REGISTER_WRITE: a host write of BAR0. A write that its PASID prefix or IDEREQ makes the part discard counts too (R397, R402, R404). -/
def Dev.hostWrite (d : Dev) (f : Fn) (off size : Nat) (v : W64) (via : Via) : Dev :=
  if !d.fnOpen f then d
  else if !d.admits (fnIx f) via then d.badAccess
  else if !((size == 4 || size == 8) && off % size == 0) then d.badAccess
  else
    let (m, w) := lane off size v
    match d.regAt f (off / 8 * 8) with
    | none => d
    | some r =>
      if r.narrow then (if off % 8 == 0 then d.regWrite r true (bitsMask 31 0) (w &&& bitsMask 31 0) else d)
      else d.regWrite r (size == 8) m w

/-! ## Host reads (R378, R390, R401, R402, R404) -/

/-- The registers that answer in the hold state (R390). -/
def Reg.heldReads : Reg → Bool
  | .errStat => true
  | .errRec _ => true
  | .lastDe _ => true
  | _ => false
/-- Whether firmware or ROM recovery runs, in which PF0 has the recovery class code and no VFs (R378, R398). -/
def Dev.recovering (d : Dev) : Bool := d.ckr.phase == 8 || d.ckr.phase == 9
/-- Whether a read reaches a function's BAR0 at all. -/
def Dev.readOpen (d : Dev) (f : Fn) : Bool :=
  d.fnOpen f || (f == .pf0 && d.recovering && d.host.answering && !d.ckr.clockWait && !(d.fn 0).d3hot)
/-- Whether what stands at an offset is read in the part's present state: in recovery only GLB, CKR and MBX, in the hold state three
registers. -/
def Dev.shows (d : Dev) (f : Fn) (o : Nat) : Bool :=
  if d.err.holdst then f == .pf0 && ((d.regAt f o).map (·.heldReads)).getD false
  else !d.recovering || decide (o < 0x200000) || (decide (0x8000000 ≤ o) && decide (o < 0x9000000))
/-- The 8 bytes at an aligned offset, as they read. -/
def Dev.read8 (d : Dev) (f : Fn) (o : Nat) : Nat := ((d.regAt f o).map fun r => d.readReg r % (if r.narrow then 2 ^ 32 else 2 ^ 64)).getD 0
/-- A host read of BAR0: all ones where the part shows nothing and for a wrong size or alignment, which BADACC counts; Unsupported
Request where the read does not reach the function, carries a PASID prefix or comes outside the streams that IDEREQ demands. A part that is
not powered or whose link is in reset answers nothing. -/
def Dev.hostRead (d : Dev) (f : Fn) (off size : Nat) (via : Via) : Dev :=
  let ones := List.replicate size (0xFF : Byte)
  let send (d : Dev) (x : Option (List Byte)) : Dev := d.emit (.regData (fnIx f) x)
  let o := off / 8 * 8
  if !d.host.answering then d
  else if !d.err.holdst && !(d.readOpen f && d.admits (fnIx f) via) then send d none
  else if !((size == 4 || size == 8) && off % size == 0) then send (if d.err.holdst then d else d.badAccess) (some ones)
  else send d (some (if d.shows f o then natLe size (d.read8 f o / 256 ^ (off - o)) else ones))

/-! ## Configuration space (R397, R398, R400) -/

/-- The fields of a function's configuration space that the spec gives a value. -/
inductive CfgField where
  | vendorId | deviceId | classCode | interruptPin | flrCapable | aspmSupport | aspmControl | noSoftReset | totalVfs | firstVfOffset | vfStride
  | vfEnable | busMaster | powerState | aer | msi | doe | msixSize | maxPayload | maxReadRequest | tagBits
  | ats | pri | pasid | tdisp | ari | barBytes (i : Nat) | barWide (i : Nat) | barPrefetch (i : Nat)
  | bar (i : Nat) | vectorAddr (i : Nat) | vectorData (i : Nat) | vectorMask (i : Nat)
  deriving DecidableEq, Repr
/-- The BARs of Table 16-2, each a pair of registers from an even number up: the bytes it spans, and whether it is prefetchable. All are of
64 bits. -/
def barOf (pf : Bool) (i : Nat) : Option (Nat × Bool) :=
  if i == 0 then some (if pf then 2 ^ 28 else 2 ^ 20, false) else if i == 2 && !pf then some (2 ^ 36, true) else none
/-- What a configuration read of a field returns: the identity of Table 16-2, the absent features of Table 16-1 as absent whatever is
written to them, and what State holds. -/
def Dev.cfgRead (d : Dev) (f : Fn) (x : CfgField) : Nat :=
  let pf := f == .pf0
  let s := d.fn (fnIx f)
  match x with
  | .vendorId => Config.vendorId
  | .deviceId => if !pf then 0x2065 else if d.recovering then 0x206F else 0x2064
  | .classCode => if pf && d.recovering then 0xFF0000 else 0x120000
  | .interruptPin => 0
  | .flrCapable => 0
  | .aspmSupport => 0
  | .aspmControl => 0
  | .noSoftReset => 1
  | .totalVfs => if pf && !d.recovering then 64 else 0
  | .firstVfOffset => if pf then 1 else 0
  | .vfStride => if pf then 1 else 0
  | .vfEnable => if pf then b2n s.vfEnable else 0
  | .busMaster => b2n s.busMaster
  | .powerState => if s.d3hot then 3 else 0
  | .aer => b2n pf
  | .msi => 0
  | .doe => 0
  | .msixSize => if pf then 32 else 8
  | .maxPayload => 512
  | .maxReadRequest => 4096
  | .tagBits => 10
  | .ats => 0
  | .pri => 0
  | .pasid => 0
  | .tdisp => 0
  | .ari => 1
  | .barBytes i => ((barOf pf i).map (·.1)).getD 0
  | .barWide i => b2n (barOf pf i).isSome
  | .barPrefetch i => b2n (((barOf pf i).map (·.2)).getD false)
  | .bar i => if pf then s.bars.getD i 0 else 0
  | .vectorAddr i => (Tab.get (0, 0) s.table i).1
  | .vectorData i => (Tab.get (0, 0) s.table i).2
  | .vectorMask i => b2n (s.mask.getLsbD i)

/-! ## Mastering the bus (R401, R416) -/

/-- Sends the pending unmasked messages of a function, but those that A0 withholds until their vector's next event (erratum E1). -/
def Dev.sendPending (d : Dev) (v : Nat) : Dev :=
  let due := (d.fn v).pba &&& ~~~(d.fn v).mask &&& ~~~(d.fn v).withheld
  (List.range 32).foldl (fun d i => if due.getLsbD i then d.msix v i else d) d
/-- FUNCTION_MASTER_RESTORED. A link that was down has trained to a rate, width and mode of R395; the BARs hold what the host has
assigned, where it has. -/
def Dev.masterBack (d : Dev) (f : Fn) (m : LinkMode) (bars : List Nat) : Dev :=
  if !d.host.answering || d.ckr.clockWait || !(d.host.linkUp || m.wf) then d
  else
    let d := d.onHost fun h => if h.linkUp then h else { h with linkUp := true, lrate := m.rate, lwidth := m.width, flit := m.flit }
    let d := if bars.isEmpty then d else d.onFn 0 fun x => { x with bars := bars }
    let d := d.onFn (fnIx f) fun x => { x with busMaster := true, d3hot := false }
    match f with
    | .pf0 => d.sendPending 0
    | .vf p => ((d.onFn 0 fun x => { x with vfEnable := true }).flushCqes p.val).sendPending (p.val + 1)
/-- MSIX_VECTOR_UNMASK: a write of a function's vector table, which is discarded where no write reaches the function, in the hold state
among others (R390, R402). B1 sends a pending message; A0 withholds it until the vector's next event (erratum E1). -/
def Dev.unmask (d : Dev) (f : Fn) (i addr data : Nat) : Dev :=
  let n := fnIx f
  if d.err.holdst || !d.readOpen f || (n != 0 && decide (8 ≤ i)) then d
  else if !d.admits n ⟨true, false⟩ then d.badAccess
  else
    let d := d.onFn n fun x => { x with mask := x.mask &&& ~~~(1#32 <<< i), table := Tab.put x.table i (addr, data) }
    if !(d.fn n).pba.getLsbD i then d
    else if !d.host.b1 then d.onFn n fun x => { x with withheld := x.withheld ||| (1#32 <<< i) }
    else if d.masters n then d.msix n i else d

/-! ## Meanings -/

def execHcClear (n : Fin 8192) (s : State) : Host.Outcome State Fault Refusal :=
  s.onDev fun d => d.pf0Write fun d => d.hcClear n.val
def execSqTailWrite (p : PIx) (value : W64) (s : State) : Host.Outcome State Fault Refusal :=
  s.onDev fun d => d.vfWrite p.val fun d => d.sqTail p.val value
def execSqeFetch (p : PIx) (entry : List Byte) (pcieOk : Bool) (s : State) : Host.Outcome State Fault Refusal :=
  s.onDev fun d => d.sqeFetch p.val entry pcieOk
def execCqHeadWrite (p : PIx) (value : W64) (s : State) : Host.Outcome State Fault Refusal :=
  s.onDev fun d => d.vfWrite p.val fun d => d.cqHead p.val value
def execQueueEnable (p : PIx) (value : W64) (s : State) : Host.Outcome State Fault Refusal :=
  s.onDev fun d => d.vfWrite p.val fun d => if value.getLsbD 63 then d.qCfg p.val (BitVec.allOnes 64) value else d
def execQueueDisable (p : PIx) (value : W64) (s : State) : Host.Outcome State Fault Refusal :=
  s.onDev fun d => d.vfWrite p.val fun d => if value.getLsbD 63 then d else d.qCfg p.val (BitVec.allOnes 64) value
def execFunctionMasterRestored (f : HostSetup) (s : State) : Host.Outcome State Fault Refusal :=
  s.onDev fun d => d.masterBack f.fn f.link f.bars
def execMsixVectorUnmask (f : Fn) (vec : VecEntry) (s : State) : Host.Outcome State Fault Refusal :=
  s.onDev fun d => d.unmask f vec.vec.val vec.addr vec.data
def execRegisterWrite (f : Fn) (off size : Nat) (value : Option W64) (via : Via) (s : State) : Host.Outcome State Fault Refusal :=
  s.onDev fun d => match value with
    | some v => d.hostWrite f off size v via
    | none => d.hostRead f off size via

end Sys2Proof.Machine
end

