-- ==== Sys2Proof/Machine/Dispatch.lean ====
section
/-! DEFINITION. One arm per command: a direct call of its meaning. -/

namespace Sys2Proof.Machine

open Sys2Proof

/-- What a command does to everything but the queue. -/
def exec (i : Instr) (s : State) : Host.Outcome State Fault Refusal :=
  match i with
  | .tensorForward p q => Sys2Proof.Machine.execTensorForward p q s
  | .tensorPair p q => Sys2Proof.Machine.execTensorPair p q s
  | .tensorDxOnly p q => Sys2Proof.Machine.execTensorDxOnly p q s
  | .tensorDwOnly p q => Sys2Proof.Machine.execTensorDwOnly p q s
  | .adapterApply p q => Sys2Proof.Machine.execAdapterApply p q s
  | .attention p q => Sys2Proof.Machine.execAttention p q s
  | .teacherWindowOp p q => Sys2Proof.Machine.execTeacherWindowOp p q s
  | .studentWindowOp p q => Sys2Proof.Machine.execStudentWindowOp p q s
  | .kvAppend p q => Sys2Proof.Machine.execKvAppend p q s
  | .copy p q => Sys2Proof.Machine.execCopy p q s
  | .fill p q => Sys2Proof.Machine.execFill p q s
  | .add p q => Sys2Proof.Machine.execAdd p q s
  | .sub p q => Sys2Proof.Machine.execSub p q s
  | .mul p q => Sys2Proof.Machine.execMul p q s
  | .div p q => Sys2Proof.Machine.execDiv p q s
  | .max p q => Sys2Proof.Machine.execMax p q s
  | .min p q => Sys2Proof.Machine.execMin p q s
  | .scale p q => Sys2Proof.Machine.execScale p q s
  | .axpy p q => Sys2Proof.Machine.execAxpy p q s
  | .abs p q => Sys2Proof.Machine.execAbs p q s
  | .neg p q => Sys2Proof.Machine.execNeg p q s
  | .exp p q => Sys2Proof.Machine.execExp p q s
  | .ln p q => Sys2Proof.Machine.execLn p q s
  | .rcp p q => Sys2Proof.Machine.execRcp p q s
  | .rsqrt p q => Sys2Proof.Machine.execRsqrt p q s
  | .relu p q => Sys2Proof.Machine.execRelu p q s
  | .silu p q => Sys2Proof.Machine.execSilu p q s
  | .drelu p q => Sys2Proof.Machine.execDrelu p q s
  | .dsilu p q => Sys2Proof.Machine.execDsilu p q s
  | .rsum p q => Sys2Proof.Machine.execRsum p q s
  | .rsumsq p q => Sys2Proof.Machine.execRsumsq p q s
  | .rdot p q => Sys2Proof.Machine.execRdot p q s
  | .rmax p q => Sys2Proof.Machine.execRmax p q s
  | .ramax p q => Sys2Proof.Machine.execRamax p q s
  | .tsum p q => Sys2Proof.Machine.execTsum p q s
  | .tsumsq p q => Sys2Proof.Machine.execTsumsq p q s
  | .tamax p q => Sys2Proof.Machine.execTamax p q s
  | .tnfcnt p q => Sys2Proof.Machine.execTnfcnt p q s
  | .smx p q => Sys2Proof.Machine.execSmx p q s
  | .smxb p q => Sys2Proof.Machine.execSmxb p q s
  | .lnorm p q => Sys2Proof.Machine.execLnorm p q s
  | .rmsnorm p q => Sys2Proof.Machine.execRmsnorm p q s
  | .lnormb p q => Sys2Proof.Machine.execLnormb p q s
  | .rmsnormb p q => Sys2Proof.Machine.execRmsnormb p q s
  | .scalarAdd p q => Sys2Proof.Machine.execScalarAdd p q s
  | .scalarSub p q => Sys2Proof.Machine.execScalarSub p q s
  | .scalarMul p q => Sys2Proof.Machine.execScalarMul p q s
  | .scalarDiv p q => Sys2Proof.Machine.execScalarDiv p q s
  | .scalarMin p q => Sys2Proof.Machine.execScalarMin p q s
  | .scalarMax p q => Sys2Proof.Machine.execScalarMax p q s
  | .scalarRcp p q => Sys2Proof.Machine.execScalarRcp p q s
  | .scalarRsqrt p q => Sys2Proof.Machine.execScalarRsqrt p q s
  | .upd p q => Sys2Proof.Machine.execUpd p q s
  | .exportOp p q => Sys2Proof.Machine.execExport p q s
  | .rinit p q => Sys2Proof.Machine.execRinit p q s
  | .allreduce p q => Sys2Proof.Machine.execAllreduce p q s
  | .redscat p q => Sys2Proof.Machine.execRedscat p q s
  | .allgather p q => Sys2Proof.Machine.execAllgather p q s
  | .bcast p q => Sys2Proof.Machine.execBcast p q s
  | .permute p q => Sys2Proof.Machine.execPermute p q s
  | .drain p q => Sys2Proof.Machine.execDrain p q s
  | .waitb p q => Sys2Proof.Machine.execWaitb p q s
  | .waits p q => Sys2Proof.Machine.execWaits p q s
  | .post p q => Sys2Proof.Machine.execPost p q s
  | .br p q => Sys2Proof.Machine.execBr p q s
  | .loop p q => Sys2Proof.Machine.execLoop p q s
  | .call p q => Sys2Proof.Machine.execCall p q s
  | .ret p q => Sys2Proof.Machine.execRet p q s
  | .fence p q => Sys2Proof.Machine.execFence p q s
  | .halt p q => Sys2Proof.Machine.execHalt p q s
  | .opStart p q ix gl => Sys2Proof.Machine.execOpStart p q ix gl s
  | .tensorComplete p q ix => Sys2Proof.Machine.execTensorComplete p q ix s
  | .vecComplete p q ix => Sys2Proof.Machine.execVecComplete p q ix s
  | .updateOpComplete p q ix => Sys2Proof.Machine.execUpdateOpComplete p q ix s
  | .collComplete p q ix => Sys2Proof.Machine.execCollComplete p q ix s
  | .semWaitSatisfied p q => Sys2Proof.Machine.execSemWaitSatisfied p q s
  | .beatTargetReached p q => Sys2Proof.Machine.execBeatTargetReached p q s
  | .postTakesEffect p q => Sys2Proof.Machine.execPostTakesEffect p q s
  | .fenceReached p q => Sys2Proof.Machine.execFenceReached p q s
  | .haltReached p q => Sys2Proof.Machine.execHaltReached p q s
  | .ledgerAuditPeriodic => Sys2Proof.Machine.execLedgerAuditPeriodic s
  | .streamStart p q value => Sys2Proof.Machine.execStreamStart p q value s
  | .streamResume p q value => Sys2Proof.Machine.execStreamResume p q value s
  | .semDeadlock p => Sys2Proof.Machine.execSemDeadlock p s
  | .pscDeadlock p => Sys2Proof.Machine.execPscDeadlock p s
  | .bwReturn p t cycles => Sys2Proof.Machine.execBwReturn p t cycles s
  | .bwLend p t => Sys2Proof.Machine.execBwLend p t s
  | .bubbleStart ix => Sys2Proof.Machine.execBubbleStart ix s
  | .bubbleEnd ix => Sys2Proof.Machine.execBubbleEnd ix s
  | .step p => Sys2Proof.Machine.execStep p s
  | .bindComplete p k => Sys2Proof.Machine.execBindComplete p k s
  | .waveStart p => Sys2Proof.Machine.execWaveStart p s
  | .scrub p => Sys2Proof.Machine.execScrub p s
  | .bind p => Sys2Proof.Machine.execBind p s
  | .unbind p => Sys2Proof.Machine.execUnbind p s
  | .unpin p => Sys2Proof.Machine.execUnpin p s
  | .sealSlot p => Sys2Proof.Machine.execSealSlot p s
  | .catAdd ch => Sys2Proof.Machine.execCatAdd ch s
  | .catAddStored ix cipher dmaOk => Sys2Proof.Machine.execCatAddStored ix cipher dmaOk s
  | .catMask ch => Sys2Proof.Machine.execCatMask ch s
  | .catRemove ch => Sys2Proof.Machine.execCatRemove ch s
  | .catRevoke ch => Sys2Proof.Machine.execCatRevoke ch s
  | .catQuery ch => Sys2Proof.Machine.execCatQuery ch s
  | .extSet ch => Sys2Proof.Machine.execExtSet ch s
  | .bar2Access p addr wr len onIde gl => Sys2Proof.Machine.execBar2Access p addr wr len onIde gl s
  | .baseDefine ch manifest => Sys2Proof.Machine.execBaseDefine ch manifest s
  | .baseLoad ch => Sys2Proof.Machine.execBaseLoad ch s
  | .baseReplace ch manifest => Sys2Proof.Machine.execBaseReplace ch manifest s
  | .baseAbort ch => Sys2Proof.Machine.execBaseAbort ch s
  | .baseRemove ch => Sys2Proof.Machine.execBaseRemove ch s
  | .shardReceived b header cipher => Sys2Proof.Machine.execShardReceived b header cipher s
  | .layerSwap b => Sys2Proof.Machine.execLayerSwap b s
  | .shardRecheck b shard late gl => Sys2Proof.Machine.execShardRecheck b shard late gl s
  | .keyRotate ch => Sys2Proof.Machine.execKeyRotate ch s
  | .keyGenInstalled k => Sys2Proof.Machine.execKeyGenInstalled k s
  | .keySweepPage k => Sys2Proof.Machine.execKeySweepPage k s
  | .keyRotationComplete k => Sys2Proof.Machine.execKeyRotationComplete k s
  | .beatEdge since interfered => Sys2Proof.Machine.execBeatEdge since interfered s
  | .flywheelBeat => Sys2Proof.Machine.execFlywheelBeat s
  | .beatConfirm => Sys2Proof.Machine.execBeatConfirm s
  | .beatLoad value => Sys2Proof.Machine.execBeatLoad value s
  | .portTrained l lanesOk fallback delay pdev pport => Sys2Proof.Machine.execPortTrained l lanesOk fallback delay pdev pport s
  | .linkDown l => Sys2Proof.Machine.execLinkDown l s
  | .frameReceived l header cw crcOk => Sys2Proof.Machine.execFrameReceived l header cw crcOk s
  | .cellReceived l pos cell cw hcrcOk pcrcOk => Sys2Proof.Machine.execCellReceived l pos cell cw hcrcOk pcrcOk s
  | .unschedReplay l => Sys2Proof.Machine.execUnschedReplay l s
  | .schedCellExpire l ix => Sys2Proof.Machine.execSchedCellExpire l ix s
  | .schedLoad ch table => Sys2Proof.Machine.execSchedLoad ch table s
  | .schedActivate => Sys2Proof.Machine.execSchedActivate s
  | .schedClear ch => Sys2Proof.Machine.execSchedClear ch s
  | .peerLate p q ix => Sys2Proof.Machine.execPeerLate p q ix s
  | .peerSilent l => Sys2Proof.Machine.execPeerSilent l s
  | .holdHost => Sys2Proof.Machine.execHoldHost s
  | .holdResumeArm value => Sys2Proof.Machine.execHoldResumeArm value s
  | .holdRelease => Sys2Proof.Machine.execHoldRelease s
  | .partSet ch => Sys2Proof.Machine.execPartSet ch s
  | .partResize ch => Sys2Proof.Machine.execPartResize ch s
  | .resizeCommit p => Sys2Proof.Machine.execResizeCommit p s
  | .partYield ch => Sys2Proof.Machine.execPartYield ch s
  | .yieldStreamsStopped p => Sys2Proof.Machine.execYieldStreamsStopped p s
  | .flushComplete p => Sys2Proof.Machine.execFlushComplete p s
  | .yieldTimeout p => Sys2Proof.Machine.execYieldTimeout p s
  | .partResume ch => Sys2Proof.Machine.execPartResume ch s
  | .partRelease ch => Sys2Proof.Machine.execPartRelease ch s
  | .partPlace ch => Sys2Proof.Machine.execPartPlace ch s
  | .restoreComplete p => Sys2Proof.Machine.execRestoreComplete p s
  | .partReset ch => Sys2Proof.Machine.execPartReset ch s
  | .herilPartitionKeys p => Sys2Proof.Machine.execHerilPartitionKeys p s
  | .partitionSetupComplete p => Sys2Proof.Machine.execPartitionSetupComplete p s
  | .partFree ch => Sys2Proof.Machine.execPartFree ch s
  | .regSet ch => Sys2Proof.Machine.execRegSet ch s
  | .reclaim ch plan => Sys2Proof.Machine.execReclaim ch plan s
  | .reclaimPlace p => Sys2Proof.Machine.execReclaimPlace p s
  | .slowWindowEnd => Sys2Proof.Machine.execSlowWindowEnd s
  | .keyPut sess body => Sys2Proof.Machine.execKeyPut sess body s
  | .tkeyDelete ch => Sys2Proof.Machine.execTkeyDelete ch s
  | .tkeyClearAll ch => Sys2Proof.Machine.execTkeyClearAll ch s
  | .credEnroll ch => Sys2Proof.Machine.execCredEnroll ch s
  | .credDelete ch => Sys2Proof.Machine.execCredDelete ch s
  | .debugEnable ch => Sys2Proof.Machine.execDebugEnable ch s
  | .fwStage ch image => Sys2Proof.Machine.execFwStage ch image s
  | .fwDiscard ch => Sys2Proof.Machine.execFwDiscard ch s
  | .fwActivate ch => Sys2Proof.Machine.execFwActivate ch s
  | .fwRollback ch image => Sys2Proof.Machine.execFwRollback ch image s
  | .fwFloor ch => Sys2Proof.Machine.execFwFloor ch s
  | .fullReset ch => Sys2Proof.Machine.execFullReset ch s
  | .fullResetNowExpiry => Sys2Proof.Machine.execFullResetNowExpiry s
  | .pwrSet ch => Sys2Proof.Machine.execPwrSet ch s
  | .spdmGetMeasurements w sess indices nonce => Sys2Proof.Machine.execSpdmGetMeasurements w sess indices nonce s
  | .spdmKeyExchange w sess requester secret => Sys2Proof.Machine.execSpdmKeyExchange w sess requester secret s
  | .spdmGetCertificate w => Sys2Proof.Machine.execSpdmGetCertificate w s
  | .spdmChallenge w nonce => Sys2Proof.Machine.execSpdmChallenge w nonce s
  | .mgmtSessionOpen sess anchor secret => Sys2Proof.Machine.execMgmtSessionOpen sess anchor secret s
  | .ideKm sess k link ridLo ridHi => Sys2Proof.Machine.execIdeKm sess k link ridLo ridHi s
  | .ideIntegrityFail stream => Sys2Proof.Machine.execIdeIntegrityFail stream s
  | .pldmRequest w sensor => Sys2Proof.Machine.execPldmRequest w sensor s
  | .mctpControl w => Sys2Proof.Machine.execMctpControl w s
  | .presRelease => Sys2Proof.Machine.execPresRelease s
  | .sealCheck loopOpen => Sys2Proof.Machine.execSealCheck loopOpen s
  | .powerOnAux => Sys2Proof.Machine.execPowerOnAux s
  | .aonStable => Sys2Proof.Machine.execAonStable s
  | .power48vApplied => Sys2Proof.Machine.execPower48vApplied s
  | .pwrGood => Sys2Proof.Machine.execPwrGood s
  | .powerFault => Sys2Proof.Machine.execPowerFault s
  | .pllLock => Sys2Proof.Machine.execPllLock s
  | .refclkLoss => Sys2Proof.Machine.execRefclkLoss s
  | .rootLoss => Sys2Proof.Machine.execRootLoss s
  | .crystalLoss => Sys2Proof.Machine.execCrystalLoss s
  | .refclkReturn => Sys2Proof.Machine.execRefclkReturn s
  | .loupeStart value => Sys2Proof.Machine.execLoupeStart value s
  | .loupeDone count => Sys2Proof.Machine.execLoupeDone count s
  | .loupeAbort value => Sys2Proof.Machine.execLoupeAbort value s
  | .cdcTimeout crossing => Sys2Proof.Machine.execCdcTimeout crossing s
  | .resetNAssert us => Sys2Proof.Machine.execResetNAssert us s
  | .hostPerst => Sys2Proof.Machine.execHostPerst s
  | .resetNRelease b => Sys2Proof.Machine.execResetNRelease b s
  | .stackTrainingComplete record => Sys2Proof.Machine.execStackTrainingComplete record s
  | .phaseReady ms => Sys2Proof.Machine.execPhaseReady ms s
  | .thermalSample readings => Sys2Proof.Machine.execThermalSample readings s
  | .fwWatchdog quinad => Sys2Proof.Machine.execFwWatchdog quinad s
  | .d2dLinkDown die => Sys2Proof.Machine.execD2dLinkDown die s
  | .d2dCrcRetry => Sys2Proof.Machine.execD2dCrcRetry s
  | .peelRoundStart t => Sys2Proof.Machine.execPeelRoundStart t s
  | .peelTestBeat t signatureOk => Sys2Proof.Machine.execPeelTestBeat t signatureOk s
  | .errorRecordAccept => Sys2Proof.Machine.execErrorRecordAccept s
  | .errorHandle => Sys2Proof.Machine.execErrorHandle s
  | .errPop => Sys2Proof.Machine.execErrPop s
  | .errClrcnt => Sys2Proof.Machine.execErrClrcnt s
  | .hcClear n => Sys2Proof.Machine.execHcClear n s
  | .arrClrcnt t => Sys2Proof.Machine.execArrClrcnt t s
  | .veClrcnt p => Sys2Proof.Machine.execVeClrcnt p s
  | .updClrcnt p => Sys2Proof.Machine.execUpdClrcnt p s
  | .distClrcnt p => Sys2Proof.Machine.execDistClrcnt p s
  | .memClrcnt k => Sys2Proof.Machine.execMemClrcnt k s
  | .portClrcnt l => Sys2Proof.Machine.execPortClrcnt l s
  | .ckrLock => Sys2Proof.Machine.execCkrLock s
  | .glbLock => Sys2Proof.Machine.execGlbLock s
  | .sqTailWrite p value => Sys2Proof.Machine.execSqTailWrite p value s
  | .sqeFetch p entry pcieOk => Sys2Proof.Machine.execSqeFetch p entry pcieOk s
  | .cqHeadWrite p value => Sys2Proof.Machine.execCqHeadWrite p value s
  | .queueEnable p value => Sys2Proof.Machine.execQueueEnable p value s
  | .queueDisable p value => Sys2Proof.Machine.execQueueDisable p value s
  | .verrPop p => Sys2Proof.Machine.execVerrPop p s
  | .functionMasterRestored f => Sys2Proof.Machine.execFunctionMasterRestored f s
  | .registerWrite f off size value onIde => Sys2Proof.Machine.execRegisterWrite f off size value onIde s
  | .recordHandled => Sys2Proof.Machine.execRecordHandled s
  | .fwStageComplete => Sys2Proof.Machine.execFwStageComplete s
  | .scrubComplete p => Sys2Proof.Machine.execScrubComplete p s
  | .distCfgWrite p value => Sys2Proof.Machine.execDistCfgWrite p value s
  | .msixVectorUnmask f vec => Sys2Proof.Machine.execMsixVectorUnmask f vec s
  | .pcieLinkDown => Sys2Proof.Machine.execPcieLinkDown s
  | .hostPerstRelease => Sys2Proof.Machine.execHostPerstRelease s
  | .power48vRemoved => Sys2Proof.Machine.execPower48vRemoved s
  | .auxPowerRemoved => Sys2Proof.Machine.execAuxPowerRemoved s
  | .presNAssert ms => Sys2Proof.Machine.execPresNAssert ms s
  | .sessionEnd sess => Sys2Proof.Machine.execSessionEnd sess s
  | .jtagInstruction ir => Sys2Proof.Machine.execJtagInstruction ir s

end Sys2Proof.Machine
end

