-- ==== Sys2Proof/Safety.lean ====
section
/-! DEFINITION. The terms that claims are stated in: what it is for a command to run, what a device keeps, and which device a
claim's hypotheses find. -/

namespace Sys2Proof.Machine

/-- Command c runs in state s and leaves a device of which R holds; the queue is as it was. -/
def Runs (c : Instr) (s : State) (R : Dev → Prop) : Prop := ∃ t : Dev, exec c s = .next { s with dev := t } ∧ R t
/-- Command c runs in state s and leaves the device t; the queue is as it was. -/
def Leaves (c : Instr) (s : State) (t : Dev) : Prop := exec c s = .next { s with dev := t }

/-- The memories are canonical: addresses rise, and no cell holds what an unlisted address reads as. -/
def Dev.memOk (d : Dev) : Prop := Memory.wf d.mem.bytes = true ∧ Memory.wf d.sram = true
/-- The invariant of every step. -/
def State.Inv (s : State) : Prop := s.dev.memOk

/-- Nothing but partition p, the record of output and the use of free values differs. -/
def Dev.sameBut (d t : Dev) (p : Nat) : Prop :=
  (∀ r, r ≠ p → t.part r = d.part r) ∧ t.mem = d.mem ∧ t.sram = d.sram ∧ t.tiles = d.tiles ∧ t.hc = d.hc ∧ t.cat = d.cat ∧
  t.bases = d.bases ∧ t.lnk = d.lnk ∧ t.ckr = d.ckr ∧ t.persist = d.persist ∧ t.sec = d.sec ∧ t.err = d.err
/-- The device after stream q of partition p has fetched the operation at its PC, and that operation's word; none where the
stream fetches nothing, or the fetch fails. -/
def Dev.wordAt (d : Dev) (p q : Nat) : Option (Dev × Nat) :=
  if d.fetches p q then
    match d.fetch p (d.seq p q).pc 16 with
    | .bytes d' l => some (d', leNat l)
    | .fault _ _ => none
  else none
/-- Stream q of partition p holds word w at its PC, of a row, and fetches it; `d'` is the device once it has. What the fetch records
stands in the order of one cycle (R386): it reads one unit. -/
def Dev.offers (d d' : Dev) (p q w : Nat) (r : Row) : Prop := d.wordAt p q = some (d', w) ∧ d.rowOf p q w = r ∧ d.oneCycle d' = d'
/-- An operation, and a stream, without the order in which its operations became ready (R101). -/
def Item.unstamped : Item → Item
  | .op f => .op { f with ready := none }
  | i => i
def Seq.unstamped (s : Seq) : Seq := { s with items := s.items.map Item.unstamped }
/-- What issuing word w of stream q of partition p, checked as plan x, leaves of device d: the operation stands last in the stream,
not started, with its stochastic-rounding ranges from the stream's counter and the key K (R55, R57), and the stream goes on behind it;
the other streams, the rest of the partition but that the slow-down counters have seen work (R318), and everything outside the
partition, are as they were. Operations may have become ready. -/
def Issued (d t : Dev) (p q w : Nat) (x : Plan) : Prop :=
  ∃ f : Flight, f.word = BitVec.ofNat 128 w ∧ f.kind = x.kind ∧ f.descs = x.descs ∧ f.slots = x.targets ∧ f.pc = (d.seq p q).pc ∧
    f.started = false ∧ f.srBase = (takeRanges ((d.part p).srCounter q) (x.geos (loopIndex (d.seq p q).stack))).1 ∧ f.srKey = (d.part p).srKey ∧
    f.no = (d.part p).issueNo ∧ (t.part p).issueNo = (d.part p).issueNo + 1 ∧
    (t.seq p q).unstamped.items = (d.seq p q).unstamped.items ++ [(Item.op f).unstamped] ∧ (t.seq p q).pc = (d.seq p q).next.pc ∧
    (t.seq p q).stack = (d.seq p q).next.stack ∧ (t.seq p q).st = (d.seq p q).st ∧ (t.seq p q).sums = (d.seq p q).sums ∧
    (∀ r, r ≠ q → (t.seq p r).unstamped = (d.seq p r).unstamped) ∧ (∀ r, r ≠ p → t.part r = d.part r) ∧ t = { d with parts := t.parts } ∧
    t.part p = { (d.part p).setSrCounter q (takeRanges ((d.part p).srCounter q) (x.geos (loopIndex (d.seq p q).stack))).2 with
      sq := (t.part p).sq, issueNo := (d.part p).issueNo + 1, readyNo := (t.part p).readyNo, slow := { (d.part p).slow with seen := true } }
/-- What reading for partition p leaves of device d: the stacks' bytes, every other partition and everything else as they were; the reads
are counted by the regulators, failed units stand recorded, and the running step's place in a base and the waiters at the barriers may
have moved (R259, R271, R272, R316). -/
def Dev.reads (d t : Dev) (p : Nat) : Prop :=
  (∀ r, r ≠ p → t.part r = d.part r) ∧ (∃ x, t.part p = { d.part p with step := x }) ∧ t.mem.bytes = d.mem.bytes ∧
  ∃ m l b k ps, t = { d with mem := m, err := { d.err with detected := d.err.detected ++ l }, buckets := b, bases := k, parts := ps }
/-- Command c issues the operation of word w, that device d has fetched, as plan x: the operation's checks read for its partition and
leave device e, and the operation is issued there. What one command detects stands in the order of one cycle (R386). -/
def Issues (c : Instr) (s : State) (d e : Dev) (p q w : Nat) (x : Plan) : Prop :=
  d.reads e p ∧ Runs c s fun t => ∃ u, Issued e u p q w x ∧ t = s.dev.oneCycle u
/-- Partition p is stopped with a code: FAULTED, its streams' operations ended, and a record of it detected in this beat. -/
def Dev.stoppedBy (d t : Dev) (p code : Nat) : Prop :=
  (t.part p).st = .faulted ∧ (∀ q, (t.seq p q).items = []) ∧
  ∃ r ∈ t.err.detected, r.code = code ∧ r.pv = true ∧ r.part = p ∧ r.beat = d.beat
/-- No operation with a number is left in a stream. -/
def Seq.without (s : Seq) (no : Nat) : Prop := ∀ f : Flight, Item.op f ∈ s.items → f.no ≠ no
/-- The response to a command with a tag, on the channel it came by; a host-link reset discards a mailbox's. -/
def Dev.answered (d t : Dev) (ch : Chan) (tag code status : Nat) (body : List Byte) : Prop :=
  match ch with
  | .mailbox m => (d.host.mb m).discard = true ∨
      ((t.host.mb m).resp = envelope code body.length tag status ++ body ∧ (t.host.mb m).done = true ∧ (t.host.mb m).busy = false)
  | .ethernet _ _ => t.out.head? = some (.response .ethernet (envelope code body.length tag status ++ body))
  | _ => t.out.head? = some (.response .sideband (envelope code body.length tag status ++ body))
/-- The VEC commands of Tables 05-2 with the VOP of each. -/
def vecCommands (p : PIx) (q : Strm) : List (Instr × Nat) :=
  [(.copy p q, 0x01), (.fill p q, 0x02), (.add p q, 0x03), (.sub p q, 0x04), (.mul p q, 0x05), (.div p q, 0x06), (.max p q, 0x07),
   (.min p q, 0x08), (.scale p q, 0x09), (.axpy p q, 0x0A), (.abs p q, 0x0B), (.neg p q, 0x0C), (.exp p q, 0x10), (.ln p q, 0x11),
   (.rcp p q, 0x12), (.rsqrt p q, 0x13), (.relu p q, 0x18), (.silu p q, 0x19), (.drelu p q, 0x1C), (.dsilu p q, 0x1D),
   (.rsum p q, 0x20), (.rsumsq p q, 0x21), (.rdot p q, 0x22), (.rmax p q, 0x23), (.ramax p q, 0x24), (.tsum p q, 0x28),
   (.tsumsq p q, 0x29), (.tamax p q, 0x2A), (.tnfcnt p q, 0x2B), (.smx p q, 0x30), (.smxb p q, 0x31), (.lnorm p q, 0x34),
   (.rmsnorm p q, 0x35), (.lnormb p q, 0x36), (.rmsnormb p q, 0x37)]
/-- The scalar VOPs. -/
def scalarCommands (p : PIx) (q : Strm) : List (Instr × Nat) :=
  [(.scalarAdd p q, 0x40), (.scalarSub p q, 0x41), (.scalarMul p q, 0x42), (.scalarDiv p q, 0x43), (.scalarMin p q, 0x44),
   (.scalarMax p q, 0x45), (.scalarRcp p q, 0x46), (.scalarRsqrt p q, 0x47)]
/-- The magnitude m * 2^e in units of 2^g, for g at or below e. -/
def inUnits (g : Int) (m : Nat) (e : Int) : Nat := m * 2 ^ (e - g).toNat
/-- Whether R50 (to nearest, ties to even) or R54 (under a draw) writes b and not a for a magnitude X from A up to B, where the codes a and
b = a + 1 have the magnitudes A and B. -/
def writesNext (md : Rounding) (a X A B : Nat) : Prop :=
  match md with
  | .stoch draw => draw < 65536 * (X - A) / (B - A)
  | _ => A + B < 2 * X ∨ (A + B = 2 * X ∧ a % 2 = 1)
/-- The codes that Table 02-6 gives a binary format, FMT 0 to 10: the largest finite magnitude, what is written out of range and for an infinity,
and for a NaN, each without its sign. -/
def floatCodes (sat : Bool) : List (Nat × Nat × Nat × Nat) :=
  let e4m3 := if sat then 0x7E else 0x7F
  [(0, 0x7F7FFFFF, 0x7F800000, 0x7FC00000), (1, 0x7F7FFFFFFFFF, 0x7F8000000000, 0x7FC000000000), (2, 0x7BFF, 0x7C00, 0x7E00),
   (3, 0x7F7F, 0x7F80, 0x7FC0), (4, 0x7E, e4m3, 0x7F), (5, 0x7B, 0x7C, 0x7E), (6, 0x7E, e4m3, 0x7F), (7, 0x7B, 0x7C, 0x7E),
   (8, 0x1F, 0x1F, 0x1F), (9, 0x1F, 0x1F, 0x1F), (10, 0x7, 0x7, 0x7)]
/-- The integer formats of Table 02-6: FMT, width, the exponent of a step, and the largest magnitude of each sign. -/
def integerCodes : List (Nat × Nat × Int × Nat × Nat) :=
  [(11, 8, -6, 127, 127), (12, 8, 0, 127, 128), (13, 32, 0, 2 ^ 31 - 1, 2 ^ 31)]
/-- The roundings that a format's conversions use: to nearest, and under SR for the formats that allow it (R43). -/
def roundingOf (f : Nat) (md : Rounding) : Prop := md = .nearest ∨ (srFmt f = true ∧ ∃ draw < 65536, md = .stoch draw)
/-- The element-wise VOPs of Table 05-2 with the result of each on the elements a and b and IMM: every elementary step is one F32 operation
on operands that have entered F32 (R127, R129, R139, R140). -/
def elementwise (imm : Fl) : List (Nat × (Val → Val → Fl)) :=
  let sil (a : Fl) : Fl := .rcp (.add .one (.exp a.neg))
  let dsil (a s : Fl) : Fl := .mul s (.add .one (.mul a (.sub .one s)))
  [(0x01, fun a _ => .of a), (0x02, fun _ _ => imm)] ++
  ([(0x03, fun a b => .add a b), (0x04, fun a b => .sub a b), (0x05, fun a b => .mul a b), (0x06, fun a b => .div a b),
    (0x07, fun a b => (Fl.max a b).round), (0x08, fun a b => (Fl.min a b).round), (0x09, fun a _ => .mul a imm),
    (0x0A, fun a b => .add (.mul imm a) b), (0x0B, fun a _ => a.abs.round), (0x0C, fun a _ => a.neg.round), (0x10, fun a _ => a.exp),
    (0x11, fun a _ => a.ln), (0x12, fun a _ => a.rcp), (0x13, fun a _ => a.rsqrt),
    (0x18, fun a _ => if a.v.isNaN then .of .qnan else if Val.lt .zero a.v then a.round else .zero),
    (0x19, fun a _ => .mul a (sil a)),
    (0x1C, fun a b => if a.v.isNaN then .of .qnan else if Val.lt .zero a.v then b.round else .zero),
    (0x1D, fun a b => .mul b (dsil a (sil a)))] : List (Nat × (Fl → Fl → Fl))).map fun y => (y.1, fun a b => y.2 (.enter a) (.enter b))
/-- The row reductions of Table 05-2 with the result of each on a row of DSRC1 and one of DSRC2: canonical sums of the terms of R136, and
exact maxima. -/
def rowReductions : List (Nat × (List Fl → List Fl → Fl)) :=
  [(0x20, fun a _ => canon (a.map (·.v))), (0x21, fun a _ => canon (a.map fun y => Val.mul y.v y.v)),
   (0x22, fun a b => canon (List.zipWith (fun y z => Val.mul y.v z.v) a b)), (0x23, fun a _ => rowMax a),
   (0x24, fun a _ => rowMax (a.map Fl.abs))]
/-- The tensor reductions of Table 05-2 with what each writes to SDST (R136, R137). -/
def tensorReductions : List (Nat × (List Fl → BitVec 64)) :=
  let f32 (v : Val) : BitVec 64 := BitVec.ofNat 64 v.to32.toNat
  [(0x28, fun a => f32 (canon (a.map (·.v))).v), (0x29, fun a => f32 (canon (a.map fun y => Val.mul y.v y.v)).v),
   (0x2A, fun a => f32 (rowMax (a.map Fl.abs)).round.v), (0x2B, fun a => BitVec.ofNat 64 (a.filter fun y => !y.v.isFinite).length)]
/-- The scalar VOPs with the result of each on its operands (R137). -/
def scalarResults : List (Nat × (Val → Val → Val)) :=
  [(0x40, Val.addF), (0x41, Val.subF), (0x42, Val.mulF), (0x43, Val.divF), (0x44, fun a b => (Val.minF a b).r32.pos),
   (0x45, fun a b => (Val.maxF a b).r32.pos), (0x46, fun a _ => Val.rcp a), (0x47, fun a _ => Val.rsqrt a)]
/-- The bytes that an operation in flight writes where its outputs, by target slot, have these values: each is converted into its own
target (R127, R55). -/
def Dev.bytesOf (d : Dev) (p q : Nat) (f : Flight) (val : Nat → List Fl) : List OutByte :=
  ((d.emitAll p q f val).foldl (fun s e => s.append e.sink) Sink.empty).bytes
/-- What an operation that starts computes of the values it reads, by its kind: a tensor VOP, a scalar VOP, and a forward product that
neither accumulates nor is split; `d` is the device once it has read, `b` before (R68, R74 to R78, R127, R129, R136, R137). -/
def Dev.computes (b d : Dev) (p q : Nat) (f : Flight) (clean : Bool) (r : OpResult) : Prop :=
  let w := f.w
  let vop := byt w 1 1
  let imm : Fl := .of (.of32 (b.immValue p q f))
  let g (k : Nat) : Geo := (f.geo k).getD ⟨parseDesc 0 [], 0⟩
  let v (k : Nat) : List In := if (f.descs.map (·.1)).contains k && !f.slots.contains k then d.values p (g k) else []
  let x (k : Nat) (li : List Nat) : Val := (pick (g k).lens (v k) li).v
  let rows (k : Nat) : List (List Fl) := pieces ((g k).len 0) ((v k).map fun i => Fl.enter i.v)
  let reg (n : Nat) : Val := .of32 ((b.sum p (regOf q n)).setWidth 32)
  let first (l : List Fl) (k : Nat) : List Fl := if k = 0 then l else []
  (f.kind = .vec → ∀ y ∈ elementwise imm, y.1 = vop → r.bytes = d.bytesOf p q f (first ((g 0).logical.map fun li => y.2 (x 1 li) (x 2 li)))) ∧
  (f.kind = .vec → ∀ y ∈ rowReductions, y.1 = vop →
    r.bytes = d.bytesOf p q f (first ((List.range (rows 1).length).map fun i => y.2 ((rows 1).getD i []) ((rows 2).getD i [])))) ∧
  (f.kind = .vec → ∀ y ∈ tensorReductions, y.1 = vop → r.sums = sumsOf w (y.2 ((v 1).map fun i => Fl.enter i.v))) ∧
  (f.kind = .scalar → ∀ y ∈ scalarResults, y.1 = vop →
    r.sums = sumsOf w (BitVec.ofNat 64 (y.2 (reg (byt w 6 6)) (if bit (vmodOf w) 0 then imm.v else reg (byt w 8 8))).to32.toNat)) ∧
  (f.kind = .forward → clean = true → tensorSplit w = false → accumulates w 1 = false →
    ∀ a m c c0, f.geo 0 = some a → f.geo 1 = some m → f.geo 2 = some c → f.srBase = [c0] →
      r.bytes = (d.emitTo p q f c c0 (elemsOf (c.logical.map fun li => canon ((List.range (a.len 0)).map fun k =>
        Val.mul (pick a.lens (d.values p a) (k :: li.getD 1 0 :: li.drop 2)).v
          (pick m.lens (d.values p m) (li.getD 0 0 :: k :: li.drop 2)).v)))).sink.bytes)
/-- The update-engine VOPs (Table 06-3). -/
def updCommands (p : PIx) (q : Strm) : List (Instr × Nat) := [(.upd p q, 0x80), (.exportOp p q, 0x82), (.rinit p q, 0x83)]
/-- The TENSOR kinds that name no window, with row and kind. -/
def tensorCommands (p : PIx) (q : Strm) : List (Instr × Row × TKind) :=
  [(.tensorForward p q, .forward, tForward), (.tensorPair p q, .pair, tPair), (.tensorDxOnly p q, .dxOnly, tDx),
   (.tensorDwOnly p q, .dwOnly, tDw)]
/-- The collectives with their codes (Table 11-8). -/
def collCommands (p : PIx) (q : Strm) : List (Instr × Nat) :=
  [(.allreduce p q, 1), (.redscat p q, 2), (.allgather p q, 3), (.bcast p q, 4), (.permute p q, 5), (.drain p q, 6)]
/-- A management request of a code waits on a channel, the refusals that stand before every command's own do not meet it,
and its body has the form asked for. -/
def Dev.accepts (d : Dev) (ch : Chan) (code : Nat) (form : List Byte → Bool) (r : Req) : Prop :=
  d.request ch code = some r ∧ unanswered ch code = false ∧ d.gate ch code r.len = none ∧ r.envOk = true ∧ form r.body = true
/-- Nothing but the host interface's own state and the record of output differs from u. -/
def Dev.upTo (u t : Dev) : Prop := t = { u with host := t.host, out := t.out }
/-- Command c, a request r that waits on a channel, is answered at once with a status and a body, and leaves the device u but for
the host interface's own state. -/
def Answers (c : Instr) (s : State) (ch : Chan) (r : Req) (status : Nat) (body : List Byte) (u : Dev) : Prop :=
  Runs c s fun t => s.dev.answered t ch r.tag r.cmd status body ∧ u.upTo t
/-- A request is taken in and answered later, under a key. -/
def Dev.deferred (u : Dev) (ch : Chan) (code key tag : Nat) : Dev :=
  u.onHost fun h => { h with replies := h.replies ++ [⟨code, key, bareChan ch, tag⟩] }
/-- The running queue command of partition p has ended with a status and a body: its entry is counted as lost where the queue was
stopped under it, is written to the completion queue, or waits for room or for the bus (R401, R411). -/
def Dev.completed (d t : Dev) (p status : Nat) (body : List Byte) : Prop :=
  (t.part p).vf.cur = none ∧ ∀ e, (d.part p).vf.cur = some e →
    let v := (d.part p).vf
    let bytes := envelope e.cmd body.length e.tag status ++ fit 32 body ++ natLe 2 v.sqHead ++ List.replicate 13 0
    if v.discard then (t.part p).vf.lost = satAdd 16 v.lost 1
    else bytes ∈ (t.part p).vf.heldCqe ∨ Out.cqe p v.cqTail (bytes ++ [BitVec.ofNat 8 (b2n v.phase)]) ∈ t.out
/-- The queue command e of a code is partition p's running one, has not begun, and nothing of the part refuses it or holds it back
(R252, R362, R389). -/
def Dev.queueRuns (d : Dev) (p cmd : Nat) (e : Sqe) : Prop :=
  d.queueCmd p cmd = some e ∧ d.coresUp = true ∧ d.err.deOpen = false ∧ d.ckr.pwr = 0
/-- The running queue command of partition p is a slot command of code `scmd` that passes its own checks, with the body e. -/
def Dev.slotReady (d : Dev) (p scmd : Nat) (form : List Byte → Bool) (e : Sqe) : Prop :=
  d.queueRuns p 2 e ∧ num e.body 0 1 = scmd ∧ zeroAt e.body 1 3 = true ∧ zeroAt e.body 14 2 = true ∧ zeroAt e.body 22 2 = true ∧
  zeroAt e.body 32 32 = true ∧ form e.body = true ∧
  (scmd = 4 ∨ ((d.part p).entry.mode = .serve ∧ (d.part p).podCfg.getLsbD 63 = true))
/-- The stacks hold what they held, but for n bytes from an address up. -/
def Dev.memBut (d t : Dev) (a n : Nat) : Prop :=
  ∀ x, x < a ∨ a + n ≤ x → Memory.read t.mem.bytes x = Memory.read d.mem.bytes x
/-- A device-fatal event of a code has been detected first: its record stands among those detected, every partition in use has
stopped, every port is down, and handling is not complete (R389). -/
def Dev.fatal (d t : Dev) (code : Nat) : Prop :=
  (∃ r ∈ t.err.detected, r.code = code ∧ r.beat = d.beat ∧ r.mover = true) ∧ (∀ p ∈ d.live, (t.part p).st = .faulted) ∧
  (∀ l, (t.port l).st = 0) ∧ t.err.deOpen = true ∧ t.err.deDone = false ∧ t.err.holdst = d.err.holdst
/-- Every key of Table 13-2 but the credentials and the fused secret is gone, with every session and IDE stream (R339, R341). -/
def Dev.keysGone (t : Dev) : Prop :=
  t.sec.tkeys = [] ∧ t.sec.sessions = [] ∧ t.sec.ides = [] ∧ t.sec.identity = none ∧ t.sec.aliasKey = none ∧ t.sec.devKey = none ∧
  t.sec.drbgLive = false ∧
  (∀ p, (t.part p).kgen.key0 = none ∧ (t.part p).kgen.key1 = none) ∧ ∀ b, (t.shared b).key0 = none ∧ (t.shared b).key1 = none
/-- What a full reset with a cause leaves: the volatile state is gone, RST_CAUSE holds the cause and counts it, and the persistent
store's credentials and ERR_LASTDE stay (R371, R372, R381). -/
def Dev.fullyReset (d t : Dev) (cause : Nat) : Prop :=
  t.parts = [] ∧ t.tiles = [] ∧ t.hc = [] ∧ t.cat = [] ∧ t.bases = [] ∧ t.mem.bytes = [] ∧ t.sram = [] ∧ t.sec.tkeys = [] ∧ t.sec.sessions = [] ∧
  t.ckr.cause = cause ∧ t.ckr.nfull = min (d.ckr.nfull + 1) (2 ^ 32 - 1) ∧ t.ckr.clkFail = d.ckr.clkFail ∧
  t.persist.creds = d.persist.creds ∧ t.err.lastDe = d.err.lastDe
/-- A host write of a command's own reaches the registers of PF0: the function is open and in D0, and the write is let in under IDEREQ
(R401, R402). -/
def Dev.pf0Open (d : Dev) : Prop := d.hostOpen = true ∧ (d.fn 0).d3hot = false ∧ d.admits 0 ⟨true, false⟩ = true
/-- The same of the view of partition p through its VF. -/
def Dev.viewOpen (d : Dev) (p : Nat) : Prop := d.vfOpen p = true ∧ d.admits (p + 1) ⟨true, false⟩ = true
/-- Every other partition is as it was, but that a guest of p whose leader the change of p's tiles moves has its vector-engine registers at
reset (R148, R325). -/
def Dev.othersKeep (d t : Dev) (p : Nat) : Prop :=
  ∀ q, q ≠ p → t.part q = d.part q ∨ (q ∈ d.guestsOf p ∧ t.part q = (d.part q).resetEngine)
/-- Every byte of the listed tiles is zero. -/
def Dev.tilesClear (t : Dev) (ts : List Nat) : Prop := ∀ u ∈ ts, ∀ off < 2 ^ 25, Memory.read t.sram (sramAt u off) = 0

end Sys2Proof.Machine
end

