-- ==== Sys2Proof/Certificates/Slice0/Obligations.lean ====
section
/-! DEFINITION. The statements for the provers. Each docstring names the rules it rests on. A command's statement has the
shape: where these hypotheses on the state and the operands hold, the command runs, and this is what it leaves. -/

open Sys2Proof Sys2Proof.Machine

/-! ## The queue, reset and the memories -/

/-- The command at the front of the queue is run on the state with the queue's rest (tier 1). -/
def Obligations.StepRunsFrontCommand : Prop :=
  ∀ (c : Instr) (s : State), step { s with pending := c :: s.pending } = exec c s

/-- An empty queue idles (the model's choice, log entry 1); with a command waiting a step takes exactly that command, and no
command ends in a fault or a refusal. -/
def Obligations.StepAnswersAndTakesOne : Prop :=
  (∀ s : State, s.pending = [] → step s = .next s) ∧
  ∀ s : State, ∃ t : State, step s = .next t ∧ t.pending = s.pending.tail

/-- Registers whose Reset value the register tables state as other than 0, and some of 0, as they read at reset (R126, R196, R221,
R331, R394, R408). That YLIMIT and SCRUB_CFG, whose Reset is the configuration block's, read as the block's defaults before a boot has
loaded one is the model's choice (log entry 5). -/
def Obligations.ResetRegisterValues : Prop :=
  let d := State.reset.dev
  d.readReg .peelCfg = 0x800000000000003C ∧ d.readReg .ylimit = 171875 ∧ d.readReg .scrubCfg = 600 ∧ d.readReg .lnkBeat = 0 ∧
  d.readReg .errStat = 0 ∧ d.readReg .glbInt = 0 ∧
  ∀ p : PIx, d.readReg (.distTemp p.val) = 0x3F800000 ∧ d.readReg (.partCtl p.val) = 0x7F * 2 ^ 40 ∧ d.readReg (.qCfg p.val) = 0x404 ∧
    d.readReg (.qStat p.val) = 2 ^ 62 ∧ d.readReg (.srKey p.val) = 0 ∧
    (∀ k : Fin 16, d.readReg (.podHandle p.val k.val) = 0xFFFFFFFF) ∧ ∀ q : Strm, d.readReg (.sqStat p.val (strmIx q)) = 0

/-- The memories are canonical at reset. -/
def Obligations.ResetMemoryCanonical : Prop := State.reset.Inv

/-- Every step keeps the memories canonical: equal contents are equal data, whatever command ran. -/
def Obligations.StepKeepsMemoryCanonical : Prop :=
  ∀ s t : State, s.Inv → step s = .next t → t.Inv

/-! ## Issuing stream operations (03 to 09, 11) -/

/-- Every tensor VOP of Table 05-2: an operation that a stream fetches, with fewer than 8 in flight, and that passes its checks is issued
(R98, R99, R103, R129, R136, R137). Its checks leave nothing but what reading leaves, and its issue nothing but the stream, its
stochastic-rounding counter and the partition's numbering (R55). -/
def Obligations.VecIssues : Prop :=
  ∀ (s : State) (p : PIx) (q : Strm) (c : Instr) (v : Nat) (d e : Dev) (w : Nat) (x : Plan),
    (c, v) ∈ vecCommands p q → s.dev.offers d p.val (strmIx q) w (.vop v) →
    (d.vopPlan p.val (strmIx q) v w).on d = (.ok x, e) → e.issues p.val (strmIx q) x = true → Issues c s d e p.val (strmIx q) w x

/-- Every scalar VOP is issued likewise, and names no descriptor (R137); and so are UPD, EXPORT and RINIT (R151, R158, R169, R170). -/
def Obligations.ScalarAndUpdateIssues : Prop :=
  ∀ (s : State) (p : PIx) (q : Strm) (c : Instr) (v : Nat) (d : Dev) (w : Nat),
    s.dev.offers d p.val (strmIx q) w (.vop v) →
    ((c, v) ∈ scalarCommands p q → scalarForm (strmIx q) v w = true →
      Issues c s d d p.val (strmIx q) w ⟨.scalar, [], [], none⟩) ∧
    (∀ (e : Dev) (x : Plan), (c, v) ∈ updCommands p q → (d.updPlan p.val (strmIx q) v w).on d = (.ok x, e) →
      e.issues p.val (strmIx q) x = true → Issues c s d e p.val (strmIx q) w x)

/-- The TENSOR kinds of Table 04-3 (R105 to R108); one of SQB is issued once the arrays it needs are free of SQB's earlier ones (R87). -/
def Obligations.TensorIssues : Prop :=
  ∀ (s : State) (p : PIx) (q : Strm) (c : Instr) (r : Row) (k : TKind) (d e : Dev) (w : Nat) (x : Plan),
    (c, r, k) ∈ tensorCommands p q → s.dev.offers d p.val (strmIx q) w r →
    (d.tensorPlan p.val (strmIx q) k w).on d = (.ok x, e) → e.issues p.val (strmIx q) x = true → Issues c s d e p.val (strmIx q) w x

/-- The operations that a window makes of a forward TENSOR or of a COPY: adapter-apply, attention, the two sides of distillation
and KV append (R190, R209, R234, R235). -/
def Obligations.WindowOperationsIssue : Prop :=
  ∀ (s : State) (p : PIx) (q : Strm) (d e : Dev) (w : Nat) (x : Plan),
    let n := strmIx q
    e.issues p.val n x = true →
    (s.dev.offers d p.val n w .adapter → (d.adapterPlan p.val n w).on d = (.ok x, e) → Issues (.adapterApply p q) s d e p.val n w x) ∧
    (s.dev.offers d p.val n w .attention → (d.attentionPlan p.val n w).on d = (.ok x, e) → Issues (.attention p q) s d e p.val n w x) ∧
    (s.dev.offers d p.val n w .teacher → (d.teacherPlan p.val n w).on d = (.ok x, e) → Issues (.teacherWindowOp p q) s d e p.val n w x) ∧
    (s.dev.offers d p.val n w .student → (d.studentPlan p.val n w).on d = (.ok x, e) → Issues (.studentWindowOp p q) s d e p.val n w x) ∧
    (s.dev.offers d p.val n w .kvAppend → (d.appendPlan p.val n w).on d = (.ok x, e) → Issues (.kvAppend p q) s d e p.val n w x)

/-- The six collectives (R292). -/
def Obligations.CollIssues : Prop :=
  ∀ (s : State) (p : PIx) (q : Strm) (c : Instr) (k : Nat) (d e : Dev) (w : Nat) (x : Plan),
    (c, k) ∈ collCommands p q → s.dev.offers d p.val (strmIx q) w (.coll k) →
    (d.collPlan p.val (strmIx q) k w).on d = (.ok x, e) → Issues c s d e p.val (strmIx q) w x

/-! ## Control operations (R112 to R119) -/

/-- WAITS subtracts COUNT from a semaphore that reaches it, and otherwise waits; POST takes its place behind the operations before
it (R114). That the PC of a waiting stream is that of the operation after is the model's choice (log entry 99). -/
def Obligations.SemaphoreOperations : Prop :=
  ∀ (s : State) (p : PIx) (q : Strm) (d : Dev) (w : Nat), let n := strmIx q
    semForm w = true →
    (s.dev.offers d p.val n w .waits → (d.part p.val).semReady = true →
      (byt w 7 4 ≤ (d.part p.val).semv (byt w 2 2) →
        Leaves (.waits p q) s (d.setPart p.val
          (((d.part p.val).setSem (byt w 2 2) ((d.part p.val).semv (byt w 2 2) - byt w 7 4)).onSeq n Seq.next))) ∧
      ((d.part p.val).semv (byt w 2 2) < byt w 7 4 →
        Leaves (.waits p q) s (d.onSeq p.val n fun x => { x.next with st := .waitSem, waitSem := (byt w 2 2, byt w 7 4) }))) ∧
    (s.dev.offers d p.val n w .post →
      Leaves (.post p q) s (d.onSeq p.val n fun x => { x.next with items := x.items ++ [Item.post (byt w 2 2) (byt w 7 4) x.pc] }))

/-- WAITB goes on at once at a beat already reached, and otherwise waits for it (R118); FENCE and HALT stop the stream's issue until
they are reached (R116, R119). That the PC of a stream waiting in WAITB is that of the operation after is the model's choice (log entry
99), and so is that WAITB waits in HOLD and BEATLOST for a target already reached (log entry 132). -/
def Obligations.BeatFenceHalt : Prop :=
  ∀ (s : State) (p : PIx) (q : Strm) (d : Dev) (w : Nat), let n := strmIx q
    (s.dev.offers d p.val n w .waitb → fld (byt w 1 1) 7 1 = 0 → byt w 15 8 = 0 →
      let target := if bit (byt w 1 1) 0 then (d.beat + byt w 7 2) % 2 ^ 48 else byt w 7 2
      Leaves (.waitb p q) s (d.onSeq p.val n fun x =>
        if reached d.beat target = true ∧ d.lnk.frozen = false then x.next else { x.next with st := .waitBeat, waitBeat := target })) ∧
    (s.dev.offers d p.val n w .fence → byt w 1 1 = 0 → byt w 15 6 = 0 →
      Leaves (.fence p q) s (d.onSeq p.val n fun x => { x.next with hold := .fence (byt w 5 2) })) ∧
    (s.dev.offers d p.val n w .halt → byt w 1 1 = 0 → byt w 15 6 = 0 →
      Leaves (.halt p q) s (d.onSeq p.val n fun x => { x.next with hold := .halt (byt w 5 2) }))

/-- BR takes the branch that its comparison gives, leaving the loops that exclude the target; LOOP enters its body or passes it
over; CALL and RET push and pop a return address (R112, R113). -/
def Obligations.BranchLoopCallRet : Prop :=
  ∀ (s : State) (p : PIx) (q : Strm) (d : Dev) (w : Nat), let n := strmIx q
    (s.dev.offers d p.val n w .br → brForm n w = true → d.regReady p.val n (byt w 2 2) = true →
      (bit (byt w 1 1) 5 = true → d.regReady p.val n (byt w 3 3) = true) →
      let y := if bit (byt w 1 1) 5 then d.sum p.val (regOf n (byt w 3 3)) else BitVec.ofNat 64 (byt w 15 8)
      let taken := brTaken (fld (byt w 1 1) 4 3) (fld (byt w 1 1) 2 0) (d.sum p.val (regOf n (byt w 2 2))) y
      Leaves (.br p q) s (d.onSeq p.val n fun x =>
        let a := (((x.pc : Int) + 16 * sext 32 (byt w 7 4)) % (2 ^ 48 : Nat)).toNat
        if taken then { x with stack := popLoops x.stack a, pc := a } else x.next)) ∧
    (s.dev.offers d p.val n w .loop → byt w 1 1 = 0 → byt w 15 10 = 0 → byt w 9 6 ≠ 0 →
      (byt w 5 2 = 0 → Leaves (.loop p q) s (d.onSeq p.val n fun x => x.goto (x.pc + 16 + 16 * byt w 9 6))) ∧
      (byt w 5 2 ≠ 0 → (d.seq p.val n).stack.length < 8 →
        Leaves (.loop p q) s (d.onSeq p.val n fun x =>
          { x with stack := .loop ((x.pc + 16) % 2 ^ 48) (byt w 9 6) (byt w 5 2) 0 :: x.stack, pc := (x.pc + 16) % 2 ^ 48 }))) ∧
    (s.dev.offers d p.val n w .call → byt w 1 1 = 0 → byt w 15 8 = 0 → byt w 7 2 % 16 = 0 → (d.seq p.val n).stack.length < 8 →
      Leaves (.call p q) s (d.onSeq p.val n fun x => { x with stack := .call ((x.pc + 16) % 2 ^ 48) :: x.stack, pc := byt w 7 2 })) ∧
    (∀ a t, s.dev.offers d p.val n w .ret → byt w 15 1 = 0 → popCall (d.seq p.val n).stack = some (a, t) →
      Leaves (.ret p q) s (d.onSeq p.val n fun x => { x with stack := t }.goto a))

/-- An operation that no row of the opcode table lists stops its partition with OP_INVALID (R103). That whichever stream command meets it
does so is the model's choice: no command of the table is such an operation's own (log entry 87). -/
def Obligations.UnlistedOperationStops : Prop :=
  ∀ (s : State) (p : PIx) (q : Strm) (c : Instr) (d : Dev) (w : Nat),
    (c ∈ [Instr.waitb p q, .waits p q, .post p q, .br p q, .loop p q, .call p q, .ret p q, .fence p q, .halt p q] ∨
      c ∈ [Instr.adapterApply p q, .attention p q, .teacherWindowOp p q, .studentWindowOp p q, .kvAppend p q] ∨
      c ∈ (vecCommands p q).map (·.1) ∨ c ∈ (scalarCommands p q).map (·.1) ∨ c ∈ (updCommands p q).map (·.1) ∨
      c ∈ (tensorCommands p q).map (·.1) ∨ c ∈ (collCommands p q).map (·.1)) →
    s.dev.offers d p.val (strmIx q) w .bad → (d.part p.val).st ≠ .faulted → (d.part p.val).st.hasTiles = true →
    Runs c s fun t => d.stoppedBy t p.val Code.opInvalid

/-! ## Operations in flight (R98, R99, R111, R114 to R119) -/

/-- OP_START: where dependencies, hazards and engines allow it, nothing glitches and no operation of another stream touches what it
touches, the operation starts with its hot-channel lists taken, with what its kind reads and will write, and with what each regulator that
it asked something of must have served by its end (R20, R58, R98, R99, R101, R316; log entry 105); others may be ready by its start. What it
will write is, element by element, what Table 05-2 gives an element-wise VOP, R136 a row or tensor reduction, R137 a scalar VOP, and R68
and R78 a forward product. That operands beyond the F32 range enter their first step as infinities, and which steps round, is in part the
model's choice (log entries 119 and 135). -/
def Obligations.OpStartStarts : Prop :=
  ∀ (s : State) (p : PIx) (q : Strm) (ix : Nat) (gl : List Glitch) (f f' g : Flight) (e d : Dev), let n := strmIx q; let P := s.dev.part p.val
    (s.dev.seq p.val n).opAt ix = some f → f.started = false → s.dev.running p.val = true → P.depsMet n f = true →
    s.dev.engineReady p.val n f = true → controlGlitch gl = none → deviceGlitch gl = none →
    (lateLists p.val (P.listsDue f) f).on s.dev = (.ok f', e) →
    (∀ x ∈ (e.part p.val).flights, x.1 ≠ n → x.2.started = true → races x.2 f' = false) →
    e.startKind p.val n f' gl = .run d g → (∀ x ∈ (d.part p.val).flights, x.1 ≠ n → x.2.started = true → races g x.2 = false) →
    g.started = true ∧ g.no = f.no ∧ g.word = f.word ∧ e.computes d p.val n f' gl.isEmpty g.result ∧
    Runs (.opStart p q ix gl) s fun t =>
      let u := (d.chargeBytes p.val g.result.bytes).charge p.val 2 (Config.fabricBytes f.no)
      let h : Flight := { g with
        gl := gl, seen := e.seenOf p.val f', path := if f'.kind = .teacherWin ∨ f'.kind = .studentWin then some (e.part p.val).dist else none
        mark := [0, 1, 2].map fun r => if (u.bucket p.val r).asked = (s.dev.bucket p.val r).asked then 0 else (u.bucket p.val r).asked, tags := gl.filter fun y => match y with
          | .tag _ => true
          | _ => false }
      t.part p.val = ((d.setFlight p.val n h).part p.val).markReady ∧ (∀ r, r ≠ p.val → t.part r = d.part r) ∧ t.buckets = u.buckets ∧
      t.mem = d.mem ∧ t.sram = d.sram ∧ t.tiles = d.tiles ∧ t.hc = d.hc

/-- TENSOR_COMPLETE, VEC_COMPLETE and UPDATE_OP_COMPLETE: a started operation of the kind, none of whose bytes lacks a place, completes
once the regulators have served what it read and, for TENSOR and VEC, while its partition has the engines (R316, R326): it leaves its
stream, its bytes are written, its counts are added to the counter sets, and its summaries stand in the stream's registers (R66, R98,
R111, R155). -/
def Obligations.EngineOperationsComplete : Prop :=
  ∀ (s : State) (p : PIx) (q : Strm) (ix : Nat) (f : Flight), let d := s.dev; let n := strmIx q; let r := f.result
    (d.seq p.val n).opAt ix = some f → f.started = true → d.running p.val = true → d.served p.val f = true → r.fault = none →
    let u := if f.kind = .kvAppend then d.noteUndo p.val r.bytes else d
    let done (t : Dev) : Prop :=
      (t.seq p.val n).without f.no ∧ (t.seq p.val n).sums = r.sums.foldl (fun y x => Tab.put y x.1 x.2) (d.seq p.val n).sums ∧
      t.mem = (u.putBytes p.val f.tags r.bytes).mem ∧ t.sram = (u.putBytes p.val f.tags r.bytes).sram ∧
      t.hc = (d.addHealth p.val r.health).hc ∧ (t.part p.val).st = (d.part p.val).st ∧ (∀ k, k ≠ p.val → t.part k = d.part k)
    (f.kind.isTensor = true → d.ownsBeat p.val = true →
      ∃ t, Sys2Proof.Machine.exec (.tensorComplete p q ix) s = .next { s with dev := t } ∧ done t ∧
        ((f.kind = .teacherWin ∨ f.kind = .studentWin → (Tab.get? f.descs 2).isSome = true) →
          (t.part p.val).smxEmpty = satAdd 64 (d.part p.val).smxEmpty r.empties ∧ (t.part p.val).smxInf = satAdd 64 (d.part p.val).smxInf r.infs)) ∧
    (f.kind.isVec = true → d.ownsBeat p.val = true →
      ∃ t, Sys2Proof.Machine.exec (.vecComplete p q ix) s = .next { s with dev := t } ∧ done t ∧
        (t.part p.val).smxEmpty = satAdd 64 (d.part p.val).smxEmpty r.empties ∧ (t.part p.val).smxInf = satAdd 64 (d.part p.val).smxInf r.infs) ∧
    (f.kind.isUpd = true →
      ∃ t, Sys2Proof.Machine.exec (.updateOpComplete p q ix) s = .next { s with dev := t } ∧ done t ∧
        (t.part p.val).upd.step = (if r.stepInc then (d.part p.val).upd.step + 1 else (d.part p.val).upd.step) ∧
        (t.part p.val).upd.stalls = satAdd 32 (d.part p.val).upd.stalls r.stalls)

/-- A COLL operation completes once its cells are sent and received and the regulators serve it, a DRAIN once no reduction is in flight
besides: it leaves its stream, its summary stands in the stream's register, and DRAIN and PERMUTE act on the layout epoch (R293, R300,
R301; log entry 105). -/
def Obligations.CollCompletes : Prop :=
  ∀ (s : State) (p : PIx) (q : Strm) (ix : Nat) (f g : Flight) (c : CollRun) (e : Dev), let n := strmIx q
    (s.dev.seq p.val n).opAt ix = some f → f.coll = some c → f.started = true → c.toSend = [] → s.dev.allReceived c = true →
    s.dev.running p.val = true → s.dev.lnk.frozen = false → s.dev.served p.val f = true → s.dev.servable p.val [1] = true →
    (c.ckind = 6 → ((s.dev.part p.val).reducing fun _ => true) = false) →
    s.dev.collResult p.val n f c = (.ok g, e) → g.result.fault = none → (e.part p.val).st ≠ .faulted →
    Runs (.collComplete p q ix) s fun t => (t.seq p.val n).without f.no ∧
      (t.seq p.val n).sums = g.result.sums.foldl (fun y x => Tab.put y x.1 x.2) (e.seq p.val n).sums ∧
      (c.ckind = 6 → (t.part p.val).drained = true) ∧
      (c.ckind = 5 → (t.part p.val).drained = false ∧ (t.part p.val).epoch = (e.part p.val).epoch + 1 ∧ (t.part p.val).permuting = some n)

/-- A waiting WAITS, WAITB or POST takes effect, and a FENCE or a HALT is reached, as R114 to R119 give; a FENCE of the stream that issued
a PERMUTE ends its move: the new layout alone owns what it moved (R301). That a FENCE of the issuing stream is the closing one is the
model's choice (log entry 69). -/
def Obligations.WaitsEnd : Prop :=
  ∀ (s : State) (p : PIx) (q : Strm), let n := strmIx q; let P := s.dev.part p.val; let x := P.seq n
    s.dev.running p.val = true →
    (P.postsDone = true → P.passes n = true → (∀ r < n, P.passes r = false) →
      Leaves (.semWaitSatisfied p q) s (s.dev.setPart p.val ((P.setSem x.waitSem.1 (P.semv x.waitSem.1 - x.waitSem.2)).onSeq n fun x => { x with st := .run }))) ∧
    (x.st = .waitBeat → reached s.dev.beat x.waitBeat = true → s.dev.lnk.frozen = false →
      Leaves (.beatTargetReached p q) s (s.dev.onSeq p.val n fun x => { x with st := .run })) ∧
    (∀ m k pc rest, x.items = .post m k pc :: rest → P.semv m + k < 2 ^ 32 →
      Runs (.postTakesEffect p q) s fun t => (t.part p.val).semv m = P.semv m + k ∧ (t.seq p.val n).items = rest ∧
        (∀ r, r ≠ m → (t.part p.val).semv r = P.semv r) ∧ s.dev.sameBut t p.val) ∧
    (∀ fid, x.hold = .fence fid → x.st = .run → x.items = [] → (s.dev.onPart p.val fun P => P.closeMove n).imbalances p.val = [] →
      (∀ l, (s.dev.port l).up = true → (s.dev.port l).inBalance = true) →
      Runs (.fenceReached p q) s fun t => (t.seq p.val n).hold = .none ∧ (t.seq p.val n).fenceValid = true ∧
        (t.seq p.val n).fid = BitVec.ofNat 32 fid ∧ (t.seq p.val n).st = (if P.st = .yielding then .stopped else .run) ∧
        (t.part p.val).st = P.st ∧ (t.part p.val).permuting = (P.closeMove n).permuting ∧
        (t.part p.val).shards = (P.closeMove n).shards ∧ s.dev.sameBut t p.val) ∧
    (∀ code, x.hold = .halt code → x.st = .run → x.items = [] → P.step = none →
      Runs (.haltReached p q) s fun t => (t.seq p.val n).st = .halted ∧ (t.seq p.val n).hcode = BitVec.ofNat 32 code ∧
        (t.seq p.val n).stack = [] ∧ (t.part p.val).vf.vstat.getLsbD (3 + n) = true ∧ t.mem = s.dev.mem ∧ t.sram = s.dev.sram)

/-- START starts an IDLE or HALTED stream at its address, and RESUME a STOPPED one, in an ACTIVE partition (R102, R410); outside
those states the doorbell does nothing. Under IDEREQ the write arrives on a stream in the Secure state (R402). In a beat that the peel uses
a start waits for the beat's end (R392); no tile of the partition is peeled here. -/
def Obligations.Doorbells : Prop :=
  ∀ (s : State) (p : PIx) (q : Strm) (v : W64), let n := strmIx q; let P := s.dev.part p.val
    s.dev.admits (p.val + 1) ⟨true, false⟩ = true → s.dev.peeled p.val = false →
    (s.dev.bellOpen p.val n = true → (P.seq n).st.free = true → fld v.toNat 63 48 = 0 → fld v.toNat 3 0 = 0 →
      ¬(n = 0 ∧ P.entry.mode = .serve ∧ P.step.isSome = true) →
      Leaves (.streamStart p q v) s (s.dev.onSeq p.val n fun x =>
        { x with st := .run, pc := fld v.toNat 47 4 * 16, stack := [], hold := .none, mapBuilt := false })) ∧
    (s.dev.bellOpen p.val n = true → (P.seq n).st = .stopped → v.getLsbD 0 = true →
      Leaves (.streamResume p q v) s (s.dev.onSeq p.val n fun x => { x with st := .run })) ∧
    ((P.seq n).st.free = false → Leaves (.streamStart p q v) s s.dev) ∧
    ((P.seq n).st ≠ .stopped → Leaves (.streamResume p q v) s s.dev)

/-- The partition-contained errors that no operation raises by itself stop the partition with their code: a semaphore deadlock
(R115), a periscope deadlock (R208), a late peer (R293) and a yield that does not complete (R322). -/
def Obligations.DeadlocksAndTimeoutsStop : Prop :=
  ∀ (s : State) (p : PIx) (q : Strm) (ix : Nat) (f : Flight) (c : CollRun), let n := strmIx q; let P := s.dev.part p.val
    (s.dev.running p.val = true → (∀ r ∈ P.streams, (P.seq r).st = .waitSem ∨ (P.seq r).st.quiet = true) → (∃ r ∈ P.streams, (P.seq r).st = .waitSem) →
      (∀ r ∈ P.streams, (P.seq r).items = []) → P.semReady = true →
      Runs (.semDeadlock p) s fun t => s.dev.stoppedBy t p.val Code.semDeadlock) ∧
    (s.dev.running p.val = true → P.creditStall = true → P.still = true →
      Runs (.pscDeadlock p) s fun t => s.dev.stoppedBy t p.val Code.pscDeadlock) ∧
    ((s.dev.seq p.val n).opAt ix = some f → f.coll = some c → s.dev.running p.val = true → s.dev.allReceived c = false →
      reached s.dev.beat ((c.anchor + c.trans.len + 64 + c.extend) % 2 ^ 48) = true →
      Runs (.peerLate p q ix) s fun t => s.dev.stoppedBy t p.val Code.peerLate) ∧
    (P.yielding = true → s.dev.err.ylimit.toNat ≤ P.yCount →
      Runs (.yieldTimeout p) s fun t => s.dev.stoppedBy t p.val Code.yieldTimeout ∧ (t.part p.val).yResult = .timeout)

/-! ## Lending BW, and bubbles (R88, R89, R326) -/

/-- BW returns to the backward stream with MAXRET raised, and is lent while no operation needs it (R88, R89): nothing of the tiles changes
but that, and nothing of the partition but where the running forward operation's remaining work units go. A bubble gives its guest the
host's engines at its first beat and takes them back at its end (R326). -/
def Obligations.LendingAndBubbles : Prop :=
  ∀ (s : State) (p : PIx) (u : TIx) (cycles ix : Nat) (b : Bubble), let d := s.dev; let P := d.part p.val
    let rest (t : Dev) : Prop := (∀ v, v ≠ u.val → t.tile v = d.tile v) ∧ (∀ r, r ≠ p.val → t.part r = d.part r) ∧
      (∀ r, r ≠ 0 → t.seq p.val r = d.seq p.val r) ∧ (t.seq p.val 0).pc = (d.seq p.val 0).pc ∧ t.mem = d.mem ∧ t.sram = d.sram ∧ t.err = d.err ∧
      (P.forwardRun = none → t.part p.val = P)
    (P.entry.gang = .borrow → (d.tilesOf p.val).contains u.val = true →
      ((d.tile u.val).bwLent = true → P.needsBw = true →
        Runs (.bwReturn p u cycles) s fun t => rest t ∧
          t.tile u.val = { d.tile u.val with bwLent := false, lendMax := max (d.tile u.val).lendMax (min cycles 65535) }) ∧
      (P.needsBw = false → (d.tile u.val).bwLent = false → P.forwardRun.isSome = true →
        Runs (.bwLend p u) s fun t => rest t ∧ t.tile u.val = { d.tile u.val with bwLent := true })) ∧
    (d.bubbleAt ix = some (b, true) → Leaves (.bubbleStart ix) s (d.onPart b.guest fun P => { P with bubble := true })) ∧
    (d.bubbleAt ix = some (b, false) → Leaves (.bubbleEnd ix) s (d.onPart b.guest fun P => { P with bubble := false }))

/-! ## Serving, pod slots and the catalog (07, 09) -/

/-- STEP begins its first wave, or ends at once where no row is left to execute (R224, R232), as the stack regulators serve it and in
no beat that the peel uses (R315, R392); WAVE_START sets the summary registers and starts the program of a wave whose binds have ended,
once no copy of it stands before a barrier (R193, R228, R272); and not in a beat that the peel uses (R392). -/
def Obligations.StepAndWaves : Prop :=
  (∀ (s : State) (p : PIx) (e : Sqe) (r : StepRun) (d1 d2 : Dev), let d := s.dev
    d.queueRuns p.val 1 e → d.servable p.val [0, 1] = true → d.peeled p.val = false → (d.part p.val).runs = true →
    (d.parseStep p.val e.body).on d = (.ok (some r), d1) →
    let d1 := (d1.cmdStarted p.val).onPart p.val fun P => { P with step := some r }
    d1.checkRows p.val 0 r.rows = .ok d2 →
    let paused := pauseRows r.pods0 r.coefs (num e.body 40 4) (d2.stepRows p.val)
    let n := (formWaves r.pods0 ((conflictRows [] paused.1).filter StepRow.isOpen)).waves.length
    Runs (.step p) s fun t => (t.part p.val).st = (d.part p.val).st ∧ (∀ q, q ≠ p.val → t.part q = d.part q) ∧
      (n = 0 → (t.part p.val).step = none) ∧
      (0 < n → ∃ x, (t.part p.val).step = some x ∧ x.wave = 1 ∧ x.nwave = n ∧ x.phase = 0 ∧ x.overbudget = paused.2)) ∧
  ∀ (s : State) (p : PIx) (x y : StepRun) (d d1 d2 : Dev), let P := s.dev.part p.val
    P.step = some x → x.phase = 0 → x.wave ≠ 0 → s.dev.running p.val = true → (P.pods.any fun k => k.st == .binding) = false →
    s.dev.servable p.val [0, 1] = true → s.dev.peeled p.val = false →
    (s.dev.failBinds p.val x).compareTags p.val ((((s.dev.failBinds p.val x).part p.val).step.map StepRun.current).getD []) = .ok d →
    (d.part p.val).step = some y → y.current ≠ [] → (d.beginWave p.val).waveWaits p.val 1 = none →
    (d.beginWave p.val).writeLens p.val y.tokens.length y.tlist = .ok d1 →
    d1.runToks p.val 1 y y.tlist = .ok d2 → (d2.part p.val).sq ≠ [] →
    Runs (.waveStart p) s fun t => (t.seq p.val 0).st = .run ∧ (t.seq p.val 0).pc = y.prog ∧ (t.seq p.val 0).stack = [] ∧
      t.sum p.val (0, 0) = BitVec.ofNat 64 y.tokens.length ∧ t.sum p.val (0, 1) = BitVec.ofNat 64 y.wave ∧
      t.sum p.val (0, 2) = BitVec.ofNat 64 y.nwave ∧ (t.part p.val).step = (d2.part p.val).step ∧
      t.mem = d2.mem ∧ t.sram = d2.sram ∧ ∀ r, r ≠ p.val → t.part r = d2.part r

/-- BIND takes the slot that R186 picks, which becomes BINDING; BIND_COMPLETE makes it BOUND with its GEN advanced, or EMPTY again,
as the checks of R182 come out, once the stack regulators serve it (R315). -/
def Obligations.BindsEnd : Prop :=
  ∀ (s : State) (p : PIx) (k : Fin 16) (e : Sqe), let d := s.dev; let P := d.part p.val
    (d.slotReady p.val 1 (fun b => zeroAt b 8 24) e → P.slotOf (BitVec.ofNat 32 (num e.body 4 4)) = none → P.pickSlot = some k.val →
      d.bindCheck p.val (num e.body 4 4) = 0 →
      Runs (.bind p) s fun t => let x := (t.part p.val).pod k.val
        x.st = .binding ∧ x.handle = BitVec.ofNat 32 (num e.body 4 4) ∧ x.pins = 0 ∧ x.gen = (P.pod k.val).gen ∧
        (∀ j, j ≠ k.val → (t.part p.val).pod j = P.pod j) ∧ t.mem = d.mem) ∧
    (k.val < P.pods.length → (P.pod k.val).st = .binding → d.coresUp = true → d.servable p.val [0, 1] = true →
      Runs (.bindComplete p k) s fun t => let x := (t.part p.val).pod k.val; let c := d.catEntry (handleIx (P.pod k.val).handle.toNat)
        (∀ j, j ≠ k.val → (t.part p.val).pod j = P.pod j) ∧
        match d.bindOutcome p.val c with
        | .ok _ => x.st = .bound ∧ x.gen = (P.pod k.val).gen + 1 ∧ x.dtag = dtagOf c.digest ∧ x.handle = (P.pod k.val).handle
        | .error _ => x.st = .empty ∧ x.gen = (P.pod k.val).gen)

/-- UNBIND empties the slot of an unpinned handle, UNPIN takes pins away, and SEAL makes a READY entry of an image, or frees the entry
again where the image is none (R180, R188, R189). The null handle of a failed SEAL, and that the entry is LOADING from the form's check
on, are the model's choices (log entries 47 and 117). -/
def Obligations.SlotCommands : Prop :=
  ∀ (s : State) (p : PIx) (k : Fin 16) (e : Sqe), let d := s.dev; let P := d.part p.val; let h := num e.body 4 4
    (d.slotReady p.val 2 (fun b => zeroAt b 8 24) e → P.slotOf (BitVec.ofNat 32 h) = some k.val → (P.pod k.val).st = .bound →
      (P.pod k.val).pins = 0 → (P.pod k.val).held = false →
      Runs (.unbind p) s fun t => (t.part p.val).pod k.val = (P.pod k.val).emptied ∧ (∀ j, j ≠ k.val → (t.part p.val).pod j = P.pod j) ∧
        d.completed t p.val 0 (d.slotBody p.val h none)) ∧
    (d.slotReady p.val 3 (fun b => zeroAt b 12 20) e → P.slotOf (BitVec.ofNat 32 h) = some k.val → (P.pod k.val).st = .bound →
      num e.body 8 4 ≤ (P.pod k.val).pins →
      Runs (.unpin p) s fun t => ((t.part p.val).pod k.val).pins = (P.pod k.val).pins - num e.body 8 4 ∧
        ((t.part p.val).pod k.val).st = .bound ∧ (∀ j, j ≠ k.val → (t.part p.val).pod j = P.pod j) ∧
        d.completed t p.val 0 (natLe 4 h ++ natLe 1 k.val ++ [0] ++ natLe 2 (P.pod k.val).gen.toNat ++
          natLe 2 ((P.pod k.val).pins - num e.body 8 4) ++ List.replicate 6 0)) ∧
    (∀ i key, d.slotReady p.val 4 (fun b => zeroAt b 4 8) e → let a := num e.body 16 6; let n := num e.body 24 8; let img := d.peek p.val a n
      n ≠ 0 → d.mapped p.val a n (· == 0) = true → d.poisoned p.val a n = false → d.tenantKey p.val (num e.body 12 2) = some key →
      d.catRoom n = some i → d.servable p.val [0] = true →
      Runs (.sealSlot p) s fun t =>
        if imageOk img n = true ∧ dtagOf (imageDigest img) ≠ 0 then
          (t.catEntry i).st = .ready ∧ (t.catEntry i).tenant = num e.body 12 2 ∧ (t.catEntry i).pmask = 0 ∧ (t.catEntry i).length = n ∧
          (t.catEntry i).digest = imageDigest img ∧ (t.catEntry i).iv = (Config.drbg d.sec.drbg).setWidth 96 ∧
          (∀ j, j ≠ i → t.catEntry j = d.catEntry j) ∧ d.completed t p.val 0 (t.slotBody p.val (handleOf i (d.catEntry i)) none)
        else t.catEntry i = (d.catEntry i).freed i ∧ (∀ j, j ≠ i → t.catEntry j = d.catEntry j) ∧
          d.completed t p.val Code.adapterFormat (d.slotBody p.val 0xFFFFFFFF none))

/-- SCRUB: where every listed page exists, every byte of every block of each page, and its tag, reads 0 after it, and every other byte of
the stacks reads as before; where one does not, the command completes with SCRUB_INVALID and nothing is written. SCRUB_COMPLETE
completes the command OK (R243). The stack regulators serve it first (R315). -/
def Obligations.ScrubZeroes : Prop :=
  ∀ (s : State) (p : PIx) (e : Sqe), let d := s.dev; let P := d.part p.val; let b := e.body; let n := num b 8 4
    (∀ l d', s.Inv → d.servable p.val [0, 1] = true → d.queueRuns p.val 3 e → num b 0 6 % 4 = 0 → 1 ≤ n → n ≤ 65536 → zeroAt b 6 2 = true → zeroAt b 12 52 = true →
      (chkFetch p.val (num b 0 6) (4 * n)).on d = (.ok l, d') → let page (i : Nat) := num l (4 * i) 4
      let mine (a : Nat) : Prop := ∃ i < n, (∃ j < 8, a = P.kvTagAt (page i) + j) ∨
        ∃ k < P.kvLayers, ∃ g < P.kvGroups, ∃ j < 2 * P.kvHalf, a = P.kvBlock (page i) k g + j
      ((∀ i < n, page i < P.kvNpages) →
        ∃ t, Sys2Proof.Machine.exec (.scrub p) s = .next { s with dev := t } ∧
          (∀ a y, mine a → d.pa? p.val a = some y → y.kind ≠ 1 → Memory.read t.mem.bytes y.pa = 0) ∧
          (∀ x, (∀ a y, mine a → d.pa? p.val a = some y → y.kind ≠ 1 → y.pa ≠ x) → Memory.read t.mem.bytes x = Memory.read d.mem.bytes x) ∧
          (t.part p.val).vf.cur = some { e with started := true } ∧ t.sram = d.sram ∧ ∀ q, q ≠ p.val → t.part q = d.part q) ∧
      ((∃ i < n, P.kvNpages ≤ page i) →
        ∃ t, Sys2Proof.Machine.exec (.scrub p) s = .next { s with dev := t } ∧ d.completed t p.val Code.scrubInvalid [] ∧ t.mem.bytes = d.mem.bytes)) ∧
    (P.vf.cur = some e → e.cmd = 3 → e.started = true → P.st ≠ .faulted → d.coresUp = true →
      ∃ t, Sys2Proof.Machine.exec (.scrubComplete p) s = .next { s with dev := t } ∧ d.completed t p.val 0 [] ∧ t.mem = d.mem ∧ t.sram = d.sram)

/-- The catalog commands (R176 to R180, R187). After CAT_REVOKE no slot keeps the handle but one that a wave holds, which is marked. -/
def Obligations.CatalogCommands : Prop :=
  ∀ (s : State) (ch : Chan) (r : Req) (i : Fin 16384) (e : CatEntry), let d := s.dev; let b := r.body; let h := num b 0 4
    (d.accepts ch 0x100 (fun b => bodyLen 88 b && decide (num b 0 2 < 1024) && zeroAt b 78 2 && num b 80 8 % 64 == 0 && d.dma) r →
      d.catRoom (num b 10 8) = some i.val → 64 ≤ num b 10 8 → dtagOf (BitVec.ofNat 256 (num b 46 32)) ≠ 0 →
      Leaves (.catAdd ch) s (Dev.deferred (d.onCat i.val fun e =>
        { e with st := .loading, tenant := num b 0 2, pmask := BitVec.ofNat 64 (num b 2 8), length := num b 10 8,
                 iv := BitVec.ofNat 96 (num b 18 12), tag := BitVec.ofNat 128 (num b 30 16), digest := BitVec.ofNat 256 (num b 46 32) })
        ch 0x100 i.val r.tag)) ∧
    (∀ cipher, (d.catEntry i.val).st = .loading → d.coresUp = true → d.err.holdst = false →
      Runs (.catAddStored i cipher true) s fun t =>
        (d.onCat i.val fun e => { e with st := .ready, cipher := fit e.length cipher }).upTo t ∧
        ∀ x, (d.host.replies.find? fun x => x.code == 0x100 && x.key == i.val) = some x →
          d.answered t x.ch x.tag 0x100 0 (natLe 4 (handleOf i.val (d.catEntry i.val)))) ∧
    (d.accepts ch 0x101 (fun b => bodyLen 16 b && zeroAt b 4 4) r → d.resolveHandle h = some e →
      Answers (.catMask ch) s ch r 0 [] (d.onCat (handleIx h) fun e => { e with pmask := BitVec.ofNat 64 (num b 8 8) })) ∧
    (d.accepts ch 0x102 (fun b => bodyLen 8 b && zeroAt b 4 4) r → d.resolveHandle h = some e → e.st = .ready → d.handleHeld h = true →
      Runs (.catRemove ch) s fun t => d.answered t ch r.tag r.cmd 0 [] ∧ (t.catEntry (handleIx h)).st = .removing ∧ t.parts = d.parts ∧
        t.mem = d.mem) ∧
    (d.accepts ch 0x103 (fun b => bodyLen 8 b && zeroAt b 4 4) r → d.resolveHandle h = some e → e.st = .ready ∨ e.st = .removing →
      Runs (.catRevoke ch) s fun t => d.answered t ch r.tag r.cmd 0 [] ∧
        ∀ p ∈ d.live, ∀ k < 16, ((t.part p).pod k).handle.toNat = h → ((t.part p).pod k).st ≠ .empty →
          ((t.part p).pod k).held = true ∧ ((t.part p).pod k).revoked = true) ∧
    (d.accepts ch 0x104 (fun b => bodyLen 8 b && decide (num b 4 1 < 2) && zeroAt b 5 3 && (num b 4 1 == 0 || decide (num b 0 4 < 16384))) r →
      (num b 4 1 = 0 → (d.resolveHandle h).isSome = true) →
      Answers (.catQuery ch) s ch r 0 ((d.catEntry (handleIx h)).bytes (handleIx h)) d)

/-! ## Memory: extents, the staging aperture, bases, keys (10, 13) -/

/-- EXT_SET allocates and zeroes a range of its own for a PRIVATE, STAGING or KV entry and answers with its PA, stores a SHARED
entry, and clears an entry that nothing uses (R246 to R249, R407); it waits, with nothing done, while the stack-write regulator would not
serve the zeros (R315, R316). That SHARED and clear answer with eight zero bytes, and that clear
looks at no other field and takes an entry not VALID, are the model's choices (log entry 70). -/
def Obligations.ExtentsSetAndCleared : Prop :=
  ∀ (s : State) (ch : Chan) (r : Req), let d := s.dev; let b := r.body; let p := num b 0 1; let e := num b 1 1; let kind := fld (num b 2 1) 2 0
    d.accepts ch 0x130 extForm r → ready d = true → (d.part p).st ≠ .unused → (d.part p).st ≠ .setup → (d.part p).st ≠ .resetting →
    (bit (num b 2 1) 7 = true → d.extBad p e kind (num b 3 1) (num b 8 8) (num b 16 8) (num b 24 8) = false →
      (kind = 1 → Answers (.extSet ch) s ch r 0 (natLe 8 0)
        (d.onPart p fun P => { P with ext := Tab.put P.ext e ⟨1, num b 3 1, num b 8 8, num b 16 8, num b 24 8⟩ })) ∧
      (∀ lo d1, kind ≠ 1 → s.Inv → d.alloc (num b 24 8) (.extent p e) = some (lo, d1) →
        (d.servable p [1] = false → Leaves (.extSet ch) s d) ∧
        (d.servable p [1] = true → Runs (.extSet ch) s fun t => d.answered t ch r.tag r.cmd 0 (natLe 8 lo) ∧
          Tab.get? (t.part p).ext e = some ⟨kind, 0, num b 8 8, lo, num b 24 8⟩ ∧ d.memBut t lo (num b 24 8) ∧
          (∀ x, lo ≤ x → x < lo + num b 24 8 → Memory.read t.mem.bytes x = 0) ∧ (∀ q, q ≠ p → t.part q = d.part q) ∧ t.sram = d.sram))) ∧
    (bit (num b 2 1) 7 = false → (d.part p).clearable e = true →
      ((d.part p).ownRange e = true → d.servable p [1] = false → Leaves (.extSet ch) s d) ∧
      ((d.part p).ownRange e = false ∨ d.servable p [1] = true → Answers (.extSet ch) s ch r 0 (natLe 8 0) (d.extClear p e)))

/-- A host write through BAR2 whose bytes all lie in staging memory, at consecutive physical addresses, stores them there and changes
no other byte; a host read of such bytes returns them, with all ones for a poisoned byte (R251, R415). The regulators serve it first
(R315; log entry 105). -/
def Obligations.StagingAperture : Prop :=
  ∀ (s : State) (p : PIx) (addr pa n : Nat) (bs : List Byte) (via : Via), let d := s.dev
    d.err.holdst = false → d.vfOpen p.val = true → d.admits (p.val + 1) via = true → d.servable p.val [0, 1, 4] = true → (∀ i < n, d.staged p.val (addr + i) = some (pa + i)) →
    (s.Inv → bs.length = n →
      Runs (.bar2Access p addr (some bs) n via []) s fun t => Memory.readList t.mem.bytes pa n = bs ∧ d.memBut t pa n ∧
        t.parts = d.parts ∧ t.sram = d.sram ∧ t.out = d.out) ∧
    Runs (.bar2Access p addr none n via []) s fun t => let bad (i : Nat) := Ivl.mem d.mem.bad (pa + i)
      t.out = .readData p.val ((List.range n).map fun i => if bad i then 0xFF else Memory.read d.mem.bytes (pa + i))
        ((List.range n).any bad) :: d.out ∧ t.mem.bytes = d.mem.bytes ∧ t.parts = d.parts ∧ t.sram = d.sram

/-- The base commands (R262 to R265, R270, R273). What a manifest's check comes to decides BASE_DEFINE and BASE_REPLACE. That BASE_LOAD is
accepted in every state, answers at once and begins the counts of failed deliveries anew is the model's choice (log entry 72). -/
def Obligations.BaseCommands : Prop :=
  ∀ (s : State) (ch : Chan) (r : Req) (m : List Byte), let d := s.dev; let b := r.body; let x := num b 0 1; let lbuf := num b 4 4 * 2 ^ 20
    (d.accepts ch 0x110 (fun b => bodyLen 64 b && defineForm b && d.dma) r → ready d = true → (d.base x).st = .empty →
      Runs (.baseDefine ch m) s fun t =>
        match d.manifest b m with
        | .error c => d.answered t ch r.tag r.cmd c [] ∧ d.upTo t
        | .ok (sh, g) => match d.allocs lbuf (.home x) (num b 2 2) with
          | none => d.answered t ch r.tag r.cmd Code.memFull [] ∧ d.upTo t
          | some (homes, _) => d.answered t ch r.tag r.cmd 0 [] ∧ (t.base x).st = .loading ∧ (t.base x).gen = (d.base x).gen ∧
            (t.base x).homes = homes ∧ (t.base x).shards = sh ∧ (t.base x).manifest = g ∧ (t.base x).nlayer = num b 2 2 ∧
            (t.shared x).st = .stable ∧ (t.shared x).key0 = some (Config.drbg d.sec.drbg) ∧ (∀ y, y ≠ x → t.base y = d.base y)) ∧
    (d.accepts ch 0x111 (fun b => bodyLen 32 b && decide (num b 0 1 < 16) && zeroAt b 4 4 && zeroAt b 24 8 &&
        sourceForm (num b 1 1) (num b 2 1) (num b 3 1) (num b 8 8) (num b 16 8) && (num b 1 1 != 0 || d.dma)) r →
      Answers (.baseLoad ch) s ch r 0 [] ((d.shardEnds x).onBase x fun B =>
        { B with loading := true, src := num b 1 1, port := num b 2 1, fwd := num b 3 1,
                 shards := B.shards.map fun y => if y.stored then y else { y with fails := 0 } })) ∧
    (d.accepts ch 0x112 (fun b => bodyLen 96 b && defineForm b && decide (1 ≤ num b 64 2) && decide (num b 64 2 ≤ num b 2 2) && zeroAt b 69 3 &&
        zeroAt b 88 8 && sourceForm (num b 66 1) (num b 67 1) (num b 68 1) (num b 72 8) (num b 80 8) && d.dma) r →
      (d.base x).st = .ready → (d.base x).rst = .idle → (d.declaredBy x fun P => P.entry.mode != .serve) = false →
      num b 2 2 = (d.base x).nlayer → lbuf = (d.base x).lbuf →
      Runs (.baseReplace ch m) s fun t =>
        match d.manifest b m with
        | .error c => d.answered t ch r.tag r.cmd c [] ∧ d.upTo t
        | .ok (sh, g) => match d.allocs lbuf (.buffer x) (num b 64 2) with
          | none => d.answered t ch r.tag r.cmd Code.memFull [] ∧ d.upTo t
          | some (bufs, _) => d.answered t ch r.tag r.cmd 0 [] ∧ (t.base x).rst = .fill ∧ (t.base x).bufs = bufs ∧ (t.base x).newShards = sh ∧
            (t.base x).newManifest = g ∧ (t.base x).front = 0 ∧ (t.base x).switched = false ∧ (t.base x).gen = (d.base x).gen ∧
            (t.base x).homes = (d.base x).homes ∧ (∀ y, y ≠ x → t.base y = d.base y)) ∧
    (d.accepts ch 0x113 (fun b => bodyLen 8 b && decide (num b 0 1 < 16) && zeroAt b 1 7) r → (d.base x).rst ≠ .idle →
      (d.base x).switched = false → (d.base x).front = 0 →
      Runs (.baseAbort ch) s fun t => d.answered t ch r.tag r.cmd 0 [] ∧ t.base x = (d.base x).idle ∧ (∀ y, y ≠ x → t.base y = d.base y) ∧
        t.parts = d.parts ∧ t.mem.bytes = d.mem.bytes ∧
        ∀ o ∈ t.mem.ranges, o.ofBase x = true → o.lo ∉ (d.base x).bufs ++ (d.base x).staging.map (·.2)) ∧
    (d.accepts ch 0x114 (fun b => bodyLen 8 b && decide (num b 0 1 < 16) && zeroAt b 1 7) r → (d.declaredBy x fun _ => true) = false →
      Runs (.baseRemove ch) s fun t => d.answered t ch r.tag r.cmd 0 [] ∧ t.base x = { Reset.base with gen := (d.base x).gen } ∧
        t.shared x = Reset.kgen ∧ (∀ o ∈ t.mem.ranges, o.ofBase x = false) ∧ (∀ y, y ≠ x → t.base y = d.base y) ∧ t.parts = d.parts)

/-- A shard delivered for the table in force is stored at its place in its layer's home if it decrypts and its digest agrees, and is
requested again if not (R264, R266); the first device of a chain passes it on in whole cells, and one without the owner's key does only that
(R267); layer FRONT of a replacement is swapped in once it is staged and no old wave needs it (R272);
a re-check that finds a shard whole only counts it, and one that does not makes it BAD and requests it (R268, R269). Without running
cores none of it happens (R364, R390), and a shard that would be stored waits for the regulators of the partition that it is counted
against (R315, R316; that this is the lowest-numbered one declaring the base is log entry 133). -/
def Obligations.ShardsAndLayers : Prop :=
  ∀ (s : State) (b : Fin 16), let d := s.dev; let B := d.base b.val
    (∀ hd cipher k, s.Inv → d.modelKey b.val = some k → hd.length = 64 → num hd 0 1 = b.val → let i := num hd 4 4
      B.wantsOld i = true → B.wantsNew i = false → d.coresUp = true →
      (d.servable (d.baseHolder b.val) [0, 1] = false → Leaves (.shardReceived b hd cipher) s d) ∧
      (d.servable (d.baseHolder b.val) [0, 1] = true →
      Runs (.shardReceived b hd cipher) s fun t => let plain := gcmPlain k (BitVec.ofNat 96 (num hd 8 12)) cipher (BitVec.ofNat 128 (num hd 32 16))
        let x := B.shards.getD i noShard
        if x.isOf plain = true then
          (t.base b.val).shards = setAt B.shards i { x with stored := true, bad := false, fails := 0 } ∧
          Memory.readList t.mem.bytes (B.homes.getD x.layer 0 + x.offset) x.length = plain.getD [] ∧
          d.memBut t (B.homes.getD x.layer 0 + x.offset) x.length ∧ t.out = d.out
        else (t.base b.val).shards = setAt B.shards i { x with fails := x.fails + 1 } ∧ t.out = .shardRequest b.val i :: d.out ∧
          t.mem.bytes = d.mem.bytes)) ∧
    (d.coresUp = false → (∀ hd cipher, Leaves (.shardReceived b hd cipher) s d) ∧ Leaves (.layerSwap b) s d) ∧
    (∀ hd cipher, d.modelKey b.val = none → d.coresUp = true →
      (B.src = 0 → B.fwd ≠ 0xFF → Leaves (.shardReceived b hd cipher) s
        (d.onPort B.fwd fun x => (cutBy 512 (hd ++ cipher).length (hd ++ cipher)).foldl PortSt.passOn x)) ∧
      (B.src ≠ 0 ∨ B.fwd = 0xFF → Leaves (.shardReceived b hd cipher) s (d.shardEnds b.val))) ∧
    (∀ h, Tab.get? B.staging B.front = some h → B.rst = .front → layerStored B.newShards B.front = true →
      (d.parts.any fun x => d.holdsFront x.1 b.val B.front) = false → d.coresUp = true →
      Runs (.layerSwap b) s fun t => (t.base b.val).front = B.front + 1 ∧ (t.base b.val).homes = setAt B.homes B.front h ∧
        (B.front + 1 < B.nlayer → (t.base b.val).rst = .front) ∧
        (B.nlayer ≤ B.front + 1 → (t.base b.val).rst = .idle ∧ (t.base b.val).shards = B.newShards ∧ (t.base b.val).manifest = B.newManifest) ∧
        t.mem.bytes = d.mem.bytes ∧ t.parts = d.parts) ∧
    (∀ i new x late, B.checked i = [(new, x)] → B.st = .ready → ready d = true → d.coresUp = true → d.ckr.pwr = 0 →
      let lo := B.homes.getD x.layer 0 + x.offset
      Runs (.shardRecheck b i late []) s fun t =>
        t.mem.checked = satAdd 32 d.mem.checked 1 ∧ t.mem.lag = (if late then satAdd 32 d.mem.lag 1 else d.mem.lag) ∧ t.mem.bytes = d.mem.bytes ∧
        if x.bad = false ∧ Ivl.count d.mem.bad lo (lo + x.length) = 0 ∧ x.isOf (some (Memory.readList d.mem.bytes lo x.length)) = true
          then t.bases = d.bases
          else (∃ y, (t.base b.val).checked i = [(new, y)] ∧ y.bad = true) ∧ t.out = .shardRequest b.val i :: d.out)

/-- A rotation: the request, the new generation with CUR flipped, one page of the sweep, as the regulators of a partition's key serve it,
and its end (R256, R315, R316, R349, R350); and Heril's keys of a partition that is reset, whatever stops it before they are there
(R351). -/
def Obligations.KeyRotation : Prop :=
  ∀ (s : State) (ch : Chan) (r : Req) (k : KeyRef) (p : PIx), let d := s.dev; let b := r.body
    (d.accepts ch 0x200 (fun b => bodyLen 8 b && decide (num b 0 1 < 2) && decide (num b 1 1 < if num b 0 1 == 0 then 64 else 16) && zeroAt b 2 6) r →
      let k := keyRefOf (num b 0 1) (num b 1 1)
      (d.keyOf k).st = .stable → Answers (.keyRotate ch) s ch r 0 [] (d.setKey k { d.keyOf k with st := .rotating, sweep := none })) ∧
    ((d.keyOf k).st = .rotating → (d.keyOf k).sweep = none → d.coresUp = true →
      Runs (.keyGenInstalled k) s fun t => (t.keyOf k).cur = (!(d.keyOf k).cur) ∧ (t.keyOf k).sweep = some 0 ∧ (t.keyOf k).st = .rotating ∧
        (if (t.keyOf k).cur then (t.keyOf k).key1 = some (Config.drbg d.sec.drbg) ∧ (t.keyOf k).key0 = (d.keyOf k).key0
         else (t.keyOf k).key0 = some (Config.drbg d.sec.drbg) ∧ (t.keyOf k).key1 = (d.keyOf k).key1) ∧
        (t.keyOf k).use0 = (d.keyOf k).use0 ∧ (t.keyOf k).use1 = (d.keyOf k).use1 ∧ t.mem = d.mem) ∧
    (∀ a n, (d.keyOf k).st = .rotating → (d.keyOf k).sweep = some a → d.coresUp = true → d.nextPage k a = some n → d.servable (keyReader k) [0, 1] = true →
      Runs (.keySweepPage k) s fun t => (t.keyOf k).sweep = some (n + 1) ∧ Ivl.mem t.mem.tag1 n = (d.keyOf k).cur ∧ t.mem.bytes = d.mem.bytes ∧
        (if (d.keyOf k).cur then (t.keyOf k).use1 = (d.keyOf k).use1 + 1 ∧ (t.keyOf k).use0 = (d.keyOf k).use0 - 1
         else (t.keyOf k).use0 = (d.keyOf k).use0 + 1 ∧ (t.keyOf k).use1 = (d.keyOf k).use1 - 1)) ∧
    ((d.keyOf k).st = .rotating → (d.keyOf k).sweep.isSome = true → d.coresUp = true → (if (d.keyOf k).cur then (d.keyOf k).use0 else (d.keyOf k).use1) = 0 →
      Runs (.keyRotationComplete k) s fun t => (t.keyOf k).st = .stable ∧ (t.keyOf k).cur = (d.keyOf k).cur ∧
        (if (d.keyOf k).cur then (t.keyOf k).key0 = none ∧ (t.keyOf k).key1 = (d.keyOf k).key1
         else (t.keyOf k).key1 = none ∧ (t.keyOf k).key0 = (d.keyOf k).key0) ∧
        (∀ q : PIx, (t.part q.val).krot = if k = .part q then (d.part q.val).krot + 1 else (d.part q.val).krot) ∧ t.mem = d.mem) ∧
    ((d.part p.val).keysDue = true → d.coresUp = true →
      Runs (.herilPartitionKeys p) s fun t => (t.part p.val).keysDue = false ∧ (t.part p.val).inst = (d.part p.val).inst + 1 ∧
        (t.part p.val).krot = 0 ∧ (t.part p.val).kgen.st = .stable ∧ (t.part p.val).kgen.cur = false ∧
        (t.part p.val).kgen.key0 = some (Config.drbg d.sec.drbg) ∧ (t.part p.val).kgen.key1 = none ∧
        (∀ x ∈ t.sec.tkeys, x ∈ d.sec.tkeys ∧ (x.2.model = true ∨ x.2.ownerp ≠ p.val)) ∧ (∀ q, q ≠ p.val → t.part q = d.part q) ∧
        t.mem.bytes = d.mem.bytes)

/-- KEY_PUT answers with the code of the first check that fails, or installs the key; and the commands that take tenant keys and
credentials away or enroll a credential (R337, R343, R347, R348). -/
def Obligations.TenantKeysAndCredentials : Prop :=
  ∀ (s : State) (ch : Chan) (r : Req), let d := s.dev; let b := r.body
    (∀ id body x, Tab.get? d.sec.sessions id = some x → x.wire ≠ .ethernet → d.herilUp = true → d.err.deOpen = false → d.ckr.phase ≠ 8 →
      Runs (.keyPut id body) s fun t => t.parts = d.parts ∧ t.mem = d.mem ∧
        match d.keyPutCheck x body with
        | .error c => t.sec = d.sec ∧ t.out = (d.tell x.wire (.spdm x.wire (natLe 2 c))).out
        | .ok (k, y) => Tab.get? t.sec.tkeys k = some y ∧ (∀ j, j ≠ k → Tab.get? t.sec.tkeys j = Tab.get? d.sec.tkeys j) ∧
          t.out = (d.tell x.wire (.spdm x.wire (natLe 2 0))).out) ∧
    (d.accepts ch 0x201 (fun b => bodyLen 8 b && decide (num b 0 2 < 1024) && zeroAt b 2 6) r →
      (∀ t, Tab.get? d.sec.tkeys (num b 0 2) = some t → d.keyInUse t = false) →
      Answers (.tkeyDelete ch) s ch r 0 [] (d.onSec fun x => { x with tkeys := Tab.erase x.tkeys (num b 0 2) })) ∧
    (d.accepts ch 0x202 emptyForm r → Answers (.tkeyClearAll ch) s ch r 0 [] (d.onSec fun x => { x with tkeys := [] })) ∧
    (d.accepts ch 0x203 (fun b => bodyLen 104 b && decide (num b 0 1 < 8) && zeroAt b 1 7) r → d.unenrolled ch = false →
      Runs (.credEnroll ch) s fun t => d.answered t ch r.tag r.cmd 0 [] ∧
        t.persist.creds = setAt d.persist.creds (num b 0 1) (some (key768 (slice b 8 96))) ∧
        (∀ x ∈ t.sec.sessions, x ∈ d.sec.sessions ∧ x.2.cred ≠ some (num b 0 1)) ∧ t.parts = d.parts) ∧
    (d.accepts ch 0x204 (fun b => bodyLen 8 b && decide (num b 0 1 < 8) && zeroAt b 1 7) r →
      Runs (.credDelete ch) s fun t => d.answered t ch r.tag r.cmd 0 [] ∧ t.persist.creds = setAt d.persist.creds (num b 0 1) none ∧
        (∀ x ∈ t.sec.sessions, x ∈ d.sec.sessions ∧ x.2.cred ≠ some (num b 0 1)) ∧ t.parts = d.parts)

/-! ## Beats, ports, cells, schedules and holds (11) -/

/-- An accepted beat edge advances the beat count or loads it; at that boundary a hold raised before is entered and one whose RESUME is
reached is left; an edge too early or too late only counts, and begins the run of edges anew (R275 to R277, R304). A flywheel beat
advances the count too, and the fourth in a row loses the beat (R278); BEAT_CONFIRM takes the count that the ports agree on, and the
beats it passes over extend the deadlines of collectives (R293, R304). A beat leaves the memories alone where no reset was put off in the
beat before it (R392). -/
def Obligations.Beats : Prop :=
  ∀ (s : State) (since : Nat) (ps : List (PIx × Fin 5)), let d := s.dev; let k := d.lnk
    (d.beating = true → 1022 ≤ since → since ≤ 1026 → k.st ≠ .beatlost →
      let c : BitVec 48 := if k.loadArm then k.loadVal else k.count + 1
      Runs (.beatEdge since ps) s fun t => t.lnk.count = c ∧ t.lnk.loadArm = false ∧ t.lnk.flyRun = 0 ∧ t.lnk.edgeRun = k.edgeRun + 1 ∧
        t.out.head? = some .beatOut ∧ t.pins.beatOut = true ∧ ((∀ p, (d.part p).later = []) → t.mem = d.mem ∧ t.sram = d.sram) ∧
        (k.armed = none → k.holdArm = false → k.beatOnly = false → t.lnk.st = if k.st = .run ∧ k.holdRaised = true then .hold else k.st) ∧
        (k.armed = none → k.st = .hold → k.holdArm = true → reached c.toNat k.resume.toNat = true → t.lnk.st = .run)) ∧
    (d.beating = true → since < 1022 ∨ 1026 < since →
      Leaves (.beatEdge since ps) s (d.onLnk fun k => { k with edgeErr := satAdd 16 k.edgeErr 1, edgeRun := 0 })) ∧
    (d.beating = true → k.st ≠ .beatlost →
      Runs .flywheelBeat s fun t => t.lnk.count = k.count + 1 ∧ t.lnk.flywheel = satAdd 16 k.flywheel 1 ∧ t.lnk.edgeRun = 0 ∧
        (k.flyRun = 3 → k.st = .run ∨ k.st = .hold →
          t.lnk.st = .beatlost ∧ t.pins.beatOut = false ∧ ∃ r ∈ t.err.detected, r.code = Code.beatLost) ∧
        ((∀ p, (d.part p).later = []) → t.mem = d.mem ∧ t.sram = d.sram)) ∧
    (∀ c cs, k.st = .beatlost → 16 ≤ k.edgeRun → d.confirmations = c :: cs → (∀ x ∈ cs, x = c) →
      Runs .beatConfirm s fun t => t.lnk.count = BitVec.ofNat 48 c ∧ t.lnk.st = .hold ∧ t.lnk.confirm = some (BitVec.ofNat 48 c) ∧
        t.parts = (if reached c d.beat = true then d.extend ((c + 2 ^ 48 - d.beat) % 2 ^ 48) else d).parts ∧ t.mem = d.mem) ∧
    (∀ v : W64, d.pf0Open →
      Leaves (.beatLoad v) s (d.onLnk fun k => { k with loadArm := v.getLsbD 63, loadVal := v.setWidth 48 }))

/-- A port comes up at a measured delay of at most 3 beats; a port that goes down or falls silent is recorded; a good frame aligns its
port or counts a misalignment, in any state of the links (R277, R279 to R282, R302). That a misaligned frame makes no run in BEATLOST
is log entry 125, and that a port begins afresh with 64 credits when it trains and when it goes down log entry 17. -/
def Obligations.PortsAndFrames : Prop :=
  ∀ (s : State) (l : LIx), let d := s.dev; let P := d.port l.val
    (∀ fb delay dev pt, d.linksOn = true → P.up = false → delay ≤ 3 →
      Runs (.portTrained l true fb delay dev pt) s fun t => let x := t.port l.val
        x.st = 2 ∧ x.ldly = delay ∧ x.pdev = dev ∧ x.pport = pt ∧ x.rate = (fb || P.rateMax) ∧ x.ucredits = 64 ∧
        x.outOfMap = (d.lnk.linkMap.getD l.val (0xFFFF, 0) != (dev, pt)) ∧ (∀ m, m ≠ l.val → t.port m = d.port m) ∧
        t.err = d.err ∧ t.parts = d.parts ∧ t.mem = d.mem) ∧
    (P.up = true → d.scheduled l.val = false →
      Leaves (.linkDown l) s ((d.onPort l.val fun x => { x.fresh with st := 1 }).record (recPort Code.linkDown l.val))) ∧
    (P.up = true → P.wasAligned = true → 16 ≤ P.silent → d.scheduled l.val = false →
      Leaves (.peerSilent l) s ((d.onPort l.val fun x => { x with st := 2, silent := 0, wasAligned := false }).record
        (recPort Code.peerSilent l.val))) ∧
    (∀ h, P.up = true → num h 6 1 = 0 → d.scheduled l.val = false →
      let c := (num h 0 6 + P.ldly) % 2 ^ 48
      Runs (.frameReceived l h .clean true) s fun t => let x := t.port l.val
        x.peerCount = some c ∧ x.silent = 0 ∧ x.pdev = num h 8 2 % 1024 ∧ x.pport = num h 10 1 % 32 ∧ x.peerHold = false ∧
        x.outOfMap = (d.lnk.linkMap.getD l.val (0xFFFF, 0) != (num h 8 2 % 1024, num h 10 1 % 32)) ∧
        (c = d.beat → x.st = 3 ∧ x.misRun = 0 ∧ x.beatErr = P.beatErr ∧ x.wasAligned = true) ∧
        (c ≠ d.beat → x.st = 2 ∧ x.beatErr = satAdd 16 P.beatErr 1 ∧ x.wasAligned = P.wasAligned ∧
          (d.lnk.st ≠ .beatlost → x.misRun = P.misRun + 1)) ∧
        (∀ m, m ≠ l.val → t.port m = d.port m) ∧ t.err = d.err ∧ t.parts = d.parts) ∧
    (∀ h, P.up = true → Leaves (.frameReceived l h .uncorrectable true) s (d.onPort l.val fun x => { x with crcErr := satAdd 16 x.crcErr 1 }) ∧
      Leaves (.frameReceived l h .clean false) s (d.onPort l.val fun x => { x with crcErr := satAdd 16 x.crcErr 1 }))

/-- A scheduled cell is given to the COLL operation that receives its flow, or waits for it, or is relayed to the position its run
names; an unscheduled cell is accepted in sequence, and goes on to the chain's next device where it belongs to a shard of a base that
has one (R267; which cells do is log entry 128); one that fails is dropped and counted; a waiting cell expires after 2 beats, and an
unacknowledged one goes out again after 4 (R284 to R287, R290). That a cell that arrives while the
device is held is taken in, and waits on until its release, is log entry 126. -/
def Obligations.Cells : Prop :=
  ∀ (s : State) (l : LIx) (pos : Nat) (cell : List Byte), let d := s.dev; let P := d.port l.val; let flow := num cell 2 2
    (P.up = true → pos < P.positions →
      (∀ t0 x f, num cell 0 1 % 4 = 0 → d.inputRun l.val pos = some (t0, x) → x.flow = flow →
        let y : FlowCell := ⟨flow, num cell 4 4, cell.drop 16, false⟩
        (x.act ≠ 2 → t0.flow flow = some f →
          (∀ d', d.lnk.st = .run → d.deliver f y = some d' → Leaves (.cellReceived l pos cell .clean true true) s d') ∧
          (d.lnk.st ≠ .run ∨ d.deliver f y = none → P.waiting.length < 250 →
            Leaves (.cellReceived l pos cell .clean true true) s (d.onPort l.val fun z =>
              { z with waiting := z.waiting ++ [⟨y, d.beat⟩], schedHeld := z.schedHeld + 1 }))) ∧
        (x.act = 2 → d.lnk.st = .run → (d.port x.oport).up = true → (d.port x.oport).outOfMap = false →
          let out := x.ocell0 + (pos - x.cell0)
          (x.next = false → Leaves (.cellReceived l pos cell .clean true true) s (d.emit (.cell x.oport out cell))) ∧
          (x.next = true → Leaves (.cellReceived l pos cell .clean true true) s (d.onPort x.oport fun z =>
            { z with relay := z.relay ++ [(out, (d.beat + 1) % 2 ^ 48, cell)] })))) ∧
      (num cell 0 1 % 4 = 1 → flow = P.rxNext → P.rxCells.length < 64 →
        let u := d.onPort l.val fun z => { z with rxNext := (z.rxNext + 1) % 2 ^ 16, rxCells := z.rxCells ++ [cell] }
        (d.chainOf l.val (cell.drop 16) = none → Leaves (.cellReceived l pos cell .clean true true) s u) ∧
        (∀ b, d.chainOf l.val (cell.drop 16) = some b → let v := u.onPort l.val fun z => { z with shardOf := some b }
          ((d.base b).fwd = 0xFF → Leaves (.cellReceived l pos cell .clean true true) s v) ∧
          ((d.base b).fwd ≠ 0xFF → Leaves (.cellReceived l pos cell .clean true true) s
            (v.onPort (d.base b).fwd fun z => z.passOn (cell.drop 16))))) ∧
      (d.inputRun l.val pos = none → Leaves (.cellReceived l pos cell .uncorrectable true true) s
        ((d.onPort l.val fun z => { z with crcErr := satAdd 16 z.crcErr 1 }).record (recPort Code.linkCrc l.val)))) ∧
    (∀ ix w, P.waiting[ix]? = some w → 2 ≤ (d.beat + 2 ^ 48 - w.arrived) % 2 ^ 48 → d.lnk.frozen = false →
      Runs (.schedCellExpire l ix) s fun t => let z := t.port l.val
        z.waiting = P.waiting.erase w ∧ z.schedErr = satAdd 16 P.schedErr 1 ∧ z.schedHeld = P.schedHeld - 1 ∧
        (∀ m, m ≠ l.val → t.port m = d.port m) ∧ t.parts = d.parts ∧ t.err = d.err) ∧
    (∀ c cs, P.up = true → P.replay = c :: cs → 4 ≤ (d.beat + 2 ^ 48 - c.sent) % 2 ^ 48 →
      Runs (.unschedReplay l) s fun t => (t.port l.val).txQueue.take (c :: cs).length = (c :: cs).map (·.bytes) ∧
        (∀ x ∈ (t.port l.val).replay, x.sent = d.beat) ∧ (∀ m, m ≠ l.val → t.port m = d.port m) ∧ t.parts = d.parts)

/-- SCHED_LOAD arms a table that R289 accepts, in NOSCHED, in HOLD, whose hold stays latched, and beside the table in force in RUN; it comes
into force at its beat, and SCHED_CLEAR removes it (R289, R305). A host hold is raised in RUN and latched in NOSCHED and ARMED; it is armed
for a RESUME that lies ahead, and released there, or, where BEAT is its only cause, at the beat that HBEAT gives; a release ends HOLD and
clears a latched hold (R302 to R305; that the automatic release comes at exactly that beat is log entry 124). That SCHED_CLEAR latches a hold not yet
released is the model's choice (log entry 134). -/
def Obligations.SchedulesAndHolds : Prop :=
  ∀ (s : State) (ch : Chan) (r : Req) (table : List Byte) (x : Sched) (v : W64), let d := s.dev; let b := r.body; let k := d.lnk
    (d.accepts ch 0x131 (fun b => bodyLen 24 b && zeroAt b 22 2 && num b 0 8 % 64 == 0 && d.dma) r → ready d = true →
      num b 8 8 = schedLength table → table.length = schedLength table → d.readSched table (num b 16 6) = some x →
      Answers (.schedLoad ch table) s ch r 0 [] (d.onLnk fun k =>
        { k with armed := some x, st := if k.st = .nosched ∨ k.st = .hold then .armed else k.st, latched := k.latched || k.st == .hold })) ∧
    (k.armed = some x → reached d.beat x.actBeat = true → k.st = .armed →
      Runs .schedActivate s fun t => t.lnk.active = some x ∧ t.lnk.armed = none ∧ t.lnk.st = (if k.latched then .hold else .run) ∧
        t.lnk.latched = false ∧ t.lnk.count = k.count ∧ (∀ p, t.part p = { d.part p with bubble := false }) ∧ t.mem = d.mem) ∧
    (d.accepts ch 0x132 emptyForm r →
      Runs (.schedClear ch) s fun t => d.answered t ch r.tag r.cmd 0 [] ∧
        t.lnk = { k with st := .nosched, active := none, armed := none, latched := k.held || k.holdRaised, holdRaised := false } ∧
        (∀ p, t.part p = { d.part p with bubble := false }) ∧ t.mem = d.mem ∧ t.err = d.err) ∧
    (d.pf0Open → k.holdRaised = false → k.latched = false →
      (k.st = .run → Runs .holdHost s fun t => t.lnk.holdRaised = true ∧ t.lnk.holdCause = 5 ∧ t.lnk.st = .run ∧ t.lnk.count = k.count ∧ t.parts = d.parts) ∧
      (k.st = .nosched → Runs .holdHost s fun t => t.lnk.latched = true ∧ t.lnk.holdCause = 5 ∧ t.lnk.st = .nosched ∧ t.parts = d.parts) ∧
      (k.st = .armed → Runs .holdHost s fun t => t.lnk.latched = true ∧ t.lnk.holdCause = 5 ∧ t.lnk.st = .armed ∧ t.lnk.armed = k.armed ∧ t.parts = d.parts)) ∧
    (d.pf0Open → Leaves (.holdResumeArm v) s (d.onLnk fun k =>
      { k with resume := v.setWidth 48, holdArm := v.getLsbD 62 && !reached k.count.toNat (v.setWidth 48 : BitVec 48).toNat })) ∧
    ((k.holdArm = true ∧ reached k.count.toNat k.resume.toNat = true) ∨
        (k.beatOnly = true ∧ ∃ h, k.hbeat = some h ∧ k.count.toNat = (h.toNat / 256 + 2) * 256 % 2 ^ 48) →
      k.st = .hold ∨ (k.latched = true ∧ (k.st = .nosched ∨ k.st = .armed)) →
      Runs .holdRelease s fun t => t.lnk.st = (if k.st = .hold then .run else k.st) ∧ t.lnk.holdArm = false ∧ t.lnk.holdCause = 0 ∧
        t.lnk.latched = false ∧ t.lnk.holdRaised = false ∧ t.lnk.count = k.count ∧ t.lnk.active = k.active ∧ t.lnk.armed = k.armed ∧
        t.parts = d.parts ∧ t.mem = d.mem) ∧
    (k.holdArm = false → k.beatOnly = false → Leaves .holdRelease s d)

/-! ## Partitions (12) -/

/-- PART_SET, PART_RESET, the end of a partition's setup and PART_FREE (R12, R252, R308 to R312, R419). A reset in a beat that the peel uses
waits for the beat's end (R392); no tile of the partition is peeled here. -/
def Obligations.PartitionLife : Prop :=
  ∀ (s : State) (ch : Chan) (r : Req) (p : PIx), let d := s.dev; let b := r.body; let x := num b 0 1
    (let q := parseSet b
     d.accepts ch 0x120 (fun b => (parseSet b).form) r → ready d = true → (d.part q.part).st = .unused →
      d.entryBad q.part q.gang q.entry = false →
      ((List.range 5).any fun r => d.overcommits q.part r ((if q.regdef then d.cfg.regdef else q.regs).getD r (0, 0)).1
        ((if q.regdef then d.cfg.regdef else q.regs).getD r (0, 0)).2 q.entry.c0) = false →
      q.entry.ntile = 0 ∨ (d.alloc (q.entry.ntile * 2 ^ 25) (.save q.part)).isSome = true →
      Runs (.partSet ch) s fun t => let Q := t.part q.part
        d.answered t ch r.tag r.cmd 0 [] ∧ Q.st = .setup ∧ Q.entry = (if q.entry.mode = .serve then { q.entry with gang := .sequence } else q.entry) ∧
        Q.keysDue = true ∧ Q.saveTiles = q.entry.ntile ∧ (∀ k, (Q.seq k).st = .idle) ∧ Q.sem = [] ∧ Q.srKey = 0 ∧
        d.othersKeep t q.part) ∧
    (d.accepts ch 0x126 partForm r → (d.part x).st.hasTiles = true → d.peeled x = false →
      Runs (.partReset ch) s fun t => let Q := t.part x
        d.answered t ch r.tag r.cmd 0 [] ∧ Q.st = .resetting ∧ Q.keysDue = true ∧ Q.entry = (d.part x).entry ∧ Q.regs = (d.part x).regs ∧
        Q.ext = (d.part x).ext ∧ Q.epoch = (d.part x).epoch ∧ Q.srKey = 0 ∧ Q.srCtr = [0, 0, 0] ∧ Q.sem = [] ∧ Q.upd = Reset.upd ∧ Q.step = none ∧
        (∀ k, (Q.seq k).st = .idle ∧ (Q.seq k).fid = ((d.part x).seq k).fid) ∧ (∀ p, p ≠ x → t.part p = d.part p)) ∧
    (s.Inv → (d.part p.val).st = .setup ∨ (d.part p.val).st = .resetting → (d.part p.val).keysDue = false → d.coresUp = true → d.host.planParts = [] →
      Runs (.partitionSetupComplete p) s fun t => (t.part p.val).st = .active ∧ (t.part p.val).ext = (d.part p.val).ext ∧
        (∀ y ∈ (d.part p.val).ext, y.2.kind ≠ 1 → ∀ a, y.2.pbase ≤ a → a < y.2.pbase + y.2.len → Memory.read t.mem.bytes a = 0) ∧
        (∀ u ∈ d.tilesOf p.val, ∀ off, (d.ownBanks p.val).1 * 2 ^ 21 ≤ off → off < (d.ownBanks p.val).2 * 2 ^ 21 →
          Memory.read t.sram (sramAt u off) = 0) ∧ (∀ q, q ≠ p.val → t.part q = d.part q)) ∧
    (d.accepts ch 0x127 partForm r → (d.part x).freeable = true →
      Runs (.partFree ch) s fun t => let Q := t.part x
        d.answered t ch r.tag r.cmd 0 [] ∧ Q.st = .unused ∧ Q.entry = Reset.entry ∧ Q.ext = [] ∧ Q.inst = (d.part x).inst + 1 ∧
        Q.kgen = Reset.kgen ∧ Q.vf.view = [] ∧
        (∀ o ∈ t.mem.ranges, o.owner ≠ .save x ∧ ∀ e, o.owner ≠ .extent x e) ∧
        (∀ y ∈ t.sec.tkeys, y.2.model = true ∨ y.2.ownerp ≠ x) ∧ d.othersKeep t x)

/-- PART_RESIZE clears the tiles that leave and join, and RESIZE_COMMIT puts the new entry and the save area of its size into force (R310,
R313); REG_SET stores a regulator that does not overcommit, and its buckets keep what still fits them (R317, R421; that they keep it is
log entry 105). That the new save area is allocated beside the old one at the acceptance, and takes its place at the commit, is the
model's choice (log entry 13). -/
def Obligations.ResizeAndRegulators : Prop :=
  ∀ (s : State) (ch : Chan) (r : Req) (p : PIx) (e : Entry), let d := s.dev; let b := r.body; let x := num b 0 1; let P := d.part x
    (∀ lo d', s.Inv → d.accepts ch 0x121 (fun b => tilesForm b) r → P.st = .active → (P.streams.all fun q => (P.seq q).st.free) = true →
      P.entry.guest = false →
      let e := resizeEntry P.entry (num b 1 1) (num b 2 1) (bodyTiles b)
      d.tilesBad x e = false → d.alloc (e.ntile * 2 ^ 25) (.save x) = some (lo, d') →
      Runs (.partResize ch) s fun t => let Q := t.part x
        d.answered t ch r.tag r.cmd 0 [] ∧ Q.st = .resizing ∧ Q.target = some e ∧ Q.entry = P.entry ∧ Q.save = P.save ∧
        Q.saveNext = some (lo, e.ntile * 2 ^ 25) ∧
        t.tilesClear (maskTiles (P.entry.tiles &&& ~~~e.tiles)) ∧ t.tilesClear (maskTiles (e.tiles &&& ~~~P.entry.tiles)) ∧
        (∀ q, q ≠ x → t.part q = d.part q)) ∧
    (let P := d.part p.val
     P.st = .resizing → P.target = some e → P.wasParked = false → d.coresUp = true → p.val ∉ d.guestsOf p.val →
      ((d.swapSave p.val e.ntile).onPart p.val fun P => { P with target := none, st := .active, entry := e }).imbalances p.val = [] →
      Runs (.resizeCommit p) s fun t => let Q := t.part p.val
        Q.st = .active ∧ Q.entry = e ∧ Q.target = none ∧ Q.regs = P.regs ∧ Q.ext = P.ext ∧ Q.dist.slots = [] ∧ Q.save = P.saveNext ∧
        (e.leader = P.entry.leader → Q.smxEmpty = P.smxEmpty ∧ Q.vePoison = P.vePoison) ∧
        (e.leader ≠ P.entry.leader → Q.smxEmpty = 0 ∧ Q.smxInf = 0 ∧ Q.vePoison = false) ∧
        d.othersKeep t p.val ∧ t.mem.bytes = d.mem.bytes ∧ t.sram = d.sram ∧ t.err = d.err) ∧
    (d.accepts ch 0x128 (fun b => bodyLen 16 b && decide (num b 0 1 < 64) && decide (num b 1 1 < 5) && zeroAt b 2 6 && fld (num b 8 8) 41 0 == 0) r →
      P.st ≠ .unused → d.overcommits x (num b 1 1) (fld (num b 8 8) 63 53) (fld (num b 8 8) 52 42) P.entry.c0 = false →
      let k := num b 1 1
      let g : Regul := ⟨fld (num b 8 8) 63 53, fld (num b 8 8) 52 42⟩
      Answers (.regSet ch) s ch r 0 []
        ((d.onPart x fun P => { P with regs := setAt P.regs k g }).onBucket x k fun y =>
          { y with g := min y.g (4 * g.share * regCap k : Nat), x := min y.x (4 * (g.ceil - g.share) * regCap k : Nat) }))

/-- R315: an access of at most the largest size, with nothing waiting, is served from G while G is not negative, else from X, and else
waits, each with its own size and in order; so no bucket is ever more negative than one access nor above 4 beats of refill, whatever is
asked for and at every refill. (That an access above that size is a series of such ones is log entry 105.) -/
def Obligations.RegulatorBuckets : Prop :=
  ∀ (b : Bucket) (x : Regul) (r n : Nat),
    (b.due = [] → 0 < n → n ≤ regUnit r → let size : Int := (1024 * n : Nat)
      (0 ≤ b.g → b.ask r n = { b with g := b.g - size, asked := b.asked + n }) ∧
      (b.g < 0 → 0 ≤ b.x → b.ask r n = { b with x := b.x - size, asked := b.asked + n })) ∧
    (b.g < 0 → b.x < 0 → 0 < n → (∀ m ∈ b.due, 0 < m) → b.ask r n = { b with asked := b.asked + n, due := b.due ++ [n] }) ∧
    (b.inBalance x r = true → (b.ask r n).inBalance x r = true ∧ (b.refill x r).inBalance x r = true) ∧
    (b.due = [] → b.refill x r = { b with g := min (b.g + (x.share * regCap r : Nat)) (4 * x.share * regCap r : Nat)
                                          x := min (b.x + ((x.ceil - x.share) * regCap r : Nat)) (4 * (x.ceil - x.share) * regCap r : Nat) })

/-- PART_YIELD latches a yield, it moves to FLUSHING once every stream is stopped, and PART_RESUME, PART_RELEASE and PART_PLACE take
the partition on (R310, R312, R319, R320, R323, R420). A yield in a beat that the peel uses waits for the beat's end (R392). -/
def Obligations.Yields : Prop :=
  ∀ (s : State) (ch : Chan) (r : Req) (p : PIx), let d := s.dev; let b := r.body; let x := num b 0 1; let P := d.part x
    (d.accepts ch 0x122 partForm r → P.st = .active → d.peeled x = false →
      Runs (.partYield ch) s fun t => d.answered t ch r.tag r.cmd 0 [] ∧
        t.part x = { P with st := .yielding, yLatched := true, yCount := 0, yAll := 0 } ∧
        (∀ g ∈ d.guestsOf x, (d.part g).st = .active → (t.part g).st = .yielding) ∧ t.mem = d.mem ∧ t.sram = d.sram) ∧
    ((d.part p.val).st = .yielding → (d.part p.val).quiet = true → (∀ g ∈ d.guestsOf p.val, (d.part g).quiet = true ∨ (d.part g).yielding = false) →
      d.coresUp = true →
      Leaves (.yieldStreamsStopped p) s (d.onPart p.val fun P => { P with st := .flushing })) ∧
    (d.accepts ch 0x123 partForm r → P.st = .yielded →
      Answers (.partResume ch) s ch r 0 [] (d.onPart x fun P => { P with st := .active, yLatched := false, reclaim := false })) ∧
    (s.Inv → d.accepts ch 0x124 partForm r → P.st = .yielded →
      Runs (.partRelease ch) s fun t => d.answered t ch r.tag r.cmd 0 [] ∧ (t.part x).st = .parked ∧ (t.part x).entry.tiles = 0 ∧
        (t.part x).entry.ntile = P.entry.ntile ∧ (t.part x).leaderRank = rankOf P.entry.tiles P.entry.leader ∧ (t.part x).save = P.save ∧
        t.tilesClear (maskTiles P.entry.tiles) ∧ d.othersKeep t x ∧ t.mem = d.mem) ∧
    (s.Inv → d.accepts ch 0x125 (fun b => tilesForm b && num b 2 1 == 0) r → P.st = .parked → x ∉ d.guestsOf x →
      let m := bodyTiles b
      (maskTiles m).length = P.entry.ntile → (maskTiles m).contains (num b 1 1) = true → rankOf m (num b 1 1) = P.leaderRank →
      d.tilesTaken x m = false → m &&& d.err.peelFail = 0 →
      Runs (.partPlace ch) s fun t => d.answered t ch r.tag r.cmd 0 [] ∧
        t.part x = { P with st := .restoring, entry := { P.entry with tiles := m, leader := num b 1 1 } } ∧
        t.tilesClear (maskTiles m) ∧ d.othersKeep t x ∧ t.mem = d.mem)

/-- FLUSH_COMPLETE leaves every byte of the partition's tiles in its save area, by rank, and ends the yield with its result and its
interrupts; RESTORE_COMPLETE reads the save area back (R320, R323, R412, R414). -/
def Obligations.SaveAndRestore : Prop :=
  ∀ (s : State) (p : PIx) (lo n : Nat), let d := s.dev; let P := d.part p.val; let ts := maskTiles P.entry.tiles
    s.Inv → P.save = some (lo, n) →
    (P.st = .flushing → P.reclaim = false → d.coresUp = true →
      Runs (.flushComplete p) s fun t =>
        (∀ k < ts.length, ∀ off < 2 ^ 25, Memory.read t.mem.bytes (lo + k * 2 ^ 25 + off) = Memory.read d.sram (sramAt (ts.getD k 0) off)) ∧
        d.memBut t lo (ts.length * 2 ^ 25) ∧ t.sram = d.sram ∧ (t.part p.val).st = .yielded ∧ (t.part p.val).yResult = .yielded ∧
        t.host.ystat.getLsbD p.val = true ∧ (t.part p.val).vf.vstat.getLsbD 2 = true ∧ (t.part p.val).sq = P.sq ∧ (t.part p.val).srKey = P.srKey ∧
        (t.part p.val).srCtr = P.srCtr ∧ (∀ q, q ≠ p.val → t.part q = d.part q)) ∧
    (P.st = .restoring → d.host.planParts = [] → d.coresUp = true →
      Runs (.restoreComplete p) s fun t =>
        (∀ k < ts.length, ∀ off < 2 ^ 25, Memory.read t.sram (sramAt (ts.getD k 0) off) = Memory.read d.mem.bytes (lo + k * 2 ^ 25 + off)) ∧
        t.mem.bytes = d.mem.bytes ∧ (t.part p.val).st = .yielded ∧ (t.part p.val).sq = P.sq ∧ (∀ q, q ≠ p.val → t.part q = d.part q))

/-- RECLAIM is answered later; it latches a yield of every lent partition that is ACTIVE and releases one that is YIELDED, and each
partition of its plan is placed or set up once nothing holds its tiles (R324, R422). A plan of one entry with NEW 0 is accepted where
PART_PLACE would accept it with the lent tiles free. A yield in a beat that the peel uses waits for the beat's end (R392). -/
def Obligations.Reclaims : Prop :=
  ∀ (s : State) (ch : Chan) (r : Req) (plan : List Byte) (p : PIx), let d := s.dev; let b := r.body
    (d.accepts ch 0x129 (fun b => decide (16 ≤ b.length) && decide (1 ≤ num b 0 2) && decide (num b 0 2 ≤ 64) && decide (num b 2 1 < 2) && zeroAt b 3 5 &&
        (if bit (num b 2 1) 0 then bodyLen 16 b && d.dma else zeroAt b 8 8 && bodyLen (16 + 80 * num b 0 2) b)) r →
      let src := if bit (num b 2 1) 0 then plan else b.drop 16
      let entries := (List.range (num b 0 2)).map fun i => fit 80 (slice src (80 * i) 80)
      let freed := d.lent.foldl (fun d p => d.onPart p fun P => { P with entry := { P.entry with tiles := 0 } }) d
      let taken (t : Dev) : Prop := t.host.plan = entries ∧ t.host.planParts = entries.map (fun e => num e 0 1) ∧
        t.host.replies = d.host.replies ++ [⟨0x129, 0, bareChan ch, r.tag⟩] ∧
        ∀ q ∈ d.lent, ((d.part q).st = .active → (t.part q).st = .yielding ∧ (t.part q).reclaim = true) ∧
          ((d.part q).st = .yielded → (t.part q).st = .parked)
      d.host.planParts = [] → (∀ q ∈ d.lent, d.peeled q = false) →
      (freed.tryPlan entries = true → ∃ t, Sys2Proof.Machine.exec (.reclaim ch plan) s = .next { s with dev := t } ∧ taken t) ∧
      (let q := parseSet (fit 80 (slice src 0 80)); let P := freed.part q.part; let m := q.entry.tiles
       num b 0 2 = 1 → q.new = false → P.st = .parked → (maskTiles m).length = P.entry.ntile → (maskTiles m).contains q.entry.leader = true →
         rankOf m q.entry.leader = P.leaderRank → freed.tilesTaken q.part m = false → m &&& d.err.peelFail = 0 →
         ∃ t, Sys2Proof.Machine.exec (.reclaim ch plan) s = .next { s with dev := t } ∧ taken t)) ∧
    (∀ e, (d.host.plan.find? fun e => num e 0 1 == p.val) = some e → let q := parseSet e; let P := d.part p.val; let m := q.entry.tiles
      d.tilesTaken p.val m = false → d.coresUp = true →
      (∀ d', d.planEntry e = (0, d') → d'.err = d.err → (∃ f ∈ d'.host.plan, num f 0 1 ≠ p.val) →
        Leaves (.reclaimPlace p) s (d'.onHost fun h => { h with plan := h.plan.filter fun e => num e 0 1 != p.val })) ∧
      (q.new = false → P.st = .parked → p.val ∉ d.guestsOf p.val → (maskTiles m).length = P.entry.ntile →
        (maskTiles m).contains q.entry.leader = true → rankOf m q.entry.leader = P.leaderRank → m &&& d.err.peelFail = 0 → s.Inv →
        ∃ t, Sys2Proof.Machine.exec (.reclaimPlace p) s = .next { s with dev := t } ∧
          t.part p.val = { P with st := .restoring, entry := { P.entry with tiles := m, leader := q.entry.leader } } ∧
          t.host.plan = (d.host.plan.filter fun e => num e 0 1 != p.val) ∧ t.tilesClear (maskTiles m) ∧
          d.othersKeep t p.val ∧ t.mem = d.mem ∧ t.err = d.err))

/-- At a beat count that is a multiple of 4,096, an audit that finds every ledger in balance only notes the beat, and one that finds
ledgers of partitions out of balance stops each such partition (R327 to R329); a base's shared key is a ledger too (R257, R349); the end of a
slow-down window writes each partition's ratio and starts the next one (R318). -/
def Obligations.AuditAndSlowWindow : Prop :=
  ∀ s : State, let d := s.dev
    d.beat % 4096 = 0 →
    ((∀ p ∈ d.live, d.imbalances p = []) → (∀ b < 16, d.sharedOk b = true) → (∀ l, (d.port l).up = true → (d.port l).inBalance = true) →
      Leaves .ledgerAuditPeriodic s (d.onErr fun e => { e with abeat := d.lnk.count })) ∧
    (∀ p ∈ d.live, d.imbalances p ≠ [] → (d.part p).st ≠ .faulted → (d.part p).st.hasTiles = true →
      Runs .ledgerAuditPeriodic s fun t => d.stoppedBy t p Code.ledgerMismatch ∧ t.err.abeat = d.lnk.count) ∧
    (d.lnk.slowAt ≠ some d.beat →
      Runs .slowWindowEnd s fun t => t.lnk = { d.lnk with slowAt := some d.beat } ∧ t.mem = d.mem ∧ t.err = d.err ∧
        ∀ p, ((d.part p).st = .unused → t.part p = d.part p) ∧ ((d.part p).st ≠ .unused → let x := (d.part p).slow
          t.part p = { d.part p with slow :=
            ⟨if x.curActive = 0 then 0 else min (256 * (x.curActive + x.curStall) / x.curActive) 0xFFFF, x.curActive, x.curStall,
              (x.window + 1) % 2 ^ 21, 0, 0, x.seen⟩ }))

/-! ## Debug, firmware, presence, sessions (13) -/

/-- DEBUG_ENABLE does as R339 does to every key, stops every partition that holds tiles and the streams of one that is PARKED, empties
bases and catalog and sets DEBUG (R341, R102). That the device key is zeroed too, which Table 13-2 says and R341 does not list, is the
model's choice (log entry 34). -/
def Obligations.DebugEnableClears : Prop :=
  ∀ (s : State) (ch : Chan) (r : Req), let d := s.dev
    d.accepts ch 0x205 emptyForm r →
    Runs (.debugEnable ch) s fun t => d.answered t ch r.tag r.cmd 0 [] ∧ t.sec.debug = true ∧ t.keysGone ∧
      (∀ p ∈ d.live, (d.part p).st.hasTiles = true → (t.part p).st = .faulted) ∧
      (∀ p ∈ d.live, (d.part p).st = .parked → (t.part p).st = .parked ∧ ∀ x ∈ (t.part p).sq, x.st = .fault) ∧
      (∀ b, (t.base b).st = .empty) ∧ ∀ i, (t.catEntry i).st = .free

/-- FW_STAGE and FW_ROLLBACK write the inactive bank piece by piece (R353, R355, R425), FW_STAGE_COMPLETE checks what was written
(R353, R375, Table 14-6; in ROM recovery checks 1 to 5 are all, and the permit's digest passes the floors, R378), and FW_DISCARD, FW_ACTIVATE and FW_FLOOR act on
the staged set and the floors (R354, R355); ROM recovery answers an FW_DISCARD not at all (R378). The model's choices: a failed flash
write, which a free value decides, and a bad signature complete with CMD_INVALID (log entry 26); BANK FFh names in ROM recovery the
other bank than BOOT_STAT BANK (log entry 37). -/
def Obligations.FirmwareStaging : Prop :=
  ∀ (s : State) (ch : Chan) (r : Req) (image : List Byte), let d := s.dev; let b := r.body; let x := d.sec
    (∀ c code, (c, code) ∈ [(Instr.fwStage ch image, 0x206), (.fwRollback ch image, 0x209)] →
      d.accepts ch code (fun b => stageForm b && (bit (num b 1 1) 0 || d.dma) &&
        (num b 0 1 == 0xFF || (decide (num b 0 1 < 2) && d.ckr.phase == 9))) r →
      let bank := if num b 0 1 == 0xFF then !d.ckr.bank else num b 0 1 == 1
      let piece := if bit (num b 1 1) 0 then b.drop 32 else fit (num b 16 8) image
      let taken (t : Dev) : Prop := t.parts = d.parts ∧ t.mem = d.mem ∧ t.sec.staging = true ∧ t.sec.staged = x.staged ∧
        (bit (num b 1 1) 1 = true → t.host.replies = d.host.replies ++ [⟨code, 0, bareChan ch, r.tag⟩]) ∧
        (bit (num b 1 1) 1 = false → d.answered t ch r.tag r.cmd 0 [])
      (x.staging = false → x.staged = false → num b 24 4 = 0 →
        Runs c s fun t => taken t ∧ t.sec.stageBank = bank ∧ t.sec.stageData = piece ∧ t.sec.stageRoll = (code == 0x209) ∧
          t.persist.bank bank = Reset.bank ∧ t.persist.bank (!bank) = d.persist.bank (!bank)) ∧
      (x.staging = true → (∀ y ∈ d.host.replies, y.code ≠ 0x206 ∧ y.code ≠ 0x209) → bit (num b 1 1) 0 = true → num b 24 4 ≠ 0 →
        x.stageRoll = (code == 0x209) → bank = x.stageBank → num b 24 4 = x.stageNext → num b 24 4 + num b 16 8 ≤ 2 ^ 25 →
        Runs c s fun t => taken t ∧ t.sec.stageBank = bank ∧ t.sec.stageData = x.stageData ++ piece ∧ t.persist = d.persist) ∧
      (x.staging = false → x.staged = true → Answers c s ch r Code.fwBusy [] d)) ∧
    (let code := if x.stageRoll then 0x209 else 0x206
     let k : Bank := ⟨x.stageData, true, 0xFFFFFFFF⟩
     let sent (t : Dev) (st : Nat) : Prop := ∀ y, (d.host.replies.find? fun y => y.code == code && y.key == 0) = some y →
       d.answered t y.ch y.tag code st []
     let failed (t : Dev) (st : Nat) : Prop := sent t st ∧ t.sec.staging = false ∧ t.sec.staged = x.staged ∧ t.persist.bank x.stageBank = Reset.bank
     let floors := if d.ckr.phase = 9 then k.check3 d.persist else k.floorOk d.persist
     x.staging = true → (∃ y ∈ d.host.replies, y.code = code) → d.coresUp = true →
     let signed := k.check1 && k.check2 && (d.ckr.phase == 9 || cfgSigned k d.persist.creds (k.blob 2))
     let written := Config.freeNat d.fresh % 2 = 0
     (¬written ∨ signed = false → Runs .fwStageComplete s fun t => failed t Code.cmdInvalid ∧ t.err = d.err) ∧
     (written → signed = true → (k.check4 d.host.b1 && k.check5) = false →
       Runs .fwStageComplete s fun t => failed t Code.imageIncompat ∧ ∃ r ∈ t.err.detected, r.code = Code.imageIncompat) ∧
     (written → signed = true → k.check4 d.host.b1 = true → k.check5 = true → x.stageRoll = false → floors = false →
       Runs .fwStageComplete s fun t => failed t Code.imageRollback ∧ ∃ r ∈ t.err.detected, r.code = Code.imageRollback) ∧
     (written → signed = true → k.check4 d.host.b1 = true → k.check5 = true → (x.stageRoll = true ∨ floors = true) →
       Runs .fwStageComplete s fun t => sent t 0 ∧ t.sec.staging = false ∧ t.sec.staged = true ∧ t.persist.bank x.stageBank = k ∧
         t.persist.permit = (if x.stageRoll then some k.digest else d.persist.permit) ∧ t.err = d.err)) ∧
    (d.accepts ch 0x207 emptyForm r →
      Runs (.fwDiscard ch) s fun t => d.answered t ch r.tag r.cmd 0 [] ∧ t.sec.staging = false ∧ t.sec.staged = false ∧ t.sec.permit = false ∧
        t.persist.permit = none ∧ t.persist.bank (!d.ckr.bank) = Reset.bank ∧ t.parts = d.parts ∧
        (x.staging = false → t.persist.bank d.ckr.bank = d.persist.bank d.ckr.bank)) ∧
    (d.request ch 0x207 = some r → isRecovery ch = true → Leaves (.fwDiscard ch) s d) ∧
    (d.accepts ch 0x208 emptyForm r → x.staged = true →
      let u : Dev := { d with persist := d.persist.setBank d.stagedBank { d.persist.bank d.stagedBank with act := d.nextAct } }
      Answers (.fwActivate ch) s ch r 0 [] u) ∧
    (d.accepts ch 0x20A (fun b => bodyLen 8 b && zeroAt b 4 4) r → num b 0 2 ≤ d.runBank.svnH → d.persist.floorH ≤ num b 0 2 →
      num b 2 2 ≤ d.runBank.svnQ → d.persist.floorQ ≤ num b 2 2 →
      Answers (.fwFloor ch) s ch r 0 [] { d with persist := { d.persist with floorH := num b 0 2, floorQ := num b 2 2 } })

/-- Measurements, sessions, certificates, challenges and IDE keys (R332, R334, R337, R345, R346, R402); a session keeps which indices each
of its signed responses quoted (R348). The model's choices: a function's routing ID is its number (log entry 53), nothing is signed once
the alias key is gone (log entry 23), and the bytes of signed bodies, of SPDM errors and of the measurement blocks (log entries 38, 122). -/
def Obligations.AttestationAndSessions : Prop :=
  ∀ (s : State) (w : Wire) (id stream : Nat) (ix : List Nat) (nonce secret key : BitVec 256) (k : BitVec 768) (e : Nat), let d := s.dev
    let got := ix.filter fun i => (d.measurement i).isSome
    let body := natLe 32 nonce.toNat ++ got.flatMap d.measureBlock
    let sign (a : BitVec 384) (l : List Byte) := Out.spdm w (l ++ natLe 96 (Config.spdmSign a l).toNat)
    (d.spdmUp w = true → (d.sec.aliasKey = none → Leaves (.spdmGetMeasurements w none ix nonce) s (d.tell w (.spdm w body))) ∧
      ∀ a, d.sec.aliasKey = some a →
        Leaves (.spdmGetMeasurements w none ix nonce) s (d.tell w (sign a body)) ∧
        ((d.session id w).isSome = true →
          Runs (.spdmGetMeasurements w (some id) ix nonce) s fun t => t.out = (d.tell w (sign a body)).out ∧ t.parts = d.parts ∧ t.mem = d.mem ∧
            ∃ x y, Tab.get? d.sec.sessions id = some x ∧ Tab.get? t.sec.sessions id = some y ∧ got ∈ y.quoted ∧ ∀ l, l ∈ y.quoted ↔ l = got ∨ l ∈ x.quoted) ∧
        Leaves (.spdmChallenge w nonce) s (d.tell w (sign a (natLe 32 nonce.toNat)))) ∧
    (∀ a, d.spdmUp w = true → d.sec.aliasKey = some a → Tab.get? d.sec.sessions id = none →
      let opened (c : Option Nat) : Dev := (d.openSession id ⟨w, c, secret, []⟩).tell w (sign a (natLe 4 id))
      (d.spdmCount < 8 →
        (w = .pf0 → ∀ q, Leaves (.spdmKeyExchange w id q secret) s (opened none)) ∧
        (w = .sideband → d.persist.slotOf 4 k = some e → Leaves (.spdmKeyExchange w id (some k) secret) s (opened (some e))) ∧
        (w = .sideband → d.persist.enrolled 4 = false → Leaves (.spdmKeyExchange w id none secret) s (opened none)) ∧
        (w = .sideband → d.persist.enrolled 4 = true → Leaves (.spdmKeyExchange w id none secret) s d)) ∧
      (8 ≤ d.spdmCount → ∀ q, Leaves (.spdmKeyExchange w id q secret) s (d.tell w (.spdm w [0x7F, 0x0A])))) ∧
    (d.spdmUp w = true → Leaves (.spdmGetCertificate w) s (d.tell w (.spdm w d.sec.chain))) ∧
    (d.herilUp = true → Tab.get? d.sec.sessions id = none →
      (d.persist.slotOf 0 k = some e → Leaves (.mgmtSessionOpen id (some k) secret) s (d.openSession id ⟨.ethernet, some e, secret, []⟩)) ∧
      (d.persist.enrolled 0 = false → Leaves (.mgmtSessionOpen id none secret) s (d.openSession id ⟨.ethernet, none, secret, []⟩)) ∧
      (d.persist.enrolled 0 = true → Leaves (.mgmtSessionOpen id none secret) s d)) ∧
    (d.herilUp = true → Leaves (.sessionEnd id) s (d.onSec fun s => { s with sessions := Tab.erase s.sessions id })) ∧
    (d.herilUp = false → Leaves (.sessionEnd id) s d) ∧
    (∀ link lo hi, (d.session id .pf0).isSome = true → d.spdmUp .pf0 = true →
      (d.sec.ides.filter fun x => x.1 != stream && x.2.link == link).length < (if link then 1 else 4) →
      Leaves (.ideKm id ⟨stream, key⟩ link lo hi) s (d.onSec fun s => { s with ides := Tab.put s.ides stream ⟨key, link, lo, hi, true⟩ })) ∧
    (∀ x, Tab.get? d.sec.ides stream = some x → x.secure = true →
      Runs (.ideIntegrityFail stream) s fun t => Tab.get? t.sec.ides stream = some { x with secure := false } ∧ t.mem = d.mem ∧
        ∀ p : PIx, if x.link || (decide (x.ridLo ≤ p.val + 1) && decide (p.val + 1 ≤ x.ridHi))
          then (t.part p.val).vf.qerr = true ∧ (t.part p.val).vf.vstat.getLsbD 8 = true ∧ (t.part p.val).st = (d.part p.val).st
          else t.part p.val = d.part p.val)

/-- Sensor reads, MCTP control answers and physical presence (R338, R438, R439). That the sideband answers an MCTP control message in
the hold state and with the clocks stopped too is the model's reading (log entry 138). -/
def Obligations.SensorsAndPresence : Prop :=
  ∀ (s : State) (w : Wire) (n ms : Nat), let d := s.dev
    (d.spdmUp w = true →
      (1 ≤ n → n ≤ 4 → Leaves (.pldmRequest w n) s (d.tell w (.pldm n (d.therm.sensors.getD (n - 1) 0) (some d.therm.tthr) (some d.therm.tlim)))) ∧
      Leaves (.pldmRequest w 5) s (d.tell w (.pldm 5 (d.therm.sensors.getD 4 0) (some 850) (some 950))) ∧
      (6 ≤ n → n ≤ 11 → Leaves (.pldmRequest w n) s (d.tell w (.pldm n (d.therm.sensors.getD (n - 1) 0) none none))) ∧
      Leaves (.pldmRequest w 12) s (d.tell w (.pldm 12 d.therm.duty none none))) ∧
    (d.pins.aux = true → Leaves (.mctpControl .sideband) s (d.tell .sideband (.mctp .sideband))) ∧
    (d.coresUp = true → d.host.answering = true → Leaves (.mctpControl .pf0) s (d.emit (.mctp .pf0))) ∧
    Leaves (.presNAssert ms) s (d.onPins fun p => { p with presN := false, presHeld := decide (100 ≤ ms) }) ∧
    (d.sec.presCmd = none → Leaves .presRelease s (d.onPins fun p => { p with presN := true, presHeld := false })) ∧
    (∀ code, d.sec.presCmd = some code → d.coresUp = true →
      Runs .presRelease s fun t => t.pins.presN = true ∧ t.pins.presHeld = false ∧ t.sec.presCmd = none ∧ t.sec.staging = false ∧
        (∀ b, d.sec.stageOld = some b → t.persist.bank d.sec.stageBank = b) ∧ t.parts = d.parts ∧
        ∀ y, (d.host.replies.find? fun y => y.code == code && y.key == 0) = some y →
          d.answered t y.ch y.tag code Code.presenceRequired [])

/-- R340: BYPASS and IDCODE are answered at all times, and every other instruction acts as BYPASS until DEBUG is set. (Which number
stands for which instruction, and that an instruction under DEBUG answers a free value, are the model's own: log entry 54.) -/
def Obligations.JtagAnswers : Prop :=
  ∀ (s : State) (ir : Nat),
    Leaves (.jtagInstruction 0) s (s.dev.emit (.jtag true)) ∧ Leaves (.jtagInstruction 1) s (s.dev.emit (.jtag false)) ∧
    (ir ≠ 1 → s.dev.sec.debug = false → Leaves (.jtagInstruction ir) s (s.dev.emit (.jtag true))) ∧
    (s.dev.sec.debug = true → Runs (.jtagInstruction ir) s fun t => ∃ v, t.out = .jtag v :: s.dev.out)

/-! ## Supplies, resets and boot (14, 17) -/

/-- FULL_RESET, which no mailbox may give (R336), and PWR_SET (R361, R362, R373), and the full reset that each of three causes brings
(R371, R372, R381), in the hold state and without supplies by neither command nor HOST_PERST_N (R390, R438). That their bodies are
taken with LEN 1 and with LEN 8 and zeros behind is the model's choice (log entry 28). -/
def Obligations.ResetAndPowerCommands : Prop :=
  ∀ (s : State) (ch : Chan) (r : Req) (us : Nat), let d := s.dev; let m := num r.body 0 1
    (d.accepts ch 0x134 (byteForm 3) r →
      (m = 0 → Answers (.fullReset ch) s ch r 0 [] (d.onCkr fun c => { c with nowDue := true })) ∧
      (m = 1 → Answers (.fullReset ch) s ch r 0 [] (d.onCkr fun c => { c with perstArm := true })) ∧
      (m = 2 → Answers (.fullReset ch) s ch r 0 [] (d.onCkr fun c => { c with perstArm := false }))) ∧
    (d.accepts ch 0x133 (byteForm 3) r →
      (d.ckr.pwr = 0 → m ≠ 0 → d.pwrBusy = true → Answers (.pwrSet ch) s ch r Code.pwrBusy [] d) ∧
      (d.ckr.pwr = m → Answers (.pwrSet ch) s ch r 0 [] d) ∧
      (d.ckr.pwr ≠ m → (d.ckr.pwr = 0 → d.pwrBusy = false) → d.ckr.pwr ≠ 2 →
        Runs (.pwrSet ch) s fun t => d.answered t ch r.tag r.cmd 0 [] ∧ t.ckr.pwr = m ∧ t.parts = d.parts ∧ t.mem = d.mem ∧ t.sram = d.sram ∧
          (m = 2 → t.ckr.pllLock = false ∧ (∀ i < 3, (t.ckr.doms.getD i Reset.dom).src = 2) ∧ (∀ i < 6, 3 ≤ i → (t.ckr.doms.getD i Reset.dom).src = 1) ∧
            ∀ l, (t.port l).st = 0) ∧
          (m = 1 → ∀ i < 3, (t.ckr.doms.getD i Reset.dom).gated = !(d.ckr.doms.getD i Reset.dom).slpen) ∧
          (m = 0 → ∀ i < 6, (t.ckr.doms.getD i Reset.dom).src = 0 ∧ (t.ckr.doms.getD i Reset.dom).gated = false)) ∧
      (d.ckr.pwr = 2 → m ≠ 2 → Leaves (.pwrSet ch) s (d.deferred ch 0x133 m r.tag))) ∧
    (∀ k, ch = .mailbox k → d.request ch 0x134 = some r → Answers (.fullReset ch) s ch r Code.mgtOnly [] d) ∧
    (d.released = true → d.ckr.nowDue = true → d.err.holdst = false → Runs .fullResetNowExpiry s fun t => d.fullyReset t 2) ∧
    (d.released = false ∨ d.err.holdst = true → Leaves .fullResetNowExpiry s d) ∧
    (10 ≤ us → d.released = true → Runs (.resetNAssert us) s fun t => d.fullyReset t 1 ∧ t.pins.resetN = false ∧ t.ckr.phase = 0) ∧
    (10 ≤ us → d.released = false → Leaves (.resetNAssert us) s (d.onPins fun p => { p with resetN := false })) ∧
    (us < 10 → Leaves (.resetNAssert us) s d) ∧
    (d.pins.pwrGood = true → d.err.holdst = false → d.ckr.perstArm = true → Runs .hostPerst s fun t => d.fullyReset t 3 ∧ t.pins.perstN = false) ∧
    (d.pins.pwrGood = false ∨ d.err.holdst = true → Leaves .hostPerst s (d.onPins fun p => { p with perstN := false })) ∧
    (d.pins.pwrGood = true → d.err.holdst = false → d.ckr.perstArm = false →
      Runs .hostPerst s fun t => t.pins.perstN = false ∧ t.host.fns = [] ∧ t.host.answering = false ∧ t.host.linkUp = false ∧ t.sec.ides = [] ∧
        t.mem = d.mem ∧ t.sram = d.sram ∧ t.ckr = d.ckr ∧ ∀ p, (t.part p).vf.en = false ∧ (t.part p).vf.vstat = 0 ∧ (t.part p).vf.view = [] ∧
          (t.part p).st = (d.part p).st ∧ (t.part p).sq = (d.part p).sq) ∧
    (d.ckr.phase ≠ 0 → Runs .hostPerstRelease s fun t => t.pins.perstN = true ∧ t.host.answering = d.pins.pwrGood ∧ t.parts = d.parts ∧ t.ckr = d.ckr) ∧
    (d.ckr.phase = 0 → Leaves .hostPerstRelease s (d.onPins fun p => { p with perstN := true })) ∧
    Leaves .pcieLinkDown s (d.onHost fun h => { h with linkUp := false, lrate := 0, lwidth := 0, flit := false })

/-- The supplies come and go (R357, R435, R437, R438); RESET_N is released and its pins are sampled (R339); at the root's lock the part
boots or recovers (R332, R367, R376 to R378, R380, R442), and the phases MEM and READY follow (R254, R380). The model's choices: the return
of PWR_GOOD after a fault is a full reset of cause 1 (log entry 30), and the boot ROM runs in one step at the lock, on the pins sampled at
the release (log entry 35). -/
def Obligations.SuppliesAndBoot : Prop :=
  ∀ (s : State) (b : BootIn) (record : BitVec 384) (ms : Nat), let d := s.dev
    (d.pins.aux = false →
      Runs .powerOnAux s fun t => t.pins.aux = true ∧ t.ckr.aonstb = false ∧ t.ckr.cause = 0 ∧ t.ckr.clkFail = 0 ∧ t.ckr.nfull = 0 ∧
        t.ckr.phase = 0 ∧ t.err.lastDe = List.replicate 32 0 ∧ t.persist = d.persist ∧ t.parts = [] ∧ t.mem.bytes = [] ∧ t.sram = []) ∧
    (d.pins.aux = true → d.ckr.aonstb = false →
      (d.pins.resetN = false ∨ d.pins.pwrGood = false →
        Leaves .aonStable s (d.onCkr fun c => { c with aonstb := true, aonRun := true, refOk := true })) ∧
      Runs .aonStable s fun t => t.ckr.aonstb = true ∧ t.ckr.refOk = true ∧ t.parts = d.parts ∧ t.mem = d.mem) ∧
    (d.pins.aux = true → Leaves .power48vApplied s (d.onPins fun p => { p with v48 := true })) ∧
    (d.pins.v48 = true → d.pins.pwrGood = false →
      (d.ckr.phase = 0 → d.err.deOpen = false → d.pins.resetN = false → Leaves .pwrGood s (d.onPins fun p => { p with pwrGood := true })) ∧
      (d.ckr.phase ≠ 0 ∨ d.err.deOpen = true → Runs .pwrGood s fun t => d.fullyReset t 1 ∧ t.pins.pwrGood = true)) ∧
    (d.pins.v48 = true →
      (d.pins.pwrGood = true → d.released = false → ∀ c ∈ [Instr.power48vRemoved, .powerFault],
        Runs c s fun t => t.pins.v48 = (c == .powerFault) ∧ t.pins.pwrGood = false ∧ t.pins.aux = d.pins.aux ∧ t.keysGone ∧
          t.host.linkUp = false ∧ t.host.answering = false ∧ t.pins.faultN = true ∧ t.err = d.err ∧ t.persist = d.persist) ∧
      (d.pins.pwrGood = false → Leaves .power48vRemoved s (d.onPins fun p => { p with v48 := false }))) ∧
    (d.pins.v48 = false →
      Runs .auxPowerRemoved s fun t => t.persist = d.persist ∧ t.parts = [] ∧ t.mem = Reset.mem ∧ t.sram = [] ∧ t.sec.tkeys = [] ∧
        t.sec.sessions = [] ∧ t.pins = Reset.pins ∧ t.ckr = Reset.ckr ∧ t.err = Reset.err) ∧
    (d.pins.resetN = false →
      Runs (.resetNRelease b) s fun t => t.pins.resetN = true ∧ t.parts = d.parts ∧ t.mem = d.mem ∧
        (d.pins.aux = true → d.ckr.aonstb = true → d.pins.pwrGood = true → t.pins.sbMode = b.sbMode ∧ t.ckr.bootIn = { b with presLow := false } ∧
          t.persist = (if b.presLow && b.loopClosed then { d.persist with sealed := false } else d.persist) ∧
          (d.ckr.phase = 0 → d.ckr.booting = true → d.ckr.refOk = true → d.ckr.pllLock = false →
            ∀ i < 6, (t.ckr.doms.getD i Reset.dom).src = if i < 3 then 2 else 1)) ∧
        (d.pins.aux = false ∨ d.ckr.aonstb = false ∨ d.pins.pwrGood = false → t.persist = d.persist ∧ t.ckr.bootIn = b)) ∧
    (d.ckr.pllLock = false → d.ckr.refOk = true → d.released = true → d.err.holdst = false → d.ckr.pwr ≠ 2 → d.ckr.clockWait = false →
      d.ckr.phase = 0 → d.ckr.booting = true →
      let hottest : Int := d.ckr.bootIn.presTmax
      Runs .pllLock s fun t => t.ckr.pllLock = true ∧
        (d.therm.tthr - 100 < hottest ∨ (d.ckr.hotReset = true ∧ d.therm.tthr - 100 = hottest) → t.ckr.phase = 0 ∧ t.ckr.booting = true) ∧
        (hottest < d.therm.tthr - 100 ∨ (d.ckr.hotReset = false ∧ d.therm.tthr - 100 = hottest) → t.ckr.hotReset = false ∧
          (t.ckr.phase = 1 ∨ t.ckr.phase = 8 ∨ t.ckr.phase = 9) ∧ t.ckr.booting = false ∧
          (d.persist.order = [] → t.ckr.phase = 9 ∧ t.ckr.reason = 6) ∧
          (t.ckr.phase = 1 → 31990400 ≤ d.ckr.bootIn.rootCount ∧ d.ckr.bootIn.rootCount ≤ 32009600 ∧ d.persist.sealed = false) ∧
          (t.ckr.phase ≠ 9 → ∃ k ∈ d.persist.order, t.ckr.bank = k ∧ (d.persist.bank k).check1 = true ∧ (d.persist.bank k).check2 = true ∧
            (d.persist.bank k).check3 d.persist = true ∧ t.sec.identity = some (Config.identityKey d.persist.fuse) ∧
            t.sec.aliasKey = some (Config.aliasKeyOf d.persist.fuse (Config.sha384 ((d.persist.bank k).blob 0)))))) ∧
    (d.ckr.phase = 1 → d.coresUp = true → d.ckr.pllLock = true → d.cfg.plan = [] →
      Runs (.stackTrainingComplete record) s fun t => t.ckr.phase = 2 ∧ t.sec.devKey.isSome = true ∧ t.host.int.getLsbD 5 = true ∧
        t.parts = d.parts ∧ t.mem = d.mem ∧ (d.cfg.stackDigest = record → t.err = d.err) ∧
        (d.cfg.stackDigest ≠ record → ∃ r ∈ t.err.detected, r.code = Code.configInvalid)) ∧
    (d.ckr.phase = 2 → d.coresUp = true →
      Runs (.phaseReady ms) s fun t => t.ckr.phase = 3 ∧ t.ckr.tboot = min ms 0xFFFF ∧ t.host.int.getLsbD 5 = true ∧ t.parts = d.parts ∧ t.mem = d.mem)

/-! ## Errors (15) -/

/-- Every device-fatal event of the package takes the actions of R389 when no earlier one is open, and the hold state of R390 when an
earlier one is not yet handled (R22, R339, R365, R384, R437); a die-to-die retry only counts. Further open checks of a run, and those on
auxiliary power, record nothing and zero the keys all the same (R339; the record is log entry 25). A power fault zeroes the keys too and
leaves the outputs released and the host link idle (R433, R436, R438). -/
def Obligations.DeviceFatalEvents : Prop :=
  ∀ (s : State) (c : Instr) (code : Nat) (q : Bool) (die : Fin 20), let d := s.dev
    (((c = .powerFault ∨ (c = .power48vRemoved ∧ d.pins.v48 = true)) ∧ code = Code.powerFault ∧ d.released = true) ∨
     (c = .fwWatchdog q ∧ code = Code.fwWatchdog ∧ d.coresUp = true) ∨
     (c = .d2dLinkDown die ∧ code = Code.d2dLinkDown ∧ d.released = true) ∨
     (c = .sealCheck true ∧ code = Code.sealOpen ∧ d.ckr.aonstb = true ∧ d.sec.loopRun = 1 ∧ d.pins.pwrGood = true) ∨
     (c = .crystalLoss ∧ code = Code.aonLost ∧ d.ckr.aonstb = true ∧ d.ckr.aonRun = true ∧ d.pins.pwrGood = true)) →
    (d.err.deOpen = false → Runs c s fun t => d.fatal t code ∧
      (code = Code.sealOpen ∨ code = Code.aonLost → t.persist.sealed = true ∧ t.sec.sealed = true ∧ t.keysGone) ∧
      (code = Code.powerFault → t.pins.pwrGood = false ∧ t.pins.faultN = true ∧ t.host.linkUp = false ∧ t.host.answering = false ∧ t.keysGone)) ∧
    (d.err.deOpen = true → d.err.deDone = false → Runs c s fun t => t.err.holdst = true ∧ t.pins.faultN = !t.released ∧ t.ckr.clockWait = true ∧
      ∀ p ∈ d.live, (t.part p).st = .faulted) ∧
    Leaves .d2dCrcRetry s (d.onErr fun e => { e with d2dRetry := satAdd 32 e.d2dRetry 1 }) ∧
    (d.ckr.aonstb = true → Leaves (.sealCheck false) s ((d.onCkr fun c => { c with aonRun := true }).onSec fun s => { s with loopRun := 0 })) ∧
    (d.ckr.aonstb = true → 1 ≤ d.sec.loopRun → d.pins.pwrGood = false ∨ 2 ≤ d.sec.loopRun →
      Runs (.sealCheck true) s fun t => t.persist.sealed = true ∧ t.sec.sealed = true ∧ t.keysGone ∧ t.err = d.err ∧ t.mem.bytes = d.mem.bytes)

/-- The aggregator accepts the next detected record, the handler takes the unhandled record of highest class, and its end completes
what the class asks for (R386 to R389, R413, R447). FAULT_N falls for a DE unless the part is in reset (R430, R433). That a handled PE
record ends the running queue entry and clears the step is the model's choice (log entry 42). -/
def Obligations.ErrorHandling : Prop :=
  ∀ (s : State) (r : ErrRec) (rest : List ErrRec), let d := s.dev
    (d.err.detected = r :: rest →
      Runs .errorRecordAccept s fun t => let x := { r with seq := d.err.nextSeq.toNat }
        t.err.detected = rest ∧ t.err.nextSeq = d.err.nextSeq + 1 ∧ t.err.todo = d.err.todo ++ [x] ∧ t.host.int.getLsbD 2 = true ∧
        ((d.err.queue.any x.merges) = false → d.err.queue.length < 32 → t.err.queue = d.err.queue ++ [x] ∧ t.err.dropped = d.err.dropped) ∧
        ((d.err.queue.any x.merges) = true → t.err.queue.length = d.err.queue.length) ∧ t.err.queue.length ≤ max 32 d.err.queue.length ∧
        (Code.cls r.code = 3 → r.mover = true → t.err.lastDe = x.bytes) ∧
        (r.pv = true → (d.part r.part).vf.view.length < 8 →
          (t.part r.part).vf.view = (d.part r.part).vf.view ++ [x.copy.bytes] ∧ (t.part r.part).vf.vstat.getLsbD 1 = true) ∧
        (∀ p, ¬(r.pv = true ∧ p = r.part) → t.part p = d.part p) ∧ t.mem = d.mem) ∧
    (d.coresUp = true → pickRec d.err.todo = some r → d.err.hclass < Code.cls r.code →
      Runs .errorHandle s fun t => t.err.handling = r :: d.err.handling ∧ t.err.todo = d.err.todo.erase r ∧ t.err.hclass = Code.cls r.code ∧
        (Code.cls r.code = 3 → t.pins.faultN = !d.released) ∧ t.parts = d.parts) ∧
    (pickRec d.err.todo = some r → Code.cls r.code ≤ d.err.hclass → Leaves .errorHandle s d) ∧
    (d.coresUp = true → d.err.handling = r :: rest →
      Runs .recordHandled s fun t => t.err.handling = rest ∧
        (Code.cls r.code = 2 → r.pv = true → (t.part r.part).step = none ∧ (t.part r.part).vf.cur = none ∧ t.mem.ranges = d.mem.ranges) ∧
        (Code.cls r.code = 3 → r.mover = true → t.err.deDone = true) ∧
        (Code.cls r.code ≠ 2 ∨ r.pv = false → t.parts = d.parts ∧ t.mem = d.mem) ∧
        (∀ p, p ≠ r.part → t.part p = d.part p))

/-! ## Clocks, the loupe counter, thermal behaviour, the peel (14, 15, 17) -/

/-- The root lock, the loss and the return of REFCLK and of the root, a crossing timeout (R358 to R365, R370), and the loupe counter
(R366). That the stacks hold nothing after CLOCK_LOST is the model's choice (log entry 20). -/
def Obligations.ClocksAndLoupe : Prop :=
  ∀ (s : State) (v : W64) (n : Nat) (x : BitVec 32) (y : Reply), let d := s.dev
    let still (t : Dev) (kind : Nat) : Prop := t.ckr.pllLock = false ∧ t.ckr.clkFail = kind ∧ t.ckr.clockLost = true ∧ t.ckr.clockWait = true ∧
      (∀ m ∈ t.ckr.doms, m.src = 2 ∧ m.gated = true) ∧ (∀ l, (t.port l).st = 0) ∧ t.host.linkUp = false ∧ t.parts = d.parts ∧ t.mem = d.mem
    (d.ckr.pllLock = false → d.ckr.refOk = true → d.released = true → d.err.holdst = false →
      (d.ckr.pwr ≠ 2 → d.ckr.clockWait = false → d.ckr.booting = false → Leaves .pllLock s (d.onCkr fun c =>
        { c with pllLock := true, doms := c.domsIn (if c.pwr = 1 then 1 else 0) })) ∧
      (d.ckr.pwr ≠ 2 → d.ckr.clockWait = true → d.ckr.booting = false → d.err.deOpen = false → Runs .pllLock s fun t => d.fatal t Code.clockLost ∧
        t.ckr.pllLock = true ∧ t.ckr.clockWait = false ∧ t.ckr.clockLost = false ∧ ((∀ p ∈ d.live, (d.part p).step = none) → t.mem.bytes = [])) ∧
      (d.ckr.pwr = 2 → d.ckr.clockWait = false → (d.host.replies.find? fun x => x.code == 0x133) = some y → y.key ≠ 2 →
        Runs .pllLock s fun t => t.ckr.pllLock = true ∧ t.ckr.pwr = y.key ∧ d.answered t y.ch y.tag 0x133 0 [])) ∧
    (d.ckr.refOk = true →
      (d.released = false → Leaves .refclkLoss s (d.onCkr fun c => { c with refOk := false })) ∧
      (d.released = true → d.ckr.pwr ≠ 2 → Runs .refclkLoss s fun t => still t 1 ∧ t.ckr.refOk = false) ∧
      (d.released = true → d.ckr.pwr = 2 → Runs .refclkLoss s fun t => t.ckr.refOk = false ∧ t.ckr.clkFail = 1 ∧
        t.ckr.refLoss = satAdd 16 d.ckr.refLoss 1 ∧ t.ckr.clockLost = d.ckr.clockLost ∧ t.lnk = d.lnk ∧ t.mem = d.mem)) ∧
    (d.ckr.pllLock = true → d.ckr.pwr ≠ 2 → Runs .rootLoss s fun t => still t 2) ∧
    (d.ckr.refOk = false → d.ckr.aonstb = true →
      (d.ckr.clockLost = true → Leaves .refclkReturn s (d.onCkr fun c => { c with refOk := true })) ∧
      (d.ckr.clockLost = false → d.ckr.clockWait = false → d.ckr.phase ≠ 0 → Leaves .refclkReturn s (d.onCkr fun c => { c with refOk := true })) ∧
      (d.ckr.clockLost = false → d.ckr.clockWait = true → d.err.holdst = false → Runs .refclkReturn s fun t => t.ckr.refOk = true ∧
        t.ckr.clockWait = false ∧ (∀ i < 6, 3 ≤ i → (t.ckr.doms.getD i Reset.dom).src = 1 ∧ (t.ckr.doms.getD i Reset.dom).gated = false) ∧
        t.err = d.err ∧ t.mem = d.mem)) ∧
    (d.ckr.clockWait = false → d.err.holdst = false → d.released = true →
      Leaves (.cdcTimeout x) s ((d.onCkr fun c => { c with cdcTmo := satAdd 16 c.cdcTmo 1 }).record
        { rec0 Code.cdcTimeout with unit := 5, aux := x.toNat })) ∧
    (d.pf0Open → v.getLsbD 63 = true →
      let ms := fld v.toNat 55 52
      let rs := fld v.toNat 51 48
      let bad := decide (10 < ms) || decide (10 < rs) || ((ms == 10 || rs == 10) && decide (23 < fld v.toNat 47 40)) || fld v.toNat 31 0 == 0
      Runs (.loupeStart v) s fun t => t.ckr.loupeErr = bad ∧ t.ckr.loupeStart = !bad ∧ t.ckr.loupeDone = false ∧
        t.ckr.loupeGate = v.setWidth 32 ∧ t.ckr.doms = d.ckr.doms ∧ t.parts = d.parts) ∧
    (d.ckr.loupeStart = true → d.clockRuns d.ckr.rsel = true → Leaves (.loupeDone n) s (d.onCkr fun c =>
      { c with loupeStart := false, loupeDone := true, loupeCount := if d.clockRuns c.msel then min n (2 ^ 40 - 1) else 0 })) ∧
    (d.ckr.loupeStart = true → d.clockRuns d.ckr.rsel = false → Leaves (.loupeDone n) s d) ∧
    (d.pf0Open → v.getLsbD 63 = false →
      Runs (.loupeAbort v) s fun t => t.ckr.loupeStart = false ∧ t.ckr.loupeDone = d.ckr.loupeDone ∧ t.ckr.loupeCount = d.ckr.loupeCount)

/-- One thermal sample moves the duty D by at most 1 between 4 and 16, records its leaving and reaching 16, and at the second sample in a
row at the limit records THERMAL_LIMIT (R440 to R442); the peel's beats, of tiles whose owner was quiet at the beat's start, its rerun and
its failure (R391 to R393). -/
def Obligations.ThermalAndPeel : Prop :=
  ∀ (s : State) (l : List Int) (u : TIx) (ok : Bool), let d := s.dev; let x := d.tile u.val
    (d.pins.pwrGood = true → d.ckr.booting = false → d.err.deOpen = false →
      let j := if 950 < l.getD 4 0 then max (junction l) d.therm.tlim else junction l
      let n := d.therm.duty
      let n' := if d.therm.tthr ≤ j then max (n - 1) 4 else if j ≤ d.therm.tthr - 30 ∧ n < 16 then n + 1 else n
      Runs (.thermalSample l) s fun t => t.therm.sensors = l ∧ t.therm.duty = n' ∧ t.therm.hot = (if d.therm.tlim ≤ j then d.therm.hot + 1 else 0) ∧
        (n = 16 → n' ≠ 16 → t.pins.thermN = false ∧ ∃ r ∈ t.err.detected, r.code = Code.thermalThrottle) ∧
        (n ≠ 16 → n' = 16 → t.pins.thermN = true ∧ ∃ r ∈ t.err.detected, r.code = Code.thermalThrottle) ∧
        (d.therm.tlim ≤ j → d.therm.hot = 1 → (∃ r ∈ t.err.detected, r.code = Code.thermalLimit) ∧ t.ckr.hotReset = true ∧ ∀ p ∈ d.live, (t.part p).st = .faulted) ∧
        (d.therm.tlim ≤ j → d.therm.hot ≠ 1 → t.parts = d.parts)) ∧
    (d.peelRuns = true → d.err.peelFail.getLsbD u.val = false → x.peelOn = false →
      Leaves (.peelRoundStart u) s (d.onTile u.val fun x => { x with peelOn := true, peelTest := 0, peelBeat := 0, peelRerun := false })) ∧
    (d.peelRuns = true → d.peelable u.val = true → x.peelOn = true → x.peelWin.length < 40 →
      x.peelWin.contains 0 = false →
      Runs (.peelTestBeat u ok) s fun t => let y := t.tile u.val
        t.err.peelBeats = satAdd 32 d.err.peelBeats 1 ∧ y.peelWin = 0 :: x.peelWin ∧ t.parts = d.parts ∧ t.mem = d.mem ∧ t.sram = d.sram ∧ (∀ m, m ≠ u.val → t.tile m = d.tile m) ∧
        (x.peelBeat + 1 < peelLen x.peelTest → y.peelBeat = x.peelBeat + 1 ∧ y.peelTest = x.peelTest ∧ t.err.peelFail = d.err.peelFail) ∧
        (peelLen x.peelTest ≤ x.peelBeat + 1 →
          (ok = true → x.peelTest < 3 → y.peelTest = x.peelTest + 1 ∧ y.peelBeat = 0 ∧ y.peelOn = true ∧ t.err.peelFail = d.err.peelFail) ∧
          (ok = false → x.peelRerun = false → y.peelRerun = true ∧ y.peelBeat = 0 ∧ y.peelTest = x.peelTest ∧ t.err.peelFail = d.err.peelFail) ∧
          (ok = false → x.peelRerun = true → t.err.peelFail.getLsbD u.val = true ∧ t.err.degraded = true ∧ t.pins.faultN = !d.released ∧
            y.peelOn = false ∧ ∃ r ∈ t.err.detected, r.code = Code.peelFail ∧ r.index = u.val ∧ r.aux = x.peelTest)))

/-! ## Registers and queues (16) -/

/-- The clears and locks of the register blocks, each of which leaves everything else as it was (R66, R95, R148, R171, R221, R274, R306,
R381, R394, R413, R416). -/
def Obligations.CounterClears : Prop :=
  ∀ (s : State) (p : PIx) (u : TIx) (k : Fin 16) (l : LIx) (n : Fin 8192), let d := s.dev
    (d.pf0Open →
      Leaves .errPop s (d.onErr fun e => { e with queue := e.queue.drop 1 }) ∧
      Leaves .errClrcnt s (d.onErr fun e => { e with dropped := 0, d2dRetry := 0, peFlt := 0 }) ∧
      Leaves (.hcClear n) s (d.setHc n.val ⟨[0, 0, 0, 0, 0, 0, 0], false, (d.hcSet n.val).owner, 0⟩) ∧
      Leaves (.arrClrcnt u) s (d.onTile u.val fun x => { x with cycFa := 0, cycBx := 0, cycBw := 0, lendMax := 0, lendCyc := 0 }) ∧
      Leaves (.veClrcnt p) s (d.onPart p.val fun P => { P with smxEmpty := 0, smxInf := 0 }) ∧
      Leaves (.updClrcnt p) s (d.onPart p.val fun P => { P with upd := { P.upd with stalls := 0 } }) ∧
      ((d.part p.val).entry.mode = .distil →
        Leaves (.distClrcnt p) s (d.onPart p.val fun P => { P with dist := { P.dist with nolbl := 0, tstall := 0, sstall := 0 } })) ∧
      Leaves (.memClrcnt k) s (d.onMem fun m => { m with ce := setAt m.ce k.val 0, ue := setAt m.ue k.val 0 }) ∧
      Leaves (.portClrcnt l) s ((d.onPort l.val fun x => { x with beatErr := 0, schedErr := 0, crcErr := 0, fecCorr := 0 }).onLnk fun k =>
        { k with edgeErr := 0, flywheel := 0 }) ∧
      Leaves .ckrLock s (d.onCkr fun c => { c with lock := true }) ∧ Leaves .glbLock s (d.onHost fun h => { h with lock := true })) ∧
    (d.viewOpen p.val → Leaves (.verrPop p) s (d.onVf p.val fun v => { v with view := v.view.drop 1 }))

/-- The queues of a VF: pointers in range are stored and others stop the queue, entries are fetched in order, held completion entries
are written when room appears, EN starts and stops them (R408 to R411); and a function that can master the bus again sends what waited
(R401, R416) and shows the rate, width and mode that its link trained to (R395). A fetch counts as host DMA (R316), which its regulator
serves (R315); the hold state discards a write of the vector table (R390). The model's choices: what restores mastering carries the
link's mode and the BARs (log entry 14), and EN 1 restarts a queue with EN 1 and one with QERR whatever EN is (log entry 81). -/
def Obligations.Queues : Prop :=
  ∀ (s : State) (p : PIx) (v : W64) (entry : List Byte) (f : Fn) (i : Fin 32) (link : LinkMode) (bars : List Nat) (addr data : Nat),
    let d := s.dev; let x := (d.part p.val).vf
    (d.viewOpen p.val →
      (fld v.toNat 11 0 < 2 ^ x.sqsz → Leaves (.sqTailWrite p v) s (d.onVf p.val fun x => { x with sqTail := fld v.toNat 11 0 })) ∧
      (2 ^ x.sqsz ≤ fld v.toNat 11 0 → Runs (.sqTailWrite p v) s fun t => (t.part p.val).vf.qerr = true ∧ (t.part p.val).vf.sqTail = x.sqTail ∧
        (t.part p.val).vf.vstat.getLsbD 8 = true ∧ (∀ q, q ≠ p.val → t.part q = d.part q)) ∧
      (fld v.toNat 11 0 < 2 ^ x.cqsz → x.heldCqe = [] → Leaves (.cqHeadWrite p v) s (d.onVf p.val fun x => { x with cqHead := fld v.toNat 11 0 })) ∧
      (∀ b l, fld v.toNat 11 0 < 2 ^ x.cqsz → x.heldCqe = b :: l → (x.cqTail + 1) % 2 ^ x.cqsz ≠ fld v.toNat 11 0 → d.masters (p.val + 1) = true → d.servable p.val [4] = true →
        Runs (.cqHeadWrite p v) s fun t => Out.cqe p.val x.cqTail (b ++ [BitVec.ofNat 8 (b2n x.phase)]) ∈ t.out ∧ t.mem = d.mem) ∧
      (2 ^ x.cqsz ≤ fld v.toNat 11 0 → Runs (.cqHeadWrite p v) s fun t => (t.part p.val).vf.qerr = true ∧ (t.part p.val).vf.cqHead = x.cqHead) ∧
      (v.getLsbD 63 = true →
        Runs (.queueEnable p v) s fun t => let y := (t.part p.val).vf
          y.en = true ∧ y.qerr = false ∧ y.sqHead = 0 ∧ y.sqTail = 0 ∧ y.cqHead = 0 ∧ y.cqTail = 0 ∧ y.phase = true ∧ y.ien = v.getLsbD 62 ∧
          (x.en = false → 4 ≤ fld v.toNat 3 0 → fld v.toNat 3 0 ≤ 12 → y.sqsz = fld v.toNat 3 0) ∧ (x.en = true → y.sqsz = x.sqsz ∧ y.cqsz = x.cqsz) ∧
          y.vstat = x.vstat ∧ y.view = x.view ∧ (∀ q, q ≠ p.val → t.part q = d.part q)) ∧
      (v.getLsbD 63 = false →
        Runs (.queueDisable p v) s fun t => let y := (t.part p.val).vf
          y.en = false ∧ y.discard = x.cur.isSome ∧ y.cur = x.cur ∧ y.heldCqe = [] ∧ y.lost = satAdd 16 x.lost x.heldCqe.length ∧
          y.sqHead = x.sqHead ∧ y.qerr = x.qerr ∧ (∀ q, q ≠ p.val → t.part q = d.part q))) ∧
    (d.mayFetch p.val = true → let e := fit 128 entry
      (sqeForm e = true → d.err.deOpen = false → d.ckr.pwr = 0 →
        Leaves (.sqeFetch p entry true) s ((d.charge p.val 4 128).onVf p.val fun x =>
          { x with sqHead := (x.sqHead + 1) % 2 ^ x.sqsz, cur := some ⟨num e 0 2, num e 4 4, slice e 16 64, false⟩, discard := false })) ∧
      (sqeForm e = false ∨ d.err.deOpen = true ∨ d.ckr.pwr ≠ 0 → Runs (.sqeFetch p entry true) s fun t => (t.part p.val).vf.cur = none ∧
        (t.part p.val).vf.sqHead = (x.sqHead + 1) % 2 ^ x.sqsz ∧ (∀ q, q ≠ p.val → t.part q = d.part q) ∧ t.mem = d.mem) ∧
      Runs (.sqeFetch p entry false) s fun t => (t.part p.val).vf.qerr = true ∧ (t.part p.val).vf.cur = x.cur) ∧
    (d.err.holdst = true ∨ d.readOpen f = false → Leaves (.msixVectorUnmask f ⟨i, addr, data⟩) s d) ∧
    (d.host.answering = true →
      (d.ckr.clockWait = false → d.host.linkUp = true ∨ link.wf = true →
        Runs (.functionMasterRestored ⟨f, link, bars⟩) s fun t => (t.fn (fnIx f)).busMaster = true ∧ (t.fn (fnIx f)).d3hot = false ∧ t.host.linkUp = true ∧
        (d.host.linkUp = false → t.host.lrate = link.rate ∧ t.host.lwidth = link.width ∧ t.host.flit = link.flit) ∧
        (bars ≠ [] → (t.fn 0).bars = bars) ∧
        t.mem = d.mem ∧ (d.err.holdst = false → (d.fn (fnIx f)).pba.getLsbD i.val = true → (d.fn (fnIx f)).mask.getLsbD i.val = false →
          (d.fn (fnIx f)).withheld.getLsbD i.val = false →
          (t.fn (fnIx f)).pba.getLsbD i.val = false ∧ Out.msix (fnIx f) i.val ∈ t.out) ∧
        (fnIx f = 0 → (d.fn 0).pba.getLsbD i.val = true → (d.fn 0).withheld.getLsbD i.val = true → (t.fn 0).pba.getLsbD i.val = true)) ∧
      (fnIx f = 0 ∨ i.val < 8 → d.readOpen f = true → d.err.holdst = false → d.admits (fnIx f) ⟨true, false⟩ = true → Runs (.msixVectorUnmask f ⟨i, addr, data⟩) s fun t => (t.fn (fnIx f)).mask.getLsbD i.val = false ∧ t.parts = d.parts ∧
        Tab.get? (t.fn (fnIx f)).table i.val = some (addr, data) ∧
        (d.host.b1 = true → (d.fn (fnIx f)).pba.getLsbD i.val = true → d.masters (fnIx f) = true →
          Out.msix (fnIx f) i.val ∈ t.out ∧ (t.fn (fnIx f)).pba.getLsbD i.val = false) ∧
        (d.host.b1 = false → t.out = d.out ∧ ((d.fn (fnIx f)).pba.getLsbD i.val = true → (t.fn (fnIx f)).withheld.getLsbD i.val = true))))

/-- A host write stores the bits it covers by the access codes (R10, R404): a read-write register, its two halves, a write-1-clear
register through its VF, and nothing where the offset holds no register or a read-only one. An RWL field of GLB and LNK, or of CKR, is stored
while the block's LOCK is 0 and never after (GLB_CTL, LNK_ID, CKR_STAT, CKR_DOM); an RWP field is stored and outlives a partition reset
(LNK_EPOCH); a WO field reads 0 and acts on an 8-byte write alone, a 4-byte one that sets it only counting (ERR_CTL). A misaligned write, and
one that its PASID
prefix (R397) or IDEREQ (R402) bars, only count, and one to a function that is not open does nothing (R401). DIST_CFG empties the
periscope ring (R206). -/
def Obligations.RegisterWrites : Prop :=
  ∀ (s : State) (p : PIx) (v : W64) (via : Via) (f : Fn) (off size : Nat), let d := s.dev; let at0 := 0x380000 + 0x20 * p.val
    (d.fnOpen .pf0 = true → d.admits 0 via = true →
      Leaves (.registerWrite .pf0 at0 8 (some v) via) s (d.onPart p.val fun P => { P with srKey := v }) ∧
      Leaves (.registerWrite .pf0 at0 4 (some v) via) s (d.onPart p.val fun P => { P with srKey := (P.srKey &&& 0xFFFFFFFF00000000) ||| (v &&& 0xFFFFFFFF) }) ∧
      Leaves (.registerWrite .pf0 (at0 + 4) 4 (some v) via) s (d.onPart p.val fun P =>
        { P with srKey := (P.srKey &&& 0xFFFFFFFF) ||| ((v <<< 32) &&& 0xFFFFFFFF00000000) }) ∧
      Leaves (.registerWrite .pf0 0 8 (some v) via) s d ∧
      (d.host.lock = false →
        Leaves (.registerWrite .pf0 0x20 8 (some v) via) s (d.onHost fun h => { h with lock := v.getLsbD 63, idereq := v.getLsbD 62 }) ∧
        Leaves (.registerWrite .pf0 0x24 4 (some v) via) s (d.onHost fun h => { h with lock := v.getLsbD 31, idereq := v.getLsbD 30 }) ∧
        Leaves (.registerWrite .pf0 0x20 4 (some v) via) s d ∧
        Leaves (.registerWrite .pf0 0x800000 8 (some v) via) s (d.onLnk fun k => { k with devid := v.setWidth 10 })) ∧
      (d.host.lock = true → ∀ a ∈ [0x20, 0x24, 0x800000], ∀ n ∈ [4, 8], Leaves (.registerWrite .pf0 a n (some v) via) s (if a % n = 0 then d else d.badAccess)) ∧
      Leaves (.registerWrite .pf0 0x100000 8 (some v) via) s (d.onCkr fun c => { c with lock := c.lock || v.getLsbD 63 }) ∧
      (∀ i < 6, Leaves (.registerWrite .pf0 (0x100100 + 8 * i) 8 (some v) via) s
        (if d.ckr.lock = true ∨ 3 ≤ i then d
         else d.onCkr fun c => { c with doms := setAt c.doms i { c.doms.getD i Reset.dom with slpen := v.getLsbD 59 } })) ∧
      Leaves (.registerWrite .pf0 (0x802000 + 8 * p.val) 8 (some v) via) s
        (if (d.part p.val).quiet = true then d.onPart p.val fun P => { P with epoch := v.setWidth 16 } else d) ∧
      ((d.beginReset p.val .resetting).part p.val).epoch = (d.part p.val).epoch ∧
      (let popped := if v.getLsbD 63 then d.onErr fun e => { e with queue := e.queue.drop 1 } else d
       Leaves (.registerWrite .pf0 0x400008 8 (some v) via) s
         (if v.getLsbD 62 then popped.onErr fun e => { e with dropped := 0, d2dRetry := 0, peFlt := 0 } else popped)) ∧
      Leaves (.registerWrite .pf0 0x40000C 4 (some v) via) s (if v.getLsbD 31 = true ∨ v.getLsbD 30 = true then d.badAccess else d) ∧
      Leaves (.registerWrite .pf0 0x400008 4 (some v) via) s d ∧ d.readReg .errCtl = 0) ∧
    (d.fnOpen (.vf p) = true → d.admits (p.val + 1) via = true →
      Leaves (.registerWrite (.vf p) 0x11000 8 v via) s (d.onPart p.val fun P => { P with srKey := v }) ∧
      Leaves (.registerWrite (.vf p) 0x10000 8 v via) s (d.onVf p.val fun x => { x with vstat := x.vstat &&& ~~~(v.setWidth 9) })) ∧
    (d.fnOpen f = true → d.admits (fnIx f) via = true →
      (size = 4 ∨ size = 8 → off % size = 0 → d.regAt f (off / 8 * 8) = none → Leaves (.registerWrite f off size (some v) via) s d) ∧
      (¬((size = 4 ∨ size = 8) ∧ off % size = 0) →
        Leaves (.registerWrite f off size (some v) via) s (d.onHost fun h => { h with badacc := satAdd 16 h.badacc 1 }))) ∧
    (d.fnOpen f = false → Leaves (.registerWrite f off size (some v) via) s d) ∧
    (d.fnOpen f = true → d.admits (fnIx f) via = false →
      Leaves (.registerWrite f off size (some v) via) s (d.onHost fun h => { h with badacc := satAdd 16 h.badacc 1 })) ∧
    (d.pf0Open → (d.part p.val).distIdle = true → ((d.part p.val).dist.slots.all fun x => x.st == .free) = true →
      Runs (.distCfgWrite p v) s fun t => (t.part p.val).dist.cfg = v &&& 0x80F8FF1FFFFFFFFF ∧ (∀ k, ((t.part p.val).dist.slot k).st = .free) ∧
        (t.part p.val).dist.win = (d.part p.val).dist.win ∧ (∀ q, q ≠ p.val → t.part q = d.part q) ∧ t.mem = d.mem)

/-- R96: the array counters of a tile that no partition owns read as 0, and no write to one that is let in has an effect. -/
def Obligations.ArrayCounters : Prop :=
  ∀ (s : State) (u : TIx) (i : Fin 4) (v : W64) (via : Via), let d := s.dev; let o := 0x2000000 + 0x40000 * u.val + 0x1008 + 8 * i.val
    (d.ownerOf u.val = none → (∀ k < 3, d.readReg (.arrCyc u.val k) = 0) ∧ d.readReg (.arrLend u.val) = 0) ∧
    (d.admits 0 via = true →
      Leaves (.registerWrite .pf0 o 8 (some v) via) s d ∧ Leaves (.registerWrite .pf0 o 4 (some v) via) s d ∧ Leaves (.registerWrite .pf0 (o + 4) 4 (some v) via) s d)

/-- A host read returns the register, or the half it covers, and 0 where the offset holds none (R404); one of a wrong size or alignment
returns all ones and counts; one that does not reach the function, or that its PASID prefix or IDEREQ bars, is an Unsupported Request
(R397, R401, R402), and a part whose link is in reset answers none. In recovery only GLB, CKR and MBX are read (R378), and in the hold
state only ERR_STAT, the queue and ERR_LASTDE (R390). -/
def Obligations.RegisterReads : Prop :=
  ∀ (s : State) (p : PIx) (via : Via) (f : Fn) (off size : Nat), let d := s.dev; let at0 := 0x380000 + 0x20 * p.val
    let key := (d.part p.val).srKey.toNat
    let reads (f : Fn) (off size : Nat) (l : Option (List Byte)) (t : Dev) : Prop :=
      Leaves (.registerWrite f off size none via) s (t.emit (.regData (fnIx f) l))
    let ones (n : Nat) : Option (List Byte) := some (List.replicate n 0xFF)
    (d.fnOpen .pf0 = true → d.admits 0 via = true →
      reads .pf0 at0 8 (some (natLe 8 key)) d ∧ reads .pf0 at0 4 (some (natLe 4 key)) d ∧ reads .pf0 (at0 + 4) 4 (some (natLe 4 (key / 2 ^ 32))) d) ∧
    (d.fnOpen (.vf p) = true → d.admits (p.val + 1) via = true → reads (.vf p) 0x11000 8 (some (natLe 8 key)) d) ∧
    (d.fnOpen f = true → d.admits (fnIx f) via = true →
      (size = 4 ∨ size = 8 → off % size = 0 → d.regAt f (off / 8 * 8) = none → reads f off size (some (List.replicate size 0)) d) ∧
      (¬((size = 4 ∨ size = 8) ∧ off % size = 0) → reads f off size (ones size) (d.onHost fun h => { h with badacc := satAdd 16 h.badacc 1 }))) ∧
    (d.host.answering = false → Leaves (.registerWrite f off size none via) s d) ∧
    (d.host.answering = true → d.err.holdst = false → d.readOpen f = false ∨ d.admits (fnIx f) via = false → reads f off size none d) ∧
    (d.recovering = true → d.host.answering = true → d.ckr.clockWait = false → (d.fn 0).d3hot = false → d.err.holdst = false → d.admits 0 via = true →
      reads .pf0 at0 8 (ones 8) d ∧ reads .pf0 0 8 (some (natLe 8 (d.readReg .glbId))) d) ∧
    (d.host.answering = true → d.err.holdst = true → reads .pf0 at0 8 (ones 8) d ∧ reads (.vf p) 0x11000 8 (ones 8) d ∧
      reads .pf0 0x400000 8 (some (natLe 8 (d.readReg .errStat))) d)

/-! ## Formats (02) -/

/-- R41: the conversion of an F32 value to X48 is exact, and appends 16 zero fraction bits to its encoding. R50, R54: the encodings of Table
02-6 and their roundings, where x = num / den * 2^e lies from the magnitude of code c up to that of c + 1, at or above the largest one, or is
an infinity or a NaN; a NaN makes the scale of its block FFh, as under BLOCKNAN an infinity or a value out of range does. R76, R127: an F32 step is the exact result rounded once. R55: the generator. R74, R75, R78: the value of a chunk,
of a span, and of the tree over spans. -/
def Obligations.F32toX48 : Prop :=
  (∀ w : BitVec 32, (decodeElem 0 w.toNat).isNaN = false →
    (encodeElem 1 .nearest false false false (decodeElem 0 w.toNat).quo).code = w.toNat * 2 ^ 16 ∧
    Val.eq (decodeElem 1 (w.toNat * 2 ^ 16)) (decodeElem 0 w.toNat) = true) ∧
  (∀ (md : Rounding) (sat bn s : Bool) (num den : Nat) (e : Int),
    let x : Quo := .fin s num den e
    0 < den →
    (∀ y ∈ floatCodes sat, let f := y.1; let sg := b2n s * 2 ^ (fmtWidth f - 1); let enc (q : Quo) := encodeElem f md sat bn false q
      let code (q : Quo) := (enc q).code
      roundingOf f md →
      code (.nan s) = y.2.2.2 + sg ∧ code (.inf s) = y.2.2.1 + sg ∧
      (∀ c m m' a b, c + 1 ≤ y.2.1 → decodeElem f c = .fin false m a → decodeElem f (c + 1) = .fin false m' b →
        let g := min e (min a b); let X := inUnits g num e; let A := den * inUnits g m a; let B := den * inUnits g m' b
        A ≤ X → X < B → (enc x).blockNan = false ∧ (writesNext md c X A B → code x = c + 1 + sg) ∧ (¬writesNext md c X A B → code x = c + sg)) ∧
      (∀ m a, decodeElem f y.2.1 = .fin false m a →
        let g := min e a; let X := inUnits g num e; let A := den * inUnits g m a; let B := den * inUnits g (m + 1) a
        A ≤ X → ((md = .nearest ∧ ¬writesNext md y.2.1 X A B) ∨ X = A → code x = y.2.1 + sg ∧ (enc x).blockNan = false) ∧
          (¬((md = .nearest ∧ ¬writesNext md y.2.1 X A B) ∨ X = A) → code x = y.2.2.1 + sg ∧ (enc x).blockNan = (bn && decide (8 ≤ f))))) ∧
    (∀ y ∈ integerCodes, let f := y.1; let w := y.2.1; let code (q : Quo) := (encodeElem f md sat bn false q).code
      let put (k : Nat) : Nat := if s then (2 ^ w - min k y.2.2.2.2) % 2 ^ w else min k y.2.2.2.1
      roundingOf f md →
      code (.inf s) = put (2 ^ w) ∧ (f = 11 → code (.nan s) = put (2 ^ w)) ∧ (f ≠ 11 → code (.nan s) = 0) ∧
      (∀ k, let g := min e y.2.2.1; let X := inUnits g num e; let A := den * inUnits g k y.2.2.1; let B := den * inUnits g (k + 1) y.2.2.1
        A ≤ X → X < B → (writesNext md k X A B → code x = put (k + 1)) ∧ (¬writesNext md k X A B → code x = put k))) ∧
    (let code (q : Quo) := (encodeElem 14 md sat bn false q).code;
      code (.nan s) = 0xFF ∧ code (.inf s) = 0xFE ∧ (num = 0 → code x = 0) ∧
      (∀ k : Int, let g := min e k; let X := inUnits g num e; let A := den * inUnits g 1 k
        A ≤ X → X < 2 * A → code x = (min (max (k + 127) 0) 254).toNat))) ∧
  (∀ (sr sat bn s o : Bool) (key st c0 f : Nat), let scale (v : Val) := (convert ⟨f, 5, sr, sat, bn⟩ [0] [] [] key st c0 [⟨v, o⟩]).scales
    (f ∈ [8, 9, 10, 11] → scale (.nan s) = [(0, 255)]) ∧ (f ∈ [8, 9, 10] → bn = true → scale (.inf s) = [(0, 255)])) ∧
  (∀ (s t : Bool) (m n : Nat) (e f : Int), let a := Val.fin s m e; let b := Val.fin t n f
    let f32 (q : Quo) : BitVec 32 := BitVec.ofNat 32 (encodeElem 0 .nearest false false false q).code
    let i (u : Bool) : Int := Val.scaled s m e (min e f) + Val.scaled u n f (min e f)
    (i t ≠ 0 → (Val.addF a b).to32 = f32 (.fin (decide (i t < 0)) (i t).natAbs 1 (min e f))) ∧ (i t = 0 → (Val.addF a b).to32 = f32 (.fin (s && t) 0 1 0)) ∧
    (i (!t) ≠ 0 → (Val.subF a b).to32 = f32 (.fin (decide (i (!t) < 0)) (i (!t)).natAbs 1 (min e f))) ∧
    (i (!t) = 0 → (Val.subF a b).to32 = f32 (.fin (s && !t) 0 1 0)) ∧
    (Val.mulF a b).to32 = f32 (.fin (s != t) (m * n) 1 (e + f)) ∧ (n ≠ 0 → (Val.divF a b).to32 = f32 (.fin (s != t) m n (e - f)))) ∧
  (∀ (K c0 : BitVec 64) (s i : Nat), let c := c0 + BitVec.ofNat 64 (i / 4); let k := K ^^^ (BitVec.ofNat 64 s * 0xD6E8FEB86659FD93)
    let v := k + c * 0x9E3779B97F4A7C15
    let v := (v ^^^ (v >>> 30)) * 0xBF58476D1CE4E5B9
    let v := (v ^^^ (v >>> 27)) * 0x94D049BB133111EB
    srDraw K.toNat s c0.toNat i = (((v ^^^ (v >>> 31)) >>> (16 * (i % 4))).setWidth 16).toNat) ∧
  (∀ ps : List Val, ps.length ≤ 32 →
    let inf (s : Bool) : Prop := Val.inf s ∈ ps
    let nan : Prop := ∃ s, Val.nan s ∈ ps
    let term (q : Int) (v : Val) : Int := match v with
      | .fin s m e => let t : Int := (m * 2 ^ (e - q).toNat / 2 ^ (q - e).toNat : Nat)
                      if s then -t else t
      | _ => 0
    (nan ∨ (inf true ∧ inf false) → (chunk ps).v = .qnan) ∧ (∀ s, ¬nan → inf s → ¬inf (!s) → (chunk ps).v = .inf s) ∧
    ((∀ v ∈ ps, v.isZero = true) → (chunk ps).v = .fin (decide (ps.length = 32) && ps.all Val.sign) 0 0) ∧
    (∀ (s : Bool) (m : Nat) (e : Int), let top := Val.log2 m e; let sum := (ps.map (term (top - 27))).sum
      (∀ v ∈ ps, v.isFinite = true) → Val.fin s m e ∈ ps → m ≠ 0 → (∀ t n f, Val.fin t n f ∈ ps → n ≠ 0 → Val.log2 n f ≤ top) →
      (chunk ps).v = if sum = 0 then .zero else (Val.fin (decide (sum < 0)) sum.natAbs (top - 27)).r32)) ∧
  (∀ ps : List Val, 0 < ps.length →
    let at' (i : Nat) : Fl := chunk ((ps.drop (32 * i)).take 32)
    let n := 2048 * 2 ^ (cdiv ps.length 2048 - 1).log2
    (ps.length ≤ 2048 → canon ps = (List.range 63).foldl (fun x i => Fl.add x (at' (i + 1))) (at' 0)) ∧
    (2048 < ps.length → canon ps = Fl.add (canon (ps.take n)) (canon (ps.drop n))))
end

