-- ==== Sys2Proof/Laws/Tables.lean ====
section
/-! SUPPORT. Sparse tables: an entry put is the one got, every other one is as it was, and the keys stay rising; the accessors of
`Dev` over them. -/

namespace Sys2Proof.Machine

namespace Tab

variable {α : Type}

@[simp] theorem get?_put_same (t : Tab α) (k : Nat) (a : α) : get? (put t k a) k = some a := by
  induction t with
  | nil => simp [put, get?]
  | cons x t ih =>
    obtain ⟨k', b⟩ := x
    simp only [put]
    split
    · simp [get?]
    · split
      · simp [get?]
      · rename_i h1 h2
        have h3 : k' ≠ k := fun h => h2 h.symm
        simp [get?, h1, h3, ih]
theorem get?_put_ne (t : Tab α) {k j : Nat} (a : α) (h : j ≠ k) : get? (put t k a) j = get? t j := by
  have h' : k ≠ j := fun e => h e.symm
  induction t with
  | nil => simp [put, get?, h']
  | cons x t ih =>
    obtain ⟨k', b⟩ := x
    simp only [put]
    split
    · rename_i h1
      by_cases h2 : j < k
      · have h3 : k' ≠ j := by omega
        have h4 : j < k' := by omega
        simp [get?, h', h2, h3, h4]
      · simp [get?, h', h2]
    · split
      · rename_i h1 h2
        subst h2
        simp [get?, h']
      · simp [get?, ih]
@[simp] theorem get_put_same (d : α) (t : Tab α) (k : Nat) (a : α) : get d (put t k a) k = a := by simp [get]
theorem get_put_ne (d : α) (t : Tab α) {k j : Nat} (a : α) (h : j ≠ k) : get d (put t k a) j = get d t j := by simp [get, get?_put_ne t a h]
@[simp] theorem get?_mapVal (f : Nat → α → α) (t : Tab α) (k : Nat) : get? (mapVal f t) k = (get? t k).map (f k) := by
  induction t with
  | nil => simp [mapVal, get?]
  | cons x t ih =>
    obtain ⟨k', b⟩ := x
    simp only [mapVal, get?]
    split
    · rename_i h; simp [h]
    · split <;> simp [ih]
/-- Storing twice under a key keeps the second entry. -/
theorem put_put (t : Tab α) (k : Nat) (a b : α) : put (put t k a) k b = put t k b := by
  induction t with
  | nil => simp [put]
  | cons x t ih =>
    obtain ⟨k', c⟩ := x
    by_cases h1 : k < k'
    · simp [put, h1]
    · by_cases h2 : k = k'
      · simp [put, h2]
      · simp [put, h1, h2, ih]

/-- Every key of a table is at or above a number. -/
def from? (n : Nat) (t : Tab α) : Bool := t.all fun x => decide (n ≤ x.1)

theorem wf_cons {x : Nat × α} {t : Tab α} (h : wf (x :: t) = true) : wf t = true ∧ ∀ y ∈ t, x.1 < y.1 := by
  induction t generalizing x with
  | nil => simp [wf]
  | cons y t ih =>
    obtain ⟨a, b⟩ := x
    obtain ⟨c, e⟩ := y
    simp only [wf, Bool.and_eq_true, decide_eq_true_eq] at h
    refine ⟨h.2, ?_⟩
    intro z hz
    rcases List.mem_cons.1 hz with rfl | hz
    · exact h.1
    · exact Nat.lt_trans h.1 ((ih h.2).2 z hz)
theorem wf_of_cons {x : Nat × α} {t : Tab α} (h : wf t = true) (hx : ∀ y ∈ t, x.1 < y.1) : wf (x :: t) = true := by
  cases t with
  | nil => simp [wf]
  | cons y t =>
    obtain ⟨a, b⟩ := x
    obtain ⟨c, e⟩ := y
    simp only [wf, Bool.and_eq_true, decide_eq_true_eq]
    exact ⟨hx (c, e) (by simp), h⟩
/-- What a put leaves in a table: the new entry, or an old one. -/
theorem mem_put {t : Tab α} {k : Nat} {a : α} {y : Nat × α} (h : y ∈ put t k a) : y = (k, a) ∨ y ∈ t := by
  induction t with
  | nil => simpa [put] using h
  | cons x t ih =>
    obtain ⟨k', b⟩ := x
    simp only [put] at h
    split at h
    · simpa using h
    · split at h
      · rcases List.mem_cons.1 h with h | h
        · exact .inl h
        · exact .inr (List.mem_cons_of_mem _ h)
      · rcases List.mem_cons.1 h with h | h
        · exact .inr (by simp [h])
        · rcases ih h with h | h
          · exact .inl h
          · exact .inr (List.mem_cons_of_mem _ h)
theorem mem_erase {t : Tab α} {k : Nat} {y : Nat × α} (h : y ∈ erase t k) : y ∈ t := by
  induction t with
  | nil => simp [erase] at h
  | cons x t ih =>
    obtain ⟨k', b⟩ := x
    simp only [erase] at h
    split at h
    · exact h
    · split at h
      · exact List.mem_cons_of_mem _ h
      · rcases List.mem_cons.1 h with h | h
        · simp [h]
        · exact List.mem_cons_of_mem _ (ih h)
theorem put_wf {t : Tab α} (h : wf t = true) (k : Nat) (a : α) : wf (put t k a) = true := by
  induction t with
  | nil => simp [put, wf]
  | cons x t ih =>
    obtain ⟨k', b⟩ := x
    have hc := wf_cons h
    simp only [put]
    split
    · rename_i h1
      refine wf_of_cons h ?_
      intro y hy
      rcases List.mem_cons.1 hy with rfl | hy
      · exact h1
      · exact Nat.lt_trans h1 (hc.2 y hy)
    · split
      · rename_i h1 h2
        exact wf_of_cons hc.1 (fun y hy => h2 ▸ hc.2 y hy)
      · rename_i h1 h2
        refine wf_of_cons (ih hc.1) ?_
        intro y hy
        rcases mem_put hy with rfl | hy
        · show k' < k
          omega
        · exact hc.2 y hy
theorem erase_wf {t : Tab α} (h : wf t = true) (k : Nat) : wf (erase t k) = true := by
  induction t with
  | nil => simp [erase, wf]
  | cons x t ih =>
    obtain ⟨k', b⟩ := x
    have hc := wf_cons h
    simp only [erase]
    split
    · exact h
    · split
      · exact hc.1
      · exact wf_of_cons (ih hc.1) (fun y hy => hc.2 y (mem_erase hy))
theorem filter_wf {t : Tab α} (h : wf t = true) (f : Nat × α → Bool) : wf (t.filter f) = true := by
  induction t with
  | nil => simp [wf]
  | cons x t ih =>
    have hc := wf_cons h
    simp only [List.filter_cons]
    split
    · exact wf_of_cons (ih hc.1) (fun y hy => hc.2 y ((List.mem_filter.1 hy).1))
    · exact ih hc.1
theorem get?_none_of_lt {t : Tab α} {k : Nat} (h : ∀ y ∈ t, k < y.1) : get? t k = none := by
  cases t with
  | nil => rfl
  | cons x t =>
    obtain ⟨k', b⟩ := x
    have : k < k' := h (k', b) (by simp)
    have h2 : k' ≠ k := by omega
    simp [get?, h2, this]
theorem get?_erase_same {t : Tab α} (h : wf t = true) (k : Nat) : get? (erase t k) k = none := by
  induction t with
  | nil => simp [erase, get?]
  | cons x t ih =>
    obtain ⟨k', b⟩ := x
    have hc := wf_cons h
    simp only [erase]
    split
    · rename_i h1
      have h2 : k' ≠ k := by omega
      simp [get?, h1, h2]
    · split
      · rename_i h1 h2
        exact get?_none_of_lt (fun y hy => h2 ▸ hc.2 y hy)
      · rename_i h1 h2
        have h3 : k' ≠ k := fun e => h2 e.symm
        simp [get?, h1, h3, ih hc.1]
theorem get?_erase_ne {t : Tab α} (h : wf t = true) {k j : Nat} (hj : j ≠ k) : get? (erase t k) j = get? t j := by
  induction t with
  | nil => simp [erase]
  | cons x t ih =>
    obtain ⟨k', b⟩ := x
    have hc := wf_cons h
    simp only [erase]
    split
    · rfl
    · split
      · rename_i h1 h2
        have h3 : k' ≠ j := fun e => hj (by rw [← e, ← h2])
        by_cases h4 : j < k'
        · simp only [get?, h3, h4, if_true, if_false]
          exact get?_none_of_lt (fun y hy => Nat.lt_trans h4 (hc.2 y hy))
        · simp [get?, h3, h4]
      · simp [get?, ih hc.1]

end Tab

/-! ## Accessors -/

@[simp] theorem Dev.part_setPart (d : Dev) (p : Nat) (P : Part) : (d.setPart p P).part p = P := by simp [Dev.part, Dev.setPart]
theorem Dev.part_setPart_ne (d : Dev) {p r : Nat} (P : Part) (h : r ≠ p) : (d.setPart p P).part r = d.part r := by
  simp [Dev.part, Dev.setPart, Tab.get_put_ne _ _ _ h]
@[simp] theorem Dev.part_onPart (d : Dev) (p : Nat) (f : Part → Part) : (d.onPart p f).part p = f (d.part p) := by simp [Dev.onPart]
theorem Dev.part_onPart_ne (d : Dev) {p r : Nat} (f : Part → Part) (h : r ≠ p) : (d.onPart p f).part r = d.part r := by
  simp [Dev.onPart, Dev.part_setPart_ne d _ h]
@[simp] theorem Dev.part_onVf (d : Dev) (p : Nat) (f : Vf → Vf) : (d.onVf p f).part p = { d.part p with vf := f (d.part p).vf } := by
  simp [Dev.onVf]
theorem Dev.part_onVf_ne (d : Dev) {p r : Nat} (f : Vf → Vf) (h : r ≠ p) : (d.onVf p f).part r = d.part r := Dev.part_onPart_ne d _ h
@[simp] theorem Dev.part_onSeq (d : Dev) (p q : Nat) (f : Seq → Seq) : (d.onSeq p q f).part p = (d.part p).onSeq q f := by simp [Dev.onSeq]
theorem Dev.part_onSeq_ne (d : Dev) {p r : Nat} (q : Nat) (f : Seq → Seq) (h : r ≠ p) : (d.onSeq p q f).part r = d.part r :=
  Dev.part_onPart_ne d _ h
@[simp] theorem Dev.onPart_onPart (d : Dev) (p : Nat) (f g : Part → Part) : (d.onPart p f).onPart p g = d.onPart p fun P => g (f P) := by
  simp [Dev.onPart, Dev.setPart, Dev.part, Tab.put_put]
@[simp] theorem Dev.tile_onTile (d : Dev) (n : Nat) (f : TileSt → TileSt) : (d.onTile n f).tile n = f (d.tile n) := by simp [Dev.tile, Dev.onTile]
theorem Dev.tile_onTile_ne (d : Dev) {n m : Nat} (f : TileSt → TileSt) (h : m ≠ n) : (d.onTile n f).tile m = d.tile m := by
  simp [Dev.tile, Dev.onTile, Tab.get_put_ne _ _ _ h]
@[simp] theorem Dev.hcSet_setHc (d : Dev) (n : Nat) (x : HcSet) : (d.setHc n x).hcSet n = x := by simp [Dev.hcSet, Dev.setHc]
theorem Dev.hcSet_setHc_ne (d : Dev) {n m : Nat} (x : HcSet) (h : m ≠ n) : (d.setHc n x).hcSet m = d.hcSet m := by
  simp [Dev.hcSet, Dev.setHc, Tab.get_put_ne _ _ _ h]
@[simp] theorem Dev.catEntry_onCat (d : Dev) (n : Nat) (f : CatEntry → CatEntry) : (d.onCat n f).catEntry n = f (d.catEntry n) := by
  simp [Dev.catEntry, Dev.onCat]
theorem Dev.catEntry_onCat_ne (d : Dev) {n m : Nat} (f : CatEntry → CatEntry) (h : m ≠ n) : (d.onCat n f).catEntry m = d.catEntry m := by
  simp [Dev.catEntry, Dev.onCat, Tab.get_put_ne _ _ _ h]
@[simp] theorem Dev.base_onBase (d : Dev) (n : Nat) (f : Base → Base) : (d.onBase n f).base n = f (d.base n) := by
  simp [Dev.base, Dev.onBase, Dev.setBase]
theorem Dev.base_onBase_ne (d : Dev) {n m : Nat} (f : Base → Base) (h : m ≠ n) : (d.onBase n f).base m = d.base m := by
  simp [Dev.base, Dev.onBase, Dev.setBase, Tab.get_put_ne _ _ _ h]
@[simp] theorem Dev.port_onPort (d : Dev) (n : Nat) (f : PortSt → PortSt) : (d.onPort n f).port n = f (d.port n) := by
  simp [Dev.port, Dev.onPort, Dev.onLnk]
theorem Dev.port_onPort_ne (d : Dev) {n m : Nat} (f : PortSt → PortSt) (h : m ≠ n) : (d.onPort n f).port m = d.port m := by
  simp [Dev.port, Dev.onPort, Dev.onLnk, Tab.get_put_ne _ _ _ h]
@[simp] theorem Dev.fn_onFn (d : Dev) (n : Nat) (f : FnSt → FnSt) : (d.onFn n f).fn n = f (d.fn n) := by simp [Dev.fn, Dev.onFn, Dev.onHost]
theorem Dev.fn_onFn_ne (d : Dev) {n m : Nat} (f : FnSt → FnSt) (h : m ≠ n) : (d.onFn n f).fn m = d.fn m := by
  simp [Dev.fn, Dev.onFn, Dev.onHost, Tab.get_put_ne _ _ _ h]
@[simp] theorem Dev.shared_setShared (d : Dev) (n : Nat) (k : KGen) : (d.setShared n k).shared n = k := by
  simp [Dev.shared, Dev.setShared, Dev.onSec]
theorem Dev.shared_setShared_ne (d : Dev) {n m : Nat} (k : KGen) (h : m ≠ n) : (d.setShared n k).shared m = d.shared m := by
  simp [Dev.shared, Dev.setShared, Dev.onSec, Tab.get_put_ne _ _ _ h]

end Sys2Proof.Machine
end

