-- ==== Sys2Proof/Laws/Memory.lean ====
section
/-! SUPPORT. Memory: a byte written is the byte read, every other one is as it was, and every operation keeps the canonical form;
and the operations of `Dev` that write the stacks or the SRAM keep it. -/

namespace Sys2Proof.Machine

namespace Memory

variable {m : List Host.Cell}

theorem wf_iff : wf m = true ↔ Tab.wf m = true ∧ ∀ c ∈ m, c.2 ≠ 0 := by simp [wf]
theorem write_wf (h : wf m = true) (a : Nat) (b : Byte) : wf (write m a b) = true := by
  rw [wf_iff] at h ⊢
  unfold write
  split
  · exact ⟨Tab.erase_wf h.1 a, fun c hc => h.2 c (Tab.mem_erase hc)⟩
  · rename_i hb
    refine ⟨Tab.put_wf h.1 a b, fun c hc => ?_⟩
    rcases Tab.mem_put hc with rfl | hc
    · exact hb
    · exact h.2 c hc
theorem writeList_wf (h : wf m = true) (a : Nat) (bs : List Byte) : wf (writeList m a bs) = true := by
  induction bs generalizing m a with
  | nil => exact h
  | cons b bs ih => exact ih (write_wf h a b) (a + 1)
theorem fill_wf (h : wf m = true) (a n : Nat) : wf (fill m a n) = true := by
  rw [wf_iff] at h ⊢
  exact ⟨Tab.filter_wf h.1 _, fun c hc => h.2 c (List.mem_filter.1 hc).1⟩
theorem read_write_same (h : wf m = true) (a : Nat) (b : Byte) : read (write m a b) a = b := by
  unfold write read
  split
  · rename_i hb
    simp [Tab.get, Tab.get?_erase_same (wf_iff.1 h).1, hb]
  · simp
theorem read_write_ne (h : wf m = true) {a c : Nat} (b : Byte) (hc : c ≠ a) : read (write m a b) c = read m c := by
  unfold write read
  split
  · simp [Tab.get, Tab.get?_erase_ne (wf_iff.1 h).1 hc]
  · exact Tab.get_put_ne _ _ _ hc
theorem read_writeList_out (h : wf m = true) (bs : List Byte) {a c : Nat} (hc : c < a ∨ a + bs.length ≤ c) :
    read (writeList m a bs) c = read m c := by
  induction bs generalizing m a with
  | nil => rfl
  | cons b bs ih =>
    simp only [List.length_cons] at hc
    have h1 := ih (write_wf h a b) (a := a + 1) (by omega)
    have h2 : c ≠ a := by omega
    rw [writeList, h1, read_write_ne h b h2]
theorem read_writeList_in (h : wf m = true) (bs : List Byte) {a i : Nat} (hi : i < bs.length) :
    read (writeList m a bs) (a + i) = bs[i] := by
  induction bs generalizing m a i with
  | nil => simp at hi
  | cons b bs ih =>
    cases i with
    | zero =>
      have h1 := read_writeList_out (write_wf h a b) bs (a := a + 1) (c := a) (.inl (by omega))
      simp only [writeList, Nat.add_zero, h1, read_write_same h, List.getElem_cons_zero]
    | succ i =>
      have h1 := ih (write_wf h a b) (a := a + 1) (i := i) (by simpa using hi)
      have e : a + (i + 1) = a + 1 + i := by omega
      simp only [writeList, e, List.getElem_cons_succ]
      exact h1
theorem get?_filter {α : Type} (f : Nat → Bool) (t : Tab α) (h : Tab.wf t = true) (k : Nat) :
    Tab.get? (t.filter fun x => f x.1) k = if f k then Tab.get? t k else none := by
  induction t with
  | nil => simp [Tab.get?]
  | cons x t ih =>
    obtain ⟨k', b⟩ := x
    have hc := Tab.wf_cons h
    simp only [List.filter_cons]
    by_cases hk : k' = k
    · subst hk
      by_cases hf : f k' = true
      · simp [hf, Tab.get?]
      · simp [hf, ih hc.1]
    · by_cases hf : f k' = true
      · simp only [hf, if_true, Tab.get?, hk, if_false, ih hc.1]
        split
        · simp
        · rfl
      · have hs : Tab.get? (((k', b) :: t).filter fun x => f x.1) k = Tab.get? (t.filter fun x => f x.1) k := by simp [hf]
        simp only [List.filter_cons] at hs
        rw [hs, ih hc.1]
        simp only [Tab.get?, hk, if_false]
        by_cases hlt : k < k'
        · have : Tab.get? t k = none := Tab.get?_none_of_lt fun y hy => Nat.lt_trans hlt (hc.2 y hy)
          simp [hlt, this]
        · simp [hlt]
theorem read_fill_in (h : wf m = true) {a n c : Nat} (hc : a ≤ c ∧ c < a + n) : read (fill m a n) c = 0 := by
  have h1 := get?_filter (fun x => decide (x < a) || decide (a + n ≤ x)) m (wf_iff.1 h).1 c
  have h2 : (decide (c < a) || decide (a + n ≤ c)) = false := by simp; omega
  simp only [read, fill, Tab.get, h1, h2]
  rfl
theorem read_fill_out (h : wf m = true) {a n c : Nat} (hc : c < a ∨ a + n ≤ c) : read (fill m a n) c = read m c := by
  have h1 := get?_filter (fun x => decide (x < a) || decide (a + n ≤ x)) m (wf_iff.1 h).1 c
  have h2 : (decide (c < a) || decide (a + n ≤ c)) = true := by simpa using hc
  simp only [read, fill, Tab.get, h1, h2, if_true]

end Memory

theorem putCells_wf {m : List Host.Cell} (h : Memory.wf m = true) (cells : List Host.Cell) : Memory.wf (putCells m cells) = true := by
  unfold putCells
  induction cells generalizing m with
  | nil => exact h
  | cons c cs ih => exact ih (Memory.write_wf h c.1 c.2)

/-! ## The operations of `Dev` -/

/-- The canonical form depends on the two memories alone. -/
theorem Dev.memOk_of_eq {d t : Dev} (h : d.memOk) (hm : t.mem.bytes = d.mem.bytes) (hs : t.sram = d.sram) : t.memOk := by
  unfold Dev.memOk at *; rw [hm, hs]; exact h
theorem Dev.memOk_writePa {d : Dev} (h : d.memOk) (pa : Nat) (bs : List Byte) : (d.writePa pa bs).memOk :=
  ⟨Memory.writeList_wf h.1 pa bs, h.2⟩
theorem Dev.memOk_zeroPa {d : Dev} (h : d.memOk) (pa n : Nat) : (d.zeroPa pa n).memOk := ⟨Memory.fill_wf h.1 pa n, h.2⟩
theorem Dev.memOk_sramWrite {d : Dev} (h : d.memOk) (a : Nat) (bs : List Byte) : (d.sramWrite a bs).memOk :=
  ⟨h.1, Memory.writeList_wf h.2 a bs⟩
theorem Dev.memOk_sramFill {d : Dev} (h : d.memOk) (a n : Nat) : (d.sramFill a n).memOk := ⟨h.1, Memory.fill_wf h.2 a n⟩
/-- A fold over a list keeps the canonical form where each step of it does. -/
theorem Dev.memOk_foldl {α : Type} {f : Dev → α → Dev} (hf : ∀ d a, Dev.memOk d → Dev.memOk (f d a)) (l : List α) {d : Dev} (h : d.memOk) :
    (l.foldl f d).memOk := by
  induction l generalizing d with
  | nil => exact h
  | cons a l ih => exact ih (hf d a h)

end Sys2Proof.Machine
end

