-- ==== Sys2Proof/Laws/State.lean ====
section
/-! SUPPORT. One lemma per field per update of `Dev`: what an update changes, and that it changes nothing else. -/

namespace Sys2Proof.Machine

variable (d : Dev)

/-! ## setPart -/

@[simp] theorem Dev.setPart_parts (p : Nat) (P : Part) : (d.setPart p P).parts = Tab.put d.parts p P := rfl
@[simp] theorem Dev.setPart_tiles (p : Nat) (P : Part) : (d.setPart p P).tiles = d.tiles := rfl
@[simp] theorem Dev.setPart_hc (p : Nat) (P : Part) : (d.setPart p P).hc = d.hc := rfl
@[simp] theorem Dev.setPart_mem (p : Nat) (P : Part) : (d.setPart p P).mem = d.mem := rfl
@[simp] theorem Dev.setPart_sram (p : Nat) (P : Part) : (d.setPart p P).sram = d.sram := rfl
@[simp] theorem Dev.setPart_sramBad (p : Nat) (P : Part) : (d.setPart p P).sramBad = d.sramBad := rfl
@[simp] theorem Dev.setPart_cat (p : Nat) (P : Part) : (d.setPart p P).cat = d.cat := rfl
@[simp] theorem Dev.setPart_bases (p : Nat) (P : Part) : (d.setPart p P).bases = d.bases := rfl
@[simp] theorem Dev.setPart_lnk (p : Nat) (P : Part) : (d.setPart p P).lnk = d.lnk := rfl
@[simp] theorem Dev.setPart_ckr (p : Nat) (P : Part) : (d.setPart p P).ckr = d.ckr := rfl
@[simp] theorem Dev.setPart_pins (p : Nat) (P : Part) : (d.setPart p P).pins = d.pins := rfl
@[simp] theorem Dev.setPart_persist (p : Nat) (P : Part) : (d.setPart p P).persist = d.persist := rfl
@[simp] theorem Dev.setPart_sec (p : Nat) (P : Part) : (d.setPart p P).sec = d.sec := rfl
@[simp] theorem Dev.setPart_err (p : Nat) (P : Part) : (d.setPart p P).err = d.err := rfl
@[simp] theorem Dev.setPart_host (p : Nat) (P : Part) : (d.setPart p P).host = d.host := rfl
@[simp] theorem Dev.setPart_therm (p : Nat) (P : Part) : (d.setPart p P).therm = d.therm := rfl
@[simp] theorem Dev.setPart_cfg (p : Nat) (P : Part) : (d.setPart p P).cfg = d.cfg := rfl
@[simp] theorem Dev.setPart_out (p : Nat) (P : Part) : (d.setPart p P).out = d.out := rfl
@[simp] theorem Dev.setPart_fresh (p : Nat) (P : Part) : (d.setPart p P).fresh = d.fresh := rfl
@[simp] theorem Dev.setPart_useClock (p : Nat) (P : Part) : (d.setPart p P).useClock = d.useClock := rfl
@[simp] theorem Dev.setPart_tile (p : Nat) (P : Part) (r : Nat) : (d.setPart p P).tile r = d.tile r := rfl
@[simp] theorem Dev.setPart_hcSet (p : Nat) (P : Part) (r : Nat) : (d.setPart p P).hcSet r = d.hcSet r := rfl
@[simp] theorem Dev.setPart_catEntry (p : Nat) (P : Part) (r : Nat) : (d.setPart p P).catEntry r = d.catEntry r := rfl
@[simp] theorem Dev.setPart_base (p : Nat) (P : Part) (r : Nat) : (d.setPart p P).base r = d.base r := rfl
@[simp] theorem Dev.setPart_port (p : Nat) (P : Part) (r : Nat) : (d.setPart p P).port r = d.port r := rfl
@[simp] theorem Dev.setPart_fn (p : Nat) (P : Part) (r : Nat) : (d.setPart p P).fn r = d.fn r := rfl
@[simp] theorem Dev.setPart_shared (p : Nat) (P : Part) (r : Nat) : (d.setPart p P).shared r = d.shared r := rfl
@[simp] theorem Dev.setPart_beat (p : Nat) (P : Part) : (d.setPart p P).beat = d.beat := rfl

/-! ## onPart -/

@[simp] theorem Dev.onPart_parts (p : Nat) (f : Part → Part) : (d.onPart p f).parts = Tab.put d.parts p (f (d.part p)) := rfl
@[simp] theorem Dev.onPart_tiles (p : Nat) (f : Part → Part) : (d.onPart p f).tiles = d.tiles := rfl
@[simp] theorem Dev.onPart_hc (p : Nat) (f : Part → Part) : (d.onPart p f).hc = d.hc := rfl
@[simp] theorem Dev.onPart_mem (p : Nat) (f : Part → Part) : (d.onPart p f).mem = d.mem := rfl
@[simp] theorem Dev.onPart_sram (p : Nat) (f : Part → Part) : (d.onPart p f).sram = d.sram := rfl
@[simp] theorem Dev.onPart_sramBad (p : Nat) (f : Part → Part) : (d.onPart p f).sramBad = d.sramBad := rfl
@[simp] theorem Dev.onPart_cat (p : Nat) (f : Part → Part) : (d.onPart p f).cat = d.cat := rfl
@[simp] theorem Dev.onPart_bases (p : Nat) (f : Part → Part) : (d.onPart p f).bases = d.bases := rfl
@[simp] theorem Dev.onPart_lnk (p : Nat) (f : Part → Part) : (d.onPart p f).lnk = d.lnk := rfl
@[simp] theorem Dev.onPart_ckr (p : Nat) (f : Part → Part) : (d.onPart p f).ckr = d.ckr := rfl
@[simp] theorem Dev.onPart_pins (p : Nat) (f : Part → Part) : (d.onPart p f).pins = d.pins := rfl
@[simp] theorem Dev.onPart_persist (p : Nat) (f : Part → Part) : (d.onPart p f).persist = d.persist := rfl
@[simp] theorem Dev.onPart_sec (p : Nat) (f : Part → Part) : (d.onPart p f).sec = d.sec := rfl
@[simp] theorem Dev.onPart_err (p : Nat) (f : Part → Part) : (d.onPart p f).err = d.err := rfl
@[simp] theorem Dev.onPart_host (p : Nat) (f : Part → Part) : (d.onPart p f).host = d.host := rfl
@[simp] theorem Dev.onPart_therm (p : Nat) (f : Part → Part) : (d.onPart p f).therm = d.therm := rfl
@[simp] theorem Dev.onPart_cfg (p : Nat) (f : Part → Part) : (d.onPart p f).cfg = d.cfg := rfl
@[simp] theorem Dev.onPart_out (p : Nat) (f : Part → Part) : (d.onPart p f).out = d.out := rfl
@[simp] theorem Dev.onPart_fresh (p : Nat) (f : Part → Part) : (d.onPart p f).fresh = d.fresh := rfl
@[simp] theorem Dev.onPart_useClock (p : Nat) (f : Part → Part) : (d.onPart p f).useClock = d.useClock := rfl
@[simp] theorem Dev.onPart_tile (p : Nat) (f : Part → Part) (r : Nat) : (d.onPart p f).tile r = d.tile r := rfl
@[simp] theorem Dev.onPart_hcSet (p : Nat) (f : Part → Part) (r : Nat) : (d.onPart p f).hcSet r = d.hcSet r := rfl
@[simp] theorem Dev.onPart_catEntry (p : Nat) (f : Part → Part) (r : Nat) : (d.onPart p f).catEntry r = d.catEntry r := rfl
@[simp] theorem Dev.onPart_base (p : Nat) (f : Part → Part) (r : Nat) : (d.onPart p f).base r = d.base r := rfl
@[simp] theorem Dev.onPart_port (p : Nat) (f : Part → Part) (r : Nat) : (d.onPart p f).port r = d.port r := rfl
@[simp] theorem Dev.onPart_fn (p : Nat) (f : Part → Part) (r : Nat) : (d.onPart p f).fn r = d.fn r := rfl
@[simp] theorem Dev.onPart_shared (p : Nat) (f : Part → Part) (r : Nat) : (d.onPart p f).shared r = d.shared r := rfl
@[simp] theorem Dev.onPart_beat (p : Nat) (f : Part → Part) : (d.onPart p f).beat = d.beat := rfl

/-! ## onTile -/

@[simp] theorem Dev.onTile_parts (n : Nat) (f : TileSt → TileSt) : (d.onTile n f).parts = d.parts := rfl
@[simp] theorem Dev.onTile_tiles (n : Nat) (f : TileSt → TileSt) : (d.onTile n f).tiles = Tab.put d.tiles n (f (d.tile n)) := rfl
@[simp] theorem Dev.onTile_hc (n : Nat) (f : TileSt → TileSt) : (d.onTile n f).hc = d.hc := rfl
@[simp] theorem Dev.onTile_mem (n : Nat) (f : TileSt → TileSt) : (d.onTile n f).mem = d.mem := rfl
@[simp] theorem Dev.onTile_sram (n : Nat) (f : TileSt → TileSt) : (d.onTile n f).sram = d.sram := rfl
@[simp] theorem Dev.onTile_sramBad (n : Nat) (f : TileSt → TileSt) : (d.onTile n f).sramBad = d.sramBad := rfl
@[simp] theorem Dev.onTile_cat (n : Nat) (f : TileSt → TileSt) : (d.onTile n f).cat = d.cat := rfl
@[simp] theorem Dev.onTile_bases (n : Nat) (f : TileSt → TileSt) : (d.onTile n f).bases = d.bases := rfl
@[simp] theorem Dev.onTile_lnk (n : Nat) (f : TileSt → TileSt) : (d.onTile n f).lnk = d.lnk := rfl
@[simp] theorem Dev.onTile_ckr (n : Nat) (f : TileSt → TileSt) : (d.onTile n f).ckr = d.ckr := rfl
@[simp] theorem Dev.onTile_pins (n : Nat) (f : TileSt → TileSt) : (d.onTile n f).pins = d.pins := rfl
@[simp] theorem Dev.onTile_persist (n : Nat) (f : TileSt → TileSt) : (d.onTile n f).persist = d.persist := rfl
@[simp] theorem Dev.onTile_sec (n : Nat) (f : TileSt → TileSt) : (d.onTile n f).sec = d.sec := rfl
@[simp] theorem Dev.onTile_err (n : Nat) (f : TileSt → TileSt) : (d.onTile n f).err = d.err := rfl
@[simp] theorem Dev.onTile_host (n : Nat) (f : TileSt → TileSt) : (d.onTile n f).host = d.host := rfl
@[simp] theorem Dev.onTile_therm (n : Nat) (f : TileSt → TileSt) : (d.onTile n f).therm = d.therm := rfl
@[simp] theorem Dev.onTile_cfg (n : Nat) (f : TileSt → TileSt) : (d.onTile n f).cfg = d.cfg := rfl
@[simp] theorem Dev.onTile_out (n : Nat) (f : TileSt → TileSt) : (d.onTile n f).out = d.out := rfl
@[simp] theorem Dev.onTile_fresh (n : Nat) (f : TileSt → TileSt) : (d.onTile n f).fresh = d.fresh := rfl
@[simp] theorem Dev.onTile_useClock (n : Nat) (f : TileSt → TileSt) : (d.onTile n f).useClock = d.useClock := rfl
@[simp] theorem Dev.onTile_part (n : Nat) (f : TileSt → TileSt) (r : Nat) : (d.onTile n f).part r = d.part r := rfl
@[simp] theorem Dev.onTile_seq (n : Nat) (f : TileSt → TileSt) (r j : Nat) : (d.onTile n f).seq r j = d.seq r j := rfl
@[simp] theorem Dev.onTile_hcSet (n : Nat) (f : TileSt → TileSt) (r : Nat) : (d.onTile n f).hcSet r = d.hcSet r := rfl
@[simp] theorem Dev.onTile_catEntry (n : Nat) (f : TileSt → TileSt) (r : Nat) : (d.onTile n f).catEntry r = d.catEntry r := rfl
@[simp] theorem Dev.onTile_base (n : Nat) (f : TileSt → TileSt) (r : Nat) : (d.onTile n f).base r = d.base r := rfl
@[simp] theorem Dev.onTile_port (n : Nat) (f : TileSt → TileSt) (r : Nat) : (d.onTile n f).port r = d.port r := rfl
@[simp] theorem Dev.onTile_fn (n : Nat) (f : TileSt → TileSt) (r : Nat) : (d.onTile n f).fn r = d.fn r := rfl
@[simp] theorem Dev.onTile_shared (n : Nat) (f : TileSt → TileSt) (r : Nat) : (d.onTile n f).shared r = d.shared r := rfl
@[simp] theorem Dev.onTile_beat (n : Nat) (f : TileSt → TileSt) : (d.onTile n f).beat = d.beat := rfl

/-! ## setHc -/

@[simp] theorem Dev.setHc_parts (n : Nat) (h : HcSet) : (d.setHc n h).parts = d.parts := rfl
@[simp] theorem Dev.setHc_tiles (n : Nat) (h : HcSet) : (d.setHc n h).tiles = d.tiles := rfl
@[simp] theorem Dev.setHc_hc (n : Nat) (h : HcSet) : (d.setHc n h).hc = Tab.put d.hc n h := rfl
@[simp] theorem Dev.setHc_mem (n : Nat) (h : HcSet) : (d.setHc n h).mem = d.mem := rfl
@[simp] theorem Dev.setHc_sram (n : Nat) (h : HcSet) : (d.setHc n h).sram = d.sram := rfl
@[simp] theorem Dev.setHc_sramBad (n : Nat) (h : HcSet) : (d.setHc n h).sramBad = d.sramBad := rfl
@[simp] theorem Dev.setHc_cat (n : Nat) (h : HcSet) : (d.setHc n h).cat = d.cat := rfl
@[simp] theorem Dev.setHc_bases (n : Nat) (h : HcSet) : (d.setHc n h).bases = d.bases := rfl
@[simp] theorem Dev.setHc_lnk (n : Nat) (h : HcSet) : (d.setHc n h).lnk = d.lnk := rfl
@[simp] theorem Dev.setHc_ckr (n : Nat) (h : HcSet) : (d.setHc n h).ckr = d.ckr := rfl
@[simp] theorem Dev.setHc_pins (n : Nat) (h : HcSet) : (d.setHc n h).pins = d.pins := rfl
@[simp] theorem Dev.setHc_persist (n : Nat) (h : HcSet) : (d.setHc n h).persist = d.persist := rfl
@[simp] theorem Dev.setHc_sec (n : Nat) (h : HcSet) : (d.setHc n h).sec = d.sec := rfl
@[simp] theorem Dev.setHc_err (n : Nat) (h : HcSet) : (d.setHc n h).err = d.err := rfl
@[simp] theorem Dev.setHc_host (n : Nat) (h : HcSet) : (d.setHc n h).host = d.host := rfl
@[simp] theorem Dev.setHc_therm (n : Nat) (h : HcSet) : (d.setHc n h).therm = d.therm := rfl
@[simp] theorem Dev.setHc_cfg (n : Nat) (h : HcSet) : (d.setHc n h).cfg = d.cfg := rfl
@[simp] theorem Dev.setHc_out (n : Nat) (h : HcSet) : (d.setHc n h).out = d.out := rfl
@[simp] theorem Dev.setHc_fresh (n : Nat) (h : HcSet) : (d.setHc n h).fresh = d.fresh := rfl
@[simp] theorem Dev.setHc_useClock (n : Nat) (h : HcSet) : (d.setHc n h).useClock = d.useClock := rfl
@[simp] theorem Dev.setHc_part (n : Nat) (h : HcSet) (r : Nat) : (d.setHc n h).part r = d.part r := rfl
@[simp] theorem Dev.setHc_seq (n : Nat) (h : HcSet) (r j : Nat) : (d.setHc n h).seq r j = d.seq r j := rfl
@[simp] theorem Dev.setHc_tile (n : Nat) (h : HcSet) (r : Nat) : (d.setHc n h).tile r = d.tile r := rfl
@[simp] theorem Dev.setHc_catEntry (n : Nat) (h : HcSet) (r : Nat) : (d.setHc n h).catEntry r = d.catEntry r := rfl
@[simp] theorem Dev.setHc_base (n : Nat) (h : HcSet) (r : Nat) : (d.setHc n h).base r = d.base r := rfl
@[simp] theorem Dev.setHc_port (n : Nat) (h : HcSet) (r : Nat) : (d.setHc n h).port r = d.port r := rfl
@[simp] theorem Dev.setHc_fn (n : Nat) (h : HcSet) (r : Nat) : (d.setHc n h).fn r = d.fn r := rfl
@[simp] theorem Dev.setHc_shared (n : Nat) (h : HcSet) (r : Nat) : (d.setHc n h).shared r = d.shared r := rfl
@[simp] theorem Dev.setHc_beat (n : Nat) (h : HcSet) : (d.setHc n h).beat = d.beat := rfl

/-! ## onCat -/

@[simp] theorem Dev.onCat_parts (n : Nat) (f : CatEntry → CatEntry) : (d.onCat n f).parts = d.parts := rfl
@[simp] theorem Dev.onCat_tiles (n : Nat) (f : CatEntry → CatEntry) : (d.onCat n f).tiles = d.tiles := rfl
@[simp] theorem Dev.onCat_hc (n : Nat) (f : CatEntry → CatEntry) : (d.onCat n f).hc = d.hc := rfl
@[simp] theorem Dev.onCat_mem (n : Nat) (f : CatEntry → CatEntry) : (d.onCat n f).mem = d.mem := rfl
@[simp] theorem Dev.onCat_sram (n : Nat) (f : CatEntry → CatEntry) : (d.onCat n f).sram = d.sram := rfl
@[simp] theorem Dev.onCat_sramBad (n : Nat) (f : CatEntry → CatEntry) : (d.onCat n f).sramBad = d.sramBad := rfl
@[simp] theorem Dev.onCat_cat (n : Nat) (f : CatEntry → CatEntry) : (d.onCat n f).cat = Tab.put d.cat n (f (d.catEntry n)) := rfl
@[simp] theorem Dev.onCat_bases (n : Nat) (f : CatEntry → CatEntry) : (d.onCat n f).bases = d.bases := rfl
@[simp] theorem Dev.onCat_lnk (n : Nat) (f : CatEntry → CatEntry) : (d.onCat n f).lnk = d.lnk := rfl
@[simp] theorem Dev.onCat_ckr (n : Nat) (f : CatEntry → CatEntry) : (d.onCat n f).ckr = d.ckr := rfl
@[simp] theorem Dev.onCat_pins (n : Nat) (f : CatEntry → CatEntry) : (d.onCat n f).pins = d.pins := rfl
@[simp] theorem Dev.onCat_persist (n : Nat) (f : CatEntry → CatEntry) : (d.onCat n f).persist = d.persist := rfl
@[simp] theorem Dev.onCat_sec (n : Nat) (f : CatEntry → CatEntry) : (d.onCat n f).sec = d.sec := rfl
@[simp] theorem Dev.onCat_err (n : Nat) (f : CatEntry → CatEntry) : (d.onCat n f).err = d.err := rfl
@[simp] theorem Dev.onCat_host (n : Nat) (f : CatEntry → CatEntry) : (d.onCat n f).host = d.host := rfl
@[simp] theorem Dev.onCat_therm (n : Nat) (f : CatEntry → CatEntry) : (d.onCat n f).therm = d.therm := rfl
@[simp] theorem Dev.onCat_cfg (n : Nat) (f : CatEntry → CatEntry) : (d.onCat n f).cfg = d.cfg := rfl
@[simp] theorem Dev.onCat_out (n : Nat) (f : CatEntry → CatEntry) : (d.onCat n f).out = d.out := rfl
@[simp] theorem Dev.onCat_fresh (n : Nat) (f : CatEntry → CatEntry) : (d.onCat n f).fresh = d.fresh := rfl
@[simp] theorem Dev.onCat_useClock (n : Nat) (f : CatEntry → CatEntry) : (d.onCat n f).useClock = d.useClock := rfl
@[simp] theorem Dev.onCat_part (n : Nat) (f : CatEntry → CatEntry) (r : Nat) : (d.onCat n f).part r = d.part r := rfl
@[simp] theorem Dev.onCat_seq (n : Nat) (f : CatEntry → CatEntry) (r j : Nat) : (d.onCat n f).seq r j = d.seq r j := rfl
@[simp] theorem Dev.onCat_tile (n : Nat) (f : CatEntry → CatEntry) (r : Nat) : (d.onCat n f).tile r = d.tile r := rfl
@[simp] theorem Dev.onCat_hcSet (n : Nat) (f : CatEntry → CatEntry) (r : Nat) : (d.onCat n f).hcSet r = d.hcSet r := rfl
@[simp] theorem Dev.onCat_base (n : Nat) (f : CatEntry → CatEntry) (r : Nat) : (d.onCat n f).base r = d.base r := rfl
@[simp] theorem Dev.onCat_port (n : Nat) (f : CatEntry → CatEntry) (r : Nat) : (d.onCat n f).port r = d.port r := rfl
@[simp] theorem Dev.onCat_fn (n : Nat) (f : CatEntry → CatEntry) (r : Nat) : (d.onCat n f).fn r = d.fn r := rfl
@[simp] theorem Dev.onCat_shared (n : Nat) (f : CatEntry → CatEntry) (r : Nat) : (d.onCat n f).shared r = d.shared r := rfl
@[simp] theorem Dev.onCat_beat (n : Nat) (f : CatEntry → CatEntry) : (d.onCat n f).beat = d.beat := rfl

/-! ## setBase -/

@[simp] theorem Dev.setBase_parts (n : Nat) (B : Base) : (d.setBase n B).parts = d.parts := rfl
@[simp] theorem Dev.setBase_tiles (n : Nat) (B : Base) : (d.setBase n B).tiles = d.tiles := rfl
@[simp] theorem Dev.setBase_hc (n : Nat) (B : Base) : (d.setBase n B).hc = d.hc := rfl
@[simp] theorem Dev.setBase_mem (n : Nat) (B : Base) : (d.setBase n B).mem = d.mem := rfl
@[simp] theorem Dev.setBase_sram (n : Nat) (B : Base) : (d.setBase n B).sram = d.sram := rfl
@[simp] theorem Dev.setBase_sramBad (n : Nat) (B : Base) : (d.setBase n B).sramBad = d.sramBad := rfl
@[simp] theorem Dev.setBase_cat (n : Nat) (B : Base) : (d.setBase n B).cat = d.cat := rfl
@[simp] theorem Dev.setBase_bases (n : Nat) (B : Base) : (d.setBase n B).bases = Tab.put d.bases n B := rfl
@[simp] theorem Dev.setBase_lnk (n : Nat) (B : Base) : (d.setBase n B).lnk = d.lnk := rfl
@[simp] theorem Dev.setBase_ckr (n : Nat) (B : Base) : (d.setBase n B).ckr = d.ckr := rfl
@[simp] theorem Dev.setBase_pins (n : Nat) (B : Base) : (d.setBase n B).pins = d.pins := rfl
@[simp] theorem Dev.setBase_persist (n : Nat) (B : Base) : (d.setBase n B).persist = d.persist := rfl
@[simp] theorem Dev.setBase_sec (n : Nat) (B : Base) : (d.setBase n B).sec = d.sec := rfl
@[simp] theorem Dev.setBase_err (n : Nat) (B : Base) : (d.setBase n B).err = d.err := rfl
@[simp] theorem Dev.setBase_host (n : Nat) (B : Base) : (d.setBase n B).host = d.host := rfl
@[simp] theorem Dev.setBase_therm (n : Nat) (B : Base) : (d.setBase n B).therm = d.therm := rfl
@[simp] theorem Dev.setBase_cfg (n : Nat) (B : Base) : (d.setBase n B).cfg = d.cfg := rfl
@[simp] theorem Dev.setBase_out (n : Nat) (B : Base) : (d.setBase n B).out = d.out := rfl
@[simp] theorem Dev.setBase_fresh (n : Nat) (B : Base) : (d.setBase n B).fresh = d.fresh := rfl
@[simp] theorem Dev.setBase_useClock (n : Nat) (B : Base) : (d.setBase n B).useClock = d.useClock := rfl
@[simp] theorem Dev.setBase_part (n : Nat) (B : Base) (r : Nat) : (d.setBase n B).part r = d.part r := rfl
@[simp] theorem Dev.setBase_seq (n : Nat) (B : Base) (r j : Nat) : (d.setBase n B).seq r j = d.seq r j := rfl
@[simp] theorem Dev.setBase_tile (n : Nat) (B : Base) (r : Nat) : (d.setBase n B).tile r = d.tile r := rfl
@[simp] theorem Dev.setBase_hcSet (n : Nat) (B : Base) (r : Nat) : (d.setBase n B).hcSet r = d.hcSet r := rfl
@[simp] theorem Dev.setBase_catEntry (n : Nat) (B : Base) (r : Nat) : (d.setBase n B).catEntry r = d.catEntry r := rfl
@[simp] theorem Dev.setBase_port (n : Nat) (B : Base) (r : Nat) : (d.setBase n B).port r = d.port r := rfl
@[simp] theorem Dev.setBase_fn (n : Nat) (B : Base) (r : Nat) : (d.setBase n B).fn r = d.fn r := rfl
@[simp] theorem Dev.setBase_shared (n : Nat) (B : Base) (r : Nat) : (d.setBase n B).shared r = d.shared r := rfl
@[simp] theorem Dev.setBase_beat (n : Nat) (B : Base) : (d.setBase n B).beat = d.beat := rfl

/-! ## onBase -/

@[simp] theorem Dev.onBase_parts (n : Nat) (f : Base → Base) : (d.onBase n f).parts = d.parts := rfl
@[simp] theorem Dev.onBase_tiles (n : Nat) (f : Base → Base) : (d.onBase n f).tiles = d.tiles := rfl
@[simp] theorem Dev.onBase_hc (n : Nat) (f : Base → Base) : (d.onBase n f).hc = d.hc := rfl
@[simp] theorem Dev.onBase_mem (n : Nat) (f : Base → Base) : (d.onBase n f).mem = d.mem := rfl
@[simp] theorem Dev.onBase_sram (n : Nat) (f : Base → Base) : (d.onBase n f).sram = d.sram := rfl
@[simp] theorem Dev.onBase_sramBad (n : Nat) (f : Base → Base) : (d.onBase n f).sramBad = d.sramBad := rfl
@[simp] theorem Dev.onBase_cat (n : Nat) (f : Base → Base) : (d.onBase n f).cat = d.cat := rfl
@[simp] theorem Dev.onBase_bases (n : Nat) (f : Base → Base) : (d.onBase n f).bases = Tab.put d.bases n (f (d.base n)) := rfl
@[simp] theorem Dev.onBase_lnk (n : Nat) (f : Base → Base) : (d.onBase n f).lnk = d.lnk := rfl
@[simp] theorem Dev.onBase_ckr (n : Nat) (f : Base → Base) : (d.onBase n f).ckr = d.ckr := rfl
@[simp] theorem Dev.onBase_pins (n : Nat) (f : Base → Base) : (d.onBase n f).pins = d.pins := rfl
@[simp] theorem Dev.onBase_persist (n : Nat) (f : Base → Base) : (d.onBase n f).persist = d.persist := rfl
@[simp] theorem Dev.onBase_sec (n : Nat) (f : Base → Base) : (d.onBase n f).sec = d.sec := rfl
@[simp] theorem Dev.onBase_err (n : Nat) (f : Base → Base) : (d.onBase n f).err = d.err := rfl
@[simp] theorem Dev.onBase_host (n : Nat) (f : Base → Base) : (d.onBase n f).host = d.host := rfl
@[simp] theorem Dev.onBase_therm (n : Nat) (f : Base → Base) : (d.onBase n f).therm = d.therm := rfl
@[simp] theorem Dev.onBase_cfg (n : Nat) (f : Base → Base) : (d.onBase n f).cfg = d.cfg := rfl
@[simp] theorem Dev.onBase_out (n : Nat) (f : Base → Base) : (d.onBase n f).out = d.out := rfl
@[simp] theorem Dev.onBase_fresh (n : Nat) (f : Base → Base) : (d.onBase n f).fresh = d.fresh := rfl
@[simp] theorem Dev.onBase_useClock (n : Nat) (f : Base → Base) : (d.onBase n f).useClock = d.useClock := rfl
@[simp] theorem Dev.onBase_part (n : Nat) (f : Base → Base) (r : Nat) : (d.onBase n f).part r = d.part r := rfl
@[simp] theorem Dev.onBase_seq (n : Nat) (f : Base → Base) (r j : Nat) : (d.onBase n f).seq r j = d.seq r j := rfl
@[simp] theorem Dev.onBase_tile (n : Nat) (f : Base → Base) (r : Nat) : (d.onBase n f).tile r = d.tile r := rfl
@[simp] theorem Dev.onBase_hcSet (n : Nat) (f : Base → Base) (r : Nat) : (d.onBase n f).hcSet r = d.hcSet r := rfl
@[simp] theorem Dev.onBase_catEntry (n : Nat) (f : Base → Base) (r : Nat) : (d.onBase n f).catEntry r = d.catEntry r := rfl
@[simp] theorem Dev.onBase_port (n : Nat) (f : Base → Base) (r : Nat) : (d.onBase n f).port r = d.port r := rfl
@[simp] theorem Dev.onBase_fn (n : Nat) (f : Base → Base) (r : Nat) : (d.onBase n f).fn r = d.fn r := rfl
@[simp] theorem Dev.onBase_shared (n : Nat) (f : Base → Base) (r : Nat) : (d.onBase n f).shared r = d.shared r := rfl
@[simp] theorem Dev.onBase_beat (n : Nat) (f : Base → Base) : (d.onBase n f).beat = d.beat := rfl

/-! ## onLnk -/

@[simp] theorem Dev.onLnk_parts (f : Lnk → Lnk) : (d.onLnk f).parts = d.parts := rfl
@[simp] theorem Dev.onLnk_tiles (f : Lnk → Lnk) : (d.onLnk f).tiles = d.tiles := rfl
@[simp] theorem Dev.onLnk_hc (f : Lnk → Lnk) : (d.onLnk f).hc = d.hc := rfl
@[simp] theorem Dev.onLnk_mem (f : Lnk → Lnk) : (d.onLnk f).mem = d.mem := rfl
@[simp] theorem Dev.onLnk_sram (f : Lnk → Lnk) : (d.onLnk f).sram = d.sram := rfl
@[simp] theorem Dev.onLnk_sramBad (f : Lnk → Lnk) : (d.onLnk f).sramBad = d.sramBad := rfl
@[simp] theorem Dev.onLnk_cat (f : Lnk → Lnk) : (d.onLnk f).cat = d.cat := rfl
@[simp] theorem Dev.onLnk_bases (f : Lnk → Lnk) : (d.onLnk f).bases = d.bases := rfl
@[simp] theorem Dev.onLnk_lnk (f : Lnk → Lnk) : (d.onLnk f).lnk = f d.lnk := rfl
@[simp] theorem Dev.onLnk_ckr (f : Lnk → Lnk) : (d.onLnk f).ckr = d.ckr := rfl
@[simp] theorem Dev.onLnk_pins (f : Lnk → Lnk) : (d.onLnk f).pins = d.pins := rfl
@[simp] theorem Dev.onLnk_persist (f : Lnk → Lnk) : (d.onLnk f).persist = d.persist := rfl
@[simp] theorem Dev.onLnk_sec (f : Lnk → Lnk) : (d.onLnk f).sec = d.sec := rfl
@[simp] theorem Dev.onLnk_err (f : Lnk → Lnk) : (d.onLnk f).err = d.err := rfl
@[simp] theorem Dev.onLnk_host (f : Lnk → Lnk) : (d.onLnk f).host = d.host := rfl
@[simp] theorem Dev.onLnk_therm (f : Lnk → Lnk) : (d.onLnk f).therm = d.therm := rfl
@[simp] theorem Dev.onLnk_cfg (f : Lnk → Lnk) : (d.onLnk f).cfg = d.cfg := rfl
@[simp] theorem Dev.onLnk_out (f : Lnk → Lnk) : (d.onLnk f).out = d.out := rfl
@[simp] theorem Dev.onLnk_fresh (f : Lnk → Lnk) : (d.onLnk f).fresh = d.fresh := rfl
@[simp] theorem Dev.onLnk_useClock (f : Lnk → Lnk) : (d.onLnk f).useClock = d.useClock := rfl
@[simp] theorem Dev.onLnk_part (f : Lnk → Lnk) (r : Nat) : (d.onLnk f).part r = d.part r := rfl
@[simp] theorem Dev.onLnk_seq (f : Lnk → Lnk) (r j : Nat) : (d.onLnk f).seq r j = d.seq r j := rfl
@[simp] theorem Dev.onLnk_tile (f : Lnk → Lnk) (r : Nat) : (d.onLnk f).tile r = d.tile r := rfl
@[simp] theorem Dev.onLnk_hcSet (f : Lnk → Lnk) (r : Nat) : (d.onLnk f).hcSet r = d.hcSet r := rfl
@[simp] theorem Dev.onLnk_catEntry (f : Lnk → Lnk) (r : Nat) : (d.onLnk f).catEntry r = d.catEntry r := rfl
@[simp] theorem Dev.onLnk_base (f : Lnk → Lnk) (r : Nat) : (d.onLnk f).base r = d.base r := rfl
@[simp] theorem Dev.onLnk_fn (f : Lnk → Lnk) (r : Nat) : (d.onLnk f).fn r = d.fn r := rfl
@[simp] theorem Dev.onLnk_shared (f : Lnk → Lnk) (r : Nat) : (d.onLnk f).shared r = d.shared r := rfl

/-! ## onPort -/

@[simp] theorem Dev.onPort_parts (n : Nat) (f : PortSt → PortSt) : (d.onPort n f).parts = d.parts := rfl
@[simp] theorem Dev.onPort_tiles (n : Nat) (f : PortSt → PortSt) : (d.onPort n f).tiles = d.tiles := rfl
@[simp] theorem Dev.onPort_hc (n : Nat) (f : PortSt → PortSt) : (d.onPort n f).hc = d.hc := rfl
@[simp] theorem Dev.onPort_mem (n : Nat) (f : PortSt → PortSt) : (d.onPort n f).mem = d.mem := rfl
@[simp] theorem Dev.onPort_sram (n : Nat) (f : PortSt → PortSt) : (d.onPort n f).sram = d.sram := rfl
@[simp] theorem Dev.onPort_sramBad (n : Nat) (f : PortSt → PortSt) : (d.onPort n f).sramBad = d.sramBad := rfl
@[simp] theorem Dev.onPort_cat (n : Nat) (f : PortSt → PortSt) : (d.onPort n f).cat = d.cat := rfl
@[simp] theorem Dev.onPort_bases (n : Nat) (f : PortSt → PortSt) : (d.onPort n f).bases = d.bases := rfl
@[simp] theorem Dev.onPort_ckr (n : Nat) (f : PortSt → PortSt) : (d.onPort n f).ckr = d.ckr := rfl
@[simp] theorem Dev.onPort_pins (n : Nat) (f : PortSt → PortSt) : (d.onPort n f).pins = d.pins := rfl
@[simp] theorem Dev.onPort_persist (n : Nat) (f : PortSt → PortSt) : (d.onPort n f).persist = d.persist := rfl
@[simp] theorem Dev.onPort_sec (n : Nat) (f : PortSt → PortSt) : (d.onPort n f).sec = d.sec := rfl
@[simp] theorem Dev.onPort_err (n : Nat) (f : PortSt → PortSt) : (d.onPort n f).err = d.err := rfl
@[simp] theorem Dev.onPort_host (n : Nat) (f : PortSt → PortSt) : (d.onPort n f).host = d.host := rfl
@[simp] theorem Dev.onPort_therm (n : Nat) (f : PortSt → PortSt) : (d.onPort n f).therm = d.therm := rfl
@[simp] theorem Dev.onPort_cfg (n : Nat) (f : PortSt → PortSt) : (d.onPort n f).cfg = d.cfg := rfl
@[simp] theorem Dev.onPort_out (n : Nat) (f : PortSt → PortSt) : (d.onPort n f).out = d.out := rfl
@[simp] theorem Dev.onPort_fresh (n : Nat) (f : PortSt → PortSt) : (d.onPort n f).fresh = d.fresh := rfl
@[simp] theorem Dev.onPort_useClock (n : Nat) (f : PortSt → PortSt) : (d.onPort n f).useClock = d.useClock := rfl
@[simp] theorem Dev.onPort_part (n : Nat) (f : PortSt → PortSt) (r : Nat) : (d.onPort n f).part r = d.part r := rfl
@[simp] theorem Dev.onPort_seq (n : Nat) (f : PortSt → PortSt) (r j : Nat) : (d.onPort n f).seq r j = d.seq r j := rfl
@[simp] theorem Dev.onPort_tile (n : Nat) (f : PortSt → PortSt) (r : Nat) : (d.onPort n f).tile r = d.tile r := rfl
@[simp] theorem Dev.onPort_hcSet (n : Nat) (f : PortSt → PortSt) (r : Nat) : (d.onPort n f).hcSet r = d.hcSet r := rfl
@[simp] theorem Dev.onPort_catEntry (n : Nat) (f : PortSt → PortSt) (r : Nat) : (d.onPort n f).catEntry r = d.catEntry r := rfl
@[simp] theorem Dev.onPort_base (n : Nat) (f : PortSt → PortSt) (r : Nat) : (d.onPort n f).base r = d.base r := rfl
@[simp] theorem Dev.onPort_fn (n : Nat) (f : PortSt → PortSt) (r : Nat) : (d.onPort n f).fn r = d.fn r := rfl
@[simp] theorem Dev.onPort_shared (n : Nat) (f : PortSt → PortSt) (r : Nat) : (d.onPort n f).shared r = d.shared r := rfl

/-! ## onMem -/

@[simp] theorem Dev.onMem_parts (f : MemSt → MemSt) : (d.onMem f).parts = d.parts := rfl
@[simp] theorem Dev.onMem_tiles (f : MemSt → MemSt) : (d.onMem f).tiles = d.tiles := rfl
@[simp] theorem Dev.onMem_hc (f : MemSt → MemSt) : (d.onMem f).hc = d.hc := rfl
@[simp] theorem Dev.onMem_mem (f : MemSt → MemSt) : (d.onMem f).mem = f d.mem := rfl
@[simp] theorem Dev.onMem_sram (f : MemSt → MemSt) : (d.onMem f).sram = d.sram := rfl
@[simp] theorem Dev.onMem_sramBad (f : MemSt → MemSt) : (d.onMem f).sramBad = d.sramBad := rfl
@[simp] theorem Dev.onMem_cat (f : MemSt → MemSt) : (d.onMem f).cat = d.cat := rfl
@[simp] theorem Dev.onMem_bases (f : MemSt → MemSt) : (d.onMem f).bases = d.bases := rfl
@[simp] theorem Dev.onMem_lnk (f : MemSt → MemSt) : (d.onMem f).lnk = d.lnk := rfl
@[simp] theorem Dev.onMem_ckr (f : MemSt → MemSt) : (d.onMem f).ckr = d.ckr := rfl
@[simp] theorem Dev.onMem_pins (f : MemSt → MemSt) : (d.onMem f).pins = d.pins := rfl
@[simp] theorem Dev.onMem_persist (f : MemSt → MemSt) : (d.onMem f).persist = d.persist := rfl
@[simp] theorem Dev.onMem_sec (f : MemSt → MemSt) : (d.onMem f).sec = d.sec := rfl
@[simp] theorem Dev.onMem_err (f : MemSt → MemSt) : (d.onMem f).err = d.err := rfl
@[simp] theorem Dev.onMem_host (f : MemSt → MemSt) : (d.onMem f).host = d.host := rfl
@[simp] theorem Dev.onMem_therm (f : MemSt → MemSt) : (d.onMem f).therm = d.therm := rfl
@[simp] theorem Dev.onMem_cfg (f : MemSt → MemSt) : (d.onMem f).cfg = d.cfg := rfl
@[simp] theorem Dev.onMem_out (f : MemSt → MemSt) : (d.onMem f).out = d.out := rfl
@[simp] theorem Dev.onMem_fresh (f : MemSt → MemSt) : (d.onMem f).fresh = d.fresh := rfl
@[simp] theorem Dev.onMem_useClock (f : MemSt → MemSt) : (d.onMem f).useClock = d.useClock := rfl
@[simp] theorem Dev.onMem_part (f : MemSt → MemSt) (r : Nat) : (d.onMem f).part r = d.part r := rfl
@[simp] theorem Dev.onMem_seq (f : MemSt → MemSt) (r j : Nat) : (d.onMem f).seq r j = d.seq r j := rfl
@[simp] theorem Dev.onMem_tile (f : MemSt → MemSt) (r : Nat) : (d.onMem f).tile r = d.tile r := rfl
@[simp] theorem Dev.onMem_hcSet (f : MemSt → MemSt) (r : Nat) : (d.onMem f).hcSet r = d.hcSet r := rfl
@[simp] theorem Dev.onMem_catEntry (f : MemSt → MemSt) (r : Nat) : (d.onMem f).catEntry r = d.catEntry r := rfl
@[simp] theorem Dev.onMem_base (f : MemSt → MemSt) (r : Nat) : (d.onMem f).base r = d.base r := rfl
@[simp] theorem Dev.onMem_port (f : MemSt → MemSt) (r : Nat) : (d.onMem f).port r = d.port r := rfl
@[simp] theorem Dev.onMem_fn (f : MemSt → MemSt) (r : Nat) : (d.onMem f).fn r = d.fn r := rfl
@[simp] theorem Dev.onMem_shared (f : MemSt → MemSt) (r : Nat) : (d.onMem f).shared r = d.shared r := rfl
@[simp] theorem Dev.onMem_beat (f : MemSt → MemSt) : (d.onMem f).beat = d.beat := rfl

/-! ## onCkr -/

@[simp] theorem Dev.onCkr_parts (f : Ckr → Ckr) : (d.onCkr f).parts = d.parts := rfl
@[simp] theorem Dev.onCkr_tiles (f : Ckr → Ckr) : (d.onCkr f).tiles = d.tiles := rfl
@[simp] theorem Dev.onCkr_hc (f : Ckr → Ckr) : (d.onCkr f).hc = d.hc := rfl
@[simp] theorem Dev.onCkr_mem (f : Ckr → Ckr) : (d.onCkr f).mem = d.mem := rfl
@[simp] theorem Dev.onCkr_sram (f : Ckr → Ckr) : (d.onCkr f).sram = d.sram := rfl
@[simp] theorem Dev.onCkr_sramBad (f : Ckr → Ckr) : (d.onCkr f).sramBad = d.sramBad := rfl
@[simp] theorem Dev.onCkr_cat (f : Ckr → Ckr) : (d.onCkr f).cat = d.cat := rfl
@[simp] theorem Dev.onCkr_bases (f : Ckr → Ckr) : (d.onCkr f).bases = d.bases := rfl
@[simp] theorem Dev.onCkr_lnk (f : Ckr → Ckr) : (d.onCkr f).lnk = d.lnk := rfl
@[simp] theorem Dev.onCkr_ckr (f : Ckr → Ckr) : (d.onCkr f).ckr = f d.ckr := rfl
@[simp] theorem Dev.onCkr_pins (f : Ckr → Ckr) : (d.onCkr f).pins = d.pins := rfl
@[simp] theorem Dev.onCkr_persist (f : Ckr → Ckr) : (d.onCkr f).persist = d.persist := rfl
@[simp] theorem Dev.onCkr_sec (f : Ckr → Ckr) : (d.onCkr f).sec = d.sec := rfl
@[simp] theorem Dev.onCkr_err (f : Ckr → Ckr) : (d.onCkr f).err = d.err := rfl
@[simp] theorem Dev.onCkr_host (f : Ckr → Ckr) : (d.onCkr f).host = d.host := rfl
@[simp] theorem Dev.onCkr_therm (f : Ckr → Ckr) : (d.onCkr f).therm = d.therm := rfl
@[simp] theorem Dev.onCkr_cfg (f : Ckr → Ckr) : (d.onCkr f).cfg = d.cfg := rfl
@[simp] theorem Dev.onCkr_out (f : Ckr → Ckr) : (d.onCkr f).out = d.out := rfl
@[simp] theorem Dev.onCkr_fresh (f : Ckr → Ckr) : (d.onCkr f).fresh = d.fresh := rfl
@[simp] theorem Dev.onCkr_useClock (f : Ckr → Ckr) : (d.onCkr f).useClock = d.useClock := rfl
@[simp] theorem Dev.onCkr_part (f : Ckr → Ckr) (r : Nat) : (d.onCkr f).part r = d.part r := rfl
@[simp] theorem Dev.onCkr_seq (f : Ckr → Ckr) (r j : Nat) : (d.onCkr f).seq r j = d.seq r j := rfl
@[simp] theorem Dev.onCkr_tile (f : Ckr → Ckr) (r : Nat) : (d.onCkr f).tile r = d.tile r := rfl
@[simp] theorem Dev.onCkr_hcSet (f : Ckr → Ckr) (r : Nat) : (d.onCkr f).hcSet r = d.hcSet r := rfl
@[simp] theorem Dev.onCkr_catEntry (f : Ckr → Ckr) (r : Nat) : (d.onCkr f).catEntry r = d.catEntry r := rfl
@[simp] theorem Dev.onCkr_base (f : Ckr → Ckr) (r : Nat) : (d.onCkr f).base r = d.base r := rfl
@[simp] theorem Dev.onCkr_port (f : Ckr → Ckr) (r : Nat) : (d.onCkr f).port r = d.port r := rfl
@[simp] theorem Dev.onCkr_fn (f : Ckr → Ckr) (r : Nat) : (d.onCkr f).fn r = d.fn r := rfl
@[simp] theorem Dev.onCkr_shared (f : Ckr → Ckr) (r : Nat) : (d.onCkr f).shared r = d.shared r := rfl
@[simp] theorem Dev.onCkr_beat (f : Ckr → Ckr) : (d.onCkr f).beat = d.beat := rfl

/-! ## onErr -/

@[simp] theorem Dev.onErr_parts (f : ErrSt → ErrSt) : (d.onErr f).parts = d.parts := rfl
@[simp] theorem Dev.onErr_tiles (f : ErrSt → ErrSt) : (d.onErr f).tiles = d.tiles := rfl
@[simp] theorem Dev.onErr_hc (f : ErrSt → ErrSt) : (d.onErr f).hc = d.hc := rfl
@[simp] theorem Dev.onErr_mem (f : ErrSt → ErrSt) : (d.onErr f).mem = d.mem := rfl
@[simp] theorem Dev.onErr_sram (f : ErrSt → ErrSt) : (d.onErr f).sram = d.sram := rfl
@[simp] theorem Dev.onErr_sramBad (f : ErrSt → ErrSt) : (d.onErr f).sramBad = d.sramBad := rfl
@[simp] theorem Dev.onErr_cat (f : ErrSt → ErrSt) : (d.onErr f).cat = d.cat := rfl
@[simp] theorem Dev.onErr_bases (f : ErrSt → ErrSt) : (d.onErr f).bases = d.bases := rfl
@[simp] theorem Dev.onErr_lnk (f : ErrSt → ErrSt) : (d.onErr f).lnk = d.lnk := rfl
@[simp] theorem Dev.onErr_ckr (f : ErrSt → ErrSt) : (d.onErr f).ckr = d.ckr := rfl
@[simp] theorem Dev.onErr_pins (f : ErrSt → ErrSt) : (d.onErr f).pins = d.pins := rfl
@[simp] theorem Dev.onErr_persist (f : ErrSt → ErrSt) : (d.onErr f).persist = d.persist := rfl
@[simp] theorem Dev.onErr_sec (f : ErrSt → ErrSt) : (d.onErr f).sec = d.sec := rfl
@[simp] theorem Dev.onErr_err (f : ErrSt → ErrSt) : (d.onErr f).err = f d.err := rfl
@[simp] theorem Dev.onErr_host (f : ErrSt → ErrSt) : (d.onErr f).host = d.host := rfl
@[simp] theorem Dev.onErr_therm (f : ErrSt → ErrSt) : (d.onErr f).therm = d.therm := rfl
@[simp] theorem Dev.onErr_cfg (f : ErrSt → ErrSt) : (d.onErr f).cfg = d.cfg := rfl
@[simp] theorem Dev.onErr_out (f : ErrSt → ErrSt) : (d.onErr f).out = d.out := rfl
@[simp] theorem Dev.onErr_fresh (f : ErrSt → ErrSt) : (d.onErr f).fresh = d.fresh := rfl
@[simp] theorem Dev.onErr_useClock (f : ErrSt → ErrSt) : (d.onErr f).useClock = d.useClock := rfl
@[simp] theorem Dev.onErr_part (f : ErrSt → ErrSt) (r : Nat) : (d.onErr f).part r = d.part r := rfl
@[simp] theorem Dev.onErr_seq (f : ErrSt → ErrSt) (r j : Nat) : (d.onErr f).seq r j = d.seq r j := rfl
@[simp] theorem Dev.onErr_tile (f : ErrSt → ErrSt) (r : Nat) : (d.onErr f).tile r = d.tile r := rfl
@[simp] theorem Dev.onErr_hcSet (f : ErrSt → ErrSt) (r : Nat) : (d.onErr f).hcSet r = d.hcSet r := rfl
@[simp] theorem Dev.onErr_catEntry (f : ErrSt → ErrSt) (r : Nat) : (d.onErr f).catEntry r = d.catEntry r := rfl
@[simp] theorem Dev.onErr_base (f : ErrSt → ErrSt) (r : Nat) : (d.onErr f).base r = d.base r := rfl
@[simp] theorem Dev.onErr_port (f : ErrSt → ErrSt) (r : Nat) : (d.onErr f).port r = d.port r := rfl
@[simp] theorem Dev.onErr_fn (f : ErrSt → ErrSt) (r : Nat) : (d.onErr f).fn r = d.fn r := rfl
@[simp] theorem Dev.onErr_shared (f : ErrSt → ErrSt) (r : Nat) : (d.onErr f).shared r = d.shared r := rfl
@[simp] theorem Dev.onErr_beat (f : ErrSt → ErrSt) : (d.onErr f).beat = d.beat := rfl

/-! ## onSec -/

@[simp] theorem Dev.onSec_parts (f : Sec → Sec) : (d.onSec f).parts = d.parts := rfl
@[simp] theorem Dev.onSec_tiles (f : Sec → Sec) : (d.onSec f).tiles = d.tiles := rfl
@[simp] theorem Dev.onSec_hc (f : Sec → Sec) : (d.onSec f).hc = d.hc := rfl
@[simp] theorem Dev.onSec_mem (f : Sec → Sec) : (d.onSec f).mem = d.mem := rfl
@[simp] theorem Dev.onSec_sram (f : Sec → Sec) : (d.onSec f).sram = d.sram := rfl
@[simp] theorem Dev.onSec_sramBad (f : Sec → Sec) : (d.onSec f).sramBad = d.sramBad := rfl
@[simp] theorem Dev.onSec_cat (f : Sec → Sec) : (d.onSec f).cat = d.cat := rfl
@[simp] theorem Dev.onSec_bases (f : Sec → Sec) : (d.onSec f).bases = d.bases := rfl
@[simp] theorem Dev.onSec_lnk (f : Sec → Sec) : (d.onSec f).lnk = d.lnk := rfl
@[simp] theorem Dev.onSec_ckr (f : Sec → Sec) : (d.onSec f).ckr = d.ckr := rfl
@[simp] theorem Dev.onSec_pins (f : Sec → Sec) : (d.onSec f).pins = d.pins := rfl
@[simp] theorem Dev.onSec_persist (f : Sec → Sec) : (d.onSec f).persist = d.persist := rfl
@[simp] theorem Dev.onSec_sec (f : Sec → Sec) : (d.onSec f).sec = f d.sec := rfl
@[simp] theorem Dev.onSec_err (f : Sec → Sec) : (d.onSec f).err = d.err := rfl
@[simp] theorem Dev.onSec_host (f : Sec → Sec) : (d.onSec f).host = d.host := rfl
@[simp] theorem Dev.onSec_therm (f : Sec → Sec) : (d.onSec f).therm = d.therm := rfl
@[simp] theorem Dev.onSec_cfg (f : Sec → Sec) : (d.onSec f).cfg = d.cfg := rfl
@[simp] theorem Dev.onSec_out (f : Sec → Sec) : (d.onSec f).out = d.out := rfl
@[simp] theorem Dev.onSec_fresh (f : Sec → Sec) : (d.onSec f).fresh = d.fresh := rfl
@[simp] theorem Dev.onSec_useClock (f : Sec → Sec) : (d.onSec f).useClock = d.useClock := rfl
@[simp] theorem Dev.onSec_part (f : Sec → Sec) (r : Nat) : (d.onSec f).part r = d.part r := rfl
@[simp] theorem Dev.onSec_seq (f : Sec → Sec) (r j : Nat) : (d.onSec f).seq r j = d.seq r j := rfl
@[simp] theorem Dev.onSec_tile (f : Sec → Sec) (r : Nat) : (d.onSec f).tile r = d.tile r := rfl
@[simp] theorem Dev.onSec_hcSet (f : Sec → Sec) (r : Nat) : (d.onSec f).hcSet r = d.hcSet r := rfl
@[simp] theorem Dev.onSec_catEntry (f : Sec → Sec) (r : Nat) : (d.onSec f).catEntry r = d.catEntry r := rfl
@[simp] theorem Dev.onSec_base (f : Sec → Sec) (r : Nat) : (d.onSec f).base r = d.base r := rfl
@[simp] theorem Dev.onSec_port (f : Sec → Sec) (r : Nat) : (d.onSec f).port r = d.port r := rfl
@[simp] theorem Dev.onSec_fn (f : Sec → Sec) (r : Nat) : (d.onSec f).fn r = d.fn r := rfl
@[simp] theorem Dev.onSec_beat (f : Sec → Sec) : (d.onSec f).beat = d.beat := rfl

/-! ## onHost -/

@[simp] theorem Dev.onHost_parts (f : HostSt → HostSt) : (d.onHost f).parts = d.parts := rfl
@[simp] theorem Dev.onHost_tiles (f : HostSt → HostSt) : (d.onHost f).tiles = d.tiles := rfl
@[simp] theorem Dev.onHost_hc (f : HostSt → HostSt) : (d.onHost f).hc = d.hc := rfl
@[simp] theorem Dev.onHost_mem (f : HostSt → HostSt) : (d.onHost f).mem = d.mem := rfl
@[simp] theorem Dev.onHost_sram (f : HostSt → HostSt) : (d.onHost f).sram = d.sram := rfl
@[simp] theorem Dev.onHost_sramBad (f : HostSt → HostSt) : (d.onHost f).sramBad = d.sramBad := rfl
@[simp] theorem Dev.onHost_cat (f : HostSt → HostSt) : (d.onHost f).cat = d.cat := rfl
@[simp] theorem Dev.onHost_bases (f : HostSt → HostSt) : (d.onHost f).bases = d.bases := rfl
@[simp] theorem Dev.onHost_lnk (f : HostSt → HostSt) : (d.onHost f).lnk = d.lnk := rfl
@[simp] theorem Dev.onHost_ckr (f : HostSt → HostSt) : (d.onHost f).ckr = d.ckr := rfl
@[simp] theorem Dev.onHost_pins (f : HostSt → HostSt) : (d.onHost f).pins = d.pins := rfl
@[simp] theorem Dev.onHost_persist (f : HostSt → HostSt) : (d.onHost f).persist = d.persist := rfl
@[simp] theorem Dev.onHost_sec (f : HostSt → HostSt) : (d.onHost f).sec = d.sec := rfl
@[simp] theorem Dev.onHost_err (f : HostSt → HostSt) : (d.onHost f).err = d.err := rfl
@[simp] theorem Dev.onHost_host (f : HostSt → HostSt) : (d.onHost f).host = f d.host := rfl
@[simp] theorem Dev.onHost_therm (f : HostSt → HostSt) : (d.onHost f).therm = d.therm := rfl
@[simp] theorem Dev.onHost_cfg (f : HostSt → HostSt) : (d.onHost f).cfg = d.cfg := rfl
@[simp] theorem Dev.onHost_out (f : HostSt → HostSt) : (d.onHost f).out = d.out := rfl
@[simp] theorem Dev.onHost_fresh (f : HostSt → HostSt) : (d.onHost f).fresh = d.fresh := rfl
@[simp] theorem Dev.onHost_useClock (f : HostSt → HostSt) : (d.onHost f).useClock = d.useClock := rfl
@[simp] theorem Dev.onHost_part (f : HostSt → HostSt) (r : Nat) : (d.onHost f).part r = d.part r := rfl
@[simp] theorem Dev.onHost_seq (f : HostSt → HostSt) (r j : Nat) : (d.onHost f).seq r j = d.seq r j := rfl
@[simp] theorem Dev.onHost_tile (f : HostSt → HostSt) (r : Nat) : (d.onHost f).tile r = d.tile r := rfl
@[simp] theorem Dev.onHost_hcSet (f : HostSt → HostSt) (r : Nat) : (d.onHost f).hcSet r = d.hcSet r := rfl
@[simp] theorem Dev.onHost_catEntry (f : HostSt → HostSt) (r : Nat) : (d.onHost f).catEntry r = d.catEntry r := rfl
@[simp] theorem Dev.onHost_base (f : HostSt → HostSt) (r : Nat) : (d.onHost f).base r = d.base r := rfl
@[simp] theorem Dev.onHost_port (f : HostSt → HostSt) (r : Nat) : (d.onHost f).port r = d.port r := rfl
@[simp] theorem Dev.onHost_shared (f : HostSt → HostSt) (r : Nat) : (d.onHost f).shared r = d.shared r := rfl
@[simp] theorem Dev.onHost_beat (f : HostSt → HostSt) : (d.onHost f).beat = d.beat := rfl

/-! ## onPins -/

@[simp] theorem Dev.onPins_parts (f : Pins → Pins) : (d.onPins f).parts = d.parts := rfl
@[simp] theorem Dev.onPins_tiles (f : Pins → Pins) : (d.onPins f).tiles = d.tiles := rfl
@[simp] theorem Dev.onPins_hc (f : Pins → Pins) : (d.onPins f).hc = d.hc := rfl
@[simp] theorem Dev.onPins_mem (f : Pins → Pins) : (d.onPins f).mem = d.mem := rfl
@[simp] theorem Dev.onPins_sram (f : Pins → Pins) : (d.onPins f).sram = d.sram := rfl
@[simp] theorem Dev.onPins_sramBad (f : Pins → Pins) : (d.onPins f).sramBad = d.sramBad := rfl
@[simp] theorem Dev.onPins_cat (f : Pins → Pins) : (d.onPins f).cat = d.cat := rfl
@[simp] theorem Dev.onPins_bases (f : Pins → Pins) : (d.onPins f).bases = d.bases := rfl
@[simp] theorem Dev.onPins_lnk (f : Pins → Pins) : (d.onPins f).lnk = d.lnk := rfl
@[simp] theorem Dev.onPins_ckr (f : Pins → Pins) : (d.onPins f).ckr = d.ckr := rfl
@[simp] theorem Dev.onPins_pins (f : Pins → Pins) : (d.onPins f).pins = f d.pins := rfl
@[simp] theorem Dev.onPins_persist (f : Pins → Pins) : (d.onPins f).persist = d.persist := rfl
@[simp] theorem Dev.onPins_sec (f : Pins → Pins) : (d.onPins f).sec = d.sec := rfl
@[simp] theorem Dev.onPins_err (f : Pins → Pins) : (d.onPins f).err = d.err := rfl
@[simp] theorem Dev.onPins_host (f : Pins → Pins) : (d.onPins f).host = d.host := rfl
@[simp] theorem Dev.onPins_therm (f : Pins → Pins) : (d.onPins f).therm = d.therm := rfl
@[simp] theorem Dev.onPins_cfg (f : Pins → Pins) : (d.onPins f).cfg = d.cfg := rfl
@[simp] theorem Dev.onPins_out (f : Pins → Pins) : (d.onPins f).out = d.out := rfl
@[simp] theorem Dev.onPins_fresh (f : Pins → Pins) : (d.onPins f).fresh = d.fresh := rfl
@[simp] theorem Dev.onPins_useClock (f : Pins → Pins) : (d.onPins f).useClock = d.useClock := rfl
@[simp] theorem Dev.onPins_part (f : Pins → Pins) (r : Nat) : (d.onPins f).part r = d.part r := rfl
@[simp] theorem Dev.onPins_seq (f : Pins → Pins) (r j : Nat) : (d.onPins f).seq r j = d.seq r j := rfl
@[simp] theorem Dev.onPins_tile (f : Pins → Pins) (r : Nat) : (d.onPins f).tile r = d.tile r := rfl
@[simp] theorem Dev.onPins_hcSet (f : Pins → Pins) (r : Nat) : (d.onPins f).hcSet r = d.hcSet r := rfl
@[simp] theorem Dev.onPins_catEntry (f : Pins → Pins) (r : Nat) : (d.onPins f).catEntry r = d.catEntry r := rfl
@[simp] theorem Dev.onPins_base (f : Pins → Pins) (r : Nat) : (d.onPins f).base r = d.base r := rfl
@[simp] theorem Dev.onPins_port (f : Pins → Pins) (r : Nat) : (d.onPins f).port r = d.port r := rfl
@[simp] theorem Dev.onPins_fn (f : Pins → Pins) (r : Nat) : (d.onPins f).fn r = d.fn r := rfl
@[simp] theorem Dev.onPins_shared (f : Pins → Pins) (r : Nat) : (d.onPins f).shared r = d.shared r := rfl
@[simp] theorem Dev.onPins_beat (f : Pins → Pins) : (d.onPins f).beat = d.beat := rfl

/-! ## onFn -/

@[simp] theorem Dev.onFn_parts (n : Nat) (f : FnSt → FnSt) : (d.onFn n f).parts = d.parts := rfl
@[simp] theorem Dev.onFn_tiles (n : Nat) (f : FnSt → FnSt) : (d.onFn n f).tiles = d.tiles := rfl
@[simp] theorem Dev.onFn_hc (n : Nat) (f : FnSt → FnSt) : (d.onFn n f).hc = d.hc := rfl
@[simp] theorem Dev.onFn_mem (n : Nat) (f : FnSt → FnSt) : (d.onFn n f).mem = d.mem := rfl
@[simp] theorem Dev.onFn_sram (n : Nat) (f : FnSt → FnSt) : (d.onFn n f).sram = d.sram := rfl
@[simp] theorem Dev.onFn_sramBad (n : Nat) (f : FnSt → FnSt) : (d.onFn n f).sramBad = d.sramBad := rfl
@[simp] theorem Dev.onFn_cat (n : Nat) (f : FnSt → FnSt) : (d.onFn n f).cat = d.cat := rfl
@[simp] theorem Dev.onFn_bases (n : Nat) (f : FnSt → FnSt) : (d.onFn n f).bases = d.bases := rfl
@[simp] theorem Dev.onFn_lnk (n : Nat) (f : FnSt → FnSt) : (d.onFn n f).lnk = d.lnk := rfl
@[simp] theorem Dev.onFn_ckr (n : Nat) (f : FnSt → FnSt) : (d.onFn n f).ckr = d.ckr := rfl
@[simp] theorem Dev.onFn_pins (n : Nat) (f : FnSt → FnSt) : (d.onFn n f).pins = d.pins := rfl
@[simp] theorem Dev.onFn_persist (n : Nat) (f : FnSt → FnSt) : (d.onFn n f).persist = d.persist := rfl
@[simp] theorem Dev.onFn_sec (n : Nat) (f : FnSt → FnSt) : (d.onFn n f).sec = d.sec := rfl
@[simp] theorem Dev.onFn_err (n : Nat) (f : FnSt → FnSt) : (d.onFn n f).err = d.err := rfl
@[simp] theorem Dev.onFn_therm (n : Nat) (f : FnSt → FnSt) : (d.onFn n f).therm = d.therm := rfl
@[simp] theorem Dev.onFn_cfg (n : Nat) (f : FnSt → FnSt) : (d.onFn n f).cfg = d.cfg := rfl
@[simp] theorem Dev.onFn_out (n : Nat) (f : FnSt → FnSt) : (d.onFn n f).out = d.out := rfl
@[simp] theorem Dev.onFn_fresh (n : Nat) (f : FnSt → FnSt) : (d.onFn n f).fresh = d.fresh := rfl
@[simp] theorem Dev.onFn_useClock (n : Nat) (f : FnSt → FnSt) : (d.onFn n f).useClock = d.useClock := rfl
@[simp] theorem Dev.onFn_part (n : Nat) (f : FnSt → FnSt) (r : Nat) : (d.onFn n f).part r = d.part r := rfl
@[simp] theorem Dev.onFn_seq (n : Nat) (f : FnSt → FnSt) (r j : Nat) : (d.onFn n f).seq r j = d.seq r j := rfl
@[simp] theorem Dev.onFn_tile (n : Nat) (f : FnSt → FnSt) (r : Nat) : (d.onFn n f).tile r = d.tile r := rfl
@[simp] theorem Dev.onFn_hcSet (n : Nat) (f : FnSt → FnSt) (r : Nat) : (d.onFn n f).hcSet r = d.hcSet r := rfl
@[simp] theorem Dev.onFn_catEntry (n : Nat) (f : FnSt → FnSt) (r : Nat) : (d.onFn n f).catEntry r = d.catEntry r := rfl
@[simp] theorem Dev.onFn_base (n : Nat) (f : FnSt → FnSt) (r : Nat) : (d.onFn n f).base r = d.base r := rfl
@[simp] theorem Dev.onFn_port (n : Nat) (f : FnSt → FnSt) (r : Nat) : (d.onFn n f).port r = d.port r := rfl
@[simp] theorem Dev.onFn_shared (n : Nat) (f : FnSt → FnSt) (r : Nat) : (d.onFn n f).shared r = d.shared r := rfl
@[simp] theorem Dev.onFn_beat (n : Nat) (f : FnSt → FnSt) : (d.onFn n f).beat = d.beat := rfl

/-! ## onVf -/

@[simp] theorem Dev.onVf_tiles (p : Nat) (f : Vf → Vf) : (d.onVf p f).tiles = d.tiles := rfl
@[simp] theorem Dev.onVf_hc (p : Nat) (f : Vf → Vf) : (d.onVf p f).hc = d.hc := rfl
@[simp] theorem Dev.onVf_mem (p : Nat) (f : Vf → Vf) : (d.onVf p f).mem = d.mem := rfl
@[simp] theorem Dev.onVf_sram (p : Nat) (f : Vf → Vf) : (d.onVf p f).sram = d.sram := rfl
@[simp] theorem Dev.onVf_sramBad (p : Nat) (f : Vf → Vf) : (d.onVf p f).sramBad = d.sramBad := rfl
@[simp] theorem Dev.onVf_cat (p : Nat) (f : Vf → Vf) : (d.onVf p f).cat = d.cat := rfl
@[simp] theorem Dev.onVf_bases (p : Nat) (f : Vf → Vf) : (d.onVf p f).bases = d.bases := rfl
@[simp] theorem Dev.onVf_lnk (p : Nat) (f : Vf → Vf) : (d.onVf p f).lnk = d.lnk := rfl
@[simp] theorem Dev.onVf_ckr (p : Nat) (f : Vf → Vf) : (d.onVf p f).ckr = d.ckr := rfl
@[simp] theorem Dev.onVf_pins (p : Nat) (f : Vf → Vf) : (d.onVf p f).pins = d.pins := rfl
@[simp] theorem Dev.onVf_persist (p : Nat) (f : Vf → Vf) : (d.onVf p f).persist = d.persist := rfl
@[simp] theorem Dev.onVf_sec (p : Nat) (f : Vf → Vf) : (d.onVf p f).sec = d.sec := rfl
@[simp] theorem Dev.onVf_err (p : Nat) (f : Vf → Vf) : (d.onVf p f).err = d.err := rfl
@[simp] theorem Dev.onVf_host (p : Nat) (f : Vf → Vf) : (d.onVf p f).host = d.host := rfl
@[simp] theorem Dev.onVf_therm (p : Nat) (f : Vf → Vf) : (d.onVf p f).therm = d.therm := rfl
@[simp] theorem Dev.onVf_cfg (p : Nat) (f : Vf → Vf) : (d.onVf p f).cfg = d.cfg := rfl
@[simp] theorem Dev.onVf_out (p : Nat) (f : Vf → Vf) : (d.onVf p f).out = d.out := rfl
@[simp] theorem Dev.onVf_fresh (p : Nat) (f : Vf → Vf) : (d.onVf p f).fresh = d.fresh := rfl
@[simp] theorem Dev.onVf_useClock (p : Nat) (f : Vf → Vf) : (d.onVf p f).useClock = d.useClock := rfl
@[simp] theorem Dev.onVf_tile (p : Nat) (f : Vf → Vf) (r : Nat) : (d.onVf p f).tile r = d.tile r := rfl
@[simp] theorem Dev.onVf_hcSet (p : Nat) (f : Vf → Vf) (r : Nat) : (d.onVf p f).hcSet r = d.hcSet r := rfl
@[simp] theorem Dev.onVf_catEntry (p : Nat) (f : Vf → Vf) (r : Nat) : (d.onVf p f).catEntry r = d.catEntry r := rfl
@[simp] theorem Dev.onVf_base (p : Nat) (f : Vf → Vf) (r : Nat) : (d.onVf p f).base r = d.base r := rfl
@[simp] theorem Dev.onVf_port (p : Nat) (f : Vf → Vf) (r : Nat) : (d.onVf p f).port r = d.port r := rfl
@[simp] theorem Dev.onVf_fn (p : Nat) (f : Vf → Vf) (r : Nat) : (d.onVf p f).fn r = d.fn r := rfl
@[simp] theorem Dev.onVf_shared (p : Nat) (f : Vf → Vf) (r : Nat) : (d.onVf p f).shared r = d.shared r := rfl
@[simp] theorem Dev.onVf_beat (p : Nat) (f : Vf → Vf) : (d.onVf p f).beat = d.beat := rfl

/-! ## emit -/

@[simp] theorem Dev.emit_parts (o : Out) : (d.emit o).parts = d.parts := rfl
@[simp] theorem Dev.emit_tiles (o : Out) : (d.emit o).tiles = d.tiles := rfl
@[simp] theorem Dev.emit_hc (o : Out) : (d.emit o).hc = d.hc := rfl
@[simp] theorem Dev.emit_mem (o : Out) : (d.emit o).mem = d.mem := rfl
@[simp] theorem Dev.emit_sram (o : Out) : (d.emit o).sram = d.sram := rfl
@[simp] theorem Dev.emit_sramBad (o : Out) : (d.emit o).sramBad = d.sramBad := rfl
@[simp] theorem Dev.emit_cat (o : Out) : (d.emit o).cat = d.cat := rfl
@[simp] theorem Dev.emit_bases (o : Out) : (d.emit o).bases = d.bases := rfl
@[simp] theorem Dev.emit_lnk (o : Out) : (d.emit o).lnk = d.lnk := rfl
@[simp] theorem Dev.emit_ckr (o : Out) : (d.emit o).ckr = d.ckr := rfl
@[simp] theorem Dev.emit_pins (o : Out) : (d.emit o).pins = d.pins := rfl
@[simp] theorem Dev.emit_persist (o : Out) : (d.emit o).persist = d.persist := rfl
@[simp] theorem Dev.emit_sec (o : Out) : (d.emit o).sec = d.sec := rfl
@[simp] theorem Dev.emit_err (o : Out) : (d.emit o).err = d.err := rfl
@[simp] theorem Dev.emit_host (o : Out) : (d.emit o).host = d.host := rfl
@[simp] theorem Dev.emit_therm (o : Out) : (d.emit o).therm = d.therm := rfl
@[simp] theorem Dev.emit_cfg (o : Out) : (d.emit o).cfg = d.cfg := rfl
@[simp] theorem Dev.emit_out (o : Out) : (d.emit o).out = o :: d.out := rfl
@[simp] theorem Dev.emit_fresh (o : Out) : (d.emit o).fresh = d.fresh := rfl
@[simp] theorem Dev.emit_useClock (o : Out) : (d.emit o).useClock = d.useClock := rfl
@[simp] theorem Dev.emit_part (o : Out) (r : Nat) : (d.emit o).part r = d.part r := rfl
@[simp] theorem Dev.emit_seq (o : Out) (r j : Nat) : (d.emit o).seq r j = d.seq r j := rfl
@[simp] theorem Dev.emit_tile (o : Out) (r : Nat) : (d.emit o).tile r = d.tile r := rfl
@[simp] theorem Dev.emit_hcSet (o : Out) (r : Nat) : (d.emit o).hcSet r = d.hcSet r := rfl
@[simp] theorem Dev.emit_catEntry (o : Out) (r : Nat) : (d.emit o).catEntry r = d.catEntry r := rfl
@[simp] theorem Dev.emit_base (o : Out) (r : Nat) : (d.emit o).base r = d.base r := rfl
@[simp] theorem Dev.emit_port (o : Out) (r : Nat) : (d.emit o).port r = d.port r := rfl
@[simp] theorem Dev.emit_fn (o : Out) (r : Nat) : (d.emit o).fn r = d.fn r := rfl
@[simp] theorem Dev.emit_shared (o : Out) (r : Nat) : (d.emit o).shared r = d.shared r := rfl
@[simp] theorem Dev.emit_beat (o : Out) : (d.emit o).beat = d.beat := rfl

/-! ## onSeq -/

@[simp] theorem Dev.onSeq_tiles (p q : Nat) (f : Seq → Seq) : (d.onSeq p q f).tiles = d.tiles := rfl
@[simp] theorem Dev.onSeq_hc (p q : Nat) (f : Seq → Seq) : (d.onSeq p q f).hc = d.hc := rfl
@[simp] theorem Dev.onSeq_mem (p q : Nat) (f : Seq → Seq) : (d.onSeq p q f).mem = d.mem := rfl
@[simp] theorem Dev.onSeq_sram (p q : Nat) (f : Seq → Seq) : (d.onSeq p q f).sram = d.sram := rfl
@[simp] theorem Dev.onSeq_sramBad (p q : Nat) (f : Seq → Seq) : (d.onSeq p q f).sramBad = d.sramBad := rfl
@[simp] theorem Dev.onSeq_cat (p q : Nat) (f : Seq → Seq) : (d.onSeq p q f).cat = d.cat := rfl
@[simp] theorem Dev.onSeq_bases (p q : Nat) (f : Seq → Seq) : (d.onSeq p q f).bases = d.bases := rfl
@[simp] theorem Dev.onSeq_lnk (p q : Nat) (f : Seq → Seq) : (d.onSeq p q f).lnk = d.lnk := rfl
@[simp] theorem Dev.onSeq_ckr (p q : Nat) (f : Seq → Seq) : (d.onSeq p q f).ckr = d.ckr := rfl
@[simp] theorem Dev.onSeq_pins (p q : Nat) (f : Seq → Seq) : (d.onSeq p q f).pins = d.pins := rfl
@[simp] theorem Dev.onSeq_persist (p q : Nat) (f : Seq → Seq) : (d.onSeq p q f).persist = d.persist := rfl
@[simp] theorem Dev.onSeq_sec (p q : Nat) (f : Seq → Seq) : (d.onSeq p q f).sec = d.sec := rfl
@[simp] theorem Dev.onSeq_err (p q : Nat) (f : Seq → Seq) : (d.onSeq p q f).err = d.err := rfl
@[simp] theorem Dev.onSeq_host (p q : Nat) (f : Seq → Seq) : (d.onSeq p q f).host = d.host := rfl
@[simp] theorem Dev.onSeq_therm (p q : Nat) (f : Seq → Seq) : (d.onSeq p q f).therm = d.therm := rfl
@[simp] theorem Dev.onSeq_cfg (p q : Nat) (f : Seq → Seq) : (d.onSeq p q f).cfg = d.cfg := rfl
@[simp] theorem Dev.onSeq_out (p q : Nat) (f : Seq → Seq) : (d.onSeq p q f).out = d.out := rfl
@[simp] theorem Dev.onSeq_fresh (p q : Nat) (f : Seq → Seq) : (d.onSeq p q f).fresh = d.fresh := rfl
@[simp] theorem Dev.onSeq_useClock (p q : Nat) (f : Seq → Seq) : (d.onSeq p q f).useClock = d.useClock := rfl
@[simp] theorem Dev.onSeq_tile (p q : Nat) (f : Seq → Seq) (r : Nat) : (d.onSeq p q f).tile r = d.tile r := rfl
@[simp] theorem Dev.onSeq_hcSet (p q : Nat) (f : Seq → Seq) (r : Nat) : (d.onSeq p q f).hcSet r = d.hcSet r := rfl
@[simp] theorem Dev.onSeq_catEntry (p q : Nat) (f : Seq → Seq) (r : Nat) : (d.onSeq p q f).catEntry r = d.catEntry r := rfl
@[simp] theorem Dev.onSeq_base (p q : Nat) (f : Seq → Seq) (r : Nat) : (d.onSeq p q f).base r = d.base r := rfl
@[simp] theorem Dev.onSeq_port (p q : Nat) (f : Seq → Seq) (r : Nat) : (d.onSeq p q f).port r = d.port r := rfl
@[simp] theorem Dev.onSeq_fn (p q : Nat) (f : Seq → Seq) (r : Nat) : (d.onSeq p q f).fn r = d.fn r := rfl
@[simp] theorem Dev.onSeq_shared (p q : Nat) (f : Seq → Seq) (r : Nat) : (d.onSeq p q f).shared r = d.shared r := rfl
@[simp] theorem Dev.onSeq_beat (p q : Nat) (f : Seq → Seq) : (d.onSeq p q f).beat = d.beat := rfl

/-! ## setShared -/

@[simp] theorem Dev.setShared_parts (n : Nat) (k : KGen) : (d.setShared n k).parts = d.parts := rfl
@[simp] theorem Dev.setShared_tiles (n : Nat) (k : KGen) : (d.setShared n k).tiles = d.tiles := rfl
@[simp] theorem Dev.setShared_hc (n : Nat) (k : KGen) : (d.setShared n k).hc = d.hc := rfl
@[simp] theorem Dev.setShared_mem (n : Nat) (k : KGen) : (d.setShared n k).mem = d.mem := rfl
@[simp] theorem Dev.setShared_sram (n : Nat) (k : KGen) : (d.setShared n k).sram = d.sram := rfl
@[simp] theorem Dev.setShared_sramBad (n : Nat) (k : KGen) : (d.setShared n k).sramBad = d.sramBad := rfl
@[simp] theorem Dev.setShared_cat (n : Nat) (k : KGen) : (d.setShared n k).cat = d.cat := rfl
@[simp] theorem Dev.setShared_bases (n : Nat) (k : KGen) : (d.setShared n k).bases = d.bases := rfl
@[simp] theorem Dev.setShared_lnk (n : Nat) (k : KGen) : (d.setShared n k).lnk = d.lnk := rfl
@[simp] theorem Dev.setShared_ckr (n : Nat) (k : KGen) : (d.setShared n k).ckr = d.ckr := rfl
@[simp] theorem Dev.setShared_pins (n : Nat) (k : KGen) : (d.setShared n k).pins = d.pins := rfl
@[simp] theorem Dev.setShared_persist (n : Nat) (k : KGen) : (d.setShared n k).persist = d.persist := rfl
@[simp] theorem Dev.setShared_err (n : Nat) (k : KGen) : (d.setShared n k).err = d.err := rfl
@[simp] theorem Dev.setShared_host (n : Nat) (k : KGen) : (d.setShared n k).host = d.host := rfl
@[simp] theorem Dev.setShared_therm (n : Nat) (k : KGen) : (d.setShared n k).therm = d.therm := rfl
@[simp] theorem Dev.setShared_cfg (n : Nat) (k : KGen) : (d.setShared n k).cfg = d.cfg := rfl
@[simp] theorem Dev.setShared_out (n : Nat) (k : KGen) : (d.setShared n k).out = d.out := rfl
@[simp] theorem Dev.setShared_fresh (n : Nat) (k : KGen) : (d.setShared n k).fresh = d.fresh := rfl
@[simp] theorem Dev.setShared_useClock (n : Nat) (k : KGen) : (d.setShared n k).useClock = d.useClock := rfl
@[simp] theorem Dev.setShared_part (n : Nat) (k : KGen) (r : Nat) : (d.setShared n k).part r = d.part r := rfl
@[simp] theorem Dev.setShared_seq (n : Nat) (k : KGen) (r j : Nat) : (d.setShared n k).seq r j = d.seq r j := rfl
@[simp] theorem Dev.setShared_tile (n : Nat) (k : KGen) (r : Nat) : (d.setShared n k).tile r = d.tile r := rfl
@[simp] theorem Dev.setShared_hcSet (n : Nat) (k : KGen) (r : Nat) : (d.setShared n k).hcSet r = d.hcSet r := rfl
@[simp] theorem Dev.setShared_catEntry (n : Nat) (k : KGen) (r : Nat) : (d.setShared n k).catEntry r = d.catEntry r := rfl
@[simp] theorem Dev.setShared_base (n : Nat) (k : KGen) (r : Nat) : (d.setShared n k).base r = d.base r := rfl
@[simp] theorem Dev.setShared_port (n : Nat) (k : KGen) (r : Nat) : (d.setShared n k).port r = d.port r := rfl
@[simp] theorem Dev.setShared_fn (n : Nat) (k : KGen) (r : Nat) : (d.setShared n k).fn r = d.fn r := rfl
@[simp] theorem Dev.setShared_beat (n : Nat) (k : KGen) : (d.setShared n k).beat = d.beat := rfl

/-! ## onMb -/

@[simp] theorem Dev.onMb_parts (m : Fin 2) (f : Mbox → Mbox) : (d.onMb m f).parts = d.parts := rfl
@[simp] theorem Dev.onMb_tiles (m : Fin 2) (f : Mbox → Mbox) : (d.onMb m f).tiles = d.tiles := rfl
@[simp] theorem Dev.onMb_hc (m : Fin 2) (f : Mbox → Mbox) : (d.onMb m f).hc = d.hc := rfl
@[simp] theorem Dev.onMb_mem (m : Fin 2) (f : Mbox → Mbox) : (d.onMb m f).mem = d.mem := rfl
@[simp] theorem Dev.onMb_sram (m : Fin 2) (f : Mbox → Mbox) : (d.onMb m f).sram = d.sram := rfl
@[simp] theorem Dev.onMb_sramBad (m : Fin 2) (f : Mbox → Mbox) : (d.onMb m f).sramBad = d.sramBad := rfl
@[simp] theorem Dev.onMb_cat (m : Fin 2) (f : Mbox → Mbox) : (d.onMb m f).cat = d.cat := rfl
@[simp] theorem Dev.onMb_bases (m : Fin 2) (f : Mbox → Mbox) : (d.onMb m f).bases = d.bases := rfl
@[simp] theorem Dev.onMb_lnk (m : Fin 2) (f : Mbox → Mbox) : (d.onMb m f).lnk = d.lnk := rfl
@[simp] theorem Dev.onMb_ckr (m : Fin 2) (f : Mbox → Mbox) : (d.onMb m f).ckr = d.ckr := rfl
@[simp] theorem Dev.onMb_pins (m : Fin 2) (f : Mbox → Mbox) : (d.onMb m f).pins = d.pins := rfl
@[simp] theorem Dev.onMb_persist (m : Fin 2) (f : Mbox → Mbox) : (d.onMb m f).persist = d.persist := rfl
@[simp] theorem Dev.onMb_sec (m : Fin 2) (f : Mbox → Mbox) : (d.onMb m f).sec = d.sec := rfl
@[simp] theorem Dev.onMb_err (m : Fin 2) (f : Mbox → Mbox) : (d.onMb m f).err = d.err := rfl
@[simp] theorem Dev.onMb_therm (m : Fin 2) (f : Mbox → Mbox) : (d.onMb m f).therm = d.therm := rfl
@[simp] theorem Dev.onMb_cfg (m : Fin 2) (f : Mbox → Mbox) : (d.onMb m f).cfg = d.cfg := rfl
@[simp] theorem Dev.onMb_out (m : Fin 2) (f : Mbox → Mbox) : (d.onMb m f).out = d.out := rfl
@[simp] theorem Dev.onMb_fresh (m : Fin 2) (f : Mbox → Mbox) : (d.onMb m f).fresh = d.fresh := rfl
@[simp] theorem Dev.onMb_useClock (m : Fin 2) (f : Mbox → Mbox) : (d.onMb m f).useClock = d.useClock := rfl
@[simp] theorem Dev.onMb_part (m : Fin 2) (f : Mbox → Mbox) (r : Nat) : (d.onMb m f).part r = d.part r := rfl
@[simp] theorem Dev.onMb_seq (m : Fin 2) (f : Mbox → Mbox) (r j : Nat) : (d.onMb m f).seq r j = d.seq r j := rfl
@[simp] theorem Dev.onMb_tile (m : Fin 2) (f : Mbox → Mbox) (r : Nat) : (d.onMb m f).tile r = d.tile r := rfl
@[simp] theorem Dev.onMb_hcSet (m : Fin 2) (f : Mbox → Mbox) (r : Nat) : (d.onMb m f).hcSet r = d.hcSet r := rfl
@[simp] theorem Dev.onMb_catEntry (m : Fin 2) (f : Mbox → Mbox) (r : Nat) : (d.onMb m f).catEntry r = d.catEntry r := rfl
@[simp] theorem Dev.onMb_base (m : Fin 2) (f : Mbox → Mbox) (r : Nat) : (d.onMb m f).base r = d.base r := rfl
@[simp] theorem Dev.onMb_port (m : Fin 2) (f : Mbox → Mbox) (r : Nat) : (d.onMb m f).port r = d.port r := rfl
@[simp] theorem Dev.onMb_shared (m : Fin 2) (f : Mbox → Mbox) (r : Nat) : (d.onMb m f).shared r = d.shared r := rfl
@[simp] theorem Dev.onMb_beat (m : Fin 2) (f : Mbox → Mbox) : (d.onMb m f).beat = d.beat := rfl

end Sys2Proof.Machine
end

