-- ==== Sys2Proof/Laws/Stacks.lean ====
section
/-! SUPPORT. Reads and writes of the stacks: they change the stacks, the records found on the way and the token buckets, and nothing
else; a read leaves every byte as it was, and a write keeps the canonical form. -/

namespace Sys2Proof.Machine

/-- What an access to the stacks may change. -/
def Dev.Touched (d t : Dev) : Prop :=
  ∃ m l b, t = { d with mem := m, err := { d.err with detected := d.err.detected ++ l }, buckets := b }

namespace Dev.Touched

variable {d t u : Dev}

theorem refl (d : Dev) : d.Touched d := ⟨d.mem, [], d.buckets, by simp⟩
theorem trans (h : d.Touched t) (k : t.Touched u) : d.Touched u := by
  obtain ⟨m, l, b, rfl⟩ := h; obtain ⟨m', l', b', rfl⟩ := k
  exact ⟨m', l ++ l', b', by simp [List.append_assoc]⟩
theorem foldl {α : Type} {f : Dev → α → Dev} (hf : ∀ d a, Dev.Touched d (f d a)) (l : List α) (d : Dev) : d.Touched (l.foldl f d) := by
  induction l generalizing d with
  | nil => exact refl d
  | cons a l ih => exact (hf d a).trans (ih (f d a))
theorem onMem (d : Dev) (f : MemSt → MemSt) : d.Touched (d.onMem f) := ⟨f d.mem, [], d.buckets, by simp [Dev.onMem]⟩
theorem record (d : Dev) (r : ErrRec) : d.Touched (d.record r) := ⟨d.mem, [{ r with beat := d.beat }], d.buckets, rfl⟩
theorem charge (d : Dev) (p r n : Nat) : d.Touched (d.charge p r n) := by
  unfold Dev.charge; split
  · exact refl d
  · exact ⟨d.mem, [], Tab.put d.buckets p (setAt (d.bucketsOf p) r ((d.bucket p r).ask r n)), by simp [Dev.onBucket]⟩

end Dev.Touched

/-! ## Reads -/

theorem Dev.memUe_touched (d : Dev) (p pa k : Nat) : d.Touched (d.memUe p pa k) := by
  unfold Dev.memUe; exact (Touched.onMem d _).trans (Touched.record _ _)
theorem Dev.memCe_touched (d : Dev) (p pa k : Nat) : d.Touched (d.memCe p pa k) := by unfold Dev.memCe; exact Touched.onMem d _
theorem Dev.readUnit_touched (d : Dev) (p : Nat) (gl : List Glitch) (x : Nat) : d.Touched (d.readUnit p gl x) := by
  unfold Dev.readUnit
  split
  · exact (Touched.onMem d _).trans (Dev.memUe_touched _ _ _ _)
  · exact (Touched.onMem d _).trans (Dev.memUe_touched _ _ _ _)
  · exact (Touched.onMem d _).trans (Dev.memUe_touched _ _ _ _)
  · split
    · exact d.memUe_touched p x 2
    · split
      · exact d.memCe_touched p x 0
      · exact d.memCe_touched p x 1
      · exact Touched.refl d
theorem Dev.readUnits_touched (d : Dev) (p : Nat) (gl : List Glitch) (l : List Nat) : d.Touched (d.readUnits p gl l) :=
  (Touched.charge d _ _ _).trans (Touched.foldl (fun d u => d.readUnit_touched p gl u) l _)
theorem Dev.memUe_bytes (d : Dev) (p pa k : Nat) : (d.memUe p pa k).mem.bytes = d.mem.bytes := rfl
theorem Dev.readUnit_bytes (d : Dev) (p : Nat) (gl : List Glitch) (x : Nat) : (d.readUnit p gl x).mem.bytes = d.mem.bytes := by
  unfold Dev.readUnit; (repeat' split) <;> rfl
theorem Dev.readFold_bytes (p : Nat) (gl : List Glitch) (l : List Nat) (d : Dev) :
    (l.foldl (fun d u => d.readUnit p gl u) d).mem.bytes = d.mem.bytes := by
  induction l generalizing d with
  | nil => rfl
  | cons x l ih => rw [List.foldl_cons, ih, Dev.readUnit_bytes]
@[simp] theorem Dev.charge_mem (d : Dev) (p r n : Nat) : (d.charge p r n).mem = d.mem := by unfold Dev.charge; split <;> rfl
theorem Dev.readUnits_bytes (d : Dev) (p : Nat) (gl : List Glitch) (l : List Nat) : (d.readUnits p gl l).mem.bytes = d.mem.bytes := by
  unfold Dev.readUnits; rw [Dev.readFold_bytes, Dev.charge_mem]
theorem Dev.readRange_touched (d : Dev) (p lo n : Nat) : d.Touched (d.readRange p lo n) :=
  Touched.foldl (fun d u => d.readUnit_touched p [] u) _ d
theorem Dev.readRange_bytes (d : Dev) (p lo n : Nat) : (d.readRange p lo n).mem.bytes = d.mem.bytes := Dev.readFold_bytes ..

/-! ## Writes -/

theorem Dev.rmw_touched (d : Dev) (p : Nat) (gl : List Glitch) (u : Nat) : d.Touched (d.rmw p gl u) := by
  unfold Dev.rmw; dsimp only; split
  · exact (d.readUnits_touched p gl [u]).trans (Touched.onMem _ _)
  · exact d.readUnits_touched p gl [u]
theorem Dev.rmw_bytes (d : Dev) (p : Nat) (gl : List Glitch) (u : Nat) : (d.rmw p gl u).mem.bytes = d.mem.bytes := by
  unfold Dev.rmw; dsimp only; split <;> exact d.readUnits_bytes p gl [u]
theorem Dev.beforeWrite_touched (d : Dev) (p : Nat) (gl : List Glitch) (pas : List Nat) : d.Touched (d.beforeWrite p gl pas) := by
  unfold Dev.beforeWrite
  refine Touched.foldl (fun d u => ?_) _ _
  split
  · exact d.readUnits_touched p gl [u]
  · split
    · exact d.rmw_touched p gl u
    · exact Touched.refl d
theorem Dev.beforeWrite_bytes (d : Dev) (p : Nat) (gl : List Glitch) (pas : List Nat) : (d.beforeWrite p gl pas).mem.bytes = d.mem.bytes := by
  have h : ∀ (l : List Nat) (d : Dev), (l.foldl (fun d u =>
      if tagFails gl u then d.readUnits p gl [u]
      else if (pas.filter fun a => a / 64 * 64 == u).length < 64 then d.rmw p gl u else d) d).mem.bytes = d.mem.bytes := by
    intro l; induction l with
    | nil => intro d; rfl
    | cons x l ih =>
      intro d; rw [List.foldl_cons, ih]; split
      · exact d.readUnits_bytes p gl [x]
      · split
        · exact d.rmw_bytes p gl x
        · rfl
  unfold Dev.beforeWrite; rw [h]
/-- One byte written for a partition. -/
theorem Dev.writePa_touched (d : Dev) (pa : Nat) (bs : List Byte) : d.Touched (d.writePa pa bs) := Touched.onMem d _
theorem Dev.writeServed_touched (d : Dev) (p : Nat) (gl : List Glitch) (xs : List (Nat × Byte)) : d.Touched (d.writeServed p gl xs) := by
  refine (d.beforeWrite_touched p gl _).trans (Touched.foldl (fun d x => ?_) _ _)
  dsimp only; split
  · exact (d.writePa_touched _ _).trans (Touched.onMem _ _)
  · exact d.writePa_touched _ _
theorem Dev.writeAll_touched (d : Dev) (p : Nat) (gl : List Glitch) (xs : List (Nat × Byte)) : d.Touched (d.writeAll p gl xs) :=
  (Touched.charge d _ _ _).trans (Dev.writeServed_touched _ p gl xs)
theorem Dev.storeBase_touched (d : Dev) (p pa : Nat) (bs : List Byte) : d.Touched (d.storeBase p pa bs) :=
  ((Touched.charge d _ _ _).trans (Dev.beforeWrite_touched _ p [] _)).trans (Dev.writePa_touched _ _ _)
theorem Dev.store_touched (d : Dev) (p : Nat) (gl : List Glitch) (pa : Nat) (bs : List Byte) : d.Touched (d.store p gl pa bs) := d.writeAll_touched ..
theorem Dev.poke_touched (d : Dev) (p a : Nat) (bs : List Byte) : d.Touched (d.poke p a bs) := d.writeAll_touched ..

/-! ## The canonical form -/

theorem Dev.Touched.sram_eq {d t : Dev} (h : d.Touched t) : t.sram = d.sram := by obtain ⟨m, l, b, rfl⟩ := h; rfl
theorem Dev.memOk_readUnit {d : Dev} (h : d.memOk) (p : Nat) (gl : List Glitch) (x : Nat) : (d.readUnit p gl x).memOk :=
  Dev.memOk_of_eq h (d.readUnit_bytes p gl x) (d.readUnit_touched p gl x).sram_eq
theorem Dev.memOk_readUnits {d : Dev} (h : d.memOk) (p : Nat) (gl : List Glitch) (l : List Nat) : (d.readUnits p gl l).memOk :=
  Dev.memOk_of_eq h (d.readUnits_bytes p gl l) (d.readUnits_touched p gl l).sram_eq
theorem Dev.memOk_readRange {d : Dev} (h : d.memOk) (p lo n : Nat) : (d.readRange p lo n).memOk :=
  Dev.memOk_of_eq h (d.readRange_bytes p lo n) (d.readRange_touched p lo n).sram_eq
theorem Dev.memOk_charge {d : Dev} (h : d.memOk) (p r n : Nat) : (d.charge p r n).memOk :=
  Dev.memOk_of_eq h (by rw [Dev.charge_mem]) (Touched.charge d p r n).sram_eq
theorem Dev.memOk_writeServed {d : Dev} (h : d.memOk) (p : Nat) (gl : List Glitch) (xs : List (Nat × Byte)) : (d.writeServed p gl xs).memOk := by
  refine Dev.memOk_foldl (fun d x h => ?_) _ (Dev.memOk_of_eq h (d.beforeWrite_bytes p gl _) (d.beforeWrite_touched p gl _).sram_eq)
  dsimp only; split
  · exact Dev.memOk_of_eq (Dev.memOk_writePa h _ _) rfl rfl
  · exact Dev.memOk_writePa h _ _
theorem Dev.memOk_writeAll {d : Dev} (h : d.memOk) (p : Nat) (gl : List Glitch) (xs : List (Nat × Byte)) : (d.writeAll p gl xs).memOk :=
  Dev.memOk_writeServed (Dev.memOk_charge h _ _ _) p gl xs
theorem Dev.memOk_storeBase {d : Dev} (h : d.memOk) (p pa : Nat) (bs : List Byte) : (d.storeBase p pa bs).memOk := by
  have h := Dev.memOk_charge h p 1 (unitBytes ((List.range bs.length).map (pa + ·)))
  exact Dev.memOk_writePa (Dev.memOk_of_eq h (Dev.beforeWrite_bytes _ p [] _) (Dev.beforeWrite_touched _ p [] _).sram_eq) _ _
theorem Dev.memOk_store {d : Dev} (h : d.memOk) (p : Nat) (gl : List Glitch) (pa : Nat) (bs : List Byte) : (d.store p gl pa bs).memOk :=
  Dev.memOk_writeAll h ..
theorem Dev.memOk_poke {d : Dev} (h : d.memOk) (p a : Nat) (bs : List Byte) : (d.poke p a bs).memOk := Dev.memOk_writeAll h ..

end Sys2Proof.Machine
end

