-- ==== Sys2Proof/Laws/Ops.lean ====
section
/-! SUPPORT. What each shared operation leaves alone: one lemma per field, so that no proof unfolds an operation to see it. -/

namespace Sys2Proof.Machine

/-! ## msix -/

@[simp] theorem Dev.msix_parts (d : Dev) (v i : Nat) : (d.msix v i).parts = d.parts := by unfold Dev.msix; (repeat' split) <;> simp
@[simp] theorem Dev.msix_tiles (d : Dev) (v i : Nat) : (d.msix v i).tiles = d.tiles := by unfold Dev.msix; (repeat' split) <;> simp
@[simp] theorem Dev.msix_hc (d : Dev) (v i : Nat) : (d.msix v i).hc = d.hc := by unfold Dev.msix; (repeat' split) <;> simp
@[simp] theorem Dev.msix_mem (d : Dev) (v i : Nat) : (d.msix v i).mem = d.mem := by unfold Dev.msix; (repeat' split) <;> simp
@[simp] theorem Dev.msix_sram (d : Dev) (v i : Nat) : (d.msix v i).sram = d.sram := by unfold Dev.msix; (repeat' split) <;> simp
@[simp] theorem Dev.msix_sramBad (d : Dev) (v i : Nat) : (d.msix v i).sramBad = d.sramBad := by unfold Dev.msix; (repeat' split) <;> simp
@[simp] theorem Dev.msix_cat (d : Dev) (v i : Nat) : (d.msix v i).cat = d.cat := by unfold Dev.msix; (repeat' split) <;> simp
@[simp] theorem Dev.msix_bases (d : Dev) (v i : Nat) : (d.msix v i).bases = d.bases := by unfold Dev.msix; (repeat' split) <;> simp
@[simp] theorem Dev.msix_lnk (d : Dev) (v i : Nat) : (d.msix v i).lnk = d.lnk := by unfold Dev.msix; (repeat' split) <;> simp
@[simp] theorem Dev.msix_ckr (d : Dev) (v i : Nat) : (d.msix v i).ckr = d.ckr := by unfold Dev.msix; (repeat' split) <;> simp
@[simp] theorem Dev.msix_pins (d : Dev) (v i : Nat) : (d.msix v i).pins = d.pins := by unfold Dev.msix; (repeat' split) <;> simp
@[simp] theorem Dev.msix_persist (d : Dev) (v i : Nat) : (d.msix v i).persist = d.persist := by unfold Dev.msix; (repeat' split) <;> simp
@[simp] theorem Dev.msix_sec (d : Dev) (v i : Nat) : (d.msix v i).sec = d.sec := by unfold Dev.msix; (repeat' split) <;> simp
@[simp] theorem Dev.msix_err (d : Dev) (v i : Nat) : (d.msix v i).err = d.err := by unfold Dev.msix; (repeat' split) <;> simp
@[simp] theorem Dev.msix_therm (d : Dev) (v i : Nat) : (d.msix v i).therm = d.therm := by unfold Dev.msix; (repeat' split) <;> simp
@[simp] theorem Dev.msix_cfg (d : Dev) (v i : Nat) : (d.msix v i).cfg = d.cfg := by unfold Dev.msix; (repeat' split) <;> simp
@[simp] theorem Dev.msix_fresh (d : Dev) (v i : Nat) : (d.msix v i).fresh = d.fresh := by unfold Dev.msix; (repeat' split) <;> simp
@[simp] theorem Dev.msix_useClock (d : Dev) (v i : Nat) : (d.msix v i).useClock = d.useClock := by unfold Dev.msix; (repeat' split) <;> simp
@[simp] theorem Dev.msix_part (d : Dev) (v i : Nat) (j : Nat) : (d.msix v i).part j = d.part j := by simp [Dev.part]
@[simp] theorem Dev.msix_tile (d : Dev) (v i : Nat) (j : Nat) : (d.msix v i).tile j = d.tile j := by simp [Dev.tile]
@[simp] theorem Dev.msix_hcSet (d : Dev) (v i : Nat) (j : Nat) : (d.msix v i).hcSet j = d.hcSet j := by simp [Dev.hcSet]
@[simp] theorem Dev.msix_catEntry (d : Dev) (v i : Nat) (j : Nat) : (d.msix v i).catEntry j = d.catEntry j := by simp [Dev.catEntry]
@[simp] theorem Dev.msix_base (d : Dev) (v i : Nat) (j : Nat) : (d.msix v i).base j = d.base j := by simp [Dev.base]
@[simp] theorem Dev.msix_port (d : Dev) (v i : Nat) (j : Nat) : (d.msix v i).port j = d.port j := by simp [Dev.port]
@[simp] theorem Dev.msix_shared (d : Dev) (v i : Nat) (j : Nat) : (d.msix v i).shared j = d.shared j := by simp [Dev.shared]
@[simp] theorem Dev.msix_beat (d : Dev) (v i : Nat) : (d.msix v i).beat  = d.beat := by simp [Dev.beat]

/-! ## pfEvent -/

@[simp] theorem Dev.pfEvent_parts (d : Dev) (i : Nat) : (d.pfEvent i).parts = d.parts := by simp [Dev.pfEvent]
@[simp] theorem Dev.pfEvent_tiles (d : Dev) (i : Nat) : (d.pfEvent i).tiles = d.tiles := by simp [Dev.pfEvent]
@[simp] theorem Dev.pfEvent_hc (d : Dev) (i : Nat) : (d.pfEvent i).hc = d.hc := by simp [Dev.pfEvent]
@[simp] theorem Dev.pfEvent_mem (d : Dev) (i : Nat) : (d.pfEvent i).mem = d.mem := by simp [Dev.pfEvent]
@[simp] theorem Dev.pfEvent_sram (d : Dev) (i : Nat) : (d.pfEvent i).sram = d.sram := by simp [Dev.pfEvent]
@[simp] theorem Dev.pfEvent_sramBad (d : Dev) (i : Nat) : (d.pfEvent i).sramBad = d.sramBad := by simp [Dev.pfEvent]
@[simp] theorem Dev.pfEvent_cat (d : Dev) (i : Nat) : (d.pfEvent i).cat = d.cat := by simp [Dev.pfEvent]
@[simp] theorem Dev.pfEvent_bases (d : Dev) (i : Nat) : (d.pfEvent i).bases = d.bases := by simp [Dev.pfEvent]
@[simp] theorem Dev.pfEvent_lnk (d : Dev) (i : Nat) : (d.pfEvent i).lnk = d.lnk := by simp [Dev.pfEvent]
@[simp] theorem Dev.pfEvent_ckr (d : Dev) (i : Nat) : (d.pfEvent i).ckr = d.ckr := by simp [Dev.pfEvent]
@[simp] theorem Dev.pfEvent_pins (d : Dev) (i : Nat) : (d.pfEvent i).pins = d.pins := by simp [Dev.pfEvent]
@[simp] theorem Dev.pfEvent_persist (d : Dev) (i : Nat) : (d.pfEvent i).persist = d.persist := by simp [Dev.pfEvent]
@[simp] theorem Dev.pfEvent_sec (d : Dev) (i : Nat) : (d.pfEvent i).sec = d.sec := by simp [Dev.pfEvent]
@[simp] theorem Dev.pfEvent_err (d : Dev) (i : Nat) : (d.pfEvent i).err = d.err := by simp [Dev.pfEvent]
@[simp] theorem Dev.pfEvent_therm (d : Dev) (i : Nat) : (d.pfEvent i).therm = d.therm := by simp [Dev.pfEvent]
@[simp] theorem Dev.pfEvent_cfg (d : Dev) (i : Nat) : (d.pfEvent i).cfg = d.cfg := by simp [Dev.pfEvent]
@[simp] theorem Dev.pfEvent_fresh (d : Dev) (i : Nat) : (d.pfEvent i).fresh = d.fresh := by simp [Dev.pfEvent]
@[simp] theorem Dev.pfEvent_useClock (d : Dev) (i : Nat) : (d.pfEvent i).useClock = d.useClock := by simp [Dev.pfEvent]
@[simp] theorem Dev.pfEvent_part (d : Dev) (i : Nat) (j : Nat) : (d.pfEvent i).part j = d.part j := by simp [Dev.part]
@[simp] theorem Dev.pfEvent_tile (d : Dev) (i : Nat) (j : Nat) : (d.pfEvent i).tile j = d.tile j := by simp [Dev.tile]
@[simp] theorem Dev.pfEvent_hcSet (d : Dev) (i : Nat) (j : Nat) : (d.pfEvent i).hcSet j = d.hcSet j := by simp [Dev.hcSet]
@[simp] theorem Dev.pfEvent_catEntry (d : Dev) (i : Nat) (j : Nat) : (d.pfEvent i).catEntry j = d.catEntry j := by simp [Dev.catEntry]
@[simp] theorem Dev.pfEvent_base (d : Dev) (i : Nat) (j : Nat) : (d.pfEvent i).base j = d.base j := by simp [Dev.base]
@[simp] theorem Dev.pfEvent_port (d : Dev) (i : Nat) (j : Nat) : (d.pfEvent i).port j = d.port j := by simp [Dev.port]
@[simp] theorem Dev.pfEvent_shared (d : Dev) (i : Nat) (j : Nat) : (d.pfEvent i).shared j = d.shared j := by simp [Dev.shared]
@[simp] theorem Dev.pfEvent_beat (d : Dev) (i : Nat) : (d.pfEvent i).beat  = d.beat := by simp [Dev.beat]

/-! ## vfEvent -/

@[simp] theorem Dev.vfEvent_tiles (d : Dev) (p b i : Nat) : (d.vfEvent p b i).tiles = d.tiles := by simp [Dev.vfEvent]
@[simp] theorem Dev.vfEvent_hc (d : Dev) (p b i : Nat) : (d.vfEvent p b i).hc = d.hc := by simp [Dev.vfEvent]
@[simp] theorem Dev.vfEvent_mem (d : Dev) (p b i : Nat) : (d.vfEvent p b i).mem = d.mem := by simp [Dev.vfEvent]
@[simp] theorem Dev.vfEvent_sram (d : Dev) (p b i : Nat) : (d.vfEvent p b i).sram = d.sram := by simp [Dev.vfEvent]
@[simp] theorem Dev.vfEvent_sramBad (d : Dev) (p b i : Nat) : (d.vfEvent p b i).sramBad = d.sramBad := by simp [Dev.vfEvent]
@[simp] theorem Dev.vfEvent_cat (d : Dev) (p b i : Nat) : (d.vfEvent p b i).cat = d.cat := by simp [Dev.vfEvent]
@[simp] theorem Dev.vfEvent_bases (d : Dev) (p b i : Nat) : (d.vfEvent p b i).bases = d.bases := by simp [Dev.vfEvent]
@[simp] theorem Dev.vfEvent_lnk (d : Dev) (p b i : Nat) : (d.vfEvent p b i).lnk = d.lnk := by simp [Dev.vfEvent]
@[simp] theorem Dev.vfEvent_ckr (d : Dev) (p b i : Nat) : (d.vfEvent p b i).ckr = d.ckr := by simp [Dev.vfEvent]
@[simp] theorem Dev.vfEvent_pins (d : Dev) (p b i : Nat) : (d.vfEvent p b i).pins = d.pins := by simp [Dev.vfEvent]
@[simp] theorem Dev.vfEvent_persist (d : Dev) (p b i : Nat) : (d.vfEvent p b i).persist = d.persist := by simp [Dev.vfEvent]
@[simp] theorem Dev.vfEvent_sec (d : Dev) (p b i : Nat) : (d.vfEvent p b i).sec = d.sec := by simp [Dev.vfEvent]
@[simp] theorem Dev.vfEvent_err (d : Dev) (p b i : Nat) : (d.vfEvent p b i).err = d.err := by simp [Dev.vfEvent]
@[simp] theorem Dev.vfEvent_therm (d : Dev) (p b i : Nat) : (d.vfEvent p b i).therm = d.therm := by simp [Dev.vfEvent]
@[simp] theorem Dev.vfEvent_cfg (d : Dev) (p b i : Nat) : (d.vfEvent p b i).cfg = d.cfg := by simp [Dev.vfEvent]
@[simp] theorem Dev.vfEvent_fresh (d : Dev) (p b i : Nat) : (d.vfEvent p b i).fresh = d.fresh := by simp [Dev.vfEvent]
@[simp] theorem Dev.vfEvent_useClock (d : Dev) (p b i : Nat) : (d.vfEvent p b i).useClock = d.useClock := by simp [Dev.vfEvent]
@[simp] theorem Dev.vfEvent_tile (d : Dev) (p b i : Nat) (j : Nat) : (d.vfEvent p b i).tile j = d.tile j := by simp [Dev.tile]
@[simp] theorem Dev.vfEvent_hcSet (d : Dev) (p b i : Nat) (j : Nat) : (d.vfEvent p b i).hcSet j = d.hcSet j := by simp [Dev.hcSet]
@[simp] theorem Dev.vfEvent_catEntry (d : Dev) (p b i : Nat) (j : Nat) : (d.vfEvent p b i).catEntry j = d.catEntry j := by simp [Dev.catEntry]
@[simp] theorem Dev.vfEvent_base (d : Dev) (p b i : Nat) (j : Nat) : (d.vfEvent p b i).base j = d.base j := by simp [Dev.base]
@[simp] theorem Dev.vfEvent_port (d : Dev) (p b i : Nat) (j : Nat) : (d.vfEvent p b i).port j = d.port j := by simp [Dev.port]
@[simp] theorem Dev.vfEvent_shared (d : Dev) (p b i : Nat) (j : Nat) : (d.vfEvent p b i).shared j = d.shared j := by simp [Dev.shared]
@[simp] theorem Dev.vfEvent_beat (d : Dev) (p b i : Nat) : (d.vfEvent p b i).beat  = d.beat := by simp [Dev.beat]

/-! ## The token buckets -/

@[simp] theorem Dev.charge_parts (d : Dev) (p r n : Nat) : (d.charge p r n).parts = d.parts := by unfold Dev.charge; split <;> rfl
@[simp] theorem Dev.charge_tiles (d : Dev) (p r n : Nat) : (d.charge p r n).tiles = d.tiles := by unfold Dev.charge; split <;> rfl
@[simp] theorem Dev.charge_hc (d : Dev) (p r n : Nat) : (d.charge p r n).hc = d.hc := by unfold Dev.charge; split <;> rfl
@[simp] theorem Dev.charge_sram (d : Dev) (p r n : Nat) : (d.charge p r n).sram = d.sram := by unfold Dev.charge; split <;> rfl
@[simp] theorem Dev.charge_sramBad (d : Dev) (p r n : Nat) : (d.charge p r n).sramBad = d.sramBad := by unfold Dev.charge; split <;> rfl
@[simp] theorem Dev.charge_cat (d : Dev) (p r n : Nat) : (d.charge p r n).cat = d.cat := by unfold Dev.charge; split <;> rfl
@[simp] theorem Dev.charge_bases (d : Dev) (p r n : Nat) : (d.charge p r n).bases = d.bases := by unfold Dev.charge; split <;> rfl
@[simp] theorem Dev.charge_lnk (d : Dev) (p r n : Nat) : (d.charge p r n).lnk = d.lnk := by unfold Dev.charge; split <;> rfl
@[simp] theorem Dev.charge_ckr (d : Dev) (p r n : Nat) : (d.charge p r n).ckr = d.ckr := by unfold Dev.charge; split <;> rfl
@[simp] theorem Dev.charge_pins (d : Dev) (p r n : Nat) : (d.charge p r n).pins = d.pins := by unfold Dev.charge; split <;> rfl
@[simp] theorem Dev.charge_persist (d : Dev) (p r n : Nat) : (d.charge p r n).persist = d.persist := by unfold Dev.charge; split <;> rfl
@[simp] theorem Dev.charge_sec (d : Dev) (p r n : Nat) : (d.charge p r n).sec = d.sec := by unfold Dev.charge; split <;> rfl
@[simp] theorem Dev.charge_err (d : Dev) (p r n : Nat) : (d.charge p r n).err = d.err := by unfold Dev.charge; split <;> rfl
@[simp] theorem Dev.charge_host (d : Dev) (p r n : Nat) : (d.charge p r n).host = d.host := by unfold Dev.charge; split <;> rfl
@[simp] theorem Dev.charge_therm (d : Dev) (p r n : Nat) : (d.charge p r n).therm = d.therm := by unfold Dev.charge; split <;> rfl
@[simp] theorem Dev.charge_cfg (d : Dev) (p r n : Nat) : (d.charge p r n).cfg = d.cfg := by unfold Dev.charge; split <;> rfl
@[simp] theorem Dev.charge_out (d : Dev) (p r n : Nat) : (d.charge p r n).out = d.out := by unfold Dev.charge; split <;> rfl
@[simp] theorem Dev.charge_fresh (d : Dev) (p r n : Nat) : (d.charge p r n).fresh = d.fresh := by unfold Dev.charge; split <;> rfl
@[simp] theorem Dev.charge_useClock (d : Dev) (p r n : Nat) : (d.charge p r n).useClock = d.useClock := by unfold Dev.charge; split <;> rfl
@[simp] theorem Dev.charge_part (d : Dev) (p r n : Nat) (j : Nat) : (d.charge p r n).part j = d.part j := by unfold Dev.charge; split <;> rfl
@[simp] theorem Dev.charge_tile (d : Dev) (p r n : Nat) (j : Nat) : (d.charge p r n).tile j = d.tile j := by unfold Dev.charge; split <;> rfl
@[simp] theorem Dev.charge_hcSet (d : Dev) (p r n : Nat) (j : Nat) : (d.charge p r n).hcSet j = d.hcSet j := by unfold Dev.charge; split <;> rfl
@[simp] theorem Dev.charge_catEntry (d : Dev) (p r n : Nat) (j : Nat) : (d.charge p r n).catEntry j = d.catEntry j := by unfold Dev.charge; split <;> rfl
@[simp] theorem Dev.charge_base (d : Dev) (p r n : Nat) (j : Nat) : (d.charge p r n).base j = d.base j := by unfold Dev.charge; split <;> rfl
@[simp] theorem Dev.charge_port (d : Dev) (p r n : Nat) (j : Nat) : (d.charge p r n).port j = d.port j := by unfold Dev.charge; split <;> rfl
@[simp] theorem Dev.charge_fn (d : Dev) (p r n : Nat) (j : Nat) : (d.charge p r n).fn j = d.fn j := by unfold Dev.charge; split <;> rfl
@[simp] theorem Dev.charge_shared (d : Dev) (p r n : Nat) (j : Nat) : (d.charge p r n).shared j = d.shared j := by unfold Dev.charge; split <;> rfl
@[simp] theorem Dev.charge_beat (d : Dev) (p r n : Nat) : (d.charge p r n).beat = d.beat := by unfold Dev.charge; split <;> rfl
@[simp] theorem Dev.dropWaiting_parts (d : Dev) (p : Nat) : (d.dropWaiting p).parts = d.parts := rfl
@[simp] theorem Dev.dropWaiting_tiles (d : Dev) (p : Nat) : (d.dropWaiting p).tiles = d.tiles := rfl
@[simp] theorem Dev.dropWaiting_hc (d : Dev) (p : Nat) : (d.dropWaiting p).hc = d.hc := rfl
@[simp] theorem Dev.dropWaiting_mem (d : Dev) (p : Nat) : (d.dropWaiting p).mem = d.mem := rfl
@[simp] theorem Dev.dropWaiting_sram (d : Dev) (p : Nat) : (d.dropWaiting p).sram = d.sram := rfl
@[simp] theorem Dev.dropWaiting_sramBad (d : Dev) (p : Nat) : (d.dropWaiting p).sramBad = d.sramBad := rfl
@[simp] theorem Dev.dropWaiting_cat (d : Dev) (p : Nat) : (d.dropWaiting p).cat = d.cat := rfl
@[simp] theorem Dev.dropWaiting_bases (d : Dev) (p : Nat) : (d.dropWaiting p).bases = d.bases := rfl
@[simp] theorem Dev.dropWaiting_lnk (d : Dev) (p : Nat) : (d.dropWaiting p).lnk = d.lnk := rfl
@[simp] theorem Dev.dropWaiting_ckr (d : Dev) (p : Nat) : (d.dropWaiting p).ckr = d.ckr := rfl
@[simp] theorem Dev.dropWaiting_pins (d : Dev) (p : Nat) : (d.dropWaiting p).pins = d.pins := rfl
@[simp] theorem Dev.dropWaiting_persist (d : Dev) (p : Nat) : (d.dropWaiting p).persist = d.persist := rfl
@[simp] theorem Dev.dropWaiting_sec (d : Dev) (p : Nat) : (d.dropWaiting p).sec = d.sec := rfl
@[simp] theorem Dev.dropWaiting_err (d : Dev) (p : Nat) : (d.dropWaiting p).err = d.err := rfl
@[simp] theorem Dev.dropWaiting_host (d : Dev) (p : Nat) : (d.dropWaiting p).host = d.host := rfl
@[simp] theorem Dev.dropWaiting_therm (d : Dev) (p : Nat) : (d.dropWaiting p).therm = d.therm := rfl
@[simp] theorem Dev.dropWaiting_cfg (d : Dev) (p : Nat) : (d.dropWaiting p).cfg = d.cfg := rfl
@[simp] theorem Dev.dropWaiting_out (d : Dev) (p : Nat) : (d.dropWaiting p).out = d.out := rfl
@[simp] theorem Dev.dropWaiting_fresh (d : Dev) (p : Nat) : (d.dropWaiting p).fresh = d.fresh := rfl
@[simp] theorem Dev.dropWaiting_useClock (d : Dev) (p : Nat) : (d.dropWaiting p).useClock = d.useClock := rfl
@[simp] theorem Dev.dropWaiting_part (d : Dev) (p : Nat) (j : Nat) : (d.dropWaiting p).part j = d.part j := rfl
@[simp] theorem Dev.dropWaiting_tile (d : Dev) (p : Nat) (j : Nat) : (d.dropWaiting p).tile j = d.tile j := rfl
@[simp] theorem Dev.dropWaiting_hcSet (d : Dev) (p : Nat) (j : Nat) : (d.dropWaiting p).hcSet j = d.hcSet j := rfl
@[simp] theorem Dev.dropWaiting_catEntry (d : Dev) (p : Nat) (j : Nat) : (d.dropWaiting p).catEntry j = d.catEntry j := rfl
@[simp] theorem Dev.dropWaiting_base (d : Dev) (p : Nat) (j : Nat) : (d.dropWaiting p).base j = d.base j := rfl
@[simp] theorem Dev.dropWaiting_port (d : Dev) (p : Nat) (j : Nat) : (d.dropWaiting p).port j = d.port j := rfl
@[simp] theorem Dev.dropWaiting_fn (d : Dev) (p : Nat) (j : Nat) : (d.dropWaiting p).fn j = d.fn j := rfl
@[simp] theorem Dev.dropWaiting_shared (d : Dev) (p : Nat) (j : Nat) : (d.dropWaiting p).shared j = d.shared j := rfl
@[simp] theorem Dev.dropWaiting_beat (d : Dev) (p : Nat) : (d.dropWaiting p).beat = d.beat := rfl
@[simp] theorem Dev.resetBuckets_parts (d : Dev) (p : Nat) : (d.resetBuckets p).parts = d.parts := rfl
@[simp] theorem Dev.resetBuckets_tiles (d : Dev) (p : Nat) : (d.resetBuckets p).tiles = d.tiles := rfl
@[simp] theorem Dev.resetBuckets_hc (d : Dev) (p : Nat) : (d.resetBuckets p).hc = d.hc := rfl
@[simp] theorem Dev.resetBuckets_mem (d : Dev) (p : Nat) : (d.resetBuckets p).mem = d.mem := rfl
@[simp] theorem Dev.resetBuckets_sram (d : Dev) (p : Nat) : (d.resetBuckets p).sram = d.sram := rfl
@[simp] theorem Dev.resetBuckets_sramBad (d : Dev) (p : Nat) : (d.resetBuckets p).sramBad = d.sramBad := rfl
@[simp] theorem Dev.resetBuckets_cat (d : Dev) (p : Nat) : (d.resetBuckets p).cat = d.cat := rfl
@[simp] theorem Dev.resetBuckets_bases (d : Dev) (p : Nat) : (d.resetBuckets p).bases = d.bases := rfl
@[simp] theorem Dev.resetBuckets_lnk (d : Dev) (p : Nat) : (d.resetBuckets p).lnk = d.lnk := rfl
@[simp] theorem Dev.resetBuckets_ckr (d : Dev) (p : Nat) : (d.resetBuckets p).ckr = d.ckr := rfl
@[simp] theorem Dev.resetBuckets_pins (d : Dev) (p : Nat) : (d.resetBuckets p).pins = d.pins := rfl
@[simp] theorem Dev.resetBuckets_persist (d : Dev) (p : Nat) : (d.resetBuckets p).persist = d.persist := rfl
@[simp] theorem Dev.resetBuckets_sec (d : Dev) (p : Nat) : (d.resetBuckets p).sec = d.sec := rfl
@[simp] theorem Dev.resetBuckets_err (d : Dev) (p : Nat) : (d.resetBuckets p).err = d.err := rfl
@[simp] theorem Dev.resetBuckets_host (d : Dev) (p : Nat) : (d.resetBuckets p).host = d.host := rfl
@[simp] theorem Dev.resetBuckets_therm (d : Dev) (p : Nat) : (d.resetBuckets p).therm = d.therm := rfl
@[simp] theorem Dev.resetBuckets_cfg (d : Dev) (p : Nat) : (d.resetBuckets p).cfg = d.cfg := rfl
@[simp] theorem Dev.resetBuckets_out (d : Dev) (p : Nat) : (d.resetBuckets p).out = d.out := rfl
@[simp] theorem Dev.resetBuckets_fresh (d : Dev) (p : Nat) : (d.resetBuckets p).fresh = d.fresh := rfl
@[simp] theorem Dev.resetBuckets_useClock (d : Dev) (p : Nat) : (d.resetBuckets p).useClock = d.useClock := rfl
@[simp] theorem Dev.resetBuckets_part (d : Dev) (p : Nat) (j : Nat) : (d.resetBuckets p).part j = d.part j := rfl
@[simp] theorem Dev.resetBuckets_tile (d : Dev) (p : Nat) (j : Nat) : (d.resetBuckets p).tile j = d.tile j := rfl
@[simp] theorem Dev.resetBuckets_hcSet (d : Dev) (p : Nat) (j : Nat) : (d.resetBuckets p).hcSet j = d.hcSet j := rfl
@[simp] theorem Dev.resetBuckets_catEntry (d : Dev) (p : Nat) (j : Nat) : (d.resetBuckets p).catEntry j = d.catEntry j := rfl
@[simp] theorem Dev.resetBuckets_base (d : Dev) (p : Nat) (j : Nat) : (d.resetBuckets p).base j = d.base j := rfl
@[simp] theorem Dev.resetBuckets_port (d : Dev) (p : Nat) (j : Nat) : (d.resetBuckets p).port j = d.port j := rfl
@[simp] theorem Dev.resetBuckets_fn (d : Dev) (p : Nat) (j : Nat) : (d.resetBuckets p).fn j = d.fn j := rfl
@[simp] theorem Dev.resetBuckets_shared (d : Dev) (p : Nat) (j : Nat) : (d.resetBuckets p).shared j = d.shared j := rfl
@[simp] theorem Dev.resetBuckets_beat (d : Dev) (p : Nat) : (d.resetBuckets p).beat = d.beat := rfl

/-! ## writeCqe -/

@[simp] theorem Dev.writeCqe_tiles (d : Dev) (p : Nat) (l : List Byte) : (d.writeCqe p l).tiles = d.tiles := by unfold Dev.writeCqe; dsimp only; split <;> simp
@[simp] theorem Dev.writeCqe_hc (d : Dev) (p : Nat) (l : List Byte) : (d.writeCqe p l).hc = d.hc := by unfold Dev.writeCqe; dsimp only; split <;> simp
@[simp] theorem Dev.writeCqe_mem (d : Dev) (p : Nat) (l : List Byte) : (d.writeCqe p l).mem = d.mem := by unfold Dev.writeCqe; dsimp only; split <;> simp
@[simp] theorem Dev.writeCqe_sram (d : Dev) (p : Nat) (l : List Byte) : (d.writeCqe p l).sram = d.sram := by unfold Dev.writeCqe; dsimp only; split <;> simp
@[simp] theorem Dev.writeCqe_sramBad (d : Dev) (p : Nat) (l : List Byte) : (d.writeCqe p l).sramBad = d.sramBad := by unfold Dev.writeCqe; dsimp only; split <;> simp
@[simp] theorem Dev.writeCqe_cat (d : Dev) (p : Nat) (l : List Byte) : (d.writeCqe p l).cat = d.cat := by unfold Dev.writeCqe; dsimp only; split <;> simp
@[simp] theorem Dev.writeCqe_bases (d : Dev) (p : Nat) (l : List Byte) : (d.writeCqe p l).bases = d.bases := by unfold Dev.writeCqe; dsimp only; split <;> simp
@[simp] theorem Dev.writeCqe_lnk (d : Dev) (p : Nat) (l : List Byte) : (d.writeCqe p l).lnk = d.lnk := by unfold Dev.writeCqe; dsimp only; split <;> simp
@[simp] theorem Dev.writeCqe_ckr (d : Dev) (p : Nat) (l : List Byte) : (d.writeCqe p l).ckr = d.ckr := by unfold Dev.writeCqe; dsimp only; split <;> simp
@[simp] theorem Dev.writeCqe_pins (d : Dev) (p : Nat) (l : List Byte) : (d.writeCqe p l).pins = d.pins := by unfold Dev.writeCqe; dsimp only; split <;> simp
@[simp] theorem Dev.writeCqe_persist (d : Dev) (p : Nat) (l : List Byte) : (d.writeCqe p l).persist = d.persist := by unfold Dev.writeCqe; dsimp only; split <;> simp
@[simp] theorem Dev.writeCqe_sec (d : Dev) (p : Nat) (l : List Byte) : (d.writeCqe p l).sec = d.sec := by unfold Dev.writeCqe; dsimp only; split <;> simp
@[simp] theorem Dev.writeCqe_err (d : Dev) (p : Nat) (l : List Byte) : (d.writeCqe p l).err = d.err := by unfold Dev.writeCqe; dsimp only; split <;> simp
@[simp] theorem Dev.writeCqe_therm (d : Dev) (p : Nat) (l : List Byte) : (d.writeCqe p l).therm = d.therm := by unfold Dev.writeCqe; dsimp only; split <;> simp
@[simp] theorem Dev.writeCqe_cfg (d : Dev) (p : Nat) (l : List Byte) : (d.writeCqe p l).cfg = d.cfg := by unfold Dev.writeCqe; dsimp only; split <;> simp
@[simp] theorem Dev.writeCqe_fresh (d : Dev) (p : Nat) (l : List Byte) : (d.writeCqe p l).fresh = d.fresh := by unfold Dev.writeCqe; dsimp only; split <;> simp
@[simp] theorem Dev.writeCqe_useClock (d : Dev) (p : Nat) (l : List Byte) : (d.writeCqe p l).useClock = d.useClock := by unfold Dev.writeCqe; dsimp only; split <;> simp
@[simp] theorem Dev.writeCqe_tile (d : Dev) (p : Nat) (l : List Byte) (j : Nat) : (d.writeCqe p l).tile j = d.tile j := by simp [Dev.tile]
@[simp] theorem Dev.writeCqe_hcSet (d : Dev) (p : Nat) (l : List Byte) (j : Nat) : (d.writeCqe p l).hcSet j = d.hcSet j := by simp [Dev.hcSet]
@[simp] theorem Dev.writeCqe_catEntry (d : Dev) (p : Nat) (l : List Byte) (j : Nat) : (d.writeCqe p l).catEntry j = d.catEntry j := by simp [Dev.catEntry]
@[simp] theorem Dev.writeCqe_base (d : Dev) (p : Nat) (l : List Byte) (j : Nat) : (d.writeCqe p l).base j = d.base j := by simp [Dev.base]
@[simp] theorem Dev.writeCqe_port (d : Dev) (p : Nat) (l : List Byte) (j : Nat) : (d.writeCqe p l).port j = d.port j := by simp [Dev.port]
@[simp] theorem Dev.writeCqe_shared (d : Dev) (p : Nat) (l : List Byte) (j : Nat) : (d.writeCqe p l).shared j = d.shared j := by simp [Dev.shared]
@[simp] theorem Dev.writeCqe_beat (d : Dev) (p : Nat) (l : List Byte) : (d.writeCqe p l).beat  = d.beat := by simp [Dev.beat]

/-! ## postCqe -/

@[simp] theorem Dev.postCqe_tiles (d : Dev) (p st : Nat) (l : List Byte) : (d.postCqe p st l).tiles = d.tiles := by unfold Dev.postCqe; dsimp only; (repeat' split) <;> simp
@[simp] theorem Dev.postCqe_hc (d : Dev) (p st : Nat) (l : List Byte) : (d.postCqe p st l).hc = d.hc := by unfold Dev.postCqe; dsimp only; (repeat' split) <;> simp
@[simp] theorem Dev.postCqe_mem (d : Dev) (p st : Nat) (l : List Byte) : (d.postCqe p st l).mem = d.mem := by unfold Dev.postCqe; dsimp only; (repeat' split) <;> simp
@[simp] theorem Dev.postCqe_sram (d : Dev) (p st : Nat) (l : List Byte) : (d.postCqe p st l).sram = d.sram := by unfold Dev.postCqe; dsimp only; (repeat' split) <;> simp
@[simp] theorem Dev.postCqe_sramBad (d : Dev) (p st : Nat) (l : List Byte) : (d.postCqe p st l).sramBad = d.sramBad := by unfold Dev.postCqe; dsimp only; (repeat' split) <;> simp
@[simp] theorem Dev.postCqe_cat (d : Dev) (p st : Nat) (l : List Byte) : (d.postCqe p st l).cat = d.cat := by unfold Dev.postCqe; dsimp only; (repeat' split) <;> simp
@[simp] theorem Dev.postCqe_bases (d : Dev) (p st : Nat) (l : List Byte) : (d.postCqe p st l).bases = d.bases := by unfold Dev.postCqe; dsimp only; (repeat' split) <;> simp
@[simp] theorem Dev.postCqe_lnk (d : Dev) (p st : Nat) (l : List Byte) : (d.postCqe p st l).lnk = d.lnk := by unfold Dev.postCqe; dsimp only; (repeat' split) <;> simp
@[simp] theorem Dev.postCqe_ckr (d : Dev) (p st : Nat) (l : List Byte) : (d.postCqe p st l).ckr = d.ckr := by unfold Dev.postCqe; dsimp only; (repeat' split) <;> simp
@[simp] theorem Dev.postCqe_pins (d : Dev) (p st : Nat) (l : List Byte) : (d.postCqe p st l).pins = d.pins := by unfold Dev.postCqe; dsimp only; (repeat' split) <;> simp
@[simp] theorem Dev.postCqe_persist (d : Dev) (p st : Nat) (l : List Byte) : (d.postCqe p st l).persist = d.persist := by unfold Dev.postCqe; dsimp only; (repeat' split) <;> simp
@[simp] theorem Dev.postCqe_sec (d : Dev) (p st : Nat) (l : List Byte) : (d.postCqe p st l).sec = d.sec := by unfold Dev.postCqe; dsimp only; (repeat' split) <;> simp
@[simp] theorem Dev.postCqe_err (d : Dev) (p st : Nat) (l : List Byte) : (d.postCqe p st l).err = d.err := by unfold Dev.postCqe; dsimp only; (repeat' split) <;> simp
@[simp] theorem Dev.postCqe_therm (d : Dev) (p st : Nat) (l : List Byte) : (d.postCqe p st l).therm = d.therm := by unfold Dev.postCqe; dsimp only; (repeat' split) <;> simp
@[simp] theorem Dev.postCqe_cfg (d : Dev) (p st : Nat) (l : List Byte) : (d.postCqe p st l).cfg = d.cfg := by unfold Dev.postCqe; dsimp only; (repeat' split) <;> simp
@[simp] theorem Dev.postCqe_fresh (d : Dev) (p st : Nat) (l : List Byte) : (d.postCqe p st l).fresh = d.fresh := by unfold Dev.postCqe; dsimp only; (repeat' split) <;> simp
@[simp] theorem Dev.postCqe_useClock (d : Dev) (p st : Nat) (l : List Byte) : (d.postCqe p st l).useClock = d.useClock := by unfold Dev.postCqe; dsimp only; (repeat' split) <;> simp
@[simp] theorem Dev.postCqe_tile (d : Dev) (p st : Nat) (l : List Byte) (j : Nat) : (d.postCqe p st l).tile j = d.tile j := by simp [Dev.tile]
@[simp] theorem Dev.postCqe_hcSet (d : Dev) (p st : Nat) (l : List Byte) (j : Nat) : (d.postCqe p st l).hcSet j = d.hcSet j := by simp [Dev.hcSet]
@[simp] theorem Dev.postCqe_catEntry (d : Dev) (p st : Nat) (l : List Byte) (j : Nat) : (d.postCqe p st l).catEntry j = d.catEntry j := by simp [Dev.catEntry]
@[simp] theorem Dev.postCqe_base (d : Dev) (p st : Nat) (l : List Byte) (j : Nat) : (d.postCqe p st l).base j = d.base j := by simp [Dev.base]
@[simp] theorem Dev.postCqe_port (d : Dev) (p st : Nat) (l : List Byte) (j : Nat) : (d.postCqe p st l).port j = d.port j := by simp [Dev.port]
@[simp] theorem Dev.postCqe_shared (d : Dev) (p st : Nat) (l : List Byte) (j : Nat) : (d.postCqe p st l).shared j = d.shared j := by simp [Dev.shared]
@[simp] theorem Dev.postCqe_beat (d : Dev) (p st : Nat) (l : List Byte) : (d.postCqe p st l).beat  = d.beat := by simp [Dev.beat]

/-! ## qerr -/

@[simp] theorem Dev.qerr_tiles (d : Dev) (p : Nat) : (d.qerr p).tiles = d.tiles := by simp [Dev.qerr]
@[simp] theorem Dev.qerr_hc (d : Dev) (p : Nat) : (d.qerr p).hc = d.hc := by simp [Dev.qerr]
@[simp] theorem Dev.qerr_mem (d : Dev) (p : Nat) : (d.qerr p).mem = d.mem := by simp [Dev.qerr]
@[simp] theorem Dev.qerr_sram (d : Dev) (p : Nat) : (d.qerr p).sram = d.sram := by simp [Dev.qerr]
@[simp] theorem Dev.qerr_sramBad (d : Dev) (p : Nat) : (d.qerr p).sramBad = d.sramBad := by simp [Dev.qerr]
@[simp] theorem Dev.qerr_cat (d : Dev) (p : Nat) : (d.qerr p).cat = d.cat := by simp [Dev.qerr]
@[simp] theorem Dev.qerr_bases (d : Dev) (p : Nat) : (d.qerr p).bases = d.bases := by simp [Dev.qerr]
@[simp] theorem Dev.qerr_lnk (d : Dev) (p : Nat) : (d.qerr p).lnk = d.lnk := by simp [Dev.qerr]
@[simp] theorem Dev.qerr_ckr (d : Dev) (p : Nat) : (d.qerr p).ckr = d.ckr := by simp [Dev.qerr]
@[simp] theorem Dev.qerr_pins (d : Dev) (p : Nat) : (d.qerr p).pins = d.pins := by simp [Dev.qerr]
@[simp] theorem Dev.qerr_persist (d : Dev) (p : Nat) : (d.qerr p).persist = d.persist := by simp [Dev.qerr]
@[simp] theorem Dev.qerr_sec (d : Dev) (p : Nat) : (d.qerr p).sec = d.sec := by simp [Dev.qerr]
@[simp] theorem Dev.qerr_err (d : Dev) (p : Nat) : (d.qerr p).err = d.err := by simp [Dev.qerr]
@[simp] theorem Dev.qerr_therm (d : Dev) (p : Nat) : (d.qerr p).therm = d.therm := by simp [Dev.qerr]
@[simp] theorem Dev.qerr_cfg (d : Dev) (p : Nat) : (d.qerr p).cfg = d.cfg := by simp [Dev.qerr]
@[simp] theorem Dev.qerr_fresh (d : Dev) (p : Nat) : (d.qerr p).fresh = d.fresh := by simp [Dev.qerr]
@[simp] theorem Dev.qerr_useClock (d : Dev) (p : Nat) : (d.qerr p).useClock = d.useClock := by simp [Dev.qerr]
@[simp] theorem Dev.qerr_tile (d : Dev) (p : Nat) (j : Nat) : (d.qerr p).tile j = d.tile j := by simp [Dev.tile]
@[simp] theorem Dev.qerr_hcSet (d : Dev) (p : Nat) (j : Nat) : (d.qerr p).hcSet j = d.hcSet j := by simp [Dev.hcSet]
@[simp] theorem Dev.qerr_catEntry (d : Dev) (p : Nat) (j : Nat) : (d.qerr p).catEntry j = d.catEntry j := by simp [Dev.catEntry]
@[simp] theorem Dev.qerr_base (d : Dev) (p : Nat) (j : Nat) : (d.qerr p).base j = d.base j := by simp [Dev.base]
@[simp] theorem Dev.qerr_port (d : Dev) (p : Nat) (j : Nat) : (d.qerr p).port j = d.port j := by simp [Dev.port]
@[simp] theorem Dev.qerr_shared (d : Dev) (p : Nat) (j : Nat) : (d.qerr p).shared j = d.shared j := by simp [Dev.shared]
@[simp] theorem Dev.qerr_beat (d : Dev) (p : Nat) : (d.qerr p).beat  = d.beat := by simp [Dev.beat]

/-! ## record -/

@[simp] theorem Dev.record_parts (d : Dev) (r : ErrRec) : (d.record r).parts = d.parts := by simp [Dev.record]
@[simp] theorem Dev.record_tiles (d : Dev) (r : ErrRec) : (d.record r).tiles = d.tiles := by simp [Dev.record]
@[simp] theorem Dev.record_hc (d : Dev) (r : ErrRec) : (d.record r).hc = d.hc := by simp [Dev.record]
@[simp] theorem Dev.record_mem (d : Dev) (r : ErrRec) : (d.record r).mem = d.mem := by simp [Dev.record]
@[simp] theorem Dev.record_sram (d : Dev) (r : ErrRec) : (d.record r).sram = d.sram := by simp [Dev.record]
@[simp] theorem Dev.record_sramBad (d : Dev) (r : ErrRec) : (d.record r).sramBad = d.sramBad := by simp [Dev.record]
@[simp] theorem Dev.record_cat (d : Dev) (r : ErrRec) : (d.record r).cat = d.cat := by simp [Dev.record]
@[simp] theorem Dev.record_bases (d : Dev) (r : ErrRec) : (d.record r).bases = d.bases := by simp [Dev.record]
@[simp] theorem Dev.record_lnk (d : Dev) (r : ErrRec) : (d.record r).lnk = d.lnk := by simp [Dev.record]
@[simp] theorem Dev.record_ckr (d : Dev) (r : ErrRec) : (d.record r).ckr = d.ckr := by simp [Dev.record]
@[simp] theorem Dev.record_pins (d : Dev) (r : ErrRec) : (d.record r).pins = d.pins := by simp [Dev.record]
@[simp] theorem Dev.record_persist (d : Dev) (r : ErrRec) : (d.record r).persist = d.persist := by simp [Dev.record]
@[simp] theorem Dev.record_sec (d : Dev) (r : ErrRec) : (d.record r).sec = d.sec := by simp [Dev.record]
@[simp] theorem Dev.record_host (d : Dev) (r : ErrRec) : (d.record r).host = d.host := by simp [Dev.record]
@[simp] theorem Dev.record_therm (d : Dev) (r : ErrRec) : (d.record r).therm = d.therm := by simp [Dev.record]
@[simp] theorem Dev.record_cfg (d : Dev) (r : ErrRec) : (d.record r).cfg = d.cfg := by simp [Dev.record]
@[simp] theorem Dev.record_out (d : Dev) (r : ErrRec) : (d.record r).out = d.out := by simp [Dev.record]
@[simp] theorem Dev.record_fresh (d : Dev) (r : ErrRec) : (d.record r).fresh = d.fresh := by simp [Dev.record]
@[simp] theorem Dev.record_useClock (d : Dev) (r : ErrRec) : (d.record r).useClock = d.useClock := by simp [Dev.record]
@[simp] theorem Dev.record_part (d : Dev) (r : ErrRec) (j : Nat) : (d.record r).part j = d.part j := by simp [Dev.part]
@[simp] theorem Dev.record_tile (d : Dev) (r : ErrRec) (j : Nat) : (d.record r).tile j = d.tile j := by simp [Dev.tile]
@[simp] theorem Dev.record_hcSet (d : Dev) (r : ErrRec) (j : Nat) : (d.record r).hcSet j = d.hcSet j := by simp [Dev.hcSet]
@[simp] theorem Dev.record_catEntry (d : Dev) (r : ErrRec) (j : Nat) : (d.record r).catEntry j = d.catEntry j := by simp [Dev.catEntry]
@[simp] theorem Dev.record_base (d : Dev) (r : ErrRec) (j : Nat) : (d.record r).base j = d.base j := by simp [Dev.base]
@[simp] theorem Dev.record_port (d : Dev) (r : ErrRec) (j : Nat) : (d.record r).port j = d.port j := by simp [Dev.port]
@[simp] theorem Dev.record_fn (d : Dev) (r : ErrRec) (j : Nat) : (d.record r).fn j = d.fn j := by simp [Dev.fn]
@[simp] theorem Dev.record_shared (d : Dev) (r : ErrRec) (j : Nat) : (d.record r).shared j = d.shared j := by simp [Dev.shared]
@[simp] theorem Dev.record_beat (d : Dev) (r : ErrRec) : (d.record r).beat  = d.beat := by simp [Dev.beat]

/-! ## writePa -/

@[simp] theorem Dev.writePa_parts (d : Dev) (a : Nat) (l : List Byte) : (d.writePa a l).parts = d.parts := rfl
@[simp] theorem Dev.writePa_tiles (d : Dev) (a : Nat) (l : List Byte) : (d.writePa a l).tiles = d.tiles := rfl
@[simp] theorem Dev.writePa_hc (d : Dev) (a : Nat) (l : List Byte) : (d.writePa a l).hc = d.hc := rfl
@[simp] theorem Dev.writePa_sram (d : Dev) (a : Nat) (l : List Byte) : (d.writePa a l).sram = d.sram := rfl
@[simp] theorem Dev.writePa_sramBad (d : Dev) (a : Nat) (l : List Byte) : (d.writePa a l).sramBad = d.sramBad := rfl
@[simp] theorem Dev.writePa_cat (d : Dev) (a : Nat) (l : List Byte) : (d.writePa a l).cat = d.cat := rfl
@[simp] theorem Dev.writePa_bases (d : Dev) (a : Nat) (l : List Byte) : (d.writePa a l).bases = d.bases := rfl
@[simp] theorem Dev.writePa_lnk (d : Dev) (a : Nat) (l : List Byte) : (d.writePa a l).lnk = d.lnk := rfl
@[simp] theorem Dev.writePa_ckr (d : Dev) (a : Nat) (l : List Byte) : (d.writePa a l).ckr = d.ckr := rfl
@[simp] theorem Dev.writePa_pins (d : Dev) (a : Nat) (l : List Byte) : (d.writePa a l).pins = d.pins := rfl
@[simp] theorem Dev.writePa_persist (d : Dev) (a : Nat) (l : List Byte) : (d.writePa a l).persist = d.persist := rfl
@[simp] theorem Dev.writePa_sec (d : Dev) (a : Nat) (l : List Byte) : (d.writePa a l).sec = d.sec := rfl
@[simp] theorem Dev.writePa_err (d : Dev) (a : Nat) (l : List Byte) : (d.writePa a l).err = d.err := rfl
@[simp] theorem Dev.writePa_host (d : Dev) (a : Nat) (l : List Byte) : (d.writePa a l).host = d.host := rfl
@[simp] theorem Dev.writePa_therm (d : Dev) (a : Nat) (l : List Byte) : (d.writePa a l).therm = d.therm := rfl
@[simp] theorem Dev.writePa_cfg (d : Dev) (a : Nat) (l : List Byte) : (d.writePa a l).cfg = d.cfg := rfl
@[simp] theorem Dev.writePa_out (d : Dev) (a : Nat) (l : List Byte) : (d.writePa a l).out = d.out := rfl
@[simp] theorem Dev.writePa_fresh (d : Dev) (a : Nat) (l : List Byte) : (d.writePa a l).fresh = d.fresh := rfl
@[simp] theorem Dev.writePa_useClock (d : Dev) (a : Nat) (l : List Byte) : (d.writePa a l).useClock = d.useClock := rfl
@[simp] theorem Dev.writePa_part (d : Dev) (a : Nat) (l : List Byte) (j : Nat) : (d.writePa a l).part j = d.part j := rfl
@[simp] theorem Dev.writePa_tile (d : Dev) (a : Nat) (l : List Byte) (j : Nat) : (d.writePa a l).tile j = d.tile j := rfl
@[simp] theorem Dev.writePa_hcSet (d : Dev) (a : Nat) (l : List Byte) (j : Nat) : (d.writePa a l).hcSet j = d.hcSet j := rfl
@[simp] theorem Dev.writePa_catEntry (d : Dev) (a : Nat) (l : List Byte) (j : Nat) : (d.writePa a l).catEntry j = d.catEntry j := rfl
@[simp] theorem Dev.writePa_base (d : Dev) (a : Nat) (l : List Byte) (j : Nat) : (d.writePa a l).base j = d.base j := rfl
@[simp] theorem Dev.writePa_port (d : Dev) (a : Nat) (l : List Byte) (j : Nat) : (d.writePa a l).port j = d.port j := rfl
@[simp] theorem Dev.writePa_fn (d : Dev) (a : Nat) (l : List Byte) (j : Nat) : (d.writePa a l).fn j = d.fn j := rfl
@[simp] theorem Dev.writePa_shared (d : Dev) (a : Nat) (l : List Byte) (j : Nat) : (d.writePa a l).shared j = d.shared j := rfl
@[simp] theorem Dev.writePa_beat (d : Dev) (a : Nat) (l : List Byte) : (d.writePa a l).beat  = d.beat := rfl

/-! ## zeroPa -/

@[simp] theorem Dev.zeroPa_parts (d : Dev) (a n : Nat) : (d.zeroPa a n).parts = d.parts := rfl
@[simp] theorem Dev.zeroPa_tiles (d : Dev) (a n : Nat) : (d.zeroPa a n).tiles = d.tiles := rfl
@[simp] theorem Dev.zeroPa_hc (d : Dev) (a n : Nat) : (d.zeroPa a n).hc = d.hc := rfl
@[simp] theorem Dev.zeroPa_sram (d : Dev) (a n : Nat) : (d.zeroPa a n).sram = d.sram := rfl
@[simp] theorem Dev.zeroPa_sramBad (d : Dev) (a n : Nat) : (d.zeroPa a n).sramBad = d.sramBad := rfl
@[simp] theorem Dev.zeroPa_cat (d : Dev) (a n : Nat) : (d.zeroPa a n).cat = d.cat := rfl
@[simp] theorem Dev.zeroPa_bases (d : Dev) (a n : Nat) : (d.zeroPa a n).bases = d.bases := rfl
@[simp] theorem Dev.zeroPa_lnk (d : Dev) (a n : Nat) : (d.zeroPa a n).lnk = d.lnk := rfl
@[simp] theorem Dev.zeroPa_ckr (d : Dev) (a n : Nat) : (d.zeroPa a n).ckr = d.ckr := rfl
@[simp] theorem Dev.zeroPa_pins (d : Dev) (a n : Nat) : (d.zeroPa a n).pins = d.pins := rfl
@[simp] theorem Dev.zeroPa_persist (d : Dev) (a n : Nat) : (d.zeroPa a n).persist = d.persist := rfl
@[simp] theorem Dev.zeroPa_sec (d : Dev) (a n : Nat) : (d.zeroPa a n).sec = d.sec := rfl
@[simp] theorem Dev.zeroPa_err (d : Dev) (a n : Nat) : (d.zeroPa a n).err = d.err := rfl
@[simp] theorem Dev.zeroPa_host (d : Dev) (a n : Nat) : (d.zeroPa a n).host = d.host := rfl
@[simp] theorem Dev.zeroPa_therm (d : Dev) (a n : Nat) : (d.zeroPa a n).therm = d.therm := rfl
@[simp] theorem Dev.zeroPa_cfg (d : Dev) (a n : Nat) : (d.zeroPa a n).cfg = d.cfg := rfl
@[simp] theorem Dev.zeroPa_out (d : Dev) (a n : Nat) : (d.zeroPa a n).out = d.out := rfl
@[simp] theorem Dev.zeroPa_fresh (d : Dev) (a n : Nat) : (d.zeroPa a n).fresh = d.fresh := rfl
@[simp] theorem Dev.zeroPa_useClock (d : Dev) (a n : Nat) : (d.zeroPa a n).useClock = d.useClock := rfl
@[simp] theorem Dev.zeroPa_part (d : Dev) (a n : Nat) (j : Nat) : (d.zeroPa a n).part j = d.part j := rfl
@[simp] theorem Dev.zeroPa_tile (d : Dev) (a n : Nat) (j : Nat) : (d.zeroPa a n).tile j = d.tile j := rfl
@[simp] theorem Dev.zeroPa_hcSet (d : Dev) (a n : Nat) (j : Nat) : (d.zeroPa a n).hcSet j = d.hcSet j := rfl
@[simp] theorem Dev.zeroPa_catEntry (d : Dev) (a n : Nat) (j : Nat) : (d.zeroPa a n).catEntry j = d.catEntry j := rfl
@[simp] theorem Dev.zeroPa_base (d : Dev) (a n : Nat) (j : Nat) : (d.zeroPa a n).base j = d.base j := rfl
@[simp] theorem Dev.zeroPa_port (d : Dev) (a n : Nat) (j : Nat) : (d.zeroPa a n).port j = d.port j := rfl
@[simp] theorem Dev.zeroPa_fn (d : Dev) (a n : Nat) (j : Nat) : (d.zeroPa a n).fn j = d.fn j := rfl
@[simp] theorem Dev.zeroPa_shared (d : Dev) (a n : Nat) (j : Nat) : (d.zeroPa a n).shared j = d.shared j := rfl
@[simp] theorem Dev.zeroPa_beat (d : Dev) (a n : Nat) : (d.zeroPa a n).beat  = d.beat := rfl

/-! ## poke -/

@[simp] theorem Dev.poke_parts (d : Dev) (p a : Nat) (l : List Byte) : (d.poke p a l).parts = d.parts := by
  obtain ⟨_, _, _, h⟩ := d.poke_touched p a l; rw [h]
@[simp] theorem Dev.poke_tiles (d : Dev) (p a : Nat) (l : List Byte) : (d.poke p a l).tiles = d.tiles := by
  obtain ⟨_, _, _, h⟩ := d.poke_touched p a l; rw [h]
@[simp] theorem Dev.poke_hc (d : Dev) (p a : Nat) (l : List Byte) : (d.poke p a l).hc = d.hc := by
  obtain ⟨_, _, _, h⟩ := d.poke_touched p a l; rw [h]
@[simp] theorem Dev.poke_sram (d : Dev) (p a : Nat) (l : List Byte) : (d.poke p a l).sram = d.sram := by
  obtain ⟨_, _, _, h⟩ := d.poke_touched p a l; rw [h]
@[simp] theorem Dev.poke_sramBad (d : Dev) (p a : Nat) (l : List Byte) : (d.poke p a l).sramBad = d.sramBad := by
  obtain ⟨_, _, _, h⟩ := d.poke_touched p a l; rw [h]
@[simp] theorem Dev.poke_cat (d : Dev) (p a : Nat) (l : List Byte) : (d.poke p a l).cat = d.cat := by
  obtain ⟨_, _, _, h⟩ := d.poke_touched p a l; rw [h]
@[simp] theorem Dev.poke_bases (d : Dev) (p a : Nat) (l : List Byte) : (d.poke p a l).bases = d.bases := by
  obtain ⟨_, _, _, h⟩ := d.poke_touched p a l; rw [h]
@[simp] theorem Dev.poke_lnk (d : Dev) (p a : Nat) (l : List Byte) : (d.poke p a l).lnk = d.lnk := by
  obtain ⟨_, _, _, h⟩ := d.poke_touched p a l; rw [h]
@[simp] theorem Dev.poke_ckr (d : Dev) (p a : Nat) (l : List Byte) : (d.poke p a l).ckr = d.ckr := by
  obtain ⟨_, _, _, h⟩ := d.poke_touched p a l; rw [h]
@[simp] theorem Dev.poke_pins (d : Dev) (p a : Nat) (l : List Byte) : (d.poke p a l).pins = d.pins := by
  obtain ⟨_, _, _, h⟩ := d.poke_touched p a l; rw [h]
@[simp] theorem Dev.poke_persist (d : Dev) (p a : Nat) (l : List Byte) : (d.poke p a l).persist = d.persist := by
  obtain ⟨_, _, _, h⟩ := d.poke_touched p a l; rw [h]
@[simp] theorem Dev.poke_sec (d : Dev) (p a : Nat) (l : List Byte) : (d.poke p a l).sec = d.sec := by
  obtain ⟨_, _, _, h⟩ := d.poke_touched p a l; rw [h]
@[simp] theorem Dev.poke_host (d : Dev) (p a : Nat) (l : List Byte) : (d.poke p a l).host = d.host := by
  obtain ⟨_, _, _, h⟩ := d.poke_touched p a l; rw [h]
@[simp] theorem Dev.poke_therm (d : Dev) (p a : Nat) (l : List Byte) : (d.poke p a l).therm = d.therm := by
  obtain ⟨_, _, _, h⟩ := d.poke_touched p a l; rw [h]
@[simp] theorem Dev.poke_cfg (d : Dev) (p a : Nat) (l : List Byte) : (d.poke p a l).cfg = d.cfg := by
  obtain ⟨_, _, _, h⟩ := d.poke_touched p a l; rw [h]
@[simp] theorem Dev.poke_out (d : Dev) (p a : Nat) (l : List Byte) : (d.poke p a l).out = d.out := by
  obtain ⟨_, _, _, h⟩ := d.poke_touched p a l; rw [h]
@[simp] theorem Dev.poke_fresh (d : Dev) (p a : Nat) (l : List Byte) : (d.poke p a l).fresh = d.fresh := by
  obtain ⟨_, _, _, h⟩ := d.poke_touched p a l; rw [h]
@[simp] theorem Dev.poke_useClock (d : Dev) (p a : Nat) (l : List Byte) : (d.poke p a l).useClock = d.useClock := by
  obtain ⟨_, _, _, h⟩ := d.poke_touched p a l; rw [h]
@[simp] theorem Dev.poke_part (d : Dev) (p a : Nat) (l : List Byte) (j : Nat) : (d.poke p a l).part j = d.part j := by
  obtain ⟨_, _, _, h⟩ := d.poke_touched p a l; rw [h]; rfl
@[simp] theorem Dev.poke_tile (d : Dev) (p a : Nat) (l : List Byte) (j : Nat) : (d.poke p a l).tile j = d.tile j := by
  obtain ⟨_, _, _, h⟩ := d.poke_touched p a l; rw [h]; rfl
@[simp] theorem Dev.poke_hcSet (d : Dev) (p a : Nat) (l : List Byte) (j : Nat) : (d.poke p a l).hcSet j = d.hcSet j := by
  obtain ⟨_, _, _, h⟩ := d.poke_touched p a l; rw [h]; rfl
@[simp] theorem Dev.poke_catEntry (d : Dev) (p a : Nat) (l : List Byte) (j : Nat) : (d.poke p a l).catEntry j = d.catEntry j := by
  obtain ⟨_, _, _, h⟩ := d.poke_touched p a l; rw [h]; rfl
@[simp] theorem Dev.poke_base (d : Dev) (p a : Nat) (l : List Byte) (j : Nat) : (d.poke p a l).base j = d.base j := by
  obtain ⟨_, _, _, h⟩ := d.poke_touched p a l; rw [h]; rfl
@[simp] theorem Dev.poke_port (d : Dev) (p a : Nat) (l : List Byte) (j : Nat) : (d.poke p a l).port j = d.port j := by
  obtain ⟨_, _, _, h⟩ := d.poke_touched p a l; rw [h]; rfl
@[simp] theorem Dev.poke_fn (d : Dev) (p a : Nat) (l : List Byte) (j : Nat) : (d.poke p a l).fn j = d.fn j := by
  obtain ⟨_, _, _, h⟩ := d.poke_touched p a l; rw [h]; rfl
@[simp] theorem Dev.poke_shared (d : Dev) (p a : Nat) (l : List Byte) (j : Nat) : (d.poke p a l).shared j = d.shared j := by
  obtain ⟨_, _, _, h⟩ := d.poke_touched p a l; rw [h]; rfl
@[simp] theorem Dev.poke_beat (d : Dev) (p a : Nat) (l : List Byte) : (d.poke p a l).beat = d.beat := by
  obtain ⟨_, _, _, h⟩ := d.poke_touched p a l; rw [h]; rfl
/-- Records found on the way are added to those detected. -/
theorem Dev.poke_err (d : Dev) (p a : Nat) (l : List Byte) :
    ∃ r, (d.poke p a l).err = { d.err with detected := d.err.detected ++ r } := by
  obtain ⟨_, r, _, h⟩ := d.poke_touched p a l; exact ⟨r, by rw [h]⟩

/-! ## catSettle -/

@[simp] theorem Dev.catSettle_parts (d : Dev) : (d.catSettle).parts = d.parts := rfl
@[simp] theorem Dev.catSettle_tiles (d : Dev) : (d.catSettle).tiles = d.tiles := rfl
@[simp] theorem Dev.catSettle_hc (d : Dev) : (d.catSettle).hc = d.hc := rfl
@[simp] theorem Dev.catSettle_mem (d : Dev) : (d.catSettle).mem = d.mem := rfl
@[simp] theorem Dev.catSettle_sram (d : Dev) : (d.catSettle).sram = d.sram := rfl
@[simp] theorem Dev.catSettle_sramBad (d : Dev) : (d.catSettle).sramBad = d.sramBad := rfl
@[simp] theorem Dev.catSettle_bases (d : Dev) : (d.catSettle).bases = d.bases := rfl
@[simp] theorem Dev.catSettle_lnk (d : Dev) : (d.catSettle).lnk = d.lnk := rfl
@[simp] theorem Dev.catSettle_ckr (d : Dev) : (d.catSettle).ckr = d.ckr := rfl
@[simp] theorem Dev.catSettle_pins (d : Dev) : (d.catSettle).pins = d.pins := rfl
@[simp] theorem Dev.catSettle_persist (d : Dev) : (d.catSettle).persist = d.persist := rfl
@[simp] theorem Dev.catSettle_sec (d : Dev) : (d.catSettle).sec = d.sec := rfl
@[simp] theorem Dev.catSettle_err (d : Dev) : (d.catSettle).err = d.err := rfl
@[simp] theorem Dev.catSettle_host (d : Dev) : (d.catSettle).host = d.host := rfl
@[simp] theorem Dev.catSettle_therm (d : Dev) : (d.catSettle).therm = d.therm := rfl
@[simp] theorem Dev.catSettle_cfg (d : Dev) : (d.catSettle).cfg = d.cfg := rfl
@[simp] theorem Dev.catSettle_out (d : Dev) : (d.catSettle).out = d.out := rfl
@[simp] theorem Dev.catSettle_fresh (d : Dev) : (d.catSettle).fresh = d.fresh := rfl
@[simp] theorem Dev.catSettle_useClock (d : Dev) : (d.catSettle).useClock = d.useClock := rfl
@[simp] theorem Dev.catSettle_buckets (d : Dev) : (d.catSettle).buckets = d.buckets := rfl
@[simp] theorem Dev.catSettle_part (d : Dev) (j : Nat) : (d.catSettle).part j = d.part j := rfl
@[simp] theorem Dev.catSettle_tile (d : Dev) (j : Nat) : (d.catSettle).tile j = d.tile j := rfl
@[simp] theorem Dev.catSettle_hcSet (d : Dev) (j : Nat) : (d.catSettle).hcSet j = d.hcSet j := rfl
@[simp] theorem Dev.catSettle_base (d : Dev) (j : Nat) : (d.catSettle).base j = d.base j := rfl
@[simp] theorem Dev.catSettle_port (d : Dev) (j : Nat) : (d.catSettle).port j = d.port j := rfl
@[simp] theorem Dev.catSettle_fn (d : Dev) (j : Nat) : (d.catSettle).fn j = d.fn j := rfl
@[simp] theorem Dev.catSettle_shared (d : Dev) (j : Nat) : (d.catSettle).shared j = d.shared j := rfl
@[simp] theorem Dev.catSettle_beat (d : Dev) : (d.catSettle).beat = d.beat := rfl

/-! ## passBarrier -/

@[simp] theorem Dev.passBarrier_parts (d : Dev) (p : Nat) : (d.passBarrier p).parts = d.parts := rfl
@[simp] theorem Dev.passBarrier_tiles (d : Dev) (p : Nat) : (d.passBarrier p).tiles = d.tiles := rfl
@[simp] theorem Dev.passBarrier_hc (d : Dev) (p : Nat) : (d.passBarrier p).hc = d.hc := rfl
@[simp] theorem Dev.passBarrier_mem (d : Dev) (p : Nat) : (d.passBarrier p).mem = d.mem := rfl
@[simp] theorem Dev.passBarrier_sram (d : Dev) (p : Nat) : (d.passBarrier p).sram = d.sram := rfl
@[simp] theorem Dev.passBarrier_sramBad (d : Dev) (p : Nat) : (d.passBarrier p).sramBad = d.sramBad := rfl
@[simp] theorem Dev.passBarrier_cat (d : Dev) (p : Nat) : (d.passBarrier p).cat = d.cat := rfl
@[simp] theorem Dev.passBarrier_lnk (d : Dev) (p : Nat) : (d.passBarrier p).lnk = d.lnk := rfl
@[simp] theorem Dev.passBarrier_ckr (d : Dev) (p : Nat) : (d.passBarrier p).ckr = d.ckr := rfl
@[simp] theorem Dev.passBarrier_pins (d : Dev) (p : Nat) : (d.passBarrier p).pins = d.pins := rfl
@[simp] theorem Dev.passBarrier_persist (d : Dev) (p : Nat) : (d.passBarrier p).persist = d.persist := rfl
@[simp] theorem Dev.passBarrier_sec (d : Dev) (p : Nat) : (d.passBarrier p).sec = d.sec := rfl
@[simp] theorem Dev.passBarrier_err (d : Dev) (p : Nat) : (d.passBarrier p).err = d.err := rfl
@[simp] theorem Dev.passBarrier_host (d : Dev) (p : Nat) : (d.passBarrier p).host = d.host := rfl
@[simp] theorem Dev.passBarrier_therm (d : Dev) (p : Nat) : (d.passBarrier p).therm = d.therm := rfl
@[simp] theorem Dev.passBarrier_cfg (d : Dev) (p : Nat) : (d.passBarrier p).cfg = d.cfg := rfl
@[simp] theorem Dev.passBarrier_out (d : Dev) (p : Nat) : (d.passBarrier p).out = d.out := rfl
@[simp] theorem Dev.passBarrier_fresh (d : Dev) (p : Nat) : (d.passBarrier p).fresh = d.fresh := rfl
@[simp] theorem Dev.passBarrier_useClock (d : Dev) (p : Nat) : (d.passBarrier p).useClock = d.useClock := rfl
@[simp] theorem Dev.passBarrier_buckets (d : Dev) (p : Nat) : (d.passBarrier p).buckets = d.buckets := rfl
@[simp] theorem Dev.passBarrier_part (d : Dev) (p : Nat) (j : Nat) : (d.passBarrier p).part j = d.part j := rfl
@[simp] theorem Dev.passBarrier_tile (d : Dev) (p : Nat) (j : Nat) : (d.passBarrier p).tile j = d.tile j := rfl
@[simp] theorem Dev.passBarrier_hcSet (d : Dev) (p : Nat) (j : Nat) : (d.passBarrier p).hcSet j = d.hcSet j := rfl
@[simp] theorem Dev.passBarrier_catEntry (d : Dev) (p : Nat) (j : Nat) : (d.passBarrier p).catEntry j = d.catEntry j := rfl
@[simp] theorem Dev.passBarrier_port (d : Dev) (p : Nat) (j : Nat) : (d.passBarrier p).port j = d.port j := rfl
@[simp] theorem Dev.passBarrier_fn (d : Dev) (p : Nat) (j : Nat) : (d.passBarrier p).fn j = d.fn j := rfl
@[simp] theorem Dev.passBarrier_shared (d : Dev) (p : Nat) (j : Nat) : (d.passBarrier p).shared j = d.shared j := rfl
@[simp] theorem Dev.passBarrier_beat (d : Dev) (p : Nat) : (d.passBarrier p).beat = d.beat := rfl

/-! ## Records that are only added -/

/-- Every record detected before stays, and nothing else of the error state changes. -/
def ErrSt.Grows (e t : ErrSt) : Prop := ∃ l, t = { e with detected := e.detected ++ l }
theorem ErrSt.Grows.refl (e : ErrSt) : e.Grows e := ⟨[], by simp⟩
theorem ErrSt.Grows.trans {e t u : ErrSt} (h1 : e.Grows t) (h2 : t.Grows u) : e.Grows u := by
  obtain ⟨l, rfl⟩ := h1; obtain ⟨m, rfl⟩ := h2; exact ⟨l ++ m, by simp⟩
theorem ErrSt.Grows.mem {e t : ErrSt} (h : e.Grows t) {r : ErrRec} (hr : r ∈ e.detected) : r ∈ t.detected := by
  obtain ⟨l, rfl⟩ := h; simp [hr]
theorem ErrSt.Grows.holdst {e t : ErrSt} (h : e.Grows t) : t.holdst = e.holdst := by obtain ⟨l, rfl⟩ := h; rfl
theorem ErrSt.Grows.deOpen {e t : ErrSt} (h : e.Grows t) : t.deOpen = e.deOpen := by obtain ⟨l, rfl⟩ := h; rfl
theorem ErrSt.Grows.deDone {e t : ErrSt} (h : e.Grows t) : t.deDone = e.deDone := by obtain ⟨l, rfl⟩ := h; rfl

/-! ## finishRow -/

@[simp] theorem Dev.finishRow_tiles (d : Dev) (p i : Nat) (r : StepRow) : (d.finishRow p i r).tiles = d.tiles := by unfold Dev.finishRow; dsimp only; split <;> simp
@[simp] theorem Dev.finishRow_hc (d : Dev) (p i : Nat) (r : StepRow) : (d.finishRow p i r).hc = d.hc := by unfold Dev.finishRow; dsimp only; split <;> simp
@[simp] theorem Dev.finishRow_sram (d : Dev) (p i : Nat) (r : StepRow) : (d.finishRow p i r).sram = d.sram := by unfold Dev.finishRow; dsimp only; split <;> simp
@[simp] theorem Dev.finishRow_sramBad (d : Dev) (p i : Nat) (r : StepRow) : (d.finishRow p i r).sramBad = d.sramBad := by unfold Dev.finishRow; dsimp only; split <;> simp
@[simp] theorem Dev.finishRow_cat (d : Dev) (p i : Nat) (r : StepRow) : (d.finishRow p i r).cat = d.cat := by unfold Dev.finishRow; dsimp only; split <;> simp
@[simp] theorem Dev.finishRow_bases (d : Dev) (p i : Nat) (r : StepRow) : (d.finishRow p i r).bases = d.bases := by unfold Dev.finishRow; dsimp only; split <;> simp
@[simp] theorem Dev.finishRow_lnk (d : Dev) (p i : Nat) (r : StepRow) : (d.finishRow p i r).lnk = d.lnk := by unfold Dev.finishRow; dsimp only; split <;> simp
@[simp] theorem Dev.finishRow_ckr (d : Dev) (p i : Nat) (r : StepRow) : (d.finishRow p i r).ckr = d.ckr := by unfold Dev.finishRow; dsimp only; split <;> simp
@[simp] theorem Dev.finishRow_pins (d : Dev) (p i : Nat) (r : StepRow) : (d.finishRow p i r).pins = d.pins := by unfold Dev.finishRow; dsimp only; split <;> simp
@[simp] theorem Dev.finishRow_persist (d : Dev) (p i : Nat) (r : StepRow) : (d.finishRow p i r).persist = d.persist := by unfold Dev.finishRow; dsimp only; split <;> simp
@[simp] theorem Dev.finishRow_sec (d : Dev) (p i : Nat) (r : StepRow) : (d.finishRow p i r).sec = d.sec := by unfold Dev.finishRow; dsimp only; split <;> simp
theorem Dev.finishRow_err (d : Dev) (p i : Nat) (r : StepRow) : d.err.Grows (d.finishRow p i r).err := by
  unfold Dev.finishRow; dsimp only; split
  · exact ErrSt.Grows.refl _
  · exact Dev.poke_err (Dev.onPart ..) ..
@[simp] theorem Dev.finishRow_host (d : Dev) (p i : Nat) (r : StepRow) : (d.finishRow p i r).host = d.host := by unfold Dev.finishRow; dsimp only; split <;> simp
@[simp] theorem Dev.finishRow_therm (d : Dev) (p i : Nat) (r : StepRow) : (d.finishRow p i r).therm = d.therm := by unfold Dev.finishRow; dsimp only; split <;> simp
@[simp] theorem Dev.finishRow_cfg (d : Dev) (p i : Nat) (r : StepRow) : (d.finishRow p i r).cfg = d.cfg := by unfold Dev.finishRow; dsimp only; split <;> simp
@[simp] theorem Dev.finishRow_out (d : Dev) (p i : Nat) (r : StepRow) : (d.finishRow p i r).out = d.out := by unfold Dev.finishRow; dsimp only; split <;> simp
@[simp] theorem Dev.finishRow_fresh (d : Dev) (p i : Nat) (r : StepRow) : (d.finishRow p i r).fresh = d.fresh := by unfold Dev.finishRow; dsimp only; split <;> simp
@[simp] theorem Dev.finishRow_useClock (d : Dev) (p i : Nat) (r : StepRow) : (d.finishRow p i r).useClock = d.useClock := by unfold Dev.finishRow; dsimp only; split <;> simp
@[simp] theorem Dev.finishRow_tile (d : Dev) (p i : Nat) (r : StepRow) (j : Nat) : (d.finishRow p i r).tile j = d.tile j := by simp [Dev.tile]
@[simp] theorem Dev.finishRow_hcSet (d : Dev) (p i : Nat) (r : StepRow) (j : Nat) : (d.finishRow p i r).hcSet j = d.hcSet j := by simp [Dev.hcSet]
@[simp] theorem Dev.finishRow_catEntry (d : Dev) (p i : Nat) (r : StepRow) (j : Nat) : (d.finishRow p i r).catEntry j = d.catEntry j := by simp [Dev.catEntry]
@[simp] theorem Dev.finishRow_base (d : Dev) (p i : Nat) (r : StepRow) (j : Nat) : (d.finishRow p i r).base j = d.base j := by simp [Dev.base]
@[simp] theorem Dev.finishRow_port (d : Dev) (p i : Nat) (r : StepRow) (j : Nat) : (d.finishRow p i r).port j = d.port j := by simp [Dev.port]
@[simp] theorem Dev.finishRow_fn (d : Dev) (p i : Nat) (r : StepRow) (j : Nat) : (d.finishRow p i r).fn j = d.fn j := by simp [Dev.fn]
@[simp] theorem Dev.finishRow_shared (d : Dev) (p i : Nat) (r : StepRow) (j : Nat) : (d.finishRow p i r).shared j = d.shared j := by simp [Dev.shared]
@[simp] theorem Dev.finishRow_beat (d : Dev) (p i : Nat) (r : StepRow) : (d.finishRow p i r).beat  = d.beat := by simp [Dev.beat]

/-! ## abortRows -/

@[simp] theorem Dev.abortRows_tiles (d : Dev) (p i : Nat) (l : List StepRow) : (d.abortRows p i l).tiles = d.tiles := by
  induction l generalizing d i with
  | nil => rfl
  | cons x l ih => unfold Dev.abortRows; dsimp only; rw [ih]; split <;> simp
@[simp] theorem Dev.abortRows_hc (d : Dev) (p i : Nat) (l : List StepRow) : (d.abortRows p i l).hc = d.hc := by
  induction l generalizing d i with
  | nil => rfl
  | cons x l ih => unfold Dev.abortRows; dsimp only; rw [ih]; split <;> simp
@[simp] theorem Dev.abortRows_sram (d : Dev) (p i : Nat) (l : List StepRow) : (d.abortRows p i l).sram = d.sram := by
  induction l generalizing d i with
  | nil => rfl
  | cons x l ih => unfold Dev.abortRows; dsimp only; rw [ih]; split <;> simp
@[simp] theorem Dev.abortRows_sramBad (d : Dev) (p i : Nat) (l : List StepRow) : (d.abortRows p i l).sramBad = d.sramBad := by
  induction l generalizing d i with
  | nil => rfl
  | cons x l ih => unfold Dev.abortRows; dsimp only; rw [ih]; split <;> simp
@[simp] theorem Dev.abortRows_cat (d : Dev) (p i : Nat) (l : List StepRow) : (d.abortRows p i l).cat = d.cat := by
  induction l generalizing d i with
  | nil => rfl
  | cons x l ih => unfold Dev.abortRows; dsimp only; rw [ih]; split <;> simp
@[simp] theorem Dev.abortRows_bases (d : Dev) (p i : Nat) (l : List StepRow) : (d.abortRows p i l).bases = d.bases := by
  induction l generalizing d i with
  | nil => rfl
  | cons x l ih => unfold Dev.abortRows; dsimp only; rw [ih]; split <;> simp
@[simp] theorem Dev.abortRows_lnk (d : Dev) (p i : Nat) (l : List StepRow) : (d.abortRows p i l).lnk = d.lnk := by
  induction l generalizing d i with
  | nil => rfl
  | cons x l ih => unfold Dev.abortRows; dsimp only; rw [ih]; split <;> simp
@[simp] theorem Dev.abortRows_ckr (d : Dev) (p i : Nat) (l : List StepRow) : (d.abortRows p i l).ckr = d.ckr := by
  induction l generalizing d i with
  | nil => rfl
  | cons x l ih => unfold Dev.abortRows; dsimp only; rw [ih]; split <;> simp
@[simp] theorem Dev.abortRows_pins (d : Dev) (p i : Nat) (l : List StepRow) : (d.abortRows p i l).pins = d.pins := by
  induction l generalizing d i with
  | nil => rfl
  | cons x l ih => unfold Dev.abortRows; dsimp only; rw [ih]; split <;> simp
@[simp] theorem Dev.abortRows_persist (d : Dev) (p i : Nat) (l : List StepRow) : (d.abortRows p i l).persist = d.persist := by
  induction l generalizing d i with
  | nil => rfl
  | cons x l ih => unfold Dev.abortRows; dsimp only; rw [ih]; split <;> simp
@[simp] theorem Dev.abortRows_sec (d : Dev) (p i : Nat) (l : List StepRow) : (d.abortRows p i l).sec = d.sec := by
  induction l generalizing d i with
  | nil => rfl
  | cons x l ih => unfold Dev.abortRows; dsimp only; rw [ih]; split <;> simp
theorem Dev.abortRows_err (d : Dev) (p i : Nat) (l : List StepRow) : d.err.Grows (d.abortRows p i l).err := by
  induction l generalizing d i with
  | nil => exact ErrSt.Grows.refl _
  | cons x l ih =>
    unfold Dev.abortRows; dsimp only; refine ErrSt.Grows.trans ?_ (ih _ _); split
    · exact d.finishRow_err ..
    · exact ErrSt.Grows.refl _
@[simp] theorem Dev.abortRows_host (d : Dev) (p i : Nat) (l : List StepRow) : (d.abortRows p i l).host = d.host := by
  induction l generalizing d i with
  | nil => rfl
  | cons x l ih => unfold Dev.abortRows; dsimp only; rw [ih]; split <;> simp
@[simp] theorem Dev.abortRows_therm (d : Dev) (p i : Nat) (l : List StepRow) : (d.abortRows p i l).therm = d.therm := by
  induction l generalizing d i with
  | nil => rfl
  | cons x l ih => unfold Dev.abortRows; dsimp only; rw [ih]; split <;> simp
@[simp] theorem Dev.abortRows_cfg (d : Dev) (p i : Nat) (l : List StepRow) : (d.abortRows p i l).cfg = d.cfg := by
  induction l generalizing d i with
  | nil => rfl
  | cons x l ih => unfold Dev.abortRows; dsimp only; rw [ih]; split <;> simp
@[simp] theorem Dev.abortRows_out (d : Dev) (p i : Nat) (l : List StepRow) : (d.abortRows p i l).out = d.out := by
  induction l generalizing d i with
  | nil => rfl
  | cons x l ih => unfold Dev.abortRows; dsimp only; rw [ih]; split <;> simp
@[simp] theorem Dev.abortRows_fresh (d : Dev) (p i : Nat) (l : List StepRow) : (d.abortRows p i l).fresh = d.fresh := by
  induction l generalizing d i with
  | nil => rfl
  | cons x l ih => unfold Dev.abortRows; dsimp only; rw [ih]; split <;> simp
@[simp] theorem Dev.abortRows_useClock (d : Dev) (p i : Nat) (l : List StepRow) : (d.abortRows p i l).useClock = d.useClock := by
  induction l generalizing d i with
  | nil => rfl
  | cons x l ih => unfold Dev.abortRows; dsimp only; rw [ih]; split <;> simp
@[simp] theorem Dev.abortRows_tile (d : Dev) (p i : Nat) (l : List StepRow) (j : Nat) : (d.abortRows p i l).tile j = d.tile j := by
  induction l generalizing d i with
  | nil => rfl
  | cons x l ih => unfold Dev.abortRows; dsimp only; rw [ih]; split <;> simp
@[simp] theorem Dev.abortRows_hcSet (d : Dev) (p i : Nat) (l : List StepRow) (j : Nat) : (d.abortRows p i l).hcSet j = d.hcSet j := by
  induction l generalizing d i with
  | nil => rfl
  | cons x l ih => unfold Dev.abortRows; dsimp only; rw [ih]; split <;> simp
@[simp] theorem Dev.abortRows_catEntry (d : Dev) (p i : Nat) (l : List StepRow) (j : Nat) : (d.abortRows p i l).catEntry j = d.catEntry j := by
  induction l generalizing d i with
  | nil => rfl
  | cons x l ih => unfold Dev.abortRows; dsimp only; rw [ih]; split <;> simp
@[simp] theorem Dev.abortRows_base (d : Dev) (p i : Nat) (l : List StepRow) (j : Nat) : (d.abortRows p i l).base j = d.base j := by
  induction l generalizing d i with
  | nil => rfl
  | cons x l ih => unfold Dev.abortRows; dsimp only; rw [ih]; split <;> simp
@[simp] theorem Dev.abortRows_port (d : Dev) (p i : Nat) (l : List StepRow) (j : Nat) : (d.abortRows p i l).port j = d.port j := by
  induction l generalizing d i with
  | nil => rfl
  | cons x l ih => unfold Dev.abortRows; dsimp only; rw [ih]; split <;> simp
@[simp] theorem Dev.abortRows_fn (d : Dev) (p i : Nat) (l : List StepRow) (j : Nat) : (d.abortRows p i l).fn j = d.fn j := by
  induction l generalizing d i with
  | nil => rfl
  | cons x l ih => unfold Dev.abortRows; dsimp only; rw [ih]; split <;> simp
@[simp] theorem Dev.abortRows_shared (d : Dev) (p i : Nat) (l : List StepRow) (j : Nat) : (d.abortRows p i l).shared j = d.shared j := by
  induction l generalizing d i with
  | nil => rfl
  | cons x l ih => unfold Dev.abortRows; dsimp only; rw [ih]; split <;> simp
@[simp] theorem Dev.abortRows_beat (d : Dev) (p i : Nat) (l : List StepRow) : (d.abortRows p i l).beat  = d.beat := by
  induction l generalizing d i with
  | nil => rfl
  | cons x l ih => unfold Dev.abortRows; dsimp only; rw [ih]; split <;> simp

/-! ## putBack -/

/-- Putting bytes back changes the memory alone. -/
theorem Dev.putBack_eq (d : Dev) (l : List OutByte) : ∃ m, d.putBack l = { d with mem := m } := by
  unfold Dev.putBack
  induction l generalizing d with
  | nil => exact ⟨d.mem, rfl⟩
  | cons o l ih =>
    simp only [List.foldl_cons]
    obtain ⟨m, h⟩ := ih (if o.bad then (d.writePa o.loc [o.val]).onMem fun m => { m with bad := Ivl.add m.bad o.loc (o.loc + 1) } else d.writePa o.loc [o.val])
    refine ⟨m, ?_⟩
    rw [h]; split <;> rfl
@[simp] theorem Dev.putBack_parts (d : Dev) (l : List OutByte) : (d.putBack l).parts = d.parts := by obtain ⟨m, h⟩ := d.putBack_eq l; rw [h]
@[simp] theorem Dev.putBack_tiles (d : Dev) (l : List OutByte) : (d.putBack l).tiles = d.tiles := by obtain ⟨m, h⟩ := d.putBack_eq l; rw [h]
@[simp] theorem Dev.putBack_hc (d : Dev) (l : List OutByte) : (d.putBack l).hc = d.hc := by obtain ⟨m, h⟩ := d.putBack_eq l; rw [h]
@[simp] theorem Dev.putBack_sram (d : Dev) (l : List OutByte) : (d.putBack l).sram = d.sram := by obtain ⟨m, h⟩ := d.putBack_eq l; rw [h]
@[simp] theorem Dev.putBack_sramBad (d : Dev) (l : List OutByte) : (d.putBack l).sramBad = d.sramBad := by obtain ⟨m, h⟩ := d.putBack_eq l; rw [h]
@[simp] theorem Dev.putBack_cat (d : Dev) (l : List OutByte) : (d.putBack l).cat = d.cat := by obtain ⟨m, h⟩ := d.putBack_eq l; rw [h]
@[simp] theorem Dev.putBack_bases (d : Dev) (l : List OutByte) : (d.putBack l).bases = d.bases := by obtain ⟨m, h⟩ := d.putBack_eq l; rw [h]
@[simp] theorem Dev.putBack_lnk (d : Dev) (l : List OutByte) : (d.putBack l).lnk = d.lnk := by obtain ⟨m, h⟩ := d.putBack_eq l; rw [h]
@[simp] theorem Dev.putBack_ckr (d : Dev) (l : List OutByte) : (d.putBack l).ckr = d.ckr := by obtain ⟨m, h⟩ := d.putBack_eq l; rw [h]
@[simp] theorem Dev.putBack_pins (d : Dev) (l : List OutByte) : (d.putBack l).pins = d.pins := by obtain ⟨m, h⟩ := d.putBack_eq l; rw [h]
@[simp] theorem Dev.putBack_persist (d : Dev) (l : List OutByte) : (d.putBack l).persist = d.persist := by obtain ⟨m, h⟩ := d.putBack_eq l; rw [h]
@[simp] theorem Dev.putBack_sec (d : Dev) (l : List OutByte) : (d.putBack l).sec = d.sec := by obtain ⟨m, h⟩ := d.putBack_eq l; rw [h]
@[simp] theorem Dev.putBack_err (d : Dev) (l : List OutByte) : (d.putBack l).err = d.err := by obtain ⟨m, h⟩ := d.putBack_eq l; rw [h]
@[simp] theorem Dev.putBack_host (d : Dev) (l : List OutByte) : (d.putBack l).host = d.host := by obtain ⟨m, h⟩ := d.putBack_eq l; rw [h]
@[simp] theorem Dev.putBack_therm (d : Dev) (l : List OutByte) : (d.putBack l).therm = d.therm := by obtain ⟨m, h⟩ := d.putBack_eq l; rw [h]
@[simp] theorem Dev.putBack_cfg (d : Dev) (l : List OutByte) : (d.putBack l).cfg = d.cfg := by obtain ⟨m, h⟩ := d.putBack_eq l; rw [h]
@[simp] theorem Dev.putBack_out (d : Dev) (l : List OutByte) : (d.putBack l).out = d.out := by obtain ⟨m, h⟩ := d.putBack_eq l; rw [h]
@[simp] theorem Dev.putBack_fresh (d : Dev) (l : List OutByte) : (d.putBack l).fresh = d.fresh := by obtain ⟨m, h⟩ := d.putBack_eq l; rw [h]
@[simp] theorem Dev.putBack_useClock (d : Dev) (l : List OutByte) : (d.putBack l).useClock = d.useClock := by obtain ⟨m, h⟩ := d.putBack_eq l; rw [h]
@[simp] theorem Dev.putBack_buckets (d : Dev) (l : List OutByte) : (d.putBack l).buckets = d.buckets := by obtain ⟨m, h⟩ := d.putBack_eq l; rw [h]
@[simp] theorem Dev.putBack_part (d : Dev) (l : List OutByte) (j : Nat) : (d.putBack l).part j = d.part j := by obtain ⟨m, h⟩ := d.putBack_eq l; rw [h]; rfl
@[simp] theorem Dev.putBack_tile (d : Dev) (l : List OutByte) (j : Nat) : (d.putBack l).tile j = d.tile j := by obtain ⟨m, h⟩ := d.putBack_eq l; rw [h]; rfl
@[simp] theorem Dev.putBack_hcSet (d : Dev) (l : List OutByte) (j : Nat) : (d.putBack l).hcSet j = d.hcSet j := by obtain ⟨m, h⟩ := d.putBack_eq l; rw [h]; rfl
@[simp] theorem Dev.putBack_catEntry (d : Dev) (l : List OutByte) (j : Nat) : (d.putBack l).catEntry j = d.catEntry j := by obtain ⟨m, h⟩ := d.putBack_eq l; rw [h]; rfl
@[simp] theorem Dev.putBack_base (d : Dev) (l : List OutByte) (j : Nat) : (d.putBack l).base j = d.base j := by obtain ⟨m, h⟩ := d.putBack_eq l; rw [h]; rfl
@[simp] theorem Dev.putBack_port (d : Dev) (l : List OutByte) (j : Nat) : (d.putBack l).port j = d.port j := by obtain ⟨m, h⟩ := d.putBack_eq l; rw [h]; rfl
@[simp] theorem Dev.putBack_fn (d : Dev) (l : List OutByte) (j : Nat) : (d.putBack l).fn j = d.fn j := by obtain ⟨m, h⟩ := d.putBack_eq l; rw [h]; rfl
@[simp] theorem Dev.putBack_shared (d : Dev) (l : List OutByte) (j : Nat) : (d.putBack l).shared j = d.shared j := by obtain ⟨m, h⟩ := d.putBack_eq l; rw [h]; rfl
@[simp] theorem Dev.putBack_beat (d : Dev) (l : List OutByte) : (d.putBack l).beat = d.beat := by obtain ⟨m, h⟩ := d.putBack_eq l; rw [h]; rfl

/-! ## dropResize -/

/-- Giving up a resize changes the memory and the entry of its own partition alone. -/
theorem Dev.dropResize_eq (d : Dev) (p : Nat) :
    ∃ m l, d.dropResize p = { d with mem := m, parts := l } := by
  unfold Dev.dropResize
  split
  · exact ⟨d.mem, d.parts, rfl⟩
  · exact ⟨_, _, rfl⟩
/-- What giving up a resize leaves of its own partition: all but the key's use counts and the area the resize had taken. -/
theorem Dev.dropResize_part (d : Dev) (p : Nat) :
    ∃ k s, (d.dropResize p).part p = { d.part p with kgen := k, saveNext := s } ∧ ((d.part p).saveNext = none → k = (d.part p).kgen) := by
  unfold Dev.dropResize
  split
  · next h => exact ⟨(d.part p).kgen, (d.part p).saveNext, rfl, fun _ => rfl⟩
  · next lo n h => exact ⟨_, _, by dsimp only; rw [Dev.part_onPart]; rfl, fun h2 => by simp [h] at h2⟩
theorem Dev.dropResize_part_ne (d : Dev) {p q : Nat} (h : q ≠ p) : (d.dropResize p).part q = d.part q := by
  unfold Dev.dropResize
  split
  · rfl
  · dsimp only; rw [Dev.part_onPart_ne _ _ h]; rfl
@[simp] theorem Dev.dropResize_tiles (d : Dev) (p : Nat) : (d.dropResize p).tiles = d.tiles := by obtain ⟨m, l, h⟩ := d.dropResize_eq p; rw [h]
@[simp] theorem Dev.dropResize_hc (d : Dev) (p : Nat) : (d.dropResize p).hc = d.hc := by obtain ⟨m, l, h⟩ := d.dropResize_eq p; rw [h]
@[simp] theorem Dev.dropResize_sram (d : Dev) (p : Nat) : (d.dropResize p).sram = d.sram := by obtain ⟨m, l, h⟩ := d.dropResize_eq p; rw [h]
@[simp] theorem Dev.dropResize_sramBad (d : Dev) (p : Nat) : (d.dropResize p).sramBad = d.sramBad := by obtain ⟨m, l, h⟩ := d.dropResize_eq p; rw [h]
@[simp] theorem Dev.dropResize_cat (d : Dev) (p : Nat) : (d.dropResize p).cat = d.cat := by obtain ⟨m, l, h⟩ := d.dropResize_eq p; rw [h]
@[simp] theorem Dev.dropResize_bases (d : Dev) (p : Nat) : (d.dropResize p).bases = d.bases := by obtain ⟨m, l, h⟩ := d.dropResize_eq p; rw [h]
@[simp] theorem Dev.dropResize_lnk (d : Dev) (p : Nat) : (d.dropResize p).lnk = d.lnk := by obtain ⟨m, l, h⟩ := d.dropResize_eq p; rw [h]
@[simp] theorem Dev.dropResize_ckr (d : Dev) (p : Nat) : (d.dropResize p).ckr = d.ckr := by obtain ⟨m, l, h⟩ := d.dropResize_eq p; rw [h]
@[simp] theorem Dev.dropResize_pins (d : Dev) (p : Nat) : (d.dropResize p).pins = d.pins := by obtain ⟨m, l, h⟩ := d.dropResize_eq p; rw [h]
@[simp] theorem Dev.dropResize_persist (d : Dev) (p : Nat) : (d.dropResize p).persist = d.persist := by obtain ⟨m, l, h⟩ := d.dropResize_eq p; rw [h]
@[simp] theorem Dev.dropResize_sec (d : Dev) (p : Nat) : (d.dropResize p).sec = d.sec := by obtain ⟨m, l, h⟩ := d.dropResize_eq p; rw [h]
@[simp] theorem Dev.dropResize_err (d : Dev) (p : Nat) : (d.dropResize p).err = d.err := by obtain ⟨m, l, h⟩ := d.dropResize_eq p; rw [h]
@[simp] theorem Dev.dropResize_host (d : Dev) (p : Nat) : (d.dropResize p).host = d.host := by obtain ⟨m, l, h⟩ := d.dropResize_eq p; rw [h]
@[simp] theorem Dev.dropResize_therm (d : Dev) (p : Nat) : (d.dropResize p).therm = d.therm := by obtain ⟨m, l, h⟩ := d.dropResize_eq p; rw [h]
@[simp] theorem Dev.dropResize_cfg (d : Dev) (p : Nat) : (d.dropResize p).cfg = d.cfg := by obtain ⟨m, l, h⟩ := d.dropResize_eq p; rw [h]
@[simp] theorem Dev.dropResize_out (d : Dev) (p : Nat) : (d.dropResize p).out = d.out := by obtain ⟨m, l, h⟩ := d.dropResize_eq p; rw [h]
@[simp] theorem Dev.dropResize_fresh (d : Dev) (p : Nat) : (d.dropResize p).fresh = d.fresh := by obtain ⟨m, l, h⟩ := d.dropResize_eq p; rw [h]
@[simp] theorem Dev.dropResize_useClock (d : Dev) (p : Nat) : (d.dropResize p).useClock = d.useClock := by obtain ⟨m, l, h⟩ := d.dropResize_eq p; rw [h]
@[simp] theorem Dev.dropResize_buckets (d : Dev) (p : Nat) : (d.dropResize p).buckets = d.buckets := by obtain ⟨m, l, h⟩ := d.dropResize_eq p; rw [h]
@[simp] theorem Dev.dropResize_tile (d : Dev) (p : Nat) (j : Nat) : (d.dropResize p).tile j = d.tile j := by obtain ⟨m, l, h⟩ := d.dropResize_eq p; rw [h]; rfl
@[simp] theorem Dev.dropResize_hcSet (d : Dev) (p : Nat) (j : Nat) : (d.dropResize p).hcSet j = d.hcSet j := by obtain ⟨m, l, h⟩ := d.dropResize_eq p; rw [h]; rfl
@[simp] theorem Dev.dropResize_catEntry (d : Dev) (p : Nat) (j : Nat) : (d.dropResize p).catEntry j = d.catEntry j := by obtain ⟨m, l, h⟩ := d.dropResize_eq p; rw [h]; rfl
@[simp] theorem Dev.dropResize_base (d : Dev) (p : Nat) (j : Nat) : (d.dropResize p).base j = d.base j := by obtain ⟨m, l, h⟩ := d.dropResize_eq p; rw [h]; rfl
@[simp] theorem Dev.dropResize_port (d : Dev) (p : Nat) (j : Nat) : (d.dropResize p).port j = d.port j := by obtain ⟨m, l, h⟩ := d.dropResize_eq p; rw [h]; rfl
@[simp] theorem Dev.dropResize_fn (d : Dev) (p : Nat) (j : Nat) : (d.dropResize p).fn j = d.fn j := by obtain ⟨m, l, h⟩ := d.dropResize_eq p; rw [h]; rfl
@[simp] theorem Dev.dropResize_shared (d : Dev) (p : Nat) (j : Nat) : (d.dropResize p).shared j = d.shared j := by obtain ⟨m, l, h⟩ := d.dropResize_eq p; rw [h]; rfl
@[simp] theorem Dev.dropResize_beat (d : Dev) (p : Nat) : (d.dropResize p).beat = d.beat := by simp [Dev.beat]

/-! ## stepStops -/

@[simp] theorem Dev.stepStops_tiles (d : Dev) (p : Nat) : (d.stepStops p).tiles = d.tiles := by unfold Dev.stepStops; (repeat' split) <;> simp
@[simp] theorem Dev.stepStops_hc (d : Dev) (p : Nat) : (d.stepStops p).hc = d.hc := by unfold Dev.stepStops; (repeat' split) <;> simp
@[simp] theorem Dev.stepStops_sram (d : Dev) (p : Nat) : (d.stepStops p).sram = d.sram := by unfold Dev.stepStops; (repeat' split) <;> simp
@[simp] theorem Dev.stepStops_sramBad (d : Dev) (p : Nat) : (d.stepStops p).sramBad = d.sramBad := by unfold Dev.stepStops; (repeat' split) <;> simp
@[simp] theorem Dev.stepStops_bases (d : Dev) (p : Nat) : (d.stepStops p).bases = d.bases := by unfold Dev.stepStops; (repeat' split) <;> simp
@[simp] theorem Dev.stepStops_lnk (d : Dev) (p : Nat) : (d.stepStops p).lnk = d.lnk := by unfold Dev.stepStops; (repeat' split) <;> simp
@[simp] theorem Dev.stepStops_ckr (d : Dev) (p : Nat) : (d.stepStops p).ckr = d.ckr := by unfold Dev.stepStops; (repeat' split) <;> simp
@[simp] theorem Dev.stepStops_pins (d : Dev) (p : Nat) : (d.stepStops p).pins = d.pins := by unfold Dev.stepStops; (repeat' split) <;> simp
@[simp] theorem Dev.stepStops_persist (d : Dev) (p : Nat) : (d.stepStops p).persist = d.persist := by unfold Dev.stepStops; (repeat' split) <;> simp
@[simp] theorem Dev.stepStops_sec (d : Dev) (p : Nat) : (d.stepStops p).sec = d.sec := by unfold Dev.stepStops; (repeat' split) <;> simp
theorem Dev.stepStops_err (d : Dev) (p : Nat) : d.err.Grows (d.stepStops p).err := by
  unfold Dev.stepStops; split
  · exact ErrSt.Grows.refl _
  · dsimp only
    refine ErrSt.Grows.trans ?_ (Dev.abortRows_err ..)
    split
    · simpa using ErrSt.Grows.refl _
    · simpa using ErrSt.Grows.refl _
@[simp] theorem Dev.stepStops_host (d : Dev) (p : Nat) : (d.stepStops p).host = d.host := by unfold Dev.stepStops; (repeat' split) <;> simp
@[simp] theorem Dev.stepStops_therm (d : Dev) (p : Nat) : (d.stepStops p).therm = d.therm := by unfold Dev.stepStops; (repeat' split) <;> simp
@[simp] theorem Dev.stepStops_cfg (d : Dev) (p : Nat) : (d.stepStops p).cfg = d.cfg := by unfold Dev.stepStops; (repeat' split) <;> simp
@[simp] theorem Dev.stepStops_out (d : Dev) (p : Nat) : (d.stepStops p).out = d.out := by unfold Dev.stepStops; (repeat' split) <;> simp
@[simp] theorem Dev.stepStops_fresh (d : Dev) (p : Nat) : (d.stepStops p).fresh = d.fresh := by unfold Dev.stepStops; (repeat' split) <;> simp
@[simp] theorem Dev.stepStops_useClock (d : Dev) (p : Nat) : (d.stepStops p).useClock = d.useClock := by unfold Dev.stepStops; (repeat' split) <;> simp
@[simp] theorem Dev.stepStops_tile (d : Dev) (p : Nat) (j : Nat) : (d.stepStops p).tile j = d.tile j := by simp [Dev.tile]
@[simp] theorem Dev.stepStops_hcSet (d : Dev) (p : Nat) (j : Nat) : (d.stepStops p).hcSet j = d.hcSet j := by simp [Dev.hcSet]
@[simp] theorem Dev.stepStops_base (d : Dev) (p : Nat) (j : Nat) : (d.stepStops p).base j = d.base j := by simp [Dev.base]
@[simp] theorem Dev.stepStops_port (d : Dev) (p : Nat) (j : Nat) : (d.stepStops p).port j = d.port j := by simp [Dev.port]
@[simp] theorem Dev.stepStops_fn (d : Dev) (p : Nat) (j : Nat) : (d.stepStops p).fn j = d.fn j := by simp [Dev.fn]
@[simp] theorem Dev.stepStops_shared (d : Dev) (p : Nat) (j : Nat) : (d.stepStops p).shared j = d.shared j := by simp [Dev.shared]
@[simp] theorem Dev.stepStops_beat (d : Dev) (p : Nat) : (d.stepStops p).beat  = d.beat := by simp [Dev.beat]

/-! ## yieldDone -/

@[simp] theorem Dev.yieldDone_tiles (d : Dev) (p : Nat) (r : YResult) : (d.yieldDone p r).tiles = d.tiles := by simp [Dev.yieldDone]
@[simp] theorem Dev.yieldDone_hc (d : Dev) (p : Nat) (r : YResult) : (d.yieldDone p r).hc = d.hc := by simp [Dev.yieldDone]
@[simp] theorem Dev.yieldDone_mem (d : Dev) (p : Nat) (r : YResult) : (d.yieldDone p r).mem = d.mem := by simp [Dev.yieldDone]
@[simp] theorem Dev.yieldDone_sram (d : Dev) (p : Nat) (r : YResult) : (d.yieldDone p r).sram = d.sram := by simp [Dev.yieldDone]
@[simp] theorem Dev.yieldDone_sramBad (d : Dev) (p : Nat) (r : YResult) : (d.yieldDone p r).sramBad = d.sramBad := by simp [Dev.yieldDone]
@[simp] theorem Dev.yieldDone_cat (d : Dev) (p : Nat) (r : YResult) : (d.yieldDone p r).cat = d.cat := by simp [Dev.yieldDone]
@[simp] theorem Dev.yieldDone_bases (d : Dev) (p : Nat) (r : YResult) : (d.yieldDone p r).bases = d.bases := by simp [Dev.yieldDone]
@[simp] theorem Dev.yieldDone_lnk (d : Dev) (p : Nat) (r : YResult) : (d.yieldDone p r).lnk = d.lnk := by simp [Dev.yieldDone]
@[simp] theorem Dev.yieldDone_ckr (d : Dev) (p : Nat) (r : YResult) : (d.yieldDone p r).ckr = d.ckr := by simp [Dev.yieldDone]
@[simp] theorem Dev.yieldDone_pins (d : Dev) (p : Nat) (r : YResult) : (d.yieldDone p r).pins = d.pins := by simp [Dev.yieldDone]
@[simp] theorem Dev.yieldDone_persist (d : Dev) (p : Nat) (r : YResult) : (d.yieldDone p r).persist = d.persist := by simp [Dev.yieldDone]
@[simp] theorem Dev.yieldDone_sec (d : Dev) (p : Nat) (r : YResult) : (d.yieldDone p r).sec = d.sec := by simp [Dev.yieldDone]
@[simp] theorem Dev.yieldDone_err (d : Dev) (p : Nat) (r : YResult) : (d.yieldDone p r).err = d.err := by simp [Dev.yieldDone]
@[simp] theorem Dev.yieldDone_therm (d : Dev) (p : Nat) (r : YResult) : (d.yieldDone p r).therm = d.therm := by simp [Dev.yieldDone]
@[simp] theorem Dev.yieldDone_cfg (d : Dev) (p : Nat) (r : YResult) : (d.yieldDone p r).cfg = d.cfg := by simp [Dev.yieldDone]
@[simp] theorem Dev.yieldDone_fresh (d : Dev) (p : Nat) (r : YResult) : (d.yieldDone p r).fresh = d.fresh := by simp [Dev.yieldDone]
@[simp] theorem Dev.yieldDone_useClock (d : Dev) (p : Nat) (r : YResult) : (d.yieldDone p r).useClock = d.useClock := by simp [Dev.yieldDone]
@[simp] theorem Dev.yieldDone_tile (d : Dev) (p : Nat) (r : YResult) (j : Nat) : (d.yieldDone p r).tile j = d.tile j := by simp [Dev.tile]
@[simp] theorem Dev.yieldDone_hcSet (d : Dev) (p : Nat) (r : YResult) (j : Nat) : (d.yieldDone p r).hcSet j = d.hcSet j := by simp [Dev.hcSet]
@[simp] theorem Dev.yieldDone_catEntry (d : Dev) (p : Nat) (r : YResult) (j : Nat) : (d.yieldDone p r).catEntry j = d.catEntry j := by simp [Dev.catEntry]
@[simp] theorem Dev.yieldDone_base (d : Dev) (p : Nat) (r : YResult) (j : Nat) : (d.yieldDone p r).base j = d.base j := by simp [Dev.base]
@[simp] theorem Dev.yieldDone_port (d : Dev) (p : Nat) (r : YResult) (j : Nat) : (d.yieldDone p r).port j = d.port j := by simp [Dev.port]
@[simp] theorem Dev.yieldDone_shared (d : Dev) (p : Nat) (r : YResult) (j : Nat) : (d.yieldDone p r).shared j = d.shared j := by simp [Dev.shared]
@[simp] theorem Dev.yieldDone_beat (d : Dev) (p : Nat) (r : YResult) : (d.yieldDone p r).beat  = d.beat := by simp [Dev.beat]

/-! ## stopPart -/

@[simp] theorem Dev.stopPart_tiles (d : Dev) (p : Nat) (r : YResult) : (d.stopPart p r).tiles = d.tiles := by simp only [Dev.stopPart]; split <;> simp
@[simp] theorem Dev.stopPart_hc (d : Dev) (p : Nat) (r : YResult) : (d.stopPart p r).hc = d.hc := by simp only [Dev.stopPart]; split <;> simp
@[simp] theorem Dev.stopPart_sram (d : Dev) (p : Nat) (r : YResult) : (d.stopPart p r).sram = d.sram := by simp only [Dev.stopPart]; split <;> simp
@[simp] theorem Dev.stopPart_sramBad (d : Dev) (p : Nat) (r : YResult) : (d.stopPart p r).sramBad = d.sramBad := by simp only [Dev.stopPart]; split <;> simp
@[simp] theorem Dev.stopPart_lnk (d : Dev) (p : Nat) (r : YResult) : (d.stopPart p r).lnk = d.lnk := by simp only [Dev.stopPart]; split <;> simp
@[simp] theorem Dev.stopPart_ckr (d : Dev) (p : Nat) (r : YResult) : (d.stopPart p r).ckr = d.ckr := by simp only [Dev.stopPart]; split <;> simp
@[simp] theorem Dev.stopPart_pins (d : Dev) (p : Nat) (r : YResult) : (d.stopPart p r).pins = d.pins := by simp only [Dev.stopPart]; split <;> simp
@[simp] theorem Dev.stopPart_persist (d : Dev) (p : Nat) (r : YResult) : (d.stopPart p r).persist = d.persist := by simp only [Dev.stopPart]; split <;> simp
@[simp] theorem Dev.stopPart_sec (d : Dev) (p : Nat) (r : YResult) : (d.stopPart p r).sec = d.sec := by simp only [Dev.stopPart]; split <;> simp
theorem Dev.stopPart_err (d : Dev) (p : Nat) (r : YResult) : d.err.Grows (d.stopPart p r).err := by
  have h := ((d.dropWaiting p).passBarrier p).stepStops_err p
  simp only [Dev.stopPart]; split <;> simpa using h
@[simp] theorem Dev.stopPart_therm (d : Dev) (p : Nat) (r : YResult) : (d.stopPart p r).therm = d.therm := by simp only [Dev.stopPart]; split <;> simp
@[simp] theorem Dev.stopPart_cfg (d : Dev) (p : Nat) (r : YResult) : (d.stopPart p r).cfg = d.cfg := by simp only [Dev.stopPart]; split <;> simp
@[simp] theorem Dev.stopPart_fresh (d : Dev) (p : Nat) (r : YResult) : (d.stopPart p r).fresh = d.fresh := by simp only [Dev.stopPart]; split <;> simp
@[simp] theorem Dev.stopPart_useClock (d : Dev) (p : Nat) (r : YResult) : (d.stopPart p r).useClock = d.useClock := by simp only [Dev.stopPart]; split <;> simp
@[simp] theorem Dev.stopPart_tile (d : Dev) (p : Nat) (r : YResult) (j : Nat) : (d.stopPart p r).tile j = d.tile j := by simp [Dev.tile]
@[simp] theorem Dev.stopPart_hcSet (d : Dev) (p : Nat) (r : YResult) (j : Nat) : (d.stopPart p r).hcSet j = d.hcSet j := by simp [Dev.hcSet]
@[simp] theorem Dev.stopPart_port (d : Dev) (p : Nat) (r : YResult) (j : Nat) : (d.stopPart p r).port j = d.port j := by simp [Dev.port]
@[simp] theorem Dev.stopPart_shared (d : Dev) (p : Nat) (r : YResult) (j : Nat) : (d.stopPart p r).shared j = d.shared j := by simp [Dev.shared]
@[simp] theorem Dev.stopPart_beat (d : Dev) (p : Nat) (r : YResult) : (d.stopPart p r).beat  = d.beat := by simp [Dev.beat]

/-! ## detectPE -/

@[simp] theorem Dev.detectPE_tiles (d : Dev) (r : ErrRec) (y : YResult) : (d.detectPE r y).tiles = d.tiles := by unfold Dev.detectPE; dsimp only; (repeat' split) <;> simp
@[simp] theorem Dev.detectPE_hc (d : Dev) (r : ErrRec) (y : YResult) : (d.detectPE r y).hc = d.hc := by unfold Dev.detectPE; dsimp only; (repeat' split) <;> simp
@[simp] theorem Dev.detectPE_sram (d : Dev) (r : ErrRec) (y : YResult) : (d.detectPE r y).sram = d.sram := by unfold Dev.detectPE; dsimp only; (repeat' split) <;> simp
@[simp] theorem Dev.detectPE_sramBad (d : Dev) (r : ErrRec) (y : YResult) : (d.detectPE r y).sramBad = d.sramBad := by unfold Dev.detectPE; dsimp only; (repeat' split) <;> simp
@[simp] theorem Dev.detectPE_lnk (d : Dev) (r : ErrRec) (y : YResult) : (d.detectPE r y).lnk = d.lnk := by unfold Dev.detectPE; dsimp only; (repeat' split) <;> simp
@[simp] theorem Dev.detectPE_ckr (d : Dev) (r : ErrRec) (y : YResult) : (d.detectPE r y).ckr = d.ckr := by unfold Dev.detectPE; dsimp only; (repeat' split) <;> simp
@[simp] theorem Dev.detectPE_pins (d : Dev) (r : ErrRec) (y : YResult) : (d.detectPE r y).pins = d.pins := by unfold Dev.detectPE; dsimp only; (repeat' split) <;> simp
@[simp] theorem Dev.detectPE_persist (d : Dev) (r : ErrRec) (y : YResult) : (d.detectPE r y).persist = d.persist := by unfold Dev.detectPE; dsimp only; (repeat' split) <;> simp
@[simp] theorem Dev.detectPE_sec (d : Dev) (r : ErrRec) (y : YResult) : (d.detectPE r y).sec = d.sec := by unfold Dev.detectPE; dsimp only; (repeat' split) <;> simp
@[simp] theorem Dev.detectPE_therm (d : Dev) (r : ErrRec) (y : YResult) : (d.detectPE r y).therm = d.therm := by unfold Dev.detectPE; dsimp only; (repeat' split) <;> simp
@[simp] theorem Dev.detectPE_cfg (d : Dev) (r : ErrRec) (y : YResult) : (d.detectPE r y).cfg = d.cfg := by unfold Dev.detectPE; dsimp only; (repeat' split) <;> simp
@[simp] theorem Dev.detectPE_fresh (d : Dev) (r : ErrRec) (y : YResult) : (d.detectPE r y).fresh = d.fresh := by unfold Dev.detectPE; dsimp only; (repeat' split) <;> simp
@[simp] theorem Dev.detectPE_useClock (d : Dev) (r : ErrRec) (y : YResult) : (d.detectPE r y).useClock = d.useClock := by unfold Dev.detectPE; dsimp only; (repeat' split) <;> simp
@[simp] theorem Dev.detectPE_tile (d : Dev) (r : ErrRec) (y : YResult) (j : Nat) : (d.detectPE r y).tile j = d.tile j := by simp [Dev.tile]
@[simp] theorem Dev.detectPE_hcSet (d : Dev) (r : ErrRec) (y : YResult) (j : Nat) : (d.detectPE r y).hcSet j = d.hcSet j := by simp [Dev.hcSet]
@[simp] theorem Dev.detectPE_port (d : Dev) (r : ErrRec) (y : YResult) (j : Nat) : (d.detectPE r y).port j = d.port j := by simp [Dev.port]
@[simp] theorem Dev.detectPE_shared (d : Dev) (r : ErrRec) (y : YResult) (j : Nat) : (d.detectPE r y).shared j = d.shared j := by simp [Dev.shared]
@[simp] theorem Dev.detectPE_beat (d : Dev) (r : ErrRec) (y : YResult) : (d.detectPE r y).beat  = d.beat := by simp [Dev.beat]

/-! ## stopAll -/

@[simp] theorem Dev.stopAll_tiles (d : Dev) (l : List Nat) : (d.stopAll l).tiles = d.tiles := by
  induction l generalizing d with
  | nil => rfl
  | cons x l ih => unfold Dev.stopAll; rw [ih]; split <;> simp
@[simp] theorem Dev.stopAll_hc (d : Dev) (l : List Nat) : (d.stopAll l).hc = d.hc := by
  induction l generalizing d with
  | nil => rfl
  | cons x l ih => unfold Dev.stopAll; rw [ih]; split <;> simp
@[simp] theorem Dev.stopAll_sram (d : Dev) (l : List Nat) : (d.stopAll l).sram = d.sram := by
  induction l generalizing d with
  | nil => rfl
  | cons x l ih => unfold Dev.stopAll; rw [ih]; split <;> simp
@[simp] theorem Dev.stopAll_sramBad (d : Dev) (l : List Nat) : (d.stopAll l).sramBad = d.sramBad := by
  induction l generalizing d with
  | nil => rfl
  | cons x l ih => unfold Dev.stopAll; rw [ih]; split <;> simp
@[simp] theorem Dev.stopAll_lnk (d : Dev) (l : List Nat) : (d.stopAll l).lnk = d.lnk := by
  induction l generalizing d with
  | nil => rfl
  | cons x l ih => unfold Dev.stopAll; rw [ih]; split <;> simp
@[simp] theorem Dev.stopAll_ckr (d : Dev) (l : List Nat) : (d.stopAll l).ckr = d.ckr := by
  induction l generalizing d with
  | nil => rfl
  | cons x l ih => unfold Dev.stopAll; rw [ih]; split <;> simp
@[simp] theorem Dev.stopAll_pins (d : Dev) (l : List Nat) : (d.stopAll l).pins = d.pins := by
  induction l generalizing d with
  | nil => rfl
  | cons x l ih => unfold Dev.stopAll; rw [ih]; split <;> simp
@[simp] theorem Dev.stopAll_persist (d : Dev) (l : List Nat) : (d.stopAll l).persist = d.persist := by
  induction l generalizing d with
  | nil => rfl
  | cons x l ih => unfold Dev.stopAll; rw [ih]; split <;> simp
@[simp] theorem Dev.stopAll_sec (d : Dev) (l : List Nat) : (d.stopAll l).sec = d.sec := by
  induction l generalizing d with
  | nil => rfl
  | cons x l ih => unfold Dev.stopAll; rw [ih]; split <;> simp
theorem Dev.stopAll_err (d : Dev) (l : List Nat) : d.err.Grows (d.stopAll l).err := by
  induction l generalizing d with
  | nil => exact ErrSt.Grows.refl _
  | cons x l ih =>
    unfold Dev.stopAll; refine ErrSt.Grows.trans ?_ (ih _); split
    · exact ErrSt.Grows.refl _
    · exact d.stopPart_err ..
@[simp] theorem Dev.stopAll_therm (d : Dev) (l : List Nat) : (d.stopAll l).therm = d.therm := by
  induction l generalizing d with
  | nil => rfl
  | cons x l ih => unfold Dev.stopAll; rw [ih]; split <;> simp
@[simp] theorem Dev.stopAll_cfg (d : Dev) (l : List Nat) : (d.stopAll l).cfg = d.cfg := by
  induction l generalizing d with
  | nil => rfl
  | cons x l ih => unfold Dev.stopAll; rw [ih]; split <;> simp
@[simp] theorem Dev.stopAll_fresh (d : Dev) (l : List Nat) : (d.stopAll l).fresh = d.fresh := by
  induction l generalizing d with
  | nil => rfl
  | cons x l ih => unfold Dev.stopAll; rw [ih]; split <;> simp
@[simp] theorem Dev.stopAll_useClock (d : Dev) (l : List Nat) : (d.stopAll l).useClock = d.useClock := by
  induction l generalizing d with
  | nil => rfl
  | cons x l ih => unfold Dev.stopAll; rw [ih]; split <;> simp
@[simp] theorem Dev.stopAll_tile (d : Dev) (l : List Nat) (j : Nat) : (d.stopAll l).tile j = d.tile j := by
  induction l generalizing d with
  | nil => rfl
  | cons x l ih => unfold Dev.stopAll; rw [ih]; split <;> simp
@[simp] theorem Dev.stopAll_hcSet (d : Dev) (l : List Nat) (j : Nat) : (d.stopAll l).hcSet j = d.hcSet j := by
  induction l generalizing d with
  | nil => rfl
  | cons x l ih => unfold Dev.stopAll; rw [ih]; split <;> simp
@[simp] theorem Dev.stopAll_port (d : Dev) (l : List Nat) (j : Nat) : (d.stopAll l).port j = d.port j := by
  induction l generalizing d with
  | nil => rfl
  | cons x l ih => unfold Dev.stopAll; rw [ih]; split <;> simp
@[simp] theorem Dev.stopAll_shared (d : Dev) (l : List Nat) (j : Nat) : (d.stopAll l).shared j = d.shared j := by
  induction l generalizing d with
  | nil => rfl
  | cons x l ih => unfold Dev.stopAll; rw [ih]; split <;> simp
@[simp] theorem Dev.stopAll_beat (d : Dev) (l : List Nat) : (d.stopAll l).beat  = d.beat := by
  induction l generalizing d with
  | nil => rfl
  | cons x l ih => unfold Dev.stopAll; rw [ih]; split <;> simp

/-! ## txIdle -/

@[simp] theorem Dev.txIdle_parts (d : Dev) : (d.txIdle).parts = d.parts := by simp [Dev.txIdle]
@[simp] theorem Dev.txIdle_tiles (d : Dev) : (d.txIdle).tiles = d.tiles := by simp [Dev.txIdle]
@[simp] theorem Dev.txIdle_hc (d : Dev) : (d.txIdle).hc = d.hc := by simp [Dev.txIdle]
@[simp] theorem Dev.txIdle_mem (d : Dev) : (d.txIdle).mem = d.mem := by simp [Dev.txIdle]
@[simp] theorem Dev.txIdle_sram (d : Dev) : (d.txIdle).sram = d.sram := by simp [Dev.txIdle]
@[simp] theorem Dev.txIdle_sramBad (d : Dev) : (d.txIdle).sramBad = d.sramBad := by simp [Dev.txIdle]
@[simp] theorem Dev.txIdle_cat (d : Dev) : (d.txIdle).cat = d.cat := by simp [Dev.txIdle]
@[simp] theorem Dev.txIdle_bases (d : Dev) : (d.txIdle).bases = d.bases := by simp [Dev.txIdle]
@[simp] theorem Dev.txIdle_ckr (d : Dev) : (d.txIdle).ckr = d.ckr := by simp [Dev.txIdle]
@[simp] theorem Dev.txIdle_pins (d : Dev) : (d.txIdle).pins = d.pins := by simp [Dev.txIdle]
@[simp] theorem Dev.txIdle_persist (d : Dev) : (d.txIdle).persist = d.persist := by simp [Dev.txIdle]
@[simp] theorem Dev.txIdle_sec (d : Dev) : (d.txIdle).sec = d.sec := by simp [Dev.txIdle]
@[simp] theorem Dev.txIdle_err (d : Dev) : (d.txIdle).err = d.err := by simp [Dev.txIdle]
@[simp] theorem Dev.txIdle_host (d : Dev) : (d.txIdle).host = d.host := by simp [Dev.txIdle]
@[simp] theorem Dev.txIdle_therm (d : Dev) : (d.txIdle).therm = d.therm := by simp [Dev.txIdle]
@[simp] theorem Dev.txIdle_cfg (d : Dev) : (d.txIdle).cfg = d.cfg := by simp [Dev.txIdle]
@[simp] theorem Dev.txIdle_out (d : Dev) : (d.txIdle).out = d.out := by simp [Dev.txIdle]
@[simp] theorem Dev.txIdle_fresh (d : Dev) : (d.txIdle).fresh = d.fresh := by simp [Dev.txIdle]
@[simp] theorem Dev.txIdle_useClock (d : Dev) : (d.txIdle).useClock = d.useClock := by simp [Dev.txIdle]
@[simp] theorem Dev.txIdle_part (d : Dev)  (j : Nat) : (d.txIdle).part j = d.part j := by simp [Dev.part]
@[simp] theorem Dev.txIdle_tile (d : Dev)  (j : Nat) : (d.txIdle).tile j = d.tile j := by simp [Dev.tile]
@[simp] theorem Dev.txIdle_hcSet (d : Dev)  (j : Nat) : (d.txIdle).hcSet j = d.hcSet j := by simp [Dev.hcSet]
@[simp] theorem Dev.txIdle_catEntry (d : Dev)  (j : Nat) : (d.txIdle).catEntry j = d.catEntry j := by simp [Dev.catEntry]
@[simp] theorem Dev.txIdle_base (d : Dev)  (j : Nat) : (d.txIdle).base j = d.base j := by simp [Dev.base]
@[simp] theorem Dev.txIdle_fn (d : Dev)  (j : Nat) : (d.txIdle).fn j = d.fn j := by simp [Dev.fn]
@[simp] theorem Dev.txIdle_shared (d : Dev)  (j : Nat) : (d.txIdle).shared j = d.shared j := by simp [Dev.shared]

/-! ## stopClocks -/

@[simp] theorem Dev.stopClocks_parts (d : Dev) : (d.stopClocks).parts = d.parts := by simp [Dev.stopClocks]
@[simp] theorem Dev.stopClocks_tiles (d : Dev) : (d.stopClocks).tiles = d.tiles := by simp [Dev.stopClocks]
@[simp] theorem Dev.stopClocks_hc (d : Dev) : (d.stopClocks).hc = d.hc := by simp [Dev.stopClocks]
@[simp] theorem Dev.stopClocks_mem (d : Dev) : (d.stopClocks).mem = d.mem := by simp [Dev.stopClocks]
@[simp] theorem Dev.stopClocks_sram (d : Dev) : (d.stopClocks).sram = d.sram := by simp [Dev.stopClocks]
@[simp] theorem Dev.stopClocks_sramBad (d : Dev) : (d.stopClocks).sramBad = d.sramBad := by simp [Dev.stopClocks]
@[simp] theorem Dev.stopClocks_cat (d : Dev) : (d.stopClocks).cat = d.cat := by simp [Dev.stopClocks]
@[simp] theorem Dev.stopClocks_bases (d : Dev) : (d.stopClocks).bases = d.bases := by simp [Dev.stopClocks]
@[simp] theorem Dev.stopClocks_lnk (d : Dev) : (d.stopClocks).lnk = d.lnk := by simp [Dev.stopClocks]
@[simp] theorem Dev.stopClocks_pins (d : Dev) : (d.stopClocks).pins = d.pins := by simp [Dev.stopClocks]
@[simp] theorem Dev.stopClocks_persist (d : Dev) : (d.stopClocks).persist = d.persist := by simp [Dev.stopClocks]
@[simp] theorem Dev.stopClocks_sec (d : Dev) : (d.stopClocks).sec = d.sec := by simp [Dev.stopClocks]
@[simp] theorem Dev.stopClocks_err (d : Dev) : (d.stopClocks).err = d.err := by simp [Dev.stopClocks]
@[simp] theorem Dev.stopClocks_host (d : Dev) : (d.stopClocks).host = d.host := by simp [Dev.stopClocks]
@[simp] theorem Dev.stopClocks_therm (d : Dev) : (d.stopClocks).therm = d.therm := by simp [Dev.stopClocks]
@[simp] theorem Dev.stopClocks_cfg (d : Dev) : (d.stopClocks).cfg = d.cfg := by simp [Dev.stopClocks]
@[simp] theorem Dev.stopClocks_out (d : Dev) : (d.stopClocks).out = d.out := by simp [Dev.stopClocks]
@[simp] theorem Dev.stopClocks_fresh (d : Dev) : (d.stopClocks).fresh = d.fresh := by simp [Dev.stopClocks]
@[simp] theorem Dev.stopClocks_useClock (d : Dev) : (d.stopClocks).useClock = d.useClock := by simp [Dev.stopClocks]
@[simp] theorem Dev.stopClocks_part (d : Dev)  (j : Nat) : (d.stopClocks).part j = d.part j := by simp [Dev.part]
@[simp] theorem Dev.stopClocks_tile (d : Dev)  (j : Nat) : (d.stopClocks).tile j = d.tile j := by simp [Dev.tile]
@[simp] theorem Dev.stopClocks_hcSet (d : Dev)  (j : Nat) : (d.stopClocks).hcSet j = d.hcSet j := by simp [Dev.hcSet]
@[simp] theorem Dev.stopClocks_catEntry (d : Dev)  (j : Nat) : (d.stopClocks).catEntry j = d.catEntry j := by simp [Dev.catEntry]
@[simp] theorem Dev.stopClocks_base (d : Dev)  (j : Nat) : (d.stopClocks).base j = d.base j := by simp [Dev.base]
@[simp] theorem Dev.stopClocks_port (d : Dev)  (j : Nat) : (d.stopClocks).port j = d.port j := by simp [Dev.port]
@[simp] theorem Dev.stopClocks_fn (d : Dev)  (j : Nat) : (d.stopClocks).fn j = d.fn j := by simp [Dev.fn]
@[simp] theorem Dev.stopClocks_shared (d : Dev)  (j : Nat) : (d.stopClocks).shared j = d.shared j := by simp [Dev.shared]
@[simp] theorem Dev.stopClocks_beat (d : Dev) : (d.stopClocks).beat  = d.beat := by simp [Dev.beat]

/-! ## detectDE -/

@[simp] theorem Dev.detectDE_tiles (d : Dev) (r : ErrRec) : (d.detectDE r).tiles = d.tiles := by simp only [Dev.detectDE]; split <;> simp
@[simp] theorem Dev.detectDE_hc (d : Dev) (r : ErrRec) : (d.detectDE r).hc = d.hc := by simp only [Dev.detectDE]; split <;> simp
@[simp] theorem Dev.detectDE_sram (d : Dev) (r : ErrRec) : (d.detectDE r).sram = d.sram := by simp only [Dev.detectDE]; split <;> simp
@[simp] theorem Dev.detectDE_sramBad (d : Dev) (r : ErrRec) : (d.detectDE r).sramBad = d.sramBad := by simp only [Dev.detectDE]; split <;> simp
@[simp] theorem Dev.detectDE_persist (d : Dev) (r : ErrRec) : (d.detectDE r).persist = d.persist := by simp only [Dev.detectDE]; split <;> simp
@[simp] theorem Dev.detectDE_sec (d : Dev) (r : ErrRec) : (d.detectDE r).sec = d.sec := by simp only [Dev.detectDE]; split <;> simp
@[simp] theorem Dev.detectDE_therm (d : Dev) (r : ErrRec) : (d.detectDE r).therm = d.therm := by simp only [Dev.detectDE]; split <;> simp
@[simp] theorem Dev.detectDE_cfg (d : Dev) (r : ErrRec) : (d.detectDE r).cfg = d.cfg := by simp only [Dev.detectDE]; split <;> simp
@[simp] theorem Dev.detectDE_fresh (d : Dev) (r : ErrRec) : (d.detectDE r).fresh = d.fresh := by simp only [Dev.detectDE]; split <;> simp
@[simp] theorem Dev.detectDE_useClock (d : Dev) (r : ErrRec) : (d.detectDE r).useClock = d.useClock := by simp only [Dev.detectDE]; split <;> simp
@[simp] theorem Dev.detectDE_tile (d : Dev) (r : ErrRec) (j : Nat) : (d.detectDE r).tile j = d.tile j := by simp [Dev.tile]
@[simp] theorem Dev.detectDE_hcSet (d : Dev) (r : ErrRec) (j : Nat) : (d.detectDE r).hcSet j = d.hcSet j := by simp [Dev.hcSet]
@[simp] theorem Dev.detectDE_shared (d : Dev) (r : ErrRec) (j : Nat) : (d.detectDE r).shared j = d.shared j := by simp [Dev.shared]

/-! ## detect -/

@[simp] theorem Dev.detect_tiles (d : Dev) (r : ErrRec) : (d.detect r).tiles = d.tiles := by unfold Dev.detect; split <;> simp
@[simp] theorem Dev.detect_hc (d : Dev) (r : ErrRec) : (d.detect r).hc = d.hc := by unfold Dev.detect; split <;> simp
@[simp] theorem Dev.detect_sram (d : Dev) (r : ErrRec) : (d.detect r).sram = d.sram := by unfold Dev.detect; split <;> simp
@[simp] theorem Dev.detect_sramBad (d : Dev) (r : ErrRec) : (d.detect r).sramBad = d.sramBad := by unfold Dev.detect; split <;> simp
@[simp] theorem Dev.detect_persist (d : Dev) (r : ErrRec) : (d.detect r).persist = d.persist := by unfold Dev.detect; split <;> simp
@[simp] theorem Dev.detect_sec (d : Dev) (r : ErrRec) : (d.detect r).sec = d.sec := by unfold Dev.detect; split <;> simp
@[simp] theorem Dev.detect_therm (d : Dev) (r : ErrRec) : (d.detect r).therm = d.therm := by unfold Dev.detect; split <;> simp
@[simp] theorem Dev.detect_cfg (d : Dev) (r : ErrRec) : (d.detect r).cfg = d.cfg := by unfold Dev.detect; split <;> simp
@[simp] theorem Dev.detect_fresh (d : Dev) (r : ErrRec) : (d.detect r).fresh = d.fresh := by unfold Dev.detect; split <;> simp
@[simp] theorem Dev.detect_useClock (d : Dev) (r : ErrRec) : (d.detect r).useClock = d.useClock := by unfold Dev.detect; split <;> simp
@[simp] theorem Dev.detect_tile (d : Dev) (r : ErrRec) (j : Nat) : (d.detect r).tile j = d.tile j := by simp [Dev.tile]
@[simp] theorem Dev.detect_hcSet (d : Dev) (r : ErrRec) (j : Nat) : (d.detect r).hcSet j = d.hcSet j := by simp [Dev.hcSet]
@[simp] theorem Dev.detect_shared (d : Dev) (r : ErrRec) (j : Nat) : (d.detect r).shared j = d.shared j := by simp [Dev.shared]

/-! ## pe -/

@[simp] theorem Dev.pe_tiles (d : Dev) (c p : Nat) : (d.pe c p).tiles = d.tiles := by simp [Dev.pe]
@[simp] theorem Dev.pe_hc (d : Dev) (c p : Nat) : (d.pe c p).hc = d.hc := by simp [Dev.pe]
@[simp] theorem Dev.pe_sram (d : Dev) (c p : Nat) : (d.pe c p).sram = d.sram := by simp [Dev.pe]
@[simp] theorem Dev.pe_sramBad (d : Dev) (c p : Nat) : (d.pe c p).sramBad = d.sramBad := by simp [Dev.pe]
@[simp] theorem Dev.pe_persist (d : Dev) (c p : Nat) : (d.pe c p).persist = d.persist := by simp [Dev.pe]
@[simp] theorem Dev.pe_sec (d : Dev) (c p : Nat) : (d.pe c p).sec = d.sec := by simp [Dev.pe]
@[simp] theorem Dev.pe_therm (d : Dev) (c p : Nat) : (d.pe c p).therm = d.therm := by simp [Dev.pe]
@[simp] theorem Dev.pe_cfg (d : Dev) (c p : Nat) : (d.pe c p).cfg = d.cfg := by simp [Dev.pe]
@[simp] theorem Dev.pe_fresh (d : Dev) (c p : Nat) : (d.pe c p).fresh = d.fresh := by simp [Dev.pe]
@[simp] theorem Dev.pe_useClock (d : Dev) (c p : Nat) : (d.pe c p).useClock = d.useClock := by simp [Dev.pe]
@[simp] theorem Dev.pe_tile (d : Dev) (c p : Nat) (j : Nat) : (d.pe c p).tile j = d.tile j := by simp [Dev.tile]
@[simp] theorem Dev.pe_hcSet (d : Dev) (c p : Nat) (j : Nat) : (d.pe c p).hcSet j = d.hcSet j := by simp [Dev.hcSet]
@[simp] theorem Dev.pe_shared (d : Dev) (c p : Nat) (j : Nat) : (d.pe c p).shared j = d.shared j := by simp [Dev.shared]

/-! ## tell -/

@[simp] theorem Dev.tell_parts (d : Dev) (w : Wire) (o : Out) : (d.tell w o).parts = d.parts := by unfold Dev.tell; split <;> rfl
@[simp] theorem Dev.tell_tiles (d : Dev) (w : Wire) (o : Out) : (d.tell w o).tiles = d.tiles := by unfold Dev.tell; split <;> rfl
@[simp] theorem Dev.tell_hc (d : Dev) (w : Wire) (o : Out) : (d.tell w o).hc = d.hc := by unfold Dev.tell; split <;> rfl
@[simp] theorem Dev.tell_mem (d : Dev) (w : Wire) (o : Out) : (d.tell w o).mem = d.mem := by unfold Dev.tell; split <;> rfl
@[simp] theorem Dev.tell_sram (d : Dev) (w : Wire) (o : Out) : (d.tell w o).sram = d.sram := by unfold Dev.tell; split <;> rfl
@[simp] theorem Dev.tell_sramBad (d : Dev) (w : Wire) (o : Out) : (d.tell w o).sramBad = d.sramBad := by unfold Dev.tell; split <;> rfl
@[simp] theorem Dev.tell_cat (d : Dev) (w : Wire) (o : Out) : (d.tell w o).cat = d.cat := by unfold Dev.tell; split <;> rfl
@[simp] theorem Dev.tell_bases (d : Dev) (w : Wire) (o : Out) : (d.tell w o).bases = d.bases := by unfold Dev.tell; split <;> rfl
@[simp] theorem Dev.tell_lnk (d : Dev) (w : Wire) (o : Out) : (d.tell w o).lnk = d.lnk := by unfold Dev.tell; split <;> rfl
@[simp] theorem Dev.tell_ckr (d : Dev) (w : Wire) (o : Out) : (d.tell w o).ckr = d.ckr := by unfold Dev.tell; split <;> rfl
@[simp] theorem Dev.tell_pins (d : Dev) (w : Wire) (o : Out) : (d.tell w o).pins = d.pins := by unfold Dev.tell; split <;> rfl
@[simp] theorem Dev.tell_persist (d : Dev) (w : Wire) (o : Out) : (d.tell w o).persist = d.persist := by unfold Dev.tell; split <;> rfl
@[simp] theorem Dev.tell_sec (d : Dev) (w : Wire) (o : Out) : (d.tell w o).sec = d.sec := by unfold Dev.tell; split <;> rfl
@[simp] theorem Dev.tell_err (d : Dev) (w : Wire) (o : Out) : (d.tell w o).err = d.err := by unfold Dev.tell; split <;> rfl
@[simp] theorem Dev.tell_host (d : Dev) (w : Wire) (o : Out) : (d.tell w o).host = d.host := by unfold Dev.tell; split <;> rfl
@[simp] theorem Dev.tell_therm (d : Dev) (w : Wire) (o : Out) : (d.tell w o).therm = d.therm := by unfold Dev.tell; split <;> rfl
@[simp] theorem Dev.tell_cfg (d : Dev) (w : Wire) (o : Out) : (d.tell w o).cfg = d.cfg := by unfold Dev.tell; split <;> rfl
@[simp] theorem Dev.tell_fresh (d : Dev) (w : Wire) (o : Out) : (d.tell w o).fresh = d.fresh := by unfold Dev.tell; split <;> rfl
@[simp] theorem Dev.tell_useClock (d : Dev) (w : Wire) (o : Out) : (d.tell w o).useClock = d.useClock := by unfold Dev.tell; split <;> rfl
@[simp] theorem Dev.tell_buckets (d : Dev) (w : Wire) (o : Out) : (d.tell w o).buckets = d.buckets := by unfold Dev.tell; split <;> rfl
@[simp] theorem Dev.tell_part (d : Dev) (w : Wire) (o : Out) (j : Nat) : (d.tell w o).part j = d.part j := by unfold Dev.tell; split <;> rfl
@[simp] theorem Dev.tell_tile (d : Dev) (w : Wire) (o : Out) (j : Nat) : (d.tell w o).tile j = d.tile j := by unfold Dev.tell; split <;> rfl
@[simp] theorem Dev.tell_hcSet (d : Dev) (w : Wire) (o : Out) (j : Nat) : (d.tell w o).hcSet j = d.hcSet j := by unfold Dev.tell; split <;> rfl
@[simp] theorem Dev.tell_catEntry (d : Dev) (w : Wire) (o : Out) (j : Nat) : (d.tell w o).catEntry j = d.catEntry j := by unfold Dev.tell; split <;> rfl
@[simp] theorem Dev.tell_base (d : Dev) (w : Wire) (o : Out) (j : Nat) : (d.tell w o).base j = d.base j := by unfold Dev.tell; split <;> rfl
@[simp] theorem Dev.tell_port (d : Dev) (w : Wire) (o : Out) (j : Nat) : (d.tell w o).port j = d.port j := by unfold Dev.tell; split <;> rfl
@[simp] theorem Dev.tell_fn (d : Dev) (w : Wire) (o : Out) (j : Nat) : (d.tell w o).fn j = d.fn j := by unfold Dev.tell; split <;> rfl
@[simp] theorem Dev.tell_shared (d : Dev) (w : Wire) (o : Out) (j : Nat) : (d.tell w o).shared j = d.shared j := by unfold Dev.tell; split <;> rfl
@[simp] theorem Dev.tell_beat (d : Dev) (w : Wire) (o : Out) : (d.tell w o).beat = d.beat := by unfold Dev.tell; split <;> rfl

/-! ## answer -/

@[simp] theorem Dev.answer_parts (d : Dev) (ch : Chan) (tag c st : Nat) (l : List Byte) : (d.answer ch tag c st l).parts = d.parts := by unfold Dev.answer; dsimp only; (repeat' split) <;> simp
@[simp] theorem Dev.answer_tiles (d : Dev) (ch : Chan) (tag c st : Nat) (l : List Byte) : (d.answer ch tag c st l).tiles = d.tiles := by unfold Dev.answer; dsimp only; (repeat' split) <;> simp
@[simp] theorem Dev.answer_hc (d : Dev) (ch : Chan) (tag c st : Nat) (l : List Byte) : (d.answer ch tag c st l).hc = d.hc := by unfold Dev.answer; dsimp only; (repeat' split) <;> simp
@[simp] theorem Dev.answer_mem (d : Dev) (ch : Chan) (tag c st : Nat) (l : List Byte) : (d.answer ch tag c st l).mem = d.mem := by unfold Dev.answer; dsimp only; (repeat' split) <;> simp
@[simp] theorem Dev.answer_sram (d : Dev) (ch : Chan) (tag c st : Nat) (l : List Byte) : (d.answer ch tag c st l).sram = d.sram := by unfold Dev.answer; dsimp only; (repeat' split) <;> simp
@[simp] theorem Dev.answer_sramBad (d : Dev) (ch : Chan) (tag c st : Nat) (l : List Byte) : (d.answer ch tag c st l).sramBad = d.sramBad := by unfold Dev.answer; dsimp only; (repeat' split) <;> simp
@[simp] theorem Dev.answer_cat (d : Dev) (ch : Chan) (tag c st : Nat) (l : List Byte) : (d.answer ch tag c st l).cat = d.cat := by unfold Dev.answer; dsimp only; (repeat' split) <;> simp
@[simp] theorem Dev.answer_bases (d : Dev) (ch : Chan) (tag c st : Nat) (l : List Byte) : (d.answer ch tag c st l).bases = d.bases := by unfold Dev.answer; dsimp only; (repeat' split) <;> simp
@[simp] theorem Dev.answer_lnk (d : Dev) (ch : Chan) (tag c st : Nat) (l : List Byte) : (d.answer ch tag c st l).lnk = d.lnk := by unfold Dev.answer; dsimp only; (repeat' split) <;> simp
@[simp] theorem Dev.answer_ckr (d : Dev) (ch : Chan) (tag c st : Nat) (l : List Byte) : (d.answer ch tag c st l).ckr = d.ckr := by unfold Dev.answer; dsimp only; (repeat' split) <;> simp
@[simp] theorem Dev.answer_pins (d : Dev) (ch : Chan) (tag c st : Nat) (l : List Byte) : (d.answer ch tag c st l).pins = d.pins := by unfold Dev.answer; dsimp only; (repeat' split) <;> simp
@[simp] theorem Dev.answer_persist (d : Dev) (ch : Chan) (tag c st : Nat) (l : List Byte) : (d.answer ch tag c st l).persist = d.persist := by unfold Dev.answer; dsimp only; (repeat' split) <;> simp
@[simp] theorem Dev.answer_sec (d : Dev) (ch : Chan) (tag c st : Nat) (l : List Byte) : (d.answer ch tag c st l).sec = d.sec := by unfold Dev.answer; dsimp only; (repeat' split) <;> simp
@[simp] theorem Dev.answer_err (d : Dev) (ch : Chan) (tag c st : Nat) (l : List Byte) : (d.answer ch tag c st l).err = d.err := by unfold Dev.answer; dsimp only; (repeat' split) <;> simp
@[simp] theorem Dev.answer_therm (d : Dev) (ch : Chan) (tag c st : Nat) (l : List Byte) : (d.answer ch tag c st l).therm = d.therm := by unfold Dev.answer; dsimp only; (repeat' split) <;> simp
@[simp] theorem Dev.answer_cfg (d : Dev) (ch : Chan) (tag c st : Nat) (l : List Byte) : (d.answer ch tag c st l).cfg = d.cfg := by unfold Dev.answer; dsimp only; (repeat' split) <;> simp
@[simp] theorem Dev.answer_fresh (d : Dev) (ch : Chan) (tag c st : Nat) (l : List Byte) : (d.answer ch tag c st l).fresh = d.fresh := by unfold Dev.answer; dsimp only; (repeat' split) <;> simp
@[simp] theorem Dev.answer_useClock (d : Dev) (ch : Chan) (tag c st : Nat) (l : List Byte) : (d.answer ch tag c st l).useClock = d.useClock := by unfold Dev.answer; dsimp only; (repeat' split) <;> simp
@[simp] theorem Dev.answer_part (d : Dev) (ch : Chan) (tag c st : Nat) (l : List Byte) (j : Nat) : (d.answer ch tag c st l).part j = d.part j := by simp [Dev.part]
@[simp] theorem Dev.answer_tile (d : Dev) (ch : Chan) (tag c st : Nat) (l : List Byte) (j : Nat) : (d.answer ch tag c st l).tile j = d.tile j := by simp [Dev.tile]
@[simp] theorem Dev.answer_hcSet (d : Dev) (ch : Chan) (tag c st : Nat) (l : List Byte) (j : Nat) : (d.answer ch tag c st l).hcSet j = d.hcSet j := by simp [Dev.hcSet]
@[simp] theorem Dev.answer_catEntry (d : Dev) (ch : Chan) (tag c st : Nat) (l : List Byte) (j : Nat) : (d.answer ch tag c st l).catEntry j = d.catEntry j := by simp [Dev.catEntry]
@[simp] theorem Dev.answer_base (d : Dev) (ch : Chan) (tag c st : Nat) (l : List Byte) (j : Nat) : (d.answer ch tag c st l).base j = d.base j := by simp [Dev.base]
@[simp] theorem Dev.answer_port (d : Dev) (ch : Chan) (tag c st : Nat) (l : List Byte) (j : Nat) : (d.answer ch tag c st l).port j = d.port j := by simp [Dev.port]
@[simp] theorem Dev.answer_shared (d : Dev) (ch : Chan) (tag c st : Nat) (l : List Byte) (j : Nat) : (d.answer ch tag c st l).shared j = d.shared j := by simp [Dev.shared]
@[simp] theorem Dev.answer_beat (d : Dev) (ch : Chan) (tag c st : Nat) (l : List Byte) : (d.answer ch tag c st l).beat  = d.beat := by simp [Dev.beat]

/-! ## reply -/

@[simp] theorem Dev.reply_parts (d : Dev) (c k st : Nat) (l : List Byte) : (d.reply c k st l).parts = d.parts := by unfold Dev.reply; split <;> simp
@[simp] theorem Dev.reply_tiles (d : Dev) (c k st : Nat) (l : List Byte) : (d.reply c k st l).tiles = d.tiles := by unfold Dev.reply; split <;> simp
@[simp] theorem Dev.reply_hc (d : Dev) (c k st : Nat) (l : List Byte) : (d.reply c k st l).hc = d.hc := by unfold Dev.reply; split <;> simp
@[simp] theorem Dev.reply_mem (d : Dev) (c k st : Nat) (l : List Byte) : (d.reply c k st l).mem = d.mem := by unfold Dev.reply; split <;> simp
@[simp] theorem Dev.reply_sram (d : Dev) (c k st : Nat) (l : List Byte) : (d.reply c k st l).sram = d.sram := by unfold Dev.reply; split <;> simp
@[simp] theorem Dev.reply_sramBad (d : Dev) (c k st : Nat) (l : List Byte) : (d.reply c k st l).sramBad = d.sramBad := by unfold Dev.reply; split <;> simp
@[simp] theorem Dev.reply_cat (d : Dev) (c k st : Nat) (l : List Byte) : (d.reply c k st l).cat = d.cat := by unfold Dev.reply; split <;> simp
@[simp] theorem Dev.reply_bases (d : Dev) (c k st : Nat) (l : List Byte) : (d.reply c k st l).bases = d.bases := by unfold Dev.reply; split <;> simp
@[simp] theorem Dev.reply_lnk (d : Dev) (c k st : Nat) (l : List Byte) : (d.reply c k st l).lnk = d.lnk := by unfold Dev.reply; split <;> simp
@[simp] theorem Dev.reply_ckr (d : Dev) (c k st : Nat) (l : List Byte) : (d.reply c k st l).ckr = d.ckr := by unfold Dev.reply; split <;> simp
@[simp] theorem Dev.reply_pins (d : Dev) (c k st : Nat) (l : List Byte) : (d.reply c k st l).pins = d.pins := by unfold Dev.reply; split <;> simp
@[simp] theorem Dev.reply_persist (d : Dev) (c k st : Nat) (l : List Byte) : (d.reply c k st l).persist = d.persist := by unfold Dev.reply; split <;> simp
@[simp] theorem Dev.reply_sec (d : Dev) (c k st : Nat) (l : List Byte) : (d.reply c k st l).sec = d.sec := by unfold Dev.reply; split <;> simp
@[simp] theorem Dev.reply_err (d : Dev) (c k st : Nat) (l : List Byte) : (d.reply c k st l).err = d.err := by unfold Dev.reply; split <;> simp
@[simp] theorem Dev.reply_therm (d : Dev) (c k st : Nat) (l : List Byte) : (d.reply c k st l).therm = d.therm := by unfold Dev.reply; split <;> simp
@[simp] theorem Dev.reply_cfg (d : Dev) (c k st : Nat) (l : List Byte) : (d.reply c k st l).cfg = d.cfg := by unfold Dev.reply; split <;> simp
@[simp] theorem Dev.reply_fresh (d : Dev) (c k st : Nat) (l : List Byte) : (d.reply c k st l).fresh = d.fresh := by unfold Dev.reply; split <;> simp
@[simp] theorem Dev.reply_useClock (d : Dev) (c k st : Nat) (l : List Byte) : (d.reply c k st l).useClock = d.useClock := by unfold Dev.reply; split <;> simp
@[simp] theorem Dev.reply_part (d : Dev) (c k st : Nat) (l : List Byte) (j : Nat) : (d.reply c k st l).part j = d.part j := by simp [Dev.part]
@[simp] theorem Dev.reply_tile (d : Dev) (c k st : Nat) (l : List Byte) (j : Nat) : (d.reply c k st l).tile j = d.tile j := by simp [Dev.tile]
@[simp] theorem Dev.reply_hcSet (d : Dev) (c k st : Nat) (l : List Byte) (j : Nat) : (d.reply c k st l).hcSet j = d.hcSet j := by simp [Dev.hcSet]
@[simp] theorem Dev.reply_catEntry (d : Dev) (c k st : Nat) (l : List Byte) (j : Nat) : (d.reply c k st l).catEntry j = d.catEntry j := by simp [Dev.catEntry]
@[simp] theorem Dev.reply_base (d : Dev) (c k st : Nat) (l : List Byte) (j : Nat) : (d.reply c k st l).base j = d.base j := by simp [Dev.base]
@[simp] theorem Dev.reply_port (d : Dev) (c k st : Nat) (l : List Byte) (j : Nat) : (d.reply c k st l).port j = d.port j := by simp [Dev.port]
@[simp] theorem Dev.reply_shared (d : Dev) (c k st : Nat) (l : List Byte) (j : Nat) : (d.reply c k st l).shared j = d.shared j := by simp [Dev.shared]
@[simp] theorem Dev.reply_beat (d : Dev) (c k st : Nat) (l : List Byte) : (d.reply c k st l).beat  = d.beat := by simp [Dev.beat]

/-! ## What they change -/

@[simp] theorem Dev.part_vfEvent (d : Dev) (p b i : Nat) :
    (d.vfEvent p b i).part p = { d.part p with vf := { (d.part p).vf with vstat := (d.part p).vf.vstat ||| (1#9 <<< b) } } := by
  simp [Dev.vfEvent]
theorem Dev.part_vfEvent_ne (d : Dev) {p q : Nat} (b i : Nat) (h : q ≠ p) : (d.vfEvent p b i).part q = d.part q := by
  simp [Dev.vfEvent, Dev.part_onVf_ne d _ h]
@[simp] theorem Dev.part_qerr (d : Dev) (p : Nat) :
    (d.qerr p).part p = { d.part p with vf := { (d.part p).vf with qerr := true, vstat := (d.part p).vf.vstat ||| (1#9 <<< 8) } } := by
  simp [Dev.qerr]
theorem Dev.part_qerr_ne (d : Dev) {p q : Nat} (h : q ≠ p) : (d.qerr p).part q = d.part q := by
  simp [Dev.qerr, Dev.part_vfEvent_ne _ _ _ h, Dev.part_onVf_ne d _ h]
@[simp] theorem Dev.record_err (d : Dev) (r : ErrRec) :
    (d.record r).err = { d.err with detected := d.err.detected ++ [{ r with beat := d.beat }] } := rfl
/-- A message changes a function's pending bits and the record of output, and nothing of the host interface beside. -/
theorem Dev.msix_host (d : Dev) (v i : Nat) : ∃ f, (d.msix v i).host = { d.host with fns := f } := by
  unfold Dev.msix; (repeat' split) <;> exact ⟨_, rfl⟩
@[simp] theorem Dev.msix_mb (d : Dev) (v i : Nat) (m : Fin 2) : (d.msix v i).host.mb m = d.host.mb m := by
  obtain ⟨f, h⟩ := d.msix_host v i; rw [h]; rfl
@[simp] theorem Dev.pfEvent_mb (d : Dev) (i : Nat) (m : Fin 2) : (d.pfEvent i).host.mb m = d.host.mb m := by
  simp [Dev.pfEvent]; rfl
@[simp] theorem Dev.vfEvent_mb (d : Dev) (p b i : Nat) (m : Fin 2) : (d.vfEvent p b i).host.mb m = d.host.mb m := by simp [Dev.vfEvent]
theorem Dev.msix_int (d : Dev) (v i : Nat) : (d.msix v i).host.int = d.host.int := by
  obtain ⟨f, h⟩ := d.msix_host v i; rw [h]
theorem Dev.pfEvent_int (d : Dev) (i : Nat) : (d.pfEvent i).host.int = d.host.int ||| (1#8 <<< i) := by
  simp [Dev.pfEvent, Dev.msix_int]

/-- Writing a completion entry changes the queue of its partition alone. -/
theorem Dev.writeCqe_part (d : Dev) (p : Nat) (l : List Byte) :
    (d.writeCqe p l).part p = { d.part p with vf := { (d.part p).vf with
      cqTail := ((d.part p).vf.cqTail + 1) % 2 ^ (d.part p).vf.cqsz
      phase := if ((d.part p).vf.cqTail + 1) % 2 ^ (d.part p).vf.cqsz = 0 then !(d.part p).vf.phase else (d.part p).vf.phase
      vstat := (d.part p).vf.vstat ||| 1#9 } } := by
  unfold Dev.writeCqe; dsimp only; split <;> simp
theorem Dev.writeCqe_part_ne (d : Dev) {p q : Nat} (l : List Byte) (h : q ≠ p) : (d.writeCqe p l).part q = d.part q := by
  unfold Dev.writeCqe; dsimp only; split <;> simp [Dev.part_onVf_ne _ _ h]
theorem Dev.postCqe_part_ne (d : Dev) {p q : Nat} (st : Nat) (l : List Byte) (h : q ≠ p) : (d.postCqe p st l).part q = d.part q := by
  unfold Dev.postCqe; dsimp only; (repeat' split) <;> simp [Dev.part_onVf_ne _ _ h, Dev.writeCqe_part_ne _ _ h]
/-- The end of a queue command changes its partition's queue alone, and no command runs then. -/
theorem Dev.postCqe_part (d : Dev) (p st : Nat) (l : List Byte) :
    ∃ v : Vf, (d.postCqe p st l).part p = { d.part p with vf := v } ∧ v.cur = none ∧ v.view = (d.part p).vf.view ∧ v.en = (d.part p).vf.en := by
  unfold Dev.postCqe; dsimp only
  split
  · next h => exact ⟨(d.part p).vf, rfl, h, rfl, rfl⟩
  · (repeat' split) <;> refine ⟨_, by simp [Dev.writeCqe_part]; rfl, ?_, ?_, ?_⟩ <;> simp

/-! ## A partition that stops -/

theorem Dev.finishRow_part_ne (d : Dev) {p q : Nat} (i : Nat) (r : StepRow) (h : q ≠ p) : (d.finishRow p i r).part q = d.part q := by
  unfold Dev.finishRow; dsimp only; split
  · rfl
  · simp [Dev.part_onPart_ne _ _ h]
theorem Dev.finishRow_part (d : Dev) (p i : Nat) (r : StepRow) :
    ∃ s, (d.finishRow p i r).part p = { d.part p with step := s } ∧ (s.isSome = (d.part p).step.isSome) := by
  unfold Dev.finishRow; dsimp only; split
  · next h => exact ⟨(d.part p).step, rfl, rfl⟩
  · next x h => exact ⟨_, by simp; rfl, by simp [h]⟩
theorem Dev.abortRows_part_ne (d : Dev) {p q : Nat} (i : Nat) (l : List StepRow) (h : q ≠ p) : (d.abortRows p i l).part q = d.part q := by
  induction l generalizing d i with
  | nil => rfl
  | cons x l ih => unfold Dev.abortRows; dsimp only; rw [ih]; split <;> simp [Dev.finishRow_part_ne _ _ _ h]
theorem Dev.abortRows_part (d : Dev) (p i : Nat) (l : List StepRow) :
    ∃ s, (d.abortRows p i l).part p = { d.part p with step := s } ∧ (s.isSome = (d.part p).step.isSome) := by
  induction l generalizing d i with
  | nil => exact ⟨_, rfl, rfl⟩
  | cons x l ih =>
    unfold Dev.abortRows; dsimp only
    obtain ⟨s, h1, h2⟩ := ih (if x.code.isNone = true then d.finishRow p i { x with code := some (((d.part p).step.map fun s => s.endCode x).getD Code.aborted), newlen := x.len, wave := 0 } else d) (i + 1)
    refine ⟨s, ?_, ?_⟩
    · rw [h1]; split
      · obtain ⟨u, h3, _⟩ := d.finishRow_part p i { x with code := some (((d.part p).step.map fun s => s.endCode x).getD Code.aborted), newlen := x.len, wave := 0 }
        rw [h3]
      · rfl
    · rw [h2]; split
      · obtain ⟨u, h3, h4⟩ := d.finishRow_part p i { x with code := some (((d.part p).step.map fun s => s.endCode x).getD Code.aborted), newlen := x.len, wave := 0 }
        rw [h3]; exact h4
      · rfl
theorem Dev.stepStops_part_ne (d : Dev) {p q : Nat} (h : q ≠ p) : (d.stepStops p).part q = d.part q := by
  unfold Dev.stepStops; (repeat' split) <;> simp [Dev.abortRows_part_ne _ _ _ h, Dev.part_onPart_ne _ _ h]
/-- The end of a step changes the step and the pod slots of its partition alone. -/
theorem Dev.stepStops_part (d : Dev) (p : Nat) :
    ∃ s l, (d.stepStops p).part p = { d.part p with step := s, pods := l } ∧ s.isSome = (d.part p).step.isSome := by
  unfold Dev.stepStops; split
  · next h => exact ⟨(d.part p).step, (d.part p).pods, rfl, rfl⟩
  · next x h =>
    dsimp only
    generalize hb : (if x.phase == 1 then d.putBack x.undo else d) = b
    have hp : b.part p = d.part p := by rw [← hb]; split <;> simp
    obtain ⟨s, h1, h2⟩ := (b.onPart p fun P => { P with step := some { x with abort := true }, pods := P.pods.map fun x => x.letGo b.useClock }).catSettle.abortRows_part p 0 x.rows
    exact ⟨s, _, by rw [h1]; simp [hp]; rfl, by rw [h2]; simp [h]⟩
@[simp] theorem Dev.yieldDone_part_ne (d : Dev) {p q : Nat} (r : YResult) (h : q ≠ p) : (d.yieldDone p r).part q = d.part q := by
  simp [Dev.yieldDone, Dev.part_vfEvent_ne _ _ _ h, Dev.part_onPart_ne _ _ h]
theorem Dev.yieldDone_part (d : Dev) (p : Nat) (r : YResult) :
    (d.yieldDone p r).part p = { d.part p with yResult := r, yBeats := min (d.part p).yAll (2 ^ 32 - 1), vf := { (d.part p).vf with vstat := (d.part p).vf.vstat ||| (1#9 <<< 2) } } := by
  simp [Dev.yieldDone]
/-- The end of an unfinished PERMUTE changes the layout's record alone. -/
theorem Part.unmoved_eq (P : Part) : ∃ l, P.unmoved = { P with shards := l } := by
  unfold Part.unmoved; split
  · exact ⟨_, rfl⟩
  · exact ⟨P.shards, rfl⟩
@[simp] theorem Part.unmoved_st (P : Part) : P.unmoved.st = P.st := by obtain ⟨_, h⟩ := P.unmoved_eq; rw [h]
@[simp] theorem Part.unmoved_sq (P : Part) : P.unmoved.sq = P.sq := by obtain ⟨_, h⟩ := P.unmoved_eq; rw [h]
@[simp] theorem Part.unmoved_step (P : Part) : P.unmoved.step = P.step := by obtain ⟨_, h⟩ := P.unmoved_eq; rw [h]
@[simp] theorem Part.unmoved_entry (P : Part) : P.unmoved.entry = P.entry := by obtain ⟨_, h⟩ := P.unmoved_eq; rw [h]
@[simp] theorem Part.unmoved_regs (P : Part) : P.unmoved.regs = P.regs := by obtain ⟨_, h⟩ := P.unmoved_eq; rw [h]
@[simp] theorem Part.unmoved_ext (P : Part) : P.unmoved.ext = P.ext := by obtain ⟨_, h⟩ := P.unmoved_eq; rw [h]
@[simp] theorem Part.unmoved_kgen (P : Part) : P.unmoved.kgen = P.kgen := by obtain ⟨_, h⟩ := P.unmoved_eq; rw [h]
@[simp] theorem Part.unmoved_srKey (P : Part) : P.unmoved.srKey = P.srKey := by obtain ⟨_, h⟩ := P.unmoved_eq; rw [h]
@[simp] theorem Part.unmoved_srCtr (P : Part) : P.unmoved.srCtr = P.srCtr := by obtain ⟨_, h⟩ := P.unmoved_eq; rw [h]
@[simp] theorem Part.unmoved_sem (P : Part) : P.unmoved.sem = P.sem := by obtain ⟨_, h⟩ := P.unmoved_eq; rw [h]
@[simp] theorem Part.unmoved_save (P : Part) : P.unmoved.save = P.save := by obtain ⟨_, h⟩ := P.unmoved_eq; rw [h]
@[simp] theorem Part.unmoved_vf (P : Part) : P.unmoved.vf = P.vf := by obtain ⟨_, h⟩ := P.unmoved_eq; rw [h]
@[simp] theorem Part.unmoved_yResult (P : Part) : P.unmoved.yResult = P.yResult := by obtain ⟨_, h⟩ := P.unmoved_eq; rw [h]
@[simp] theorem Part.unmoved_yAll (P : Part) : P.unmoved.yAll = P.yAll := by obtain ⟨_, h⟩ := P.unmoved_eq; rw [h]
@[simp] theorem Part.unmoved_dist (P : Part) : P.unmoved.dist = P.dist := by obtain ⟨_, h⟩ := P.unmoved_eq; rw [h]
@[simp] theorem Part.unmoved_epoch (P : Part) : P.unmoved.epoch = P.epoch := by obtain ⟨_, h⟩ := P.unmoved_eq; rw [h]
@[simp] theorem Part.unmoved_pods (P : Part) : P.unmoved.pods = P.pods := by obtain ⟨_, h⟩ := P.unmoved_eq; rw [h]
/-- Stopping a partition leaves every other one as it was. -/
theorem Dev.stopPart_part_ne (d : Dev) {p q : Nat} (r : YResult) (h : q ≠ p) : (d.stopPart p r).part q = d.part q := by
  simp only [Dev.stopPart]
  split <;> simp [Dev.yieldDone_part_ne _ _ h, Dev.part_vfEvent_ne _ _ _ h, Dev.part_onPart_ne _ _ h, Dev.stepStops_part_ne _ h, Dev.dropResize_part_ne _ h]
/-- A partition that stops is FAULTED, its streams are in FAULT, and its entry, regulators, registers, extents and keys stay. -/
theorem Dev.stopPart_part (d : Dev) (p : Nat) (r : YResult) :
    let P := d.part p
    let Q := (d.stopPart p r).part p
    Q.st = .faulted ∧ Q.sq = P.sq.map Seq.faulted ∧ Q.step.isSome = P.step.isSome ∧ Q.entry = P.entry ∧ Q.regs = P.regs ∧ Q.ext = P.ext ∧
    (P.saveNext = none → Q.kgen = P.kgen) ∧ Q.srKey = P.srKey ∧ Q.srCtr = P.srCtr ∧ Q.sem = P.sem ∧ Q.save = P.save ∧ Q.vf.cur = P.vf.cur ∧ Q.vf.en = P.vf.en ∧
    Q.vf.view = P.vf.view ∧ (P.yielding = true → Q.yResult = r) := by
  obtain ⟨s, l, h1, h2⟩ := ((d.dropWaiting p).passBarrier p).stepStops_part p
  simp only [Dev.passBarrier_part, Dev.dropWaiting_part] at h1 h2
  obtain ⟨k, n, h3, h4⟩ := (((d.dropWaiting p).passBarrier p).stepStops p).dropResize_part p
  rw [h1] at h3 h4
  intro P Q
  have hQ : Q = (d.stopPart p r).part p := rfl
  simp only [Dev.stopPart] at hQ
  split at hQ
  · simp [Dev.yieldDone_part, h3] at hQ
    rw [hQ]; simp [P, h2]; exact h4
  · next hy =>
    simp [h3] at hQ
    rw [hQ]; simp [P, h2, hy]; exact h4
theorem Dev.seq_faulted (P : Part) (q : Nat) : ((P.sq.map Seq.faulted).getD q Reset.seq).items = [] := by
  simp only [List.getD_eq_getElem?_getD, List.getElem?_map]
  cases P.sq[q]? <;> rfl
/-- A partition-contained error of a partition that holds tiles and is not yet FAULTED stops it, with a record of it. -/
theorem Dev.detectPE_stops (d : Dev) (r : ErrRec) (y : YResult) (h1 : (d.part r.part).st ≠ .faulted) (h2 : (d.part r.part).st.hasTiles = true) :
    d.detectPE r y = (d.record { r with mover := true }).stopPart r.part y := by
  unfold Dev.detectPE; simp [h1, h2]
/-- A record of a partition-contained error that names its partition stops it. -/
theorem Dev.detectPE_stoppedBy (d : Dev) (r : ErrRec) (y : YResult) (h1 : (d.part r.part).st ≠ .faulted) (h2 : (d.part r.part).st.hasTiles = true)
    (h3 : r.pv = true) : d.stoppedBy (d.detectPE r y) r.part r.code := by
  rw [d.detectPE_stops r y h1 h2]
  have h := (d.record { r with mover := true }).stopPart_part r.part y
  refine ⟨h.1, ?_, ?_⟩
  · intro q
    simp only [Dev.seq, Part.seq, h.2.1]
    exact Dev.seq_faulted _ q
  · exact ⟨{ r with mover := true, beat := d.beat }, ErrSt.Grows.mem (Dev.stopPart_err ..) (by simp), rfl, h3, rfl, rfl⟩
theorem Dev.stopAll_part_st (d : Dev) (l : List Nat) (p : Nat) (h : p ∈ l ∨ (d.part p).st = .faulted) : ((d.stopAll l).part p).st = .faulted := by
  induction l generalizing d with
  | nil => simpa [Dev.stopAll] using h
  | cons x l ih =>
    unfold Dev.stopAll
    apply ih
    by_cases hx : p = x
    · right; subst hx; split
      · next hf => simpa using hf
      · exact (d.stopPart_part p .faulted).1
    · rcases h with h | h
      · left; simpa [hx] using h
      · right; split
        · exact h
        · rw [Dev.stopPart_part_ne _ _ hx]; exact h
@[simp] theorem Dev.port_txIdle (d : Dev) (l : Nat) : (d.txIdle.port l).st = 0 := by
  have : ∀ t : Tab PortSt, (Tab.get Reset.port (t.map fun (i, s) => (i, { s with st := 0 })) l).st = 0 := by
    intro t; unfold Tab.get
    induction t with
    | nil => rfl
    | cons x t ih => simp only [List.map_cons, Tab.get?]; (repeat' split) <;> first | rfl | exact ih
  exact this d.lnk.ports
/-- The first device-fatal error takes the actions of R389. -/
theorem Dev.detectDE_fatal (d : Dev) (r : ErrRec) (h : d.err.deOpen = false) : d.fatal (d.detectDE r) r.code := by
  simp only [Dev.detectDE, h, Bool.not_false, Bool.true_or, if_true]
  have hg := Dev.stopAll_err (d.record { r with mover := true }) (d.record { r with mover := true }).live
  refine ⟨⟨{ r with mover := true, beat := d.beat }, ?_, rfl, rfl, rfl⟩, ?_, ?_, rfl, rfl, ?_⟩
  · exact ErrSt.Grows.mem hg (by simp)
  · intro p hp
    simp only [Dev.onErr_part, Dev.txIdle_part]
    exact Dev.stopAll_part_st _ _ _ (.inl hp)
  · intro l; exact Dev.port_txIdle _ l
  · exact hg.holdst
/-- A device-fatal error before the handling of an earlier one is complete brings the hold state of R390. -/
theorem Dev.detectDE_hold (d : Dev) (r : ErrRec) (h1 : d.err.deOpen = true) (h2 : d.err.deDone = false) :
    (d.detectDE r).err.holdst = true ∧ (d.detectDE r).pins.faultN = !d.released ∧ (d.detectDE r).ckr.clockWait = true ∧
      (∀ m ∈ (d.detectDE r).ckr.doms, m.src = 2 ∧ m.gated = true) ∧ ∀ p ∈ d.live, ((d.detectDE r).part p).st = .faulted := by
  simp only [Dev.detectDE, h1, h2, Bool.not_true, Bool.or_false, Bool.false_eq_true, if_false]
  refine ⟨rfl, by simp [Dev.released], rfl, ?_, ?_⟩
  · intro m hm
    simp only [Dev.stopClocks, Dev.onCkr, List.mem_map] at hm
    obtain ⟨x, _, rfl⟩ := hm
    exact ⟨rfl, rfl⟩
  · intro p hp
    simp only [Dev.stopClocks_part, Dev.onPins_part, Dev.onErr_part, Dev.txIdle_part]
    exact Dev.stopAll_part_st _ _ _ (.inl hp)

/-! ## The memories stay canonical -/

@[simp] theorem Dev.memOk_setPart (d : Dev) (p : Nat) (P : Part) : (d.setPart p P).memOk ↔ d.memOk := Iff.rfl
@[simp] theorem Dev.memOk_onPart (d : Dev) (p : Nat) (f : Part → Part) : (d.onPart p f).memOk ↔ d.memOk := Iff.rfl
@[simp] theorem Dev.memOk_onTile (d : Dev) (n : Nat) (f : TileSt → TileSt) : (d.onTile n f).memOk ↔ d.memOk := Iff.rfl
@[simp] theorem Dev.memOk_setHc (d : Dev) (n : Nat) (h : HcSet) : (d.setHc n h).memOk ↔ d.memOk := Iff.rfl
@[simp] theorem Dev.memOk_onCat (d : Dev) (n : Nat) (f : CatEntry → CatEntry) : (d.onCat n f).memOk ↔ d.memOk := Iff.rfl
@[simp] theorem Dev.memOk_setBase (d : Dev) (n : Nat) (B : Base) : (d.setBase n B).memOk ↔ d.memOk := Iff.rfl
@[simp] theorem Dev.memOk_onBase (d : Dev) (n : Nat) (f : Base → Base) : (d.onBase n f).memOk ↔ d.memOk := Iff.rfl
@[simp] theorem Dev.memOk_onLnk (d : Dev) (f : Lnk → Lnk) : (d.onLnk f).memOk ↔ d.memOk := Iff.rfl
@[simp] theorem Dev.memOk_onPort (d : Dev) (n : Nat) (f : PortSt → PortSt) : (d.onPort n f).memOk ↔ d.memOk := Iff.rfl
@[simp] theorem Dev.memOk_onCkr (d : Dev) (f : Ckr → Ckr) : (d.onCkr f).memOk ↔ d.memOk := Iff.rfl
@[simp] theorem Dev.memOk_onErr (d : Dev) (f : ErrSt → ErrSt) : (d.onErr f).memOk ↔ d.memOk := Iff.rfl
@[simp] theorem Dev.memOk_onSec (d : Dev) (f : Sec → Sec) : (d.onSec f).memOk ↔ d.memOk := Iff.rfl
@[simp] theorem Dev.memOk_onHost (d : Dev) (f : HostSt → HostSt) : (d.onHost f).memOk ↔ d.memOk := Iff.rfl
@[simp] theorem Dev.memOk_onPins (d : Dev) (f : Pins → Pins) : (d.onPins f).memOk ↔ d.memOk := Iff.rfl
@[simp] theorem Dev.memOk_onFn (d : Dev) (n : Nat) (f : FnSt → FnSt) : (d.onFn n f).memOk ↔ d.memOk := Iff.rfl
@[simp] theorem Dev.memOk_onVf (d : Dev) (p : Nat) (f : Vf → Vf) : (d.onVf p f).memOk ↔ d.memOk := Iff.rfl
@[simp] theorem Dev.memOk_emit (d : Dev) (o : Out) : (d.emit o).memOk ↔ d.memOk := Iff.rfl
@[simp] theorem Dev.memOk_onSeq (d : Dev) (p q : Nat) (f : Seq → Seq) : (d.onSeq p q f).memOk ↔ d.memOk := Iff.rfl
@[simp] theorem Dev.memOk_setShared (d : Dev) (n : Nat) (k : KGen) : (d.setShared n k).memOk ↔ d.memOk := Iff.rfl
@[simp] theorem Dev.memOk_onMb (d : Dev) (m : Fin 2) (f : Mbox → Mbox) : (d.onMb m f).memOk ↔ d.memOk := Iff.rfl
@[simp] theorem Dev.memOk_msix (d : Dev) (v i : Nat) : (d.msix v i).memOk ↔ d.memOk := by simp [Dev.memOk]
@[simp] theorem Dev.memOk_pfEvent (d : Dev) (i : Nat) : (d.pfEvent i).memOk ↔ d.memOk := by simp [Dev.memOk]
@[simp] theorem Dev.memOk_vfEvent (d : Dev) (p b i : Nat) : (d.vfEvent p b i).memOk ↔ d.memOk := by simp [Dev.memOk]
@[simp] theorem Dev.memOk_writeCqe (d : Dev) (p : Nat) (l : List Byte) : (d.writeCqe p l).memOk ↔ d.memOk := by simp [Dev.memOk]
@[simp] theorem Dev.memOk_postCqe (d : Dev) (p st : Nat) (l : List Byte) : (d.postCqe p st l).memOk ↔ d.memOk := by simp [Dev.memOk]
@[simp] theorem Dev.memOk_qerr (d : Dev) (p : Nat) : (d.qerr p).memOk ↔ d.memOk := by simp [Dev.memOk]
@[simp] theorem Dev.memOk_record (d : Dev) (r : ErrRec) : (d.record r).memOk ↔ d.memOk := by simp [Dev.memOk]
@[simp] theorem Dev.memOk_yieldDone (d : Dev) (p : Nat) (r : YResult) : (d.yieldDone p r).memOk ↔ d.memOk := by simp [Dev.memOk]
@[simp] theorem Dev.memOk_txIdle (d : Dev) : (d.txIdle ).memOk ↔ d.memOk := by simp [Dev.memOk]
@[simp] theorem Dev.memOk_stopClocks (d : Dev) : (d.stopClocks ).memOk ↔ d.memOk := by simp [Dev.memOk]
@[simp] theorem Dev.memOk_answer (d : Dev) (ch : Chan) (tag c st : Nat) (l : List Byte) : (d.answer ch tag c st l).memOk ↔ d.memOk := by simp [Dev.memOk]
@[simp] theorem Dev.memOk_reply (d : Dev) (c k st : Nat) (l : List Byte) : (d.reply c k st l).memOk ↔ d.memOk := by simp [Dev.memOk]
@[simp] theorem Dev.memOk_catSettle (d : Dev) : d.catSettle.memOk ↔ d.memOk := Iff.rfl
@[simp] theorem Dev.memOk_passBarrier (d : Dev) (p : Nat) : (d.passBarrier p).memOk ↔ d.memOk := Iff.rfl
@[simp] theorem Dev.memOk_dropWaiting (d : Dev) (p : Nat) : (d.dropWaiting p).memOk ↔ d.memOk := Iff.rfl
@[simp] theorem Dev.memOk_resetBuckets (d : Dev) (p : Nat) : (d.resetBuckets p).memOk ↔ d.memOk := Iff.rfl
@[simp] theorem Dev.memOk_tell (d : Dev) (w : Wire) (o : Out) : (d.tell w o).memOk ↔ d.memOk := by simp [Dev.memOk]
@[simp] theorem Dev.memOk_emitBare (d : Dev) (n : Nat) : ({ d with fresh := n } : Dev).memOk ↔ d.memOk := Iff.rfl
theorem Dev.memOk_finishRow {d : Dev} (h : d.memOk) (p i : Nat) (r : StepRow) : (d.finishRow p i r).memOk := by
  unfold Dev.finishRow; dsimp only; split
  · exact h
  · exact Dev.memOk_poke (by simpa using h) ..
theorem Dev.memOk_abortRows {d : Dev} (h : d.memOk) (p i : Nat) (l : List StepRow) : (d.abortRows p i l).memOk := by
  induction l generalizing d i with
  | nil => exact h
  | cons x l ih =>
    unfold Dev.abortRows; dsimp only; apply ih; split
    · exact Dev.memOk_finishRow h ..
    · exact h
theorem Dev.memOk_putBack {d : Dev} (h : d.memOk) (l : List OutByte) : (d.putBack l).memOk := by
  unfold Dev.putBack
  induction l generalizing d with
  | nil => exact h
  | cons o l ih =>
    simp only [List.foldl_cons]
    apply ih
    split
    · exact Dev.memOk_writePa h o.loc [o.val]
    · exact Dev.memOk_writePa h o.loc [o.val]
theorem Dev.memOk_dropResize {d : Dev} (h : d.memOk) (p : Nat) : (d.dropResize p).memOk := by
  unfold Dev.dropResize
  split <;> exact h
theorem Dev.memOk_stepStops {d : Dev} (h : d.memOk) (p : Nat) : (d.stepStops p).memOk := by
  unfold Dev.stepStops; split
  · exact h
  · dsimp only; apply Dev.memOk_abortRows
    split
    · exact Dev.memOk_putBack h _
    · exact h
theorem Dev.memOk_stopPart {d : Dev} (h : d.memOk) (p : Nat) (r : YResult) : (d.stopPart p r).memOk := by
  have h1 := Dev.memOk_dropResize (Dev.memOk_stepStops (d := (d.dropWaiting p).passBarrier p) (by simpa using h) p) p
  simp only [Dev.stopPart]; split <;> simpa using h1
theorem Dev.memOk_detectPE {d : Dev} (h : d.memOk) (r : ErrRec) (y : YResult) : (d.detectPE r y).memOk := by
  unfold Dev.detectPE; dsimp only; split
  · simpa using h
  · split
    · apply Dev.memOk_stopPart; simpa using h
    · simpa using h
theorem Dev.memOk_stopAll {d : Dev} (h : d.memOk) (l : List Nat) : (d.stopAll l).memOk := by
  induction l generalizing d with
  | nil => exact h
  | cons x l ih =>
    unfold Dev.stopAll; apply ih; split
    · exact h
    · exact Dev.memOk_stopPart h ..
theorem Dev.memOk_detectDE {d : Dev} (h : d.memOk) (r : ErrRec) : (d.detectDE r).memOk := by
  have h1 : ∀ l, Dev.memOk ((d.record { r with mover := !d.err.deOpen || d.err.deDone }).stopAll l) := by
    intro l; apply Dev.memOk_stopAll; simpa using h
  simp only [Dev.detectDE]; split <;> simpa using h1 _
theorem Dev.memOk_detect {d : Dev} (h : d.memOk) (r : ErrRec) : (d.detect r).memOk := by
  unfold Dev.detect; split
  · exact Dev.memOk_detectPE h ..
  · exact Dev.memOk_detectDE h ..
  · simpa using h
theorem Dev.memOk_clearTiles {d : Dev} (h : d.memOk) (l : List Nat) : (d.clearTiles l).memOk :=
  Dev.memOk_foldl (fun _ _ h => Dev.memOk_sramFill h ..) l h
theorem Dev.memOk_onMem {d : Dev} (h : d.memOk) (f : MemSt → MemSt) (hf : (f d.mem).bytes = d.mem.bytes) : (d.onMem f).memOk := by
  simpa [Dev.memOk, hf] using h
theorem Dev.memOk_emptyBase {d : Dev} (h : d.memOk) (b : Nat) : (d.emptyBase b).memOk := by
  unfold Dev.emptyBase; dsimp only
  simp only [Dev.memOk_onBase, Dev.memOk_setShared]
  refine Dev.memOk_onMem (Dev.memOk_foldl ?_ _ h) _ rfl
  intro d r h
  exact Dev.memOk_onMem (Dev.memOk_zeroPa h ..) _ rfl

/-! ## The records of one command -/

/-- Putting the records of a cycle in order changes those detected alone. -/
theorem Dev.oneCycle_eq (d t : Dev) : ∃ l, d.oneCycle t = t.onErr fun e => { e with detected := l } := by
  unfold Dev.oneCycle; split
  · exact ⟨t.err.detected, rfl⟩
  · split
    · exact ⟨_, rfl⟩
    · exact ⟨t.err.detected, rfl⟩
theorem Dev.oneCycle_same {d t : Dev} (h : t.err.detected = d.err.detected) : d.oneCycle t = t := by simp [Dev.oneCycle, h]
/-- One record is in order as it is. -/
theorem Dev.oneCycle_one {d t : Dev} {r : ErrRec} (h : t.err.detected = d.err.detected ++ [r]) : d.oneCycle t = t := by
  have h1 : cycleOrder [r] = [r] := rfl
  unfold Dev.oneCycle; split
  · rfl
  · split
    · show Dev.onErr t _ = t
      simp only [Dev.onErr, h, List.drop_left, h1]; rw [← h]
    · rfl
@[simp] theorem Dev.oneCycle_parts (d t : Dev) : (d.oneCycle t).parts = t.parts := by obtain ⟨_, h⟩ := d.oneCycle_eq t; rw [h]; rfl
@[simp] theorem Dev.oneCycle_tiles (d t : Dev) : (d.oneCycle t).tiles = t.tiles := by obtain ⟨_, h⟩ := d.oneCycle_eq t; rw [h]; rfl
@[simp] theorem Dev.oneCycle_hc (d t : Dev) : (d.oneCycle t).hc = t.hc := by obtain ⟨_, h⟩ := d.oneCycle_eq t; rw [h]; rfl
@[simp] theorem Dev.oneCycle_mem (d t : Dev) : (d.oneCycle t).mem = t.mem := by obtain ⟨_, h⟩ := d.oneCycle_eq t; rw [h]; rfl
@[simp] theorem Dev.oneCycle_sram (d t : Dev) : (d.oneCycle t).sram = t.sram := by obtain ⟨_, h⟩ := d.oneCycle_eq t; rw [h]; rfl
@[simp] theorem Dev.oneCycle_sramBad (d t : Dev) : (d.oneCycle t).sramBad = t.sramBad := by obtain ⟨_, h⟩ := d.oneCycle_eq t; rw [h]; rfl
@[simp] theorem Dev.oneCycle_cat (d t : Dev) : (d.oneCycle t).cat = t.cat := by obtain ⟨_, h⟩ := d.oneCycle_eq t; rw [h]; rfl
@[simp] theorem Dev.oneCycle_bases (d t : Dev) : (d.oneCycle t).bases = t.bases := by obtain ⟨_, h⟩ := d.oneCycle_eq t; rw [h]; rfl
@[simp] theorem Dev.oneCycle_lnk (d t : Dev) : (d.oneCycle t).lnk = t.lnk := by obtain ⟨_, h⟩ := d.oneCycle_eq t; rw [h]; rfl
@[simp] theorem Dev.oneCycle_ckr (d t : Dev) : (d.oneCycle t).ckr = t.ckr := by obtain ⟨_, h⟩ := d.oneCycle_eq t; rw [h]; rfl
@[simp] theorem Dev.oneCycle_pins (d t : Dev) : (d.oneCycle t).pins = t.pins := by obtain ⟨_, h⟩ := d.oneCycle_eq t; rw [h]; rfl
@[simp] theorem Dev.oneCycle_persist (d t : Dev) : (d.oneCycle t).persist = t.persist := by obtain ⟨_, h⟩ := d.oneCycle_eq t; rw [h]; rfl
@[simp] theorem Dev.oneCycle_sec (d t : Dev) : (d.oneCycle t).sec = t.sec := by obtain ⟨_, h⟩ := d.oneCycle_eq t; rw [h]; rfl
@[simp] theorem Dev.oneCycle_host (d t : Dev) : (d.oneCycle t).host = t.host := by obtain ⟨_, h⟩ := d.oneCycle_eq t; rw [h]; rfl
@[simp] theorem Dev.oneCycle_therm (d t : Dev) : (d.oneCycle t).therm = t.therm := by obtain ⟨_, h⟩ := d.oneCycle_eq t; rw [h]; rfl
@[simp] theorem Dev.oneCycle_cfg (d t : Dev) : (d.oneCycle t).cfg = t.cfg := by obtain ⟨_, h⟩ := d.oneCycle_eq t; rw [h]; rfl
@[simp] theorem Dev.oneCycle_out (d t : Dev) : (d.oneCycle t).out = t.out := by obtain ⟨_, h⟩ := d.oneCycle_eq t; rw [h]; rfl
@[simp] theorem Dev.oneCycle_fresh (d t : Dev) : (d.oneCycle t).fresh = t.fresh := by obtain ⟨_, h⟩ := d.oneCycle_eq t; rw [h]; rfl
@[simp] theorem Dev.oneCycle_useClock (d t : Dev) : (d.oneCycle t).useClock = t.useClock := by obtain ⟨_, h⟩ := d.oneCycle_eq t; rw [h]; rfl
@[simp] theorem Dev.oneCycle_buckets (d t : Dev) : (d.oneCycle t).buckets = t.buckets := by obtain ⟨_, h⟩ := d.oneCycle_eq t; rw [h]; rfl
@[simp] theorem Dev.oneCycle_part (d t : Dev) (j : Nat) : (d.oneCycle t).part j = t.part j := by obtain ⟨_, h⟩ := d.oneCycle_eq t; rw [h]; rfl
@[simp] theorem Dev.oneCycle_tile (d t : Dev) (j : Nat) : (d.oneCycle t).tile j = t.tile j := by obtain ⟨_, h⟩ := d.oneCycle_eq t; rw [h]; rfl
@[simp] theorem Dev.oneCycle_hcSet (d t : Dev) (j : Nat) : (d.oneCycle t).hcSet j = t.hcSet j := by obtain ⟨_, h⟩ := d.oneCycle_eq t; rw [h]; rfl
@[simp] theorem Dev.oneCycle_catEntry (d t : Dev) (j : Nat) : (d.oneCycle t).catEntry j = t.catEntry j := by obtain ⟨_, h⟩ := d.oneCycle_eq t; rw [h]; rfl
@[simp] theorem Dev.oneCycle_base (d t : Dev) (j : Nat) : (d.oneCycle t).base j = t.base j := by obtain ⟨_, h⟩ := d.oneCycle_eq t; rw [h]; rfl
@[simp] theorem Dev.oneCycle_port (d t : Dev) (j : Nat) : (d.oneCycle t).port j = t.port j := by obtain ⟨_, h⟩ := d.oneCycle_eq t; rw [h]; rfl
@[simp] theorem Dev.oneCycle_fn (d t : Dev) (j : Nat) : (d.oneCycle t).fn j = t.fn j := by obtain ⟨_, h⟩ := d.oneCycle_eq t; rw [h]; rfl
@[simp] theorem Dev.oneCycle_shared (d t : Dev) (j : Nat) : (d.oneCycle t).shared j = t.shared j := by obtain ⟨_, h⟩ := d.oneCycle_eq t; rw [h]; rfl
@[simp] theorem Dev.memOk_oneCycle (d t : Dev) : (d.oneCycle t).memOk ↔ t.memOk := by simp [Dev.memOk]

end Sys2Proof.Machine
end

