-- ==== Sys2Proof/Laws/Streams.lean ====
section
/-! SUPPORT. Fetching and issuing: what a fetch leaves alone, when a row's command runs its operation, and what issuing leaves. -/

namespace Sys2Proof.Machine

/-! ## What a fetch leaves alone -/

/-- What a fetch for partition p may change: the running step's place in each base, the waiters at the bases' barriers, and what an
access to the stacks changes. -/
def Dev.Fetches (d t : Dev) (p : Nat) : Prop :=
  ∃ s b, Dev.Touched { d.setPart p { d.part p with step := s } with bases := b } t ∧ t.mem.bytes = d.mem.bytes
theorem Dev.fetchIn_bytes {d t : Dev} {p space a n : Nat} {l : List Byte} (h : d.fetchIn p space a n = .bytes t l) : d.Fetches t p := by
  unfold Dev.fetchIn at h
  split at h
  · unfold Dev.fetchAny at h; dsimp only at h
    split at h
    · cases h
    · next ls _ =>
      have key : ∀ us, d.Fetches ((d.movePositions p ls).readUnits p [] us) p := fun us =>
        ⟨_, d.bases, Dev.readUnits_touched (Dev.movePositions d p ls) p [] us, Dev.readUnits_bytes ..⟩
      split at h
      · cases h
      · split at h
        · cases h
        · simp only [Dev.touch, Bool.false_and, Bool.false_eq_true, if_false] at h
          split at h
          · cases h
          · cases h; exact key _
  · cases h
theorem Dev.fetch_bytes {d t : Dev} {p a n : Nat} {l : List Byte} (h : d.fetch p a n = .bytes t l) : d.Fetches t p := Dev.fetchIn_bytes h
theorem Dev.Fetches.part_ne {d t : Dev} {p : Nat} (h : d.Fetches t p) {r : Nat} (hr : r ≠ p) : t.part r = d.part r := by
  obtain ⟨s, b, ⟨m, l, k, h⟩, _⟩ := h
  rw [h]; exact Dev.part_setPart_ne d _ hr
theorem Dev.Fetches.part {d t : Dev} {p : Nat} (h : d.Fetches t p) : ∃ s, t.part p = { d.part p with step := s } := by
  obtain ⟨s, b, ⟨m, l, k, h⟩, _⟩ := h
  rw [h]; exact ⟨s, Dev.part_setPart d p _⟩
theorem Dev.Fetches.seq {d t : Dev} {p : Nat} (h : d.Fetches t p) (r q : Nat) : t.seq r q = d.seq r q := by
  by_cases hr : r = p
  · subst hr; obtain ⟨s, hs⟩ := h.part; simp only [Dev.seq, hs]; rfl
  · simp only [Dev.seq, h.part_ne hr]

/-! ## The word at a stream's PC -/

theorem Dev.wordAt_fetched {d d' : Dev} {p q w : Nat} (h : d.wordAt p q = some (d', w)) : d.Fetches d' p := by
  unfold Dev.wordAt at h
  split at h
  · split at h
    · next hf => cases h; exact Dev.fetch_bytes hf
    · cases h
  · cases h
theorem Dev.wordAt_fetches {d d' : Dev} {p q w : Nat} (h : d.wordAt p q = some (d', w)) : d.fetches p q = true := by
  unfold Dev.wordAt at h
  split at h
  · assumption
  · cases h
/-- A stream that fetches exists. -/
theorem Dev.wordAt_lt {d d' : Dev} {p q w : Nat} (h : d.wordAt p q = some (d', w)) : q < (d'.part p).sq.length := by
  have hf := Dev.wordAt_fetches h
  obtain ⟨s, hs⟩ := (Dev.wordAt_fetched h).part
  rw [hs]
  simp only [Dev.fetches, Part.seq, Bool.and_eq_true, beq_iff_eq] at hf
  by_cases hl : q < (d.part p).sq.length
  · exact hl
  · have hq : (d.part p).sq.getD q Reset.seq = Reset.seq := by simp [List.getD_eq_getElem?_getD, List.getElem?_eq_none (Nat.not_lt.1 hl)]
    rw [List.getD_eq_getElem?_getD] at hq
    have h1 : ((d.part p).sq[q]?.getD Reset.seq).st = .run := by simpa using hf.1.1.1.2
    rw [hq] at h1; cases h1
/-- A row's command runs the operation at the stream's PC that is of its row. -/
theorem Dev.onRow_offers {d d' : Dev} {p q w : Nat} {r : Row} (h : d.offers d' p q w r) (hr : r ≠ .bad) (f : Dev → Nat → Dev) :
    d.onRow p q r f = f d' w := by
  obtain ⟨h1, h2, _⟩ := h
  have hf := Dev.wordAt_fetches h1
  unfold Dev.wordAt at h1
  rw [if_pos hf] at h1
  unfold Dev.onRow
  simp only [hf, Bool.not_true, Bool.false_eq_true, if_false]
  split at h1
  · next d2 l hd => cases h1; simp [hd, h2, hr]
  · cases h1
/-- An operation that no row lists is rejected, whichever row's command meets it (R103). -/
theorem Dev.onRow_bad {d d' : Dev} {p q w : Nat} {r : Row} (h : d.offers d' p q w .bad) (f : Dev → Nat → Dev) :
    d.onRow p q r f = d'.peOp Code.opInvalid p q (d.seq p q).pc := by
  obtain ⟨h1, h2, _⟩ := h
  have hf := Dev.wordAt_fetches h1
  unfold Dev.wordAt at h1
  rw [if_pos hf] at h1
  unfold Dev.onRow
  simp only [hf, Bool.not_true, Bool.false_eq_true, if_false]
  split at h1
  · next d2 l hd => cases h1; simp [hd, h2]
  · cases h1

/-! ## Issue -/

theorem Part.seq_setSeq_same (P : Part) {q : Nat} (s : Seq) (h : q < P.sq.length) : (P.setSeq q s).seq q = s := by
  simp [Part.setSeq, Part.seq, setAt, List.getD_eq_getElem?_getD, h]
theorem Part.seq_setSeq_ne (P : Part) {q r : Nat} (s : Seq) (h : r ≠ q) : (P.setSeq q s).seq r = P.seq r := by
  simp [Part.setSeq, Part.seq, setAt, List.getD_eq_getElem?_getD, List.getElem?_set_ne (Ne.symm h)]
theorem Part.seq_onSeq_same (P : Part) {q : Nat} (f : Seq → Seq) (h : q < P.sq.length) : (P.onSeq q f).seq q = f (P.seq q) :=
  P.seq_setSeq_same _ h
theorem Part.seq_onSeq_ne (P : Part) {q r : Nat} (f : Seq → Seq) (h : r ≠ q) : (P.onSeq q f).seq r = P.seq r := P.seq_setSeq_ne _ h
@[simp] theorem Part.setSrCounter_sq (P : Part) (q n : Nat) : (P.setSrCounter q n).sq = P.sq := by unfold Part.setSrCounter; split <;> rfl
@[simp] theorem Part.setSrCounter_issueNo (P : Part) (q n : Nat) : (P.setSrCounter q n).issueNo = P.issueNo := by
  unfold Part.setSrCounter; split <;> rfl
@[simp] theorem Part.setSrCounter_sem (P : Part) (q n : Nat) : (P.setSrCounter q n).sem = P.sem := by unfold Part.setSrCounter; split <;> rfl
@[simp] theorem Part.setSrCounter_seq (P : Part) (q n r : Nat) : (P.setSrCounter q n).seq r = P.seq r := by simp [Part.seq]
theorem Seq.goto_st (s : Seq) (a : Nat) : (s.goto a).st = s.st := by unfold Seq.goto; split; rfl
theorem Seq.goto_sums (s : Seq) (a : Nat) : (s.goto a).sums = s.sums := by unfold Seq.goto; split; rfl
theorem Seq.goto_items (s : Seq) (a : Nat) : (s.goto a).items = s.items := by unfold Seq.goto; split; rfl
@[simp] theorem Item.unstamped_unstamped (i : Item) : i.unstamped.unstamped = i.unstamped := by cases i <;> rfl
/-- Stamping changes the stamps alone. -/
theorem Part.markReady_seq (P : Part) (q : Nat) :
    ∃ g : Item → Item, (∀ i, (g i).unstamped = i.unstamped) ∧ P.markReady.seq q = { P.seq q with items := (P.seq q).items.map g } := by
  refine ⟨fun i => match i with
    | .op f => if f.ready.isNone && P.depsMet q f then .op { f with ready := some P.readyNo } else .op f
    | i => i, ?_, ?_⟩
  · intro i; cases i with
    | op f => dsimp only; split <;> rfl
    | post _ _ _ => rfl
  · simp only [Part.seq, Part.markReady, List.getD_eq_getElem?_getD, List.getElem?_map, List.getElem?_zipIdx]
    cases P.sq[q]? with
    | none => rfl
    | some s =>
      simp <;> (intro i _; cases i <;> rfl)
theorem Part.markReady_unstamped (P : Part) (q : Nat) : (P.markReady.seq q).unstamped = (P.seq q).unstamped := by
  obtain ⟨g, h1, h2⟩ := P.markReady_seq q
  rw [h2]; simp [Seq.unstamped, h1]
theorem Part.markReady_pc (P : Part) (q : Nat) : (P.markReady.seq q).pc = (P.seq q).pc := by
  obtain ⟨g, _, h⟩ := P.markReady_seq q; rw [h]
theorem Part.markReady_stack (P : Part) (q : Nat) : (P.markReady.seq q).stack = (P.seq q).stack := by
  obtain ⟨g, _, h⟩ := P.markReady_seq q; rw [h]
theorem Part.markReady_st (P : Part) (q : Nat) : (P.markReady.seq q).st = (P.seq q).st := by
  obtain ⟨g, _, h⟩ := P.markReady_seq q; rw [h]
theorem Part.markReady_sums (P : Part) (q : Nat) : (P.markReady.seq q).sums = (P.seq q).sums := by
  obtain ⟨g, _, h⟩ := P.markReady_seq q; rw [h]
/-- What issuing leaves. -/
theorem Dev.issue_issued (d : Dev) (p q w : Nat) (x : Plan) (h : q < (d.part p).sq.length) : Issued d (d.issue p q w x) p q w x := by
  let P := d.part p
  let s := P.seq q
  let ix := loopIndex s.stack
  let r := takeRanges (P.srCounter q) (x.geos ix)
  let f : Flight := d.takeLists p
    { no := P.issueNo, pc := s.pc, word := BitVec.ofNat 128 w, kind := x.kind, slots := x.targets, descs := x.descs, loopIx := ix
      srBase := r.1, srKey := P.srKey, hotIn := [], ready := none, started := false, tags := [], mark := [], gl := [], seen := [], path := none
      imm := P.epoch.setWidth 32, wave := (P.step.map (·.wave)).getD 0, result := Reset.noResult, coll := x.coll }
  let Q : Part := ({ P.setSrCounter q r.2 with issueNo := (P.setSrCounter q r.2).issueNo + 1, slow := { (P.setSrCounter q r.2).slow with seen := true } } : Part).onSeq q
    fun s => { s.next with items := s.items ++ [Item.op f] }
  have hp : (d.issue p q w x).part p = Q.markReady := by
    simp only [Dev.issue, Dev.part_onPart, Dev.part_setPart]; rfl
  have hs : Q.seq q = { s.next with items := s.items ++ [Item.op f] } := by
    simp only [Q]; rw [Part.seq_onSeq_same _ _ (by simpa using h)]; simp [Part.seq, s, P]
  have hne : ∀ t, t ≠ q → Q.seq t = P.seq t := by
    intro t ht; simp only [Q]; rw [Part.seq_onSeq_ne _ _ ht]; simp [Part.seq]
  refine ⟨f, rfl, rfl, rfl, rfl, rfl, rfl, rfl, rfl, rfl, ?_, ?_, ?_, ?_, ?_, ?_, ?_, ?_, rfl, ?_⟩
  · rw [hp]; simp [Part.markReady, Q, Part.onSeq, Part.setSeq, P]
  · simp only [Dev.seq, hp, Part.markReady_unstamped, hs]; simp [Seq.unstamped, s, P]
  · simp only [Dev.seq, hp, Part.markReady_pc, hs]; rfl
  · simp only [Dev.seq, hp, Part.markReady_stack, hs]; rfl
  · simp only [Dev.seq, hp, Part.markReady_st, hs]; simp [Seq.next, Seq.goto_st, s, P]
  · simp only [Dev.seq, hp, Part.markReady_sums, hs]; simp [Seq.next, Seq.goto_sums, s, P]
  · intro t ht; simp only [Dev.seq, hp, Part.markReady_unstamped, hne t ht]; rfl
  · intro t ht
    unfold Dev.issue; dsimp only
    rw [Dev.part_onPart_ne _ _ ht, Dev.part_setPart_ne _ _ ht]
  · rw [hp]
    simp only [Part.markReady, Q, Part.onSeq, Part.setSeq, P, r, s, ix, Part.setSrCounter]
    split <;> rfl
/-- An engine row whose operation passes its checks issues it. -/
theorem Dev.engineRow_issued {d d' : Dev} {p q w : Nat} {r : Row} {check : Dev → Nat → Chk Plan} {x : Plan} (h : d.offers d' p q w r) (hr : r ≠ .bad)
    {e : Dev} (hi : e.issues p q x = true) (hx : (check d' w).on d' = (.ok x, e)) (hl : q < (e.part p).sq.length) :
    Issued e (d.engineRow p q r check) p q w x := by
  unfold Dev.engineRow
  rw [Dev.onRow_offers h hr]
  simp only [hx, Dev.checked, hi, if_true]
  exact e.issue_issued p q w x hl
/-- A control row whose operation has its form carries it out. -/
theorem Dev.controlRow_offers {d d' : Dev} {p q w : Nat} {r : Row} {ok : Nat → Bool} {f : Dev → Nat → Dev} (h : d.offers d' p q w r) (hr : r ≠ .bad)
    (hk : ok w = true) : d.controlRow p q r ok f = f d' w := by
  unfold Dev.controlRow; rw [Dev.onRow_offers h hr]; simp [hk]

end Sys2Proof.Machine
end

