-- ==== Sys2Proof/Laws/Checks.lean ====
section
/-! SUPPORT. The checks of operations at issue only read: what each leaves of the device that it checks on. -/

namespace Sys2Proof.Machine

/-! ## Reading for a partition -/

theorem Dev.reads.refl (d : Dev) (p : Nat) : d.reads d p :=
  ⟨fun _ _ => rfl, ⟨_, rfl⟩, rfl, d.mem, [], d.buckets, d.bases, d.parts, by simp⟩
theorem Dev.reads.trans {d e t : Dev} {p : Nat} (h : d.reads e p) (g : e.reads t p) : d.reads t p := by
  obtain ⟨h1, ⟨x, h2⟩, h3, _, l, _, _, _, h4⟩ := h
  obtain ⟨g1, ⟨y, g2⟩, g3, m, l', b, k, ps, g4⟩ := g
  refine ⟨fun r hr => (g1 r hr).trans (h1 r hr), ⟨y, by rw [g2, h2]⟩, g3.trans h3, m, l ++ l', b, k, ps, ?_⟩
  rw [g4, h4]; simp
theorem Dev.reads.bases {d t : Dev} {p : Nat} (h : d.reads t p) (k : Tab Base) : d.reads { t with bases := k } p := by
  obtain ⟨h1, h2, h3, m, l, b, _, ps, h4⟩ := h
  exact ⟨h1, h2, h3, m, l, b, k, ps, by rw [h4]⟩
theorem Dev.reads.seq {d t : Dev} {p : Nat} (h : d.reads t p) (r q : Nat) : t.seq r q = d.seq r q := by
  by_cases hr : r = p
  · subst hr; obtain ⟨_, ⟨x, hx⟩, _⟩ := h; simp only [Dev.seq, hx]; rfl
  · simp only [Dev.seq, h.1 r hr]
theorem Dev.reads.sq_length {d t : Dev} {p : Nat} (h : d.reads t p) : (t.part p).sq.length = (d.part p).sq.length := by
  obtain ⟨_, ⟨x, hx⟩, _⟩ := h; rw [hx]
theorem Dev.Fetches.reads {d t : Dev} {p : Nat} (h : d.Fetches t p) : d.reads t p := by
  refine ⟨fun r hr => h.part_ne hr, h.part, ?_, ?_⟩
  · obtain ⟨_, _, _, h⟩ := h; exact h
  · obtain ⟨s, k, ⟨m, l, b, h⟩, _⟩ := h
    exact ⟨m, l, b, k, _, h⟩
/-- What a failing fetch leaves. -/
theorem Dev.fetchIn_fault {d t : Dev} {p space a n c : Nat} (h : d.fetchIn p space a n = .fault t c) : d.reads t p := by
  unfold Dev.fetchIn at h
  split at h
  · unfold Dev.fetchAny at h; dsimp only at h
    split at h
    · cases h; exact .refl d p
    · next ls _ =>
      split at h
      · cases h; exact .refl d p
      · split at h
        · cases h; exact .refl d p
        · simp only [Dev.touch, Bool.false_and, Bool.false_eq_true, if_false] at h
          split at h
          · cases h
            exact (Dev.Fetches.reads (p := p) ⟨_, _, Dev.readUnits_touched (Dev.movePositions d p ls) p [] _, Dev.readUnits_bytes ..⟩)
          · cases h
  · cases h; exact .refl d p
theorem Dev.waits?_reads {d t : Dev} {p : Nat} {rs : Reads} (h : d.waits? p rs = some t) : d.reads t p := by
  have key : ∀ (xs : List (Nat × Nat × Nat)) (e : Dev), d.reads e p →
      d.reads (xs.foldl (fun d x => d.onBase x.1 fun B => { B with waiters := (p, x.2.2) :: B.waiters.erase (p, x.2.2) }) e) p := by
    intro xs
    induction xs with
    | nil => exact fun _ h => h
    | cons x xs ih => intro e h; exact ih _ (h.bases _)
  unfold Dev.waits? at h
  split at h
  · cases h
  · dsimp only at h
    split at h
    · cases h
    · cases h; exact key _ _ (.refl d p)

/-! ## Checks that only read -/

/-- A check only reads for partition p, whatever it is made on and comes to. -/
def Chk.ReadsFor {α : Type} (x : Chk α) (p : Nat) : Prop := ∀ d : Dev, d.reads (Chk.on x d).2 p
variable {α β : Type} {p : Nat}
theorem Chk.ReadsFor.pure (a : α) : Chk.ReadsFor (Pure.pure a) p := fun d => .refl d p
theorem Chk.ReadsFor.reject (c : Nat) : Chk.ReadsFor (Machine.reject c : Chk α) p := fun d => .refl d p
theorem Chk.ReadsFor.need (b : Bool) (c : Nat) : Chk.ReadsFor (Machine.need b c) p := by
  intro d; unfold Machine.need; split <;> exact .refl d p
theorem Chk.ReadsFor.bind {x : Chk α} {f : α → Chk β} (hx : x.ReadsFor p) (hf : ∀ a, (f a).ReadsFor p) : Chk.ReadsFor (x >>= f) p := by
  intro d
  have h := hx d
  have e : (x >>= f).on d = match x.on d with
      | (.ok a, t) => (f a).on t
      | (.error c, t) => (.error c, t) := by
    simp only [Chk.on, Bind.bind, ExceptT.bind, ExceptT.run, ExceptT.mk, StateT.bind, StateT.run, ExceptT.bindCont]
    cases hy : (x d) with | mk a t => cases a <;> rfl
  rw [e]
  cases hy : x.on d with
  | mk a t =>
    rw [hy] at h
    cases a with
    | error c => exact h
    | ok a => exact h.trans (hf a t)
/-- What one read comes to. -/
theorem chkRead_on (d : Dev) (p space a n : Nat) : Chk.on (chkRead p space a n) d =
    if n = 0 then (.ok [], d) else match d.fetchIn p space a n with
      | .bytes t l => (.ok l, t)
      | .fault t c => (.error c, if c == 0 then (t.waits? p (readRun space a n)).getD t else t) := by
  unfold chkRead
  by_cases hn : n = 0
  · simp [hn]; rfl
  · simp only [hn, if_false, beq_iff_eq]
    cases h : d.fetchIn p space a n <;>
      simp [Chk.on, ExceptT.run, StateT.run, bind, ExceptT.bind, ExceptT.mk, ExceptT.bindCont, StateT.bind, getThe, MonadStateOf.get, liftM,
        monadLift, MonadLift.monadLift, ExceptT.lift, get, StateT.get, Functor.map, StateT.map, pure, StateT.pure, h, set, StateT.set,
        throw, throwThe, MonadExceptOf.throw, ExceptT.pure] <;> rfl
theorem chkRead_reads (space a n : Nat) : Chk.ReadsFor (chkRead p space a n) p := by
  intro d
  rw [chkRead_on]
  split
  · exact .refl d p
  · cases h : d.fetchIn p space a n with
    | bytes t l => exact (Dev.fetchIn_bytes h).reads
    | fault t c =>
      have h1 := Dev.fetchIn_fault h
      dsimp only
      split
      · cases h2 : t.waits? p (readRun space a n) with
        | none => exact h1
        | some u => exact h1.trans (Dev.waits?_reads h2)
      · exact h1
theorem chkFetch_reads (a n : Nat) : Chk.ReadsFor (chkFetch p a n) p := chkRead_reads 0 a n

/-! ## The plans -/

theorem Dev.descAt_reads (d : Dev) (q : Nat) (ix : Option Nat) (i : Nat) (tgt win : Bool) : Chk.ReadsFor (d.descAt p q ix i tgt win) p := by
  unfold Dev.descAt; dsimp only
  (repeat' with_reducible first | exact .pure _ | exact .reject _ | exact .need _ _ | exact chkFetch_reads _ _ | refine .bind ?_ fun _ => ?_ | split)
theorem Dev.descFor_reads (d : Dev) (q i : Nat) (tgt win : Bool) : Chk.ReadsFor (d.descFor p q i tgt win) p := by
  unfold Dev.descFor; exact d.descAt_reads _ _ _ _ _
theorem Dev.arrayDescs_reads (d : Dev) (q w : Nat) (l : List Nat) : Chk.ReadsFor (d.arrayDescs p q w l) p := by
  induction l with
  | nil => exact .pure _
  | cons k l ih => unfold Dev.arrayDescs; (repeat' with_reducible first | exact .pure _ | exact .reject _ | exact .need _ _ | exact chkFetch_reads _ _ | exact d.descFor_reads _ _ _ _ | exact ih | refine .bind ?_ fun _ => ?_ | split)
theorem Dev.outDescs_reads (d : Dev) (q w : Nat) (l : List (Nat × Nat)) : Chk.ReadsFor (d.outDescs p q w l) p := by
  induction l with
  | nil => exact .pure _
  | cons k l ih => unfold Dev.outDescs; (repeat' with_reducible first | exact .pure _ | exact .reject _ | exact .need _ _ | exact chkFetch_reads _ _ | exact d.descFor_reads _ _ _ _ | exact ih | refine .bind ?_ fun _ => ?_ | split)
theorem Dev.vecDescs_reads (d : Dev) (q : Nat) (tgt : Bool) (l : List (Nat × Nat)) : Chk.ReadsFor (d.vecDescs p q tgt l) p := by
  induction l with
  | nil => exact .pure _
  | cons k l ih => unfold Dev.vecDescs; (repeat' with_reducible first | exact .pure _ | exact .reject _ | exact .need _ _ | exact chkFetch_reads _ _ | exact d.descFor_reads _ _ _ _ | exact ih | refine .bind ?_ fun _ => ?_ | split)
theorem Dev.windowDescs_reads (d : Dev) (q w : Nat) (hset : Bool) : Chk.ReadsFor (d.windowDescs p q w hset) p := by
  unfold Dev.windowDescs; dsimp only; (repeat' with_reducible first | exact .pure _ | exact .reject _ | exact .need _ _ | exact chkFetch_reads _ _ | exact d.descFor_reads _ _ _ _ | exact d.arrayDescs_reads _ _ _ | refine .bind ?_ fun _ => ?_ | split)
/-- The checks of a tensor VOP only read. -/
theorem Dev.vopPlan_reads (d : Dev) (q v w : Nat) : Chk.ReadsFor (d.vopPlan p q v w) p := by
  unfold Dev.vopPlan; dsimp only; (repeat' with_reducible first | exact .pure _ | exact .reject _ | exact .need _ _ | exact chkFetch_reads _ _ | exact d.vecDescs_reads _ _ _ | refine .bind ?_ fun _ => ?_ | split)
theorem Dev.updPlan_reads (d : Dev) (q v w : Nat) : Chk.ReadsFor (d.updPlan p q v w) p := by
  unfold Dev.updPlan; dsimp only; (repeat' with_reducible first | exact .pure _ | exact .reject _ | exact .need _ _ | exact chkFetch_reads _ _ | exact d.descFor_reads _ _ _ _ | refine .bind ?_ fun _ => ?_ | split)
theorem Dev.tensorPlan_reads (d : Dev) (q : Nat) (k : TKind) (w : Nat) : Chk.ReadsFor (d.tensorPlan p q k w) p := by
  unfold Dev.tensorPlan; dsimp only; (repeat' with_reducible first | exact .pure _ | exact .reject _ | exact .need _ _ | exact chkFetch_reads _ _ | exact d.arrayDescs_reads _ _ _ | exact d.outDescs_reads _ _ _ | refine .bind ?_ fun _ => ?_ | split)
theorem Dev.adapterPlan_reads (d : Dev) (q w : Nat) : Chk.ReadsFor (d.adapterPlan p q w) p := by
  unfold Dev.adapterPlan; dsimp only; (repeat' with_reducible first | exact .pure _ | exact .reject _ | exact .need _ _ | exact chkFetch_reads _ _ | exact d.descFor_reads _ _ _ _ | exact d.arrayDescs_reads _ _ _ | exact d.outDescs_reads _ _ _ | refine .bind ?_ fun _ => ?_ | split)
theorem Dev.attentionPlan_reads (d : Dev) (q w : Nat) : Chk.ReadsFor (d.attentionPlan p q w) p := by
  unfold Dev.attentionPlan; dsimp only; (repeat' with_reducible first | exact .pure _ | exact .reject _ | exact .need _ _ | exact chkFetch_reads _ _ | exact d.descFor_reads _ _ _ _ | exact d.arrayDescs_reads _ _ _ | exact d.outDescs_reads _ _ _ | refine .bind ?_ fun _ => ?_ | split)
theorem Dev.appendPlan_reads (d : Dev) (q w : Nat) : Chk.ReadsFor (d.appendPlan p q w) p := by
  unfold Dev.appendPlan; dsimp only; (repeat' with_reducible first | exact .pure _ | exact .reject _ | exact .need _ _ | exact chkFetch_reads _ _ | exact d.descFor_reads _ _ _ _ | refine .bind ?_ fun _ => ?_ | split)
theorem Dev.teacherPlan_reads (d : Dev) (q w : Nat) : Chk.ReadsFor (d.teacherPlan p q w) p := by
  unfold Dev.teacherPlan; (repeat' with_reducible first | exact .pure _ | exact .reject _ | exact .need _ _ | exact chkFetch_reads _ _ | exact d.windowDescs_reads _ _ _ | refine .bind ?_ fun _ => ?_ | split)
theorem Dev.studentPlan_reads (d : Dev) (q w : Nat) : Chk.ReadsFor (d.studentPlan p q w) p := by
  unfold Dev.studentPlan; dsimp only; (repeat' with_reducible first | exact .pure _ | exact .reject _ | exact .need _ _ | exact chkFetch_reads _ _ | exact d.windowDescs_reads _ _ _ | refine .bind ?_ fun _ => ?_ | split)
theorem Dev.collPlan_reads (d : Dev) (q k w : Nat) : Chk.ReadsFor (d.collPlan p q k w) p := by
  unfold Dev.collPlan; dsimp only; (repeat' with_reducible first | exact .pure _ | exact .reject _ | exact .need _ _ | exact chkFetch_reads _ _ | exact d.descFor_reads _ _ _ _ | refine .bind ?_ fun _ => ?_ | split)
/-- An engine row whose operation passes its checks issues it on the device that they leave. -/
theorem Dev.engineRow_issues (d : Dev) {d' e : Dev} {p q w : Nat} {r : Row} {check : Dev → Nat → Chk Plan} {x : Plan} (h : d.offers d' p q w r)
    (hr : r ≠ .bad) (hc : Chk.ReadsFor (check d' w) p) (hx : Chk.on (check d' w) d' = (.ok x, e)) (hi : e.issues p q x = true) :
    d'.reads e p ∧ Issued e (d.engineRow p q r check) p q w x := by
  have hd : d'.reads e p := by have := hc d'; rwa [hx] at this
  exact ⟨hd, Dev.engineRow_issued h hr hi hx (by rw [hd.sq_length]; exact Dev.wordAt_lt h.1)⟩

end Sys2Proof.Machine
end

