-- ==== Sys2Proof/WellFormed.lean ====
section
/-! DEFINITION. Which commands are well formed: the byte strings that a command carries have the lengths the spec gives
them, and numbers fit their fields. -/

namespace Sys2Proof

/-- Envelope and body of a management request: 16 bytes and a 16-bit body length (R334, R335). -/
def Chan.wf : Chan → Bool
  | .mailbox _ => true
  | .ethernet _ req => decide (16 ≤ req.length) && decide (req.length ≤ 16 + 65535)
  | .sideband _ req => decide (16 ≤ req.length) && decide (req.length ≤ 16 + 65535)
  | .recovery req => decide (16 ≤ req.length) && decide (req.length ≤ 16 + 65535)

/-- A glitch lies where its kind of failure can: an SRAM range inside a tile's 32 MiB, a stack unit at its boundary. -/
def Glitch.wf : Glitch → Bool
  | .sram _ off len => decide (off + len ≤ 33554432)
  | .eccCorrected pa => decide (pa % 64 = 0)
  | .rereadClean pa => decide (pa % 64 = 0)
  | .rereadEcc pa => decide (pa % 64 = 0)
  | .rereadParity pa _ => decide (pa % 64 = 0)
  | .tag _ => true
  | .control _ => true
  | .device _ => true
  | .slice _ _ _ => true

/-- Well-formedness. -/
def Instr.wf : Instr → Bool
  | .opStart _ _ _ gl => gl.all Glitch.wf
  | .shardRecheck _ _ _ gl => gl.all Glitch.wf
  | .bar2Access _ addr wr len _ gl =>
    decide (addr < 2 ^ 48) && gl.all Glitch.wf &&
    (match wr with
     | none => decide (len ≤ 4096)
     | some bs => decide (bs.length = len) && decide (len ≤ 512))
  | .sqeFetch _ entry _ => decide (entry.length = 128)
  | .frameReceived _ header _ _ => decide (header.length = 64)
  | .cellReceived _ pos cell _ _ _ => decide (pos < 125) && decide (cell.length = 528)
  | .shardReceived _ header _ => decide (header.length = 64)
  | .registerWrite _ _ size value _ => decide (1 ≤ size) && (match value with
     | none => decide (size ≤ 4096)
     | some _ => decide (size ≤ 512))
  | .functionMasterRestored f => f.link.wf && decide (f.bars.length ≤ 3) && f.bars.all fun b => decide (b < 2 ^ 64)
  | .msixVectorUnmask _ v => decide (v.addr < 2 ^ 64) && decide (v.data < 2 ^ 32)
  | .keyPut _ body => decide (body.length = 64)
  | .catAdd ch => ch.wf
  | .catMask ch => ch.wf
  | .catRemove ch => ch.wf
  | .catRevoke ch => ch.wf
  | .catQuery ch => ch.wf
  | .extSet ch => ch.wf
  | .baseDefine ch _ => ch.wf
  | .baseLoad ch => ch.wf
  | .baseReplace ch _ => ch.wf
  | .baseAbort ch => ch.wf
  | .baseRemove ch => ch.wf
  | .keyRotate ch => ch.wf
  | .schedLoad ch _ => ch.wf
  | .schedClear ch => ch.wf
  | .partSet ch => ch.wf
  | .partResize ch => ch.wf
  | .partYield ch => ch.wf
  | .partResume ch => ch.wf
  | .partRelease ch => ch.wf
  | .partPlace ch => ch.wf
  | .partReset ch => ch.wf
  | .partFree ch => ch.wf
  | .regSet ch => ch.wf
  | .reclaim ch _ => ch.wf
  | .tkeyDelete ch => ch.wf
  | .tkeyClearAll ch => ch.wf
  | .credEnroll ch => ch.wf
  | .credDelete ch => ch.wf
  | .debugEnable ch => ch.wf
  | .fwStage ch _ => ch.wf
  | .fwDiscard ch => ch.wf
  | .fwActivate ch => ch.wf
  | .fwRollback ch _ => ch.wf
  | .fwFloor ch => ch.wf
  | .fullReset ch => ch.wf
  | .pwrSet ch => ch.wf
  | _ => true

end Sys2Proof
end

