-- ==== Sys2Proof/Tests/Slice0.lean ====
section
/-! SUPPORT. Tests of commands, ill-formed terms, and for the hypotheses of each statement a state that meets them. -/

namespace Sys2Proof.Tests
open Sys2Proof Sys2Proof.Machine
set_option Elab.async false

/-- A part at PHASE READY under all its supplies, with every function a bus master, an enrolled management session 1, and PRES_N held low. -/
def up : Dev :=
  { Reset.dev with
    ckr := { Reset.ckr with aonstb := true, pllLock := true, refOk := true, aonRun := true, phase := 3 }
    pins := { Reset.pins with aux := true, v48 := true, pwrGood := true, resetN := true, perstN := true, presN := false, presHeld := true }
    host := { Reset.host with answering := true, linkUp := true, fns := [(0, ⟨true, true, false, 0, 0, 0, [], []⟩), (1, ⟨true, false, false, 0, 0, 0, [], []⟩)] }
    sec := { Reset.sec with aliasKey := some 0, sessions := [(1, ⟨.ethernet, some 0, 0, []⟩)] } }
/-- A request on session 1, with TAG 7. -/
def eth (code : Nat) (b : List Byte) : Chan :=
  .ethernet 1 (natLe 2 code ++ natLe 2 b.length ++ natLe 4 7 ++ List.replicate 8 0 ++ b)
/-- The request that `eth` holds. -/
def req (code : Nat) (b : List Byte) : Req := ⟨code, b.length, 7, true, b⟩
/-- A state whose queue is empty. -/
def st (d : Dev) : State := ⟨d, []⟩
def runD (c : Instr) (d : Dev) : Dev :=
  match exec c (st d) with
  | .next t => t.dev
  | _ => d

/-! ## A partition with a program -/

/-- The cells of a byte string at an address. -/
def cells (a : Nat) (bs : List Byte) : List Host.Cell := (bs.zipIdx.map fun x => (a + x.2, x.1)).filter fun x => x.2 != 0
/-- A two-dimensional tensor of rows of n elements of a format, r of them, in the private extent (Table 04-5). -/
def desc2 (addr fmt size n r : Nat) : List Byte :=
  natLe 6 addr ++ natLe 1 (fmt + 32) ++ [0, 0, 0, 0xFF, 0xFF] ++ natLe 2 8 ++ List.replicate 14 0 ++
  natLe 3 n ++ natLe 4 size ++ natLe 3 r ++ natLe 4 (n * size) ++ List.replicate 22 0
/-- One row of four F32 elements at an address, four rows of four in BF16, and four rows of four in F32. -/
def f32row (a : Nat) : List Byte := desc2 a 0 4 4 1
def bf16mat (a : Nat) : List Byte := desc2 a 3 2 4 4
/-- An operation word at PC 1000h, and descriptors at 2000h. -/
def prog (w : List Byte) (ds : List (List Byte)) : MemSt := { Reset.mem with bytes := cells 0x1000 w ++ cells 0x2000 ds.flatten }
/-- A partition in GENERAL mode on tile 0, with one private extent and SQF running at 1000h. -/
def part0 : Part :=
  { Reset.part with
    st := .active
    entry := { Reset.entry with mode := .general, leader := 0, ntile := 1, tiles := 1, accb := 2 }
    ext := [(0, ⟨0, 0, 0, 0, 2 ^ 21⟩)]
    sqDesc := BitVec.ofNat 64 (12 * 2 ^ 48 + 0x2000)
    kgen := { Reset.kgen with st := .stable, key0 := some 0 }
    sq := [{ Reset.seq with st := .run, pc := 0x1000 }, Reset.seq, Reset.seq, Reset.seq] }
/-- That partition, with a word at its PC. -/
def streamOf (P : Part) (w : List Byte) (ds : List (List Byte)) : Dev := { up with parts := [(0, P)], mem := prog w ds }
def stream (w : List Byte) (ds : List (List Byte) := []) : Dev := streamOf part0 w ds
/-- A VEC word: VOP, VMOD, DDST, DSRC1, DSRC2, SDST, IMM. -/
def vec (v vmod t a b sd imm : Nat) : List Byte :=
  [2] ++ natLe 1 v ++ natLe 2 vmod ++ natLe 2 t ++ natLe 2 a ++ natLe 2 b ++ natLe 1 sd ++ [0] ++ natLe 4 imm
/-- What a state offers its stream q of partition 0, if it is of a row. -/
def offered (d : Dev) (q : Nat) (r : Row) (ok : Dev → Nat → Bool) : Bool :=
  match d.wordAt 0 q with
  | some (d', w) => d.rowOf 0 q w == r && decide (d'.err.detected = d.err.detected) && ok d' w
  | none => false
theorem offered_offers {d : Dev} {q : Nat} {r : Row} {ok : Dev → Nat → Bool} (h : offered d q r ok = true) :
    ∃ d' w, d.offers d' 0 q w r ∧ ok d' w = true := by
  unfold offered at h
  split at h
  · rename_i d' w hw
    simp only [Bool.and_eq_true, beq_iff_eq, decide_eq_true_eq] at h
    exact ⟨d', w, ⟨hw, h.1.1, Dev.oneCycle_same h.1.2⟩, h.2⟩
  · cases h
def passes {α : Type} (d : Dev) (x : Chk α) : Bool :=
  match (x.on d).1 with
  | .ok _ => true
  | .error _ => false
/-- Whether an operation of stream q passes its checks, and issues. -/
def goes (d : Dev) (q : Nat) (x : Chk Plan) : Bool :=
  match x.on d with
  | (.ok x, e) => e.issues 0 q x
  | (.error _, _) => false

theorem test_hyp_VecIssues :
    offered (stream (vec 0x01 0 0 1 0xFFFF 0 0) [f32row 0x4000, f32row 0x4040]) 0 (.vop 0x01) (fun d w => goes d 0 (d.vopPlan 0 0 0x01 w)) = true := by decide +kernel
theorem test_hyp_ScalarIssues :
    offered (stream (vec 0x40 0 0xFFFF 0 1 0x80 0)) 0 (.vop 0x40) (fun _ w => scalarForm 0 0x40 w) = true := by decide +kernel
theorem test_hyp_UpdateIssues :
    offered (stream (vec 0x80 0 0 1 0xFFFF 0 0) [desc2 0x6000 1 16 1 1, desc2 0x6040 0 4 1 1]) 0 (.vop 0x80) (fun d w => goes d 0 (d.updPlan 0 0 0x80 w)) = true := by decide +kernel
/-- A TENSOR word: flags, D0 to D4. -/
def tensor (fl a b c x y : Nat) : List Byte :=
  [1] ++ natLe 1 fl ++ natLe 2 a ++ natLe 2 b ++ natLe 2 c ++ natLe 2 x ++ natLe 2 y ++ List.replicate 4 0
theorem test_hyp_TensorIssues :
    offered (stream (tensor 0 0 1 2 0xFFFF 0xFFFF) [bf16mat 0x5000, bf16mat 0x5040, bf16mat 0x5080]) 0 .forward (fun d w => goes d 0 (d.tensorPlan 0 0 tForward w)) = true ∧
    offered (stream (tensor 1 0 0 0 1 2) [bf16mat 0x5000, bf16mat 0x5040, bf16mat 0x5080]) 0 .pair (fun d w => goes d 0 (d.tensorPlan 0 0 tPair w)) = true := by decide +kernel

/-- A row of a wave: one token with a pod slot's handle. -/
def row1 : StepRow := { parseRow [] with tokens := 1, wave := 1, pages := [0] }
/-- A step in its first wave, with that row. -/
def step1 : StepRun := ⟨0, 0x1000, [], 0, 0, [row1], [[0]], 1, 1, 1, false, false, [0, 0, 0, 0, 0], [], 0, [], [], [], []⟩
/-- A serving partition in a wave: the pod window at 400000h, the KV window at 4000000h with 16 elements a vector in BF16. -/
def serving : Part :=
  { part0 with
    entry := { part0.entry with mode := .serve }
    podCfg := 0x8000000000000000, podWin := 0x400000, kvCfg := BitVec.ofNat 64 (2 ^ 63 + 3 * 2 ^ 56 + 2 ^ 48 + 2 ^ 36 + 16 * 2 ^ 24), kvWin := 0x4000000
    pods := { Reset.pod with st := .bound, handle := 0, gen := 1 } :: List.replicate 15 Reset.pod
    step := some step1 }
/-- A window descriptor: address, format, lengths. -/
def descW (addr fmt hset n r : Nat) : List Byte :=
  natLe 6 addr ++ natLe 1 (fmt + 32) ++ [0, 0, 0] ++ natLe 2 hset ++ List.replicate 16 0 ++ natLe 3 n ++ natLe 4 0 ++ natLe 3 r ++ List.replicate 26 0
/-- A descriptor of three dimensions, and one in a distillation window for a vocabulary of 4. -/
def desc3 (addr fmt size n r k : Nat) : List Byte :=
  natLe 6 addr ++ natLe 1 (fmt + 48) ++ [0, 0, 0, 0xFF, 0xFF] ++ natLe 2 136 ++ List.replicate 14 0 ++
  natLe 3 n ++ natLe 4 size ++ natLe 3 r ++ natLe 4 (n * size) ++ natLe 3 k ++ natLe 4 (n * r * size) ++ List.replicate 15 0
def descV (addr n r : Nat) : List Byte :=
  natLe 6 addr ++ [32, 0, 0, 0, 0xFF, 0xFF] ++ natLe 2 8 ++ List.replicate 14 0 ++ natLe 3 n ++ natLe 4 0 ++ natLe 3 r ++ natLe 4 16 ++ List.replicate 22 0
/-- A DISTIL partition: teacher window at 4000000h, student window at 8000000h; the student's and the teacher's streams run. -/
def distilling : Part :=
  { part0 with
    entry := { part0.entry with mode := .distil, ntile := 2, tiles := 3, nteach := 1, leader := 1 }
    dist := { Reset.dist with cfg := BitVec.ofNat 64 (2 ^ 63 + 4), win := BitVec.ofNat 64 (2 ^ 42 + 2 * 2 ^ 20) }
    sqDescT := part0.sqDesc
    sq := [{ Reset.seq with st := .run, pc := 0x1000 }, Reset.seq, Reset.seq, { Reset.seq with st := .run, pc := 0x1000 }] }
theorem test_hyp_WindowOperationsIssue_serving :
    offered (streamOf serving (tensor 0 0 1 2 0xFFFF 0xFFFF) [desc2 0x5000 3 2 4 1, descW 0x400000 3 0 64 4, desc2 0x5040 3 2 64 1]) 0 .adapter
      (fun d w => goes d 0 (d.adapterPlan 0 0 w)) = true ∧
    offered (streamOf serving (tensor 0 0 1 2 0xFFFF 0xFFFF) [desc3 0x5000 3 2 16 1 1, descW 0x4000000 3 0xFFFF 16 1, desc3 0x5040 3 2 16 1 1]) 0
      .attention (fun d w => goes d 0 (d.attentionPlan 0 0 w)) = true ∧
    offered (streamOf serving (vec 1 0 0 1 0xFFFF 0 0) [descW 0x4000000 3 0xFFFF 16 1, desc2 0x5040 3 2 16 1]) 0 .kvAppend
      (fun d w => goes d 0 (d.appendPlan 0 0 w)) = true := by decide +kernel
theorem test_hyp_WindowOperationsIssue_distilling :
    offered (streamOf distilling (tensor 0 0 1 2 0xFFFF 0xFFFF) [desc2 0x5000 3 2 4 1, bf16mat 0x5040, descV 0x4000000 4 1]) 3 .teacher
      (fun d w => goes d 3 (d.teacherPlan 0 3 w)) = true ∧
    offered (streamOf distilling (tensor 0 0 1 2 0xFFFF 0xFFFF) [desc2 0x5000 3 2 4 1, bf16mat 0x5040, descV 0x8000000 4 1]) 0 .student
      (fun d w => goes d 0 (d.studentPlan 0 0 w)) = true := by decide +kernel
/-- A schedule in force whose transfer 5 is a DRAIN of partition 0. -/
def withDrain (d : Dev) : Dev :=
  { d with lnk := { d.lnk with st := .run, active := some ⟨1, 64, [], [], [⟨5, 6, 0, false, 0, 0, 0, 0, 0, 0⟩], [], 0⟩ } }
theorem test_hyp_CollIssues :
    offered (withDrain (stream ([3, 6, 5, 0, 0xFF, 0xFF, 0xFF, 0xFF] ++ List.replicate 8 0))) 0 (.coll 6)
      (fun d w => goes d 0 (d.collPlan 0 0 6 w)) = true := by decide +kernel

/-! ## Control operations, and operations in flight -/

def zeros (n : Nat) : List Byte := List.replicate n 0
theorem test_hyp_SemaphoreOperations :
    let w : List Byte := [5, 0, 3, 0] ++ natLe 4 2 ++ zeros 8
    offered (streamOf { part0 with sem := [(3, 2)] } w []) 0 .waits
      (fun d w => semForm w && (d.part 0).semReady && decide (byt w 7 4 ≤ (d.part 0).semv (byt w 2 2))) = true ∧
    offered (streamOf { part0 with sem := [(3, 1)] } w []) 0 .waits
      (fun d w => semForm w && (d.part 0).semReady && decide ((d.part 0).semv (byt w 2 2) < byt w 7 4)) = true ∧
    offered (stream ([6, 0, 3, 0] ++ natLe 4 2 ++ zeros 8)) 0 .post (fun _ w => semForm w) = true := by decide +kernel
theorem test_hyp_BeatFenceHalt :
    offered (stream ([4, 1] ++ natLe 6 9 ++ zeros 8)) 0 .waitb (fun _ w => fld (byt w 1 1) 7 1 == 0 && byt w 15 8 == 0) = true ∧
    offered (stream ([11, 0] ++ natLe 4 9 ++ zeros 10)) 0 .fence (fun _ w => byt w 1 1 == 0 && byt w 15 6 == 0) = true ∧
    offered (stream ([12, 0] ++ natLe 4 9 ++ zeros 10)) 0 .halt (fun _ w => byt w 1 1 == 0 && byt w 15 6 == 0) = true := by decide +kernel
theorem test_hyp_BranchLoopCallRet :
    offered (stream ([7, 0x20, 1, 2] ++ natLe 4 2 ++ zeros 8)) 0 .br
      (fun d w => brForm 0 w && d.regReady 0 0 (byt w 2 2) && bit (byt w 1 1) 5 && d.regReady 0 0 (byt w 3 3)) = true ∧
    offered (stream ([8, 0] ++ natLe 4 0 ++ natLe 4 2 ++ zeros 6)) 0 .loop
      (fun _ w => byt w 1 1 == 0 && byt w 15 10 == 0 && byt w 9 6 != 0 && byt w 5 2 == 0) = true ∧
    offered (stream ([8, 0] ++ natLe 4 1 ++ natLe 4 2 ++ zeros 6)) 0 .loop
      (fun d w => byt w 1 1 == 0 && byt w 15 10 == 0 && byt w 9 6 != 0 && byt w 5 2 != 0 && decide ((d.seq 0 0).stack.length < 8)) = true ∧
    offered (stream ([9, 0] ++ natLe 6 0x1010 ++ zeros 8)) 0 .call
      (fun d w => byt w 1 1 == 0 && byt w 15 8 == 0 && byt w 7 2 % 16 == 0 && decide ((d.seq 0 0).stack.length < 8)) = true ∧
    offered (streamOf { part0 with sq := [{ Reset.seq with st := .run, pc := 0x1000, stack := [.call 0x1010] }] } ([10] ++ zeros 15) []) 0 .ret
      (fun d w => byt w 15 1 == 0 && (popCall (d.seq 0 0).stack).isSome) = true := by decide +kernel
theorem test_hyp_UnlistedOperationStops :
    offered (stream ([13] ++ zeros 15)) 0 .bad (fun d _ => (d.part 0).st != .faulted && (d.part 0).st.hasTiles) = true := by decide +kernel
/-- LOOP at its bounds: COUNT 1 enters its body, COUNT 0 passes it over. -/
theorem test_loop_count :
    ((runD (.loop 0 .sqf) (stream ([8, 0] ++ natLe 4 1 ++ natLe 4 2 ++ zeros 6))).seq 0 0).pc = 0x1010 ∧
    ((runD (.loop 0 .sqf) (stream ([8, 0] ++ natLe 4 0 ++ natLe 4 2 ++ zeros 6))).seq 0 0).pc = 0x1030 := by decide +kernel
/-- WAITS takes effect at once when the semaphore holds exactly COUNT. -/
theorem test_waits_equal :
    ((runD (.waits 0 .sqf) (streamOf { part0 with sem := [(3, 2)] } ([5, 0, 3, 0] ++ natLe 4 2 ++ zeros 8) [])).part 0).semv 3 = 0 := by decide +kernel
/-- An unlisted opcode stops the partition with OP_INVALID (0201h), and SQ_STAT PC keeps its address. -/
theorem test_opcode_unlisted :
    let t := runD (.halt 0 .sqf) (stream ([13] ++ zeros 15))
    (t.part 0).st = .faulted ∧ (t.seq 0 0).pc = 0x1000 ∧ t.err.detected.map (·.code) = [0x201] := by decide +kernel
/-- A partition after a command has issued the operation at its PC. -/
def issued (c : Instr) (w : List Byte) (ds : List (List Byte)) : Dev := runD c (stream w ds)
def opOf (d : Dev) (q : Nat) : Option Flight := (d.seq 0 q).opAt 0
def startsOk (d : Dev) : Bool :=
  match opOf d 0 with
  | some f => !f.started && d.running 0 && (d.part 0).depsMet 0 f && d.engineReady 0 0 f &&
    (match (lateLists 0 ((d.part 0).listsDue f) f).on d with
    | (.ok g, e) => ((e.part 0).flights.all fun x => x.1 == 0 || !x.2.started || !races x.2 g) &&
      (match e.startKind 0 0 g [] with
      | .run t g => (t.part 0).flights.all fun x => x.1 == 0 || !races g x.2
      | _ => false)
    | _ => false)
  | none => false
def runsOk (d : Dev) (k : OpKind → Bool) : Bool :=
  match opOf d 0 with
  | some f => f.started && d.running 0 && d.served 0 f && d.ownsBeat 0 && f.result.fault.isNone && k f.kind
  | none => false
/-- The scalar ADD of SUM[0] and SUM[1], a FILL of four elements with 1.0, and an RINIT of one record. -/
def scalarAdd : Dev := issued (.scalarAdd 0 .sqf) (vec 0x40 0 0xFFFF 0 1 0x82 0) []
def fill : Dev := issued (.fill 0 .sqf) (vec 0x02 0 0 0xFFFF 0xFFFF 0 0x3F800000) [f32row 0x4000]
def rinit : Dev := issued (.rinit 0 .sqf) (vec 0x83 0 0 1 0xFFFF 0 5) [desc2 0x6000 1 16 1 1, desc2 0x6040 0 4 1 1]
def forward : Dev :=
  issued (.tensorForward 0 .sqf) (tensor 0 0 1 2 0xFFFF 0xFFFF) [desc2 0x5000 3 2 1 1, desc2 0x5040 3 2 1 1, desc2 0x5080 3 2 1 1]
/-- The state once the operation has started, as OP_START starts it; what it sends over TD–TD links, a free value, is left out. -/
def start (d : Dev) : Dev :=
  match opOf d 0 with
  | some f => match d.raceStart 0 0 f [] with
    | .run e g => e.setFlight 0 0 g
    | _ => d
  | none => d
/-- The kind and VOP of the operation issued, which starts. -/
def startsAs (d : Dev) (k : OpKind) (vop : Nat) : Bool :=
  startsOk d && match opOf d 0 with
  | some f => f.kind == k && byt f.w 1 1 == vop
  | none => false
/-- A row sum and a tensor sum of four elements, at 4000h. -/
def rsum : Dev := issued (.rsum 0 .sqf) (vec 0x20 0 0 1 0xFFFF 0 0) [desc2 0x4100 0 4 1 1, f32row 0x4000]
def tsum : Dev := issued (.tsum 0 .sqf) (vec 0x28 0 0xFFFF 0 0xFFFF 0x82 0) [f32row 0x4000]
theorem test_hyp_OpStartStarts :
    startsAs fill .vec 0x02 = true ∧ startsAs rsum .vec 0x20 = true ∧ startsAs tsum .vec 0x28 = true ∧ startsAs scalarAdd .scalar 0x40 = true ∧
    startsOk forward = true ∧
    (match opOf forward 0 with
     | some f => f.kind == .forward && !tensorSplit f.w && !accumulates f.w 1 && f.srBase.length == 1 && [0, 1, 2].all fun k => (f.geo k).isSome
     | none => false) = true := by decide +kernel
/-- The same with 1.0, 2.0, 3.0 and 4.0 from 4000h up. -/
def fourOnUp (d : Dev) : Dev :=
  d.onMem fun m => { m with bytes := m.bytes.filter (fun c => decide (c.1 < 0x4000)) ++ cells 0x4000 ([0x3F800000, 0x40000000, 0x40400000, 0x40800000].flatMap (natLe 4)) }
/-- 1.0 + 2.0 + 3.0 + 4.0 = 10.0, 41200000h, as a row sum and as a tensor sum. -/
theorem test_sums :
    Memory.readList (runD (.vecComplete 0 .sqf 0) (start (fourOnUp rsum))).mem.bytes 0x4100 4 = natLe 4 0x41200000 ∧
    (runD (.vecComplete 0 .sqf 0) (start (fourOnUp tsum))).sum 0 (0, 2) = 0x41200000 := by decide +kernel
/-- SUB takes the second operand away: 1.0 - 3.0 and 2.0 - 4.0 are -2.0. -/
theorem test_sub :
    let d := fourOnUp (issued (.sub 0 .sqf) (vec 0x04 0 0 1 2 0 0) [desc2 0x4100 0 4 2 1, desc2 0x4000 0 4 2 1, desc2 0x4008 0 4 2 1])
    Memory.readList (runD (.vecComplete 0 .sqf 0) (start d)).mem.bytes 0x4100 8 = natLe 4 0xC0000000 ++ natLe 4 0xC0000000 := by decide +kernel
theorem test_hyp_EngineOperationsComplete :
    runsOk (start fill) OpKind.isVec = true ∧ runsOk (start rinit) OpKind.isUpd = true ∧ runsOk (start forward) OpKind.isTensor = true := by
  decide +kernel
/-- FILL stores IMM in every element: 1.0 is 3F800000h. -/
theorem test_fill_stores :
    Memory.readList (runD (.vecComplete 0 .sqf 0) (start fill)).mem.bytes 0x4000 8 = natLe 4 0x3F800000 ++ natLe 4 0x3F800000 := by decide +kernel
/-- RINIT keeps GF in the record's last two bytes. -/
theorem test_rinit_record :
    Memory.readList (runD (.updateOpComplete 0 .sqf 0) (start rinit)).mem.bytes 0x600E 2 = [5, 0] := by decide +kernel
/-- An F32 scalar addition: 1.0 + 2.0 in SUM[2]. -/
theorem test_scalar_add :
    let d := scalarAdd.onPart 0 fun P => P.onSeq 0 fun s => { s with sums := [(0, 0x3F800000), (1, 0x40000000)] }
    (runD (.vecComplete 0 .sqf 0) (start d)).sum 0 (0, 2) = 0x40400000 := by decide +kernel
/-- The DRAIN of `withDrain`, issued and started. -/
def drain : Dev :=
  start (runD (.drain 0 .sqf) (withDrain (stream ([3, 6, 5, 0, 0xFF, 0xFF, 0xFF, 0xFF] ++ List.replicate 8 0))))
theorem test_hyp_CollCompletes :
    (match opOf drain 0 with
    | some f => match f.coll with
      | some c => f.started && c.toSend.isEmpty && drain.allReceived c && drain.running 0 && !((drain.part 0).reducing fun _ => true) && !drain.lnk.frozen && drain.served 0 f && drain.servable 0 [1] && (match drain.collResult 0 0 f c with
        | (.ok g, e) => g.result.fault.isNone && (e.part 0).st != .faulted
        | _ => false)
      | none => false
    | none => false) = true := by decide +kernel
/-- DRAIN leaves the partition drained. -/
theorem test_drain : ((runD (.collComplete 0 .sqf 0) drain).part 0).drained = true := by decide +kernel

/-- `part0` with SQF changed. -/
def withSqf (f : Seq → Seq) : Part := part0.onSeq 0 f
def dev0 (P : Part) : Dev := { up with parts := [(0, P)] }
theorem test_hyp_WaitsEnd :
    (let P := { withSqf (fun x => { x with st := .waitSem, waitSem := (3, 2) }) with sem := [(3, 2)] }
     (dev0 P).running 0 = true ∧ P.postsDone = true ∧ P.passes 0 = true) ∧
    (let d := dev0 (withSqf fun x => { x with st := .waitBeat })
     (d.seq 0 0).st = .waitBeat ∧ reached d.beat (d.seq 0 0).waitBeat = true ∧ d.lnk.frozen = false) ∧
    (let P := withSqf fun x => { x with items := [.post 3 (2 ^ 32 - 1) 0x1000] }
     (P.seq 0).items = [.post 3 (2 ^ 32 - 1) 0x1000] ∧ P.semv 3 + (2 ^ 32 - 1) < 2 ^ 32) ∧
    (let d := dev0 (withSqf fun x => { x with hold := .fence 9 })
     (d.seq 0 0).hold = .fence 9 ∧ (d.seq 0 0).st = .run ∧ (d.seq 0 0).items = [] ∧ (d.onPart 0 fun P => P.closeMove 0).imbalances 0 = []) ∧
    (let P := withSqf fun x => { x with hold := .halt 9 }
     (P.seq 0).hold = .halt 9 ∧ (P.seq 0).st = .run ∧ (P.seq 0).items = [] ∧ P.step = none) := by decide +kernel
theorem test_hyp_WaitsEnd_ports (P : Part) (l : Nat) (h : ((dev0 P).port l).up = true) : ((dev0 P).port l).inBalance = true :=
  absurd h Bool.false_ne_true
theorem test_hyp_Doorbells :
    (let d := dev0 (withSqf fun x => { x with st := .idle })
     d.admits 1 ⟨true, false⟩ = true ∧ d.peeled 0 = false ∧ d.bellOpen 0 0 = true ∧ (d.seq 0 0).st.free = true ∧ fld 0x1000 63 48 = 0 ∧ fld 0x1000 3 0 = 0 ∧
       ¬((0 : Nat) = 0 ∧ (d.part 0).entry.mode = .serve ∧ (d.part 0).step.isSome = true)) ∧
    (let d := dev0 (withSqf fun x => { x with st := .stopped })
     d.bellOpen 0 0 = true ∧ (d.seq 0 0).st = .stopped ∧ (1 : W64).getLsbD 0 = true) ∧
    (part0.seq 0).st.free = false ∧ (part0.seq 0).st ≠ .stopped := by decide +kernel
/-- A START of a running stream changes nothing, and that of a halted one leaves its PC at the address written. -/
theorem test_start :
    (runD (.streamStart 0 .sqf 0x2000) (dev0 part0)).parts = [(0, part0)] ∧
    ((runD (.streamStart 0 .sqf 0x2000) (dev0 (withSqf fun x => { x with st := .halted }))).seq 0 0).pc = 0x2000 := by decide +kernel
/-- An operation in flight of a kind, and the teacher's window operation before a full periscope buffer. -/
def flight (k : OpKind) (started : Bool) (c : Option CollRun) : Flight :=
  ⟨0, 0x1000, 0, k, [], [], none, [], 0, [], none, started, [], [], [], [], none, 0, 0, Reset.noResult, c⟩
def stalled : Part :=
  let f := { flight .teacherWin false none with ready := some 0, descs := [(2, parseDesc 0 (descV 0x4000000 4 1))] }
  let P := (distilling.onSeq 0 fun x => { x with st := .idle }).onSeq 3 fun x => { x with items := [.op f] }
  { P with dist := { distilling.dist with slots := [⟨.ready, 1⟩] } }
theorem test_hyp_DeadlocksAndTimeoutsStop :
    (let P := withSqf fun x => { x with st := .waitSem, waitSem := (3, 2) }
     (dev0 P).running 0 = true ∧ (∀ r ∈ P.streams, (P.seq r).st = .waitSem ∨ (P.seq r).st.quiet = true) ∧ (∃ r ∈ P.streams, (P.seq r).st = .waitSem) ∧
       (∀ r ∈ P.streams, (P.seq r).items = []) ∧ P.semReady = true) ∧
    (let P := stalled
     (dev0 P).running 0 = true ∧ P.creditStall = true ∧ P.still = true) ∧
    (let P := { part0 with st := .yielding, yCount := 171875 }
     P.yielding = true ∧ (dev0 P).err.ylimit.toNat ≤ P.yCount) := by decide +kernel
/-- A DRAIN whose partner's cell has not come, long after its deadline. -/
def late : Dev :=
  let c : CollRun := ⟨5, 3, 0, 0, false, false, ⟨5, 3, 0, false, 0, 0, 0, 0, 0, 0⟩, [⟨1, 5, 2, 0, 1, 0⟩], [], [], 0, none⟩
  let f := flight .coll true (some c)
  { dev0 (withSqf fun x => { x with items := [.op f] }) with lnk := { Reset.lnk with count := 1000 } }
theorem test_hyp_DeadlocksAndTimeoutsStop_peer :
    (match opOf late 0 with
    | some f => match f.coll with
      | some c => late.running 0 && !late.allReceived c && reached late.beat ((c.anchor + c.trans.len + 64 + c.extend) % 2 ^ 48)
      | none => false
    | none => false) = true := by decide +kernel
/-- A borrowing partition: BW of tile 0 is lent, and SQB holds a pair operation. -/
def borrowing (k : OpKind) (q : Nat) (lent : Bool) : Dev :=
  let f := flight k true none
  { dev0 ({ part0 with entry := { part0.entry with gang := .borrow } }.onSeq q fun x => { x with items := [.op f] }) with
    tiles := [(0, { Reset.tile with bwLent := lent })] }
def bubbles (beat : Nat) : Dev :=
  { up with lnk := { Reset.lnk with count := BitVec.ofNat 48 beat, active := some ⟨1, 64, [], [], [], [⟨0, 1, 8, 4⟩], 0⟩ } }
theorem test_hyp_LendingAndBubbles :
    (let d := borrowing .pair 1 true
     (d.part 0).entry.gang = .borrow ∧ (d.tilesOf 0).contains 0 = true ∧ (d.tile 0).bwLent = true ∧ (d.part 0).needsBw = true) ∧
    (let d := borrowing .forward 0 false
     (d.part 0).needsBw = false ∧ (d.tile 0).bwLent = false ∧ (d.part 0).forwardRun.isSome = true) ∧
    (bubbles 8).bubbleAt 0 = some (⟨0, 1, 8, 4⟩, true) ∧ (bubbles 12).bubbleAt 0 = some (⟨0, 1, 8, 4⟩, false) := by decide +kernel

/-! ## Serving and the catalog -/

/-- A row of one token with the null handle, its page list at 3100h. -/
def rowBytes : List Byte := [1, 0, 1, 0, 0xFF, 0xFF, 0xFF, 0xFF] ++ natLe 4 0 ++ natLe 4 1 ++ natLe 6 0x3100 ++ zeros 10
/-- A STEP body: one row at 3000h, the program at 1000h, completions at 3200h. -/
def stepBytes : List Byte := natLe 6 0x3000 ++ natLe 2 1 ++ natLe 6 0x1000 ++ zeros 10 ++ natLe 6 0x3200 ++ zeros 34
/-- A serving partition outside a step, with one KV page, whose VF runs a queue command. -/
def idle : Part := { serving with step := none, kvPages := 1, sq := part0.sq.map fun x => { x with st := .idle } }
def queued (P : Part) (cmd : Nat) (b : List Byte) : Part := { P with vf := { P.vf with cur := some ⟨cmd, 9, b, false⟩ } }
def serveDev (P : Part) : Dev := { up with parts := [(0, P)], mem := { Reset.mem with bytes := cells 0x3000 rowBytes } }
theorem test_hyp_StepAndWaves_begin :
    (let d := serveDev (queued idle 1 stepBytes)
     match d.queueCmd 0 1 with
     | some e => d.coresUp && !d.err.deOpen && d.ckr.pwr == 0 && d.servable 0 [0, 1] && !d.peeled 0 && (d.part 0).runs && (match (d.parseStep 0 e.body).on d with
       | (.ok (some r), d) => let d := (d.cmdStarted 0).onPart 0 fun P => { P with step := some r }
         match d.checkRows 0 0 r.rows with
         | .ok d2 => decide (0 < (d2.stepRows 0).length)
         | .error _ => false
       | _ => false)
     | none => false) = true := by decide +kernel
/-- What WAVE_START asks, up to its copies. -/
def waveReady (d : Dev) : Bool :=
  match (d.part 0).step with
  | none => false
  | some x =>
    x.phase == 0 && x.wave != 0 && d.running 0 && d.servable 0 [0, 1] && !d.peeled 0 && !((d.part 0).pods.any fun k => k.st == .binding) &&
    match (d.failBinds 0 x).compareTags 0 ((((d.failBinds 0 x).part 0).step.map StepRun.current).getD []) with
    | .error _ => false
    | .ok d => match (d.part 0).step with
      | none => false
      | some y => !y.current.isEmpty && ((d.beginWave 0).waveWaits 0 1).isNone && match (d.beginWave 0).writeLens 0 y.tokens.length y.tlist with
        | .error _ => false
        | .ok d1 => match d1.runToks 0 1 y y.tlist with
          | .error _ => false
          | .ok d2 => !(d2.part 0).sq.isEmpty
theorem test_hyp_StepAndWaves_wave : waveReady (serveDev { idle with step := some { step1 with phase := 0 } }) = true := by decide +kernel
/-- A STEP with one row begins its first wave of one. -/
theorem test_step :
    ((runD (.step 0) (serveDev (queued idle 1 stepBytes))).part 0).step.map (fun x => (x.wave, x.nwave, x.phase)) = some (1, 1, 0) := by decide +kernel
/-- WAVE_START sets SUM[0] to the wave's token rows and SUM[2] to the number of waves. -/
theorem test_wave_start :
    let t := runD (.waveStart 0) (serveDev { idle with step := some { step1 with phase := 0 } })
    (t.seq 0 0).st = .run ∧ t.sum 0 (0, 0) = 1 ∧ t.sum 0 (0, 2) = 1 := by decide +kernel

/-- A wave ends over a KV extent with its tags at its start. -/
def kvStep : Dev :=
  { up with parts := [(0, { serving with
      ext := serving.ext ++ [(1, ⟨3, 0, 2 ^ 27, 2 ^ 22, 2 ^ 21⟩)], kvTag := BitVec.ofNat 64 (2 ^ 27)
      pods := { Reset.pod with st := .bound, handle := 0, gen := 1, dtag := 0x55 } :: List.replicate 15 Reset.pod })] }
/-- The end of a wave writes the row's DTAG into the tag of the page that it wrote, in the KV extent, and the step completes (R237, R242). -/
theorem test_wave_end :
    let t := kvStep.endWave 0 0
    Memory.readList t.mem.bytes (2 ^ 22) 8 = natLe 8 0x55 ∧ (t.part 0).st = .active ∧ (t.part 0).step = none := by decide +kernel

/-- Catalog entry 0 holds an image of 64 bytes of tenant 4 for partition 0, and tenant 4's key is live. -/
def withEntry (st : CatState) (d : Dev) : Dev :=
  { d with
    cat := [(0, { Reset.catEntry with st := st, seq := 1, tenant := 4, pmask := 1, length := 64 })]
    sec := { d.sec with tkeys := [(4, ⟨false, 0, 0, 0, 0, 0⟩)] }
    cfg := { d.cfg with catsz := 1 } }
/-- A partition with EMPTY pod slots of 1 MiB, and a slot command of a code, a handle and PINS. -/
def slots (scmd h pins : Nat) (pod : PodSlot) : Dev :=
  withEntry .ready (serveDev (queued { idle with podCfg := 0x8001000000000000, pods := pod :: List.replicate 15 Reset.pod } 2
    (natLe 4 scmd ++ natLe 4 h ++ natLe 4 pins ++ zeros 52)))
def bound : PodSlot := { Reset.pod with st := .bound, handle := 0x4000, gen := 1, pins := 0 }
def slotForm (d : Dev) (scmd : Nat) (form : List Byte → Bool) : Bool :=
  match d.queueCmd 0 2 with
  | some e => d.coresUp && !d.err.deOpen && d.ckr.pwr == 0 && num e.body 0 1 == scmd && zeroAt e.body 1 3 && zeroAt e.body 14 2 && zeroAt e.body 22 2 && zeroAt e.body 32 32 && form e.body &&
    (scmd == 4 || ((d.part 0).entry.mode == .serve && (d.part 0).podCfg.getLsbD 63))
  | none => false
theorem test_hyp_BindsEnd :
    (let d := slots 1 0x4000 0 Reset.pod
     slotForm d 1 (fun b => zeroAt b 8 24) = true ∧ (d.part 0).slotOf 0x4000 = none ∧ (d.part 0).pickSlot = some 0 ∧ d.bindCheck 0 0x4000 = 0) ∧
    ((slots 1 0x4000 0 { bound with st := .binding }).part 0).pods.length = 16 ∧
    ((slots 1 0x4000 0 { bound with st := .binding }).part 0 |>.pod 0).st = .binding ∧
    (slots 1 0x4000 0 { bound with st := .binding }).coresUp = true ∧ (slots 1 0x4000 0 { bound with st := .binding }).servable 0 [0, 1] = true := by decide +kernel
/-- A bind of the handle of entry 0 takes slot 0, and UNBIND empties it. -/
theorem test_bind :
    ((runD (.bind 0) (slots 1 0x4000 0 Reset.pod)).part 0 |>.pod 0).st = .binding ∧
    ((runD (.unbind 0) (slots 2 0x4000 0 bound)).part 0 |>.pod 0).st = .empty := by decide +kernel
/-- UNPIN of exactly the pins held leaves none. -/
theorem test_unpin : ((runD (.unpin 0) (slots 3 0x4000 2 { bound with pins := 2 })).part 0 |>.pod 0).pins = 0 := by decide +kernel
theorem test_hyp_SlotCommands :
    (let d := slots 2 0x4000 0 bound
     slotForm d 2 (fun b => zeroAt b 8 24) = true ∧ (d.part 0).slotOf 0x4000 = some 0 ∧ ((d.part 0).pod 0).st = .bound ∧
       ((d.part 0).pod 0).pins = 0 ∧ ((d.part 0).pod 0).held = false) ∧
    (let d := slots 3 0x4000 2 { bound with pins := 2 }
     slotForm d 3 (fun b => zeroAt b 12 20) = true ∧ (d.part 0).slotOf 0x4000 = some 0 ∧ 2 ≤ ((d.part 0).pod 0).pins) := by decide +kernel
theorem test_hyp_SlotCommands_seal :
    let d := withEntry .free (serveDev (queued idle 2 (natLe 4 4 ++ zeros 8 ++ natLe 4 4 ++ natLe 6 0x3000 ++ zeros 2 ++ natLe 8 64 ++ zeros 32)))
    slotForm d 4 (fun b => zeroAt b 4 8) = true ∧ d.mapped 0 0x3000 64 (· == 0) = true ∧ d.poisoned 0 0x3000 64 = false ∧
      d.tenantKey 0 4 = some 0 ∧ d.catRoom 64 = some 0 ∧ d.servable 0 [0] = true := by decide +kernel
def scrubBody : List Byte := natLe 6 0x3000 ++ zeros 2 ++ natLe 4 1 ++ zeros 52
/-- The first page that a list at 3000h names, where it can be read. -/
def firstPage (d : Dev) : Option Nat :=
  match (chkFetch 0 0x3000 4).on d with
  | (.ok l, _) => some (num l 0 4)
  | _ => none
theorem test_hyp_ScrubZeroes :
    (let d (b : List Byte) := { serveDev (queued idle 3 scrubBody) with mem := { Reset.mem with bytes := cells 0x3000 b } }
     let e : Sqe := ⟨3, 9, scrubBody, false⟩
     (d []).memOk ∧ (d []).servable 0 [0, 1] = true ∧ (d [1]).servable 0 [0, 1] = true ∧ (d []).queueRuns 0 3 e ∧ (d [1]).memOk ∧ (d [1]).queueRuns 0 3 e ∧ zeroAt scrubBody 6 2 = true ∧ zeroAt scrubBody 12 52 = true ∧
       firstPage (d []) = some 0 ∧ firstPage (d [1]) = some 1 ∧ ((d []).part 0).kvNpages = 1 ∧ ((d [1]).part 0).kvNpages = 1) ∧
    (let P := { idle with vf := { idle.vf with cur := some ⟨3, 9, scrubBody, true⟩ } }
     P.vf.cur = some ⟨3, 9, scrubBody, true⟩ ∧ P.st ≠ .faulted ∧ (serveDev P).coresUp = true) := by
  unfold Dev.memOk Dev.queueRuns; decide +kernel
theorem test_hyp_CatalogCommands_add :
    let d := withEntry .free up
    let b := natLe 2 4 ++ zeros 8 ++ natLe 8 64 ++ zeros 28 ++ natLe 32 1 ++ zeros 10
    d.accepts (eth 0x100 b) 0x100 (fun b => bodyLen 88 b && decide (num b 0 2 < 1024) && zeroAt b 78 2 && num b 80 8 % 64 == 0 && d.dma) (req 0x100 b) ∧
      d.catRoom (num b 10 8) = some 0 ∧ 64 ≤ num b 10 8 ∧ dtagOf (BitVec.ofNat 256 (num b 46 32)) ≠ 0 := by unfold Dev.accepts; decide +kernel
theorem test_hyp_CatalogCommands :
    ((withEntry .loading up).catEntry 0).st = .loading ∧ (withEntry .loading up).coresUp = true ∧ (withEntry .loading up).err.holdst = false ∧
    (let b := natLe 4 0x4000 ++ zeros 12
     (withEntry .ready up).accepts (eth 0x101 b) 0x101 (fun b => bodyLen 16 b && zeroAt b 4 4) (req 0x101 b)) ∧
    ((withEntry .ready up).resolveHandle 0x4000).isSome = true ∧
    (let b := natLe 4 0x4000 ++ zeros 4
     let d := { withEntry .ready up with parts := [(0, { idle with pods := bound :: List.replicate 15 Reset.pod })] }
     d.accepts (eth 0x102 b) 0x102 (fun b => bodyLen 8 b && zeroAt b 4 4) (req 0x102 b) ∧ (d.catEntry 0).st = .ready ∧ d.handleHeld 0x4000 = true ∧
     d.accepts (eth 0x103 b) 0x103 (fun b => bodyLen 8 b && zeroAt b 4 4) (req 0x103 b) ∧
     d.accepts (eth 0x104 b) 0x104 (fun b => bodyLen 8 b && decide (num b 4 1 < 2) && zeroAt b 5 3 && (num b 4 1 == 0 || decide (num b 0 4 < 16384)))
       (req 0x104 b)) := by unfold Dev.accepts; decide +kernel
/-- CAT_MASK stores PMASK and answers with status 0. -/
theorem test_cat_mask :
    let t := runD (.catMask (eth 0x101 (natLe 4 0x4000 ++ zeros 4 ++ natLe 8 6))) (withEntry .ready up)
    (t.catEntry 0).pmask = 6 ∧ t.out = [.response .ethernet (envelope 0x101 0 7 0)] := by decide +kernel
/-- A handle with a sequence number of its entry's past is gone: status ADAPTER_GONE. -/
theorem test_cat_mask_gone :
    (runD (.catMask (eth 0x101 (natLe 4 0x8000 ++ zeros 12))) (withEntry .ready up)).out =
      [.response .ethernet (envelope 0x101 0 7 Code.adapterGone)] := by decide +kernel

/-! ## Extents, bases and keys -/

/-- EXT_SET of entry 3 of partition 0, valid: kind, base, VBASE, BASEOFF, LEN. -/
def extBody (kind b vbase off len : Nat) : List Byte :=
  [0, 3] ++ natLe 1 (128 + kind) ++ natLe 1 b ++ zeros 4 ++ natLe 8 vbase ++ natLe 8 off ++ natLe 8 len
/-- A part with partition 0 at rest, and base 1 READY with one layer of one shard of 2 MiB. -/
def shard1 : Shard := ⟨0, 0, 2 ^ 21, 0, true, false, 0⟩
def base1 : Base := { Reset.base with st := .ready, nlayer := 1, lbuf := 2 ^ 21, homes := [2 ^ 30], shards := [shard1] }
def memDev : Dev := { up with parts := [(0, { part0 with sq := idle.sq })], bases := [(1, base1)] }
/-- The same, with nothing left in partition 0's regulators. -/
def starved (d : Dev) : Dev := { d with buckets := [(0, List.replicate 5 ⟨-1, -1, 0, []⟩)] }
def extHyp (d : Dev) (b : List Byte) : Bool :=
  ready d && extForm b && (d.request (eth 0x130 b) 0x130 == some (req 0x130 b)) && !unanswered (eth 0x130 b) 0x130 && (d.gate (eth 0x130 b) 0x130 32).isNone &&
  !d.extBad 0 3 (fld (num b 2 1) 2 0) (num b 3 1) (num b 8 8) (num b 16 8) (num b 24 8)
theorem test_hyp_ExtentsSetAndCleared :
    extHyp memDev (extBody 1 1 (2 ^ 22) 0 (2 ^ 21)) = true ∧ extHyp memDev (extBody 0 0 (2 ^ 22) 0 (2 ^ 21)) = true ∧
    extHyp (starved memDev) (extBody 0 0 (2 ^ 22) 0 (2 ^ 21)) = true ∧ ((starved memDev).alloc (2 ^ 21) (.extent 0 3)).isSome = true ∧
    memDev.servable 0 [1] = true ∧ (starved memDev).servable 0 [1] = false ∧ (memDev.part 0).ownRange 0 = true ∧ (memDev.part 0).ownRange 5 = false ∧
    ((starved memDev).part 0).clearable 0 = true ∧
    (memDev.alloc (2 ^ 21) (.extent 0 3)).isSome = true ∧ (memDev.part 0).st = .active ∧ (memDev.part 0).clearable 0 = true ∧
    extForm ([0, 0] ++ zeros 30) = true ∧ bit (num ([0, 0] ++ zeros 30 : List Byte) 2 1) 7 = false := by decide +kernel
/-- LEN must be a multiple of 2 MiB: one page less is refused with EXT_INVALID, and nothing is set. -/
theorem test_ext_set_granule :
    (runD (.extSet (eth 0x130 (extBody 0 0 (2 ^ 22) 0 (2 ^ 21 - 4096)))) memDev).out = [.response .ethernet (envelope 0x130 0 7 Code.extInvalid)] := by
  decide +kernel
/-- A staging extent at 0, and a write of two bytes through BAR2 at address 5. -/
def staging : Dev := { up with parts := [(0, { part0 with ext := [(0, ⟨2, 0, 0, 2 ^ 22, 2 ^ 21⟩)] })] }
theorem test_hyp_StagingAperture :
    staging.err.holdst = false ∧ staging.vfOpen 0 = true ∧ staging.admits 1 ⟨false, false⟩ = true ∧ staging.servable 0 [0, 1, 4] = true ∧ (∀ i < 2, staging.staged 0 (5 + i) = some (2 ^ 22 + 5 + i)) ∧
    staging.memOk := by unfold Dev.memOk; decide +kernel
theorem test_bar2_write :
    Memory.readList (runD (.bar2Access 0 5 (some [0xAB, 0xCD]) 2 ⟨false, false⟩ []) staging).mem.bytes (2 ^ 22 + 4) 4 = [0, 0xAB, 0xCD, 0] := by decide +kernel
/-- A read outside staging memory returns all ones, and EXT_HOST (010Ah) is recorded. -/
theorem test_bar2_outside :
    let t := runD (.bar2Access 0 (2 ^ 21) none 2 ⟨false, false⟩ []) staging
    t.out = [.readData 0 [0xFF, 0xFF] false] ∧ t.err.detected.map (·.code) = [0x10A] := by decide +kernel

def defineBody (b : Nat) : List Byte := natLe 1 b ++ [0] ++ natLe 2 1 ++ natLe 4 2 ++ zeros 56
def replaceBody (b : Nat) : List Byte := defineBody b ++ natLe 2 1 ++ [0, 0, 0xFF] ++ zeros 27
theorem test_hyp_BaseCommands :
    (let b := defineBody 2
     memDev.accepts (eth 0x110 b) 0x110 (fun b => bodyLen 64 b && defineForm b && memDev.dma) (req 0x110 b) ∧ (memDev.base 2).st = .empty) ∧
    (let b : List Byte := [1, 0, 0, 0xFF] ++ zeros 28
     memDev.accepts (eth 0x111 b) 0x111 (fun b => bodyLen 32 b && decide (num b 0 1 < 16) && zeroAt b 4 4 && zeroAt b 24 8 &&
       sourceForm (num b 1 1) (num b 2 1) (num b 3 1) (num b 8 8) (num b 16 8) && (num b 1 1 != 0 || memDev.dma)) (req 0x111 b)) ∧
    (let b := replaceBody 1
     memDev.accepts (eth 0x112 b) 0x112 (fun b => bodyLen 96 b && defineForm b && decide (1 ≤ num b 64 2) && decide (num b 64 2 ≤ num b 2 2) &&
       zeroAt b 69 3 && zeroAt b 88 8 && sourceForm (num b 66 1) (num b 67 1) (num b 68 1) (num b 72 8) (num b 80 8) && memDev.dma) (req 0x112 b) ∧
       (memDev.base 1).st = .ready ∧ (memDev.base 1).rst = .idle ∧ num b 2 2 = (memDev.base 1).nlayer ∧ num b 4 4 * 2 ^ 20 = (memDev.base 1).lbuf) ∧
    (memDev.declaredBy 1 fun P => P.entry.mode != .serve) = false ∧ (memDev.declaredBy 1 fun _ => true) = false ∧
    (let b : List Byte := [1] ++ zeros 7
     memDev.accepts (eth 0x113 b) 0x113 (fun b => bodyLen 8 b && decide (num b 0 1 < 16) && zeroAt b 1 7) (req 0x113 b) ∧
     memDev.accepts (eth 0x114 b) 0x114 (fun b => bodyLen 8 b && decide (num b 0 1 < 16) && zeroAt b 1 7) (req 0x114 b)) := by
  unfold Dev.accepts; decide +kernel
/-- A replacement of base 1 whose only layer is staged. -/
def swapping : Dev :=
  { memDev with bases := [(1, { base1 with rst := .front, newShards := [shard1], staging := [(0, 2 ^ 31)] })] }
/-- BASE_REMOVE empties a base, and keeps its generation. -/
theorem test_base_remove : ((runD (.baseRemove (eth 0x114 ([1] ++ zeros 7))) memDev).base 1).st = .empty := by decide +kernel
/-- The last layer's swap ends the replacement. -/
theorem test_layer_swap :
    let B := (runD (.layerSwap 1) swapping).base 1
    B.rst = .idle ∧ B.homes = [2 ^ 31] := by decide +kernel
theorem test_hyp_ShardsAndLayers :
    (let B := { base1 with st := .loading, loading := true, shards := [{ shard1 with stored := false }] }
     let d := { memDev with bases := [(1, B)], sec := { memDev.sec with tkeys := [(5, ⟨true, 0, 0, 0, 1, 0⟩)] } }
     let hd : List Byte := [1] ++ zeros 63
     d.memOk ∧ d.modelKey 1 = some 0 ∧ hd.length = 64 ∧ num hd 0 1 = 1 ∧ B.wantsOld (num hd 4 4) = true ∧ B.wantsNew (num hd 4 4) = false ∧
       d.coresUp = true ∧ d.servable (d.baseHolder 1) [0, 1] = true ∧
       (let e := starved (d.onPart 0 fun P => { P with ext := [(0, ⟨1, 1, 0, 0, 2 ^ 21⟩)] })
        e.memOk ∧ e.modelKey 1 = some 0 ∧ e.coresUp = true ∧ e.servable (e.baseHolder 1) [0, 1] = false)) ∧
    ({ memDev with err := { memDev.err with holdst := true } }.coresUp = false) ∧
    (let B := { base1 with fwd := 2 }
     ({ memDev with bases := [(1, B)] }).modelKey 1 = none ∧ B.src = 0 ∧ B.fwd ≠ 0xFF ∧ Reset.base.fwd = 0xFF) ∧
    (let B := swapping.base 1
     Tab.get? B.staging B.front = some (2 ^ 31) ∧ B.rst = .front ∧ layerStored B.newShards B.front = true ∧
       (swapping.parts.any fun x => swapping.holdsFront x.1 1 B.front) = false) ∧
    base1.checked 0 = [(false, shard1)] ∧ base1.st = .ready ∧ memDev.ckr.pwr = 0 ∧ ready memDev = true ∧ memDev.coresUp = true ∧
    Ivl.count memDev.mem.bad (2 ^ 30) (2 ^ 30 + 2 ^ 21) = 0 := by unfold Dev.memOk; decide +kernel

/-- Partition 0's key with a generation in use, and a range under it. -/
def keyed (g : KGen) (tag1 : List (Nat × Nat)) : Dev :=
  { up with parts := [(0, { part0 with kgen := g, ext := [(0, ⟨0, 0, 0, 2 ^ 21, 2 ^ 21⟩)] })]
            mem := { Reset.mem with ranges := [⟨2 ^ 21, 2 ^ 21, .extent 0 0⟩], tag1 := tag1 } }
def stable : KGen := ⟨.stable, false, 512, 0, some 0, none, none⟩
def sweeping : KGen := ⟨.rotating, true, 512, 0, some 0, some 0, some 0⟩
theorem test_hyp_KeyRotation :
    (let b : List Byte := zeros 8
     (keyed stable []).accepts (eth 0x200 b) 0x200
       (fun b => bodyLen 8 b && decide (num b 0 1 < 2) && decide (num b 1 1 < if num b 0 1 == 0 then 64 else 16) && zeroAt b 2 6) (req 0x200 b) ∧
     ((keyed stable []).keyOf (keyRefOf 0 0)).st = .stable) ∧
    (let g := { stable with st := .rotating }
     ((keyed g []).keyOf (.part 0)).st = .rotating ∧ ((keyed g []).keyOf (.part 0)).sweep = none) ∧
    (let d := keyed sweeping []
     (d.keyOf (.part 0)).st = .rotating ∧ (d.keyOf (.part 0)).sweep = some 0 ∧ d.nextPage (.part 0) 0 = some 512 ∧
       d.servable (keyReader (.part 0)) [0, 1] = true) ∧
    (let g := (keyed { sweeping with use0 := 0, use1 := 512 } [(512, 1024)]).keyOf (.part 0)
     g.st = .rotating ∧ g.sweep.isSome = true ∧ (if g.cur then g.use0 else g.use1) = 0) ∧
    ({ part0 with keysDue := true }.keysDue = true ∧ (keyed stable []).coresUp = true) := by unfold Dev.accepts; decide +kernel
/-- One page of a sweep moves one use from the old generation to the new. -/
theorem test_sweep_page :
    let g := (runD (.keySweepPage (.part 0)) (keyed sweeping [])).keyOf (.part 0)
    (g.use0, g.use1, g.sweep) = (511, 1, some 513) := by decide +kernel
theorem test_rotation_done :
    ((runD (.keyRotationComplete (.part 0)) (keyed { sweeping with use0 := 0, use1 := 512 } [(512, 1024)])).part 0).krot = 1 := by decide +kernel

def oneByte (n k : Nat) : List Byte := natLe 1 n ++ zeros k
theorem test_hyp_TenantKeysAndCredentials :
    (let d := { up with sec := { up.sec with sessions := [(2, ⟨.pf0, none, 0, []⟩)] } }
     Tab.get? d.sec.sessions 2 = some ⟨.pf0, none, 0, []⟩ ∧ (Wire.pf0 : Wire) ≠ .ethernet ∧ d.herilUp = true ∧ d.err.deOpen = false ∧ d.ckr.phase ≠ 8) ∧
    up.accepts (eth 0x201 (zeros 8)) 0x201 (fun b => bodyLen 8 b && decide (num b 0 2 < 1024) && zeroAt b 2 6) (req 0x201 (zeros 8)) ∧
    Tab.get? up.sec.tkeys 0 = none ∧ up.accepts (eth 0x202 []) 0x202 emptyForm (req 0x202 []) ∧
    up.accepts (eth 0x203 (oneByte 2 103)) 0x203 (fun b => bodyLen 104 b && decide (num b 0 1 < 8) && zeroAt b 1 7) (req 0x203 (oneByte 2 103)) ∧
    up.unenrolled (eth 0x203 (oneByte 2 103)) = false ∧
    up.accepts (eth 0x204 (oneByte 2 7)) 0x204 (fun b => bodyLen 8 b && decide (num b 0 1 < 8) && zeroAt b 1 7) (req 0x204 (oneByte 2 7)) := by
  unfold Dev.accepts; decide +kernel
/-- KEY_PUT without a quote of the session is refused with KEY_NOQUOTE. -/
theorem test_key_put_noquote :
    (runD (.keyPut 2 (zeros 64)) { up with sec := { up.sec with sessions := [(2, ⟨.pf0, none, 0, []⟩)] } }).out =
      [.spdm .pf0 (natLe 2 Code.keyNoquote)] := by decide +kernel
/-- CRED_DELETE of the slot that a session was opened under closes that session. -/
theorem test_cred_delete : (runD (.credDelete (eth 0x204 (oneByte 0 7))) up).sec.sessions = [] := by decide +kernel

/-! ## Beats, ports, cells, schedules and holds -/

def onLnk (f : Lnk → Lnk) : Dev := { up with lnk := f up.lnk }
theorem test_hyp_Beats :
    up.beating = true ∧ up.lnk.st ≠ .beatlost ∧
    (let d := onLnk fun k => { k with st := .run, flyRun := 3 }
     d.beating = true ∧ d.lnk.st ≠ .beatlost ∧ d.lnk.flyRun = 3 ∧ d.lnk.armed = none ∧ d.lnk.holdArm = false ∧ d.lnk.beatOnly = false) ∧
    (let d := onLnk fun k => { k with st := .hold, holdArm := true, resume := 1 }
     d.beating = true ∧ d.lnk.armed = none ∧ reached (d.lnk.count + 1).toNat d.lnk.resume.toNat = true) ∧
    (let d := onLnk fun k => { k with st := .beatlost, edgeRun := 16, ports := [(0, { Reset.port with st := 3, peerCount := some 77, confirms := true })] }
     d.lnk.st = .beatlost ∧ 16 ≤ d.lnk.edgeRun ∧ d.confirmations = [77]) ∧ up.pf0Open := by unfold Dev.pf0Open; decide +kernel
/-- 1,022 and 1,026 ROOT cycles after the last edge are in time; 1,021 and 1,027 only count. -/
theorem test_beat_edge_bounds :
    (runD (.beatEdge 1022 []) up).lnk.count = 1 ∧ (runD (.beatEdge 1026 []) up).lnk.count = 1 ∧
    (runD (.beatEdge 1021 []) up).lnk.edgeErr = 1 ∧ (runD (.beatEdge 1027 []) up).lnk.count = 0 := by decide +kernel
/-- The fourth flywheel beat in a row loses the beat. -/
theorem test_flywheel_fourth : (runD .flywheelBeat (onLnk fun k => { k with st := .run, flyRun := 3 })).lnk.st = .beatlost := by decide +kernel

def onPort0 (f : PortSt → PortSt) : Dev := onLnk fun k => { k with ports := [(0, f { Reset.port with st := 2 })] }
theorem test_hyp_PortsAndFrames :
    (up.linksOn = true ∧ (up.port 0).up = false) ∧
    (let d := onPort0 id
     (d.port 0).up = true ∧ d.scheduled 0 = false ∧ num (zeros 64) 6 1 = 0) ∧
    (let d := onPort0 fun x => { x with silent := 16, wasAligned := true }
     (d.port 0).up = true ∧ (d.port 0).wasAligned = true ∧ 16 ≤ (d.port 0).silent ∧ d.scheduled 0 = false) := by decide +kernel
/-- A delay of 3 beats is the longest a port comes up with; one of 4 leaves it down. -/
theorem test_port_delay :
    ((runD (.portTrained 0 true false 3 9 1) up).port 0).st = 2 ∧ ((runD (.portTrained 0 true false 4 9 1) up).port 0).up = false := by decide +kernel
/-- A frame whose count agrees aligns its port. -/
theorem test_frame_aligns : ((runD (.frameReceived 0 (zeros 64) .clean true) (onPort0 id)).port 0).st = 3 := by decide +kernel

/-- A table in force: port 0 receives flow 1 of transfer 5 at positions 0 to 3, relays flow 2 at 8 to port 1, and at 12 in the next beat; a COLL operation of
transfer 5 is in flight where `coll`. -/
def cellSched : Sched :=
  ⟨1, 64, [⟨0, 1, 0, 64, 0, 4, 1, 0, 0, false⟩, ⟨0, 2, 0, 64, 8, 4, 2, 1, 20, false⟩, ⟨0, 2, 0, 64, 12, 4, 2, 1, 30, true⟩],
   [⟨1, 5, 2, 0, 1, 0⟩, ⟨2, 6, 2, 3, 1, 0⟩], [], [], 0⟩
def receiving (coll : Bool) : Dev :=
  { (if coll then late else dev0 part0) with
    lnk := { Reset.lnk with st := .run, active := some cellSched, ports := [(0, { Reset.port with st := 3 }), (1, { Reset.port with st := 3 })] } }
def cellOf (cls flow : Nat) : List Byte := [BitVec.ofNat 8 cls, 0] ++ natLe 2 flow ++ zeros 524
/-- Base 1 is loaded from port 0, in the middle of a shard of its own, and base 2 from there too; base 1's chain goes on at a port, or ends. -/
def chained (fwd : Nat) : Dev :=
  { (receiving false) with
    bases := [(1, { Reset.base with st := .loading, loading := true, src := 1, port := 0, fwd := fwd }),
              (2, { Reset.base with st := .loading, loading := true, src := 1, port := 0, fwd := 7 })]
    lnk := { (receiving false).lnk with ports := [(0, { Reset.port with st := 3, shardOf := some 1 }), (1, { Reset.port with st := 3 })] } }
theorem test_hyp_Cells :
    (let d := receiving true
     (d.port 0).up = true ∧ 3 < (d.port 0).positions ∧ num (cellOf 0 1) 0 1 % 4 = 0 ∧ num (cellOf 0 1) 2 2 = 1 ∧
       d.inputRun 0 3 = some (cellSched, ⟨0, 1, 0, 64, 0, 4, 1, 0, 0, false⟩) ∧ cellSched.flow 1 = some ⟨1, 5, 2, 0, 1, 0⟩ ∧
       d.lnk.st = .run ∧ (d.deliver ⟨1, 5, 2, 0, 1, 0⟩ ⟨1, 0, [], false⟩).isSome = true) ∧
    ((receiving false).deliver ⟨1, 5, 2, 0, 1, 0⟩ ⟨1, 0, [], false⟩).isNone = true ∧ ((receiving false).port 0).waiting.length < 250 ∧
    (receiving false).inputRun 0 8 = some (cellSched, ⟨0, 2, 0, 64, 8, 4, 2, 1, 20, false⟩) ∧
    (receiving false).inputRun 0 15 = some (cellSched, ⟨0, 2, 0, 64, 12, 4, 2, 1, 30, true⟩) ∧
    ((receiving false).port 1).up = true ∧ ((receiving false).port 1).outOfMap = false ∧
    (num (cellOf 1 0) 0 1 % 4 = 1 ∧ num (cellOf 1 0) 2 2 = ((receiving false).port 0).rxNext ∧ ((receiving false).port 0).rxCells.length < 64 ∧
      (receiving false).chainOf 0 ((cellOf 1 0).drop 16) = none) ∧
    (chained 0xFF).chainOf 0 ((cellOf 1 0).drop 16) = some 1 ∧ ((chained 0xFF).base 1).fwd = 0xFF ∧
    (chained 1).chainOf 0 ((cellOf 1 0).drop 16) = some 1 ∧ ((chained 1).base 1).fwd ≠ 0xFF ∧
    (let d := chained 1
     (d.port 0).up = true ∧ 3 < (d.port 0).positions ∧ num (cellOf 1 0) 2 2 = (d.port 0).rxNext ∧ (d.port 0).rxCells.length < 64) ∧
    (receiving false).inputRun 0 40 = none ∧
    (let P := { Reset.port with st := 3, waiting := [⟨⟨1, 0, [], false⟩, 0⟩], replay := [⟨0, [], 0⟩] }
     up.lnk.frozen = false ∧ P.waiting[0]? = some ⟨⟨1, 0, [], false⟩, 0⟩ ∧ 2 ≤ (2 + 2 ^ 48 - 0) % 2 ^ 48 ∧ P.up = true ∧ P.replay = [⟨0, [], 0⟩] ∧
      4 ≤ (4 + 2 ^ 48 - 0) % 2 ^ 48) := by decide +kernel
/-- Base 1's chain ends: the next base's FWD, on the same port, takes none of its cells (R267). -/
theorem test_chain_end : ((runD (.cellReceived 0 3 (cellOf 1 0) .clean true true) (chained 0xFF)).port 7).txQueue = [] ∧
    ((runD (.cellReceived 0 3 (cellOf 1 0) .clean true true) (chained 1)).port 1).txQueue.length = 1 := by decide +kernel
/-- A cut-through relay keeps the cell's offset in its run: position 9 leaves at 21. -/
theorem test_relay : (runD (.cellReceived 0 9 (cellOf 0 2) .clean true true) (receiving false)).out = [.cell 1 21 (cellOf 0 2)] := by
  decide +kernel
/-- A cell waits 2 beats: it stands after one and is gone after two. -/
theorem test_cell_expire :
    let d (n : Nat) := onLnk fun k =>
      { k with count := BitVec.ofNat 48 n, ports := [(0, { Reset.port with st := 3, waiting := [⟨⟨1, 0, [], false⟩, 0⟩] })] }
    ((runD (.schedCellExpire 0 0) (d 1)).port 0).waiting.length = 1 ∧ ((runD (.schedCellExpire 0 0) (d 2)).port 0).waiting.length = 0 := by decide +kernel

/-- An empty table of period 64, activated at beat 128. -/
def tableBytes : List Byte := natLe 4 0x5C4E0001 ++ natLe 4 3 ++ zeros 4 ++ natLe 4 64 ++ zeros 48
def loadBody : List Byte := zeros 8 ++ natLe 8 64 ++ natLe 6 128 ++ zeros 2
theorem test_hyp_SchedulesAndHolds :
    (up.accepts (eth 0x131 loadBody) 0x131 (fun b => bodyLen 24 b && zeroAt b 22 2 && num b 0 8 % 64 == 0 && up.dma) (req 0x131 loadBody) ∧
      ready up = true ∧ num loadBody 8 8 = schedLength tableBytes ∧ tableBytes.length = schedLength tableBytes ∧
      up.readSched tableBytes (num loadBody 16 6) = some ⟨3, 64, [], [], [], [], 128⟩ ∧ up.lnk.st = .nosched) ∧
    (let d := onLnk fun k => { k with st := .armed, armed := some ⟨3, 64, [], [], [], [], 128⟩, count := 128 }
     d.lnk.armed = some ⟨3, 64, [], [], [], [], 128⟩ ∧ reached d.beat 128 = true ∧ d.lnk.st = .armed) ∧
    up.accepts (eth 0x132 []) 0x132 emptyForm (req 0x132 []) ∧
    (up.pf0Open ∧ up.lnk.holdRaised = false ∧ up.lnk.latched = false ∧ (onLnk fun k => { k with st := .run }).lnk.st = .run) ∧
    (let d := onLnk fun k => { k with st := .hold }
     d.accepts (eth 0x131 loadBody) 0x131 (fun b => bodyLen 24 b && zeroAt b 22 2 && num b 0 8 % 64 == 0 && d.dma) (req 0x131 loadBody) ∧
       ready d = true ∧ d.readSched tableBytes (num loadBody 16 6) = some ⟨3, 64, [], [], [], [], 128⟩ ∧ d.lnk.st = .hold) ∧
    (let d := onLnk fun k => { k with st := .armed }
     d.pf0Open ∧ d.lnk.holdRaised = false ∧ d.lnk.latched = false ∧ d.lnk.st = .armed) ∧
    (let d := onLnk fun k => { k with st := .hold, holdArm := true, resume := 9, count := 9 }
     d.lnk.holdArm = true ∧ reached d.lnk.count.toNat d.lnk.resume.toNat = true ∧ d.lnk.st = .hold) ∧
    (let d := onLnk fun k => { k with st := .armed, latched := true, holdArm := true, resume := 9, count := 9 }
     d.lnk.holdArm = true ∧ reached d.lnk.count.toNat d.lnk.resume.toNat = true ∧ d.lnk.latched = true ∧ d.lnk.st = .armed) ∧
    (let d := onLnk fun k => { k with st := .hold, beatOnly := true, hbeat := some 300, count := 768 }
     d.lnk.beatOnly = true ∧ d.lnk.hbeat = some 300 ∧ d.lnk.count.toNat = ((300 : BitVec 48).toNat / 256 + 2) * 256 % 2 ^ 48 ∧ d.lnk.st = .hold) ∧
    up.lnk.holdArm = false ∧ up.lnk.beatOnly = false := by unfold Dev.accepts Dev.pf0Open; decide +kernel
/-- A table is activated at its beat and not one before it. -/
theorem test_sched_activate :
    let d (n : Nat) := onLnk fun k => { k with st := .armed, armed := some ⟨3, 64, [], [], [], [], 128⟩, count := BitVec.ofNat 48 n }
    (runD .schedActivate (d 127)).lnk.st = .armed ∧ (runD .schedActivate (d 128)).lnk.st = .run := by decide +kernel
/-- An activation beat that is no multiple of the period is refused with SCHED_INVALID. -/
theorem test_sched_load_period :
    (runD (.schedLoad (eth 0x131 (zeros 8 ++ natLe 8 64 ++ natLe 6 130 ++ zeros 2)) tableBytes) up).out =
      [.response .ethernet (envelope 0x131 0 7 Code.schedInvalid)] := by decide +kernel

/-! ## Partitions -/

/-- A PART_SET body for partition 1: GENERAL mode, sequence gang, tile 5. -/
def setBody (p : Nat) : List Byte :=
  natLe 1 p ++ zeros 7 ++ natLe 8 (3 * 2 ^ 58 + 5 * 2 ^ 40 + 2 ^ 33) ++ natLe 8 32 ++ zeros 56
def inState (S : PState) : Part := { part0 with st := S, sq := idle.sq, save := some (0, 2 ^ 25), saveTiles := 1 }
theorem test_hyp_PartitionLife :
    (let b := setBody 1
     let q := parseSet b
     up.accepts (eth 0x120 b) 0x120 (fun b => (parseSet b).form) (req 0x120 b) ∧ ready up = true ∧ (up.part q.part).st = .unused ∧
       up.entryBad q.part q.gang q.entry = false ∧ ((List.range 5).any fun r => up.overcommits q.part r
         ((if q.regdef then up.cfg.regdef else q.regs).getD r (0, 0)).1 ((if q.regdef then up.cfg.regdef else q.regs).getD r (0, 0)).2 q.entry.c0) = false ∧
       (up.alloc (q.entry.ntile * 2 ^ 25) (.save q.part)).isSome = true) ∧
    (let d := dev0 part0
     d.accepts (eth 0x126 (zeros 8)) 0x126 partForm (req 0x126 (zeros 8)) ∧ (d.part 0).st.hasTiles = true ∧ d.peeled 0 = false) ∧
    (let d := dev0 (inState .setup)
     d.memOk ∧ (d.part 0).st = .setup ∧ (d.part 0).keysDue = false ∧ d.coresUp = true ∧ d.host.planParts = []) ∧
    (let d := dev0 (inState .yielded)
     d.accepts (eth 0x127 (zeros 8)) 0x127 partForm (req 0x127 (zeros 8)) ∧ (d.part 0).freeable = true) := by
  unfold Dev.accepts Dev.memOk; decide +kernel
/-- The tiles of partition 0 are taken: PART_SET of another partition on tile 0 is PART_INVALID. -/
theorem test_part_set_taken :
    (runD (.partSet (eth 0x120 (natLe 1 1 ++ zeros 7 ++ natLe 8 (3 * 2 ^ 58 + 2 ^ 33) ++ natLe 8 1 ++ zeros 56))) (dev0 part0)).out =
      [.response .ethernet (envelope 0x120 0 7 Code.partInvalid)] := by decide +kernel
/-- A range of no format-health sets overlaps nothing, though its base lies inside another's (R309). -/
theorem test_sets_empty :
    (dev0 { part0 with entry := { part0.entry with hsbase := 0, hscount := 8 } }).setsTaken 1 4 0 = false ∧
    (dev0 { part0 with entry := { part0.entry with hsbase := 0, hscount := 8 } }).setsTaken 1 7 1 = true := by decide +kernel
/-- PART_SET leaves the partition in SETUP. -/
theorem test_part_set : ((runD (.partSet (eth 0x120 (setBody 1))) up).part 1).st = .setup := by decide +kernel
def resizeBody : List Byte := [0, 0, 0] ++ zeros 5 ++ natLe 12 3 ++ zeros 4
theorem test_hyp_ResizeAndRegulators :
    (let d := dev0 (inState .active)
     let e := resizeEntry (d.part 0).entry 0 0 (bodyTiles resizeBody)
     d.memOk ∧ d.accepts (eth 0x121 resizeBody) 0x121 (fun b => tilesForm b) (req 0x121 resizeBody) ∧ (d.part 0).st = .active ∧
       ((d.part 0).streams.all fun q => ((d.part 0).seq q).st.free) = true ∧ (d.part 0).entry.guest = false ∧ d.tilesBad 0 e = false ∧
       (d.alloc (e.ntile * 2 ^ 25) (.save 0)).isSome = true) ∧
    (let e := { part0.entry with ntile := 2, tiles := 3 }
     let d := dev0 { inState .resizing with target := some e, saveNext := some (2 ^ 25, 2 ^ 26) }
     (d.part 0).st = .resizing ∧ (d.part 0).target = some e ∧ (d.part 0).wasParked = false ∧ d.coresUp = true ∧
       0 ∉ d.guestsOf 0 ∧ ((d.swapSave 0 e.ntile).onPart 0 fun P => { P with target := none, st := .active, entry := e }).imbalances 0 = []) ∧
    (let b : List Byte := [0, 3] ++ zeros 6 ++ natLe 8 (1024 * 2 ^ 53 + 1024 * 2 ^ 42)
     let d := dev0 part0
     d.accepts (eth 0x128 b) 0x128 (fun b => bodyLen 16 b && decide (num b 0 1 < 64) && decide (num b 1 1 < 5) && zeroAt b 2 6 &&
       fld (num b 8 8) 41 0 == 0) (req 0x128 b) ∧ (d.part 0).st ≠ .unused ∧
       d.overcommits 0 (num b 1 1) (fld (num b 8 8) 63 53) (fld (num b 8 8) 52 42) (d.part 0).entry.c0 = false) := by
  unfold Dev.accepts Dev.memOk; decide +kernel
theorem test_hyp_RegulatorBuckets :
    (Reset.bucket.due = [] ∧ 0 ≤ Reset.bucket.g ∧ (0 : Nat) < 2048 ∧ 2048 ≤ regUnit 0 ∧ Reset.bucket.inBalance Reset.regul 0 = true) ∧
    (let b : Bucket := ⟨-1, 0, 0, []⟩
     b.due = [] ∧ b.g < 0 ∧ 0 ≤ b.x) ∧
    (let b : Bucket := ⟨-1, -1, 0, [3]⟩
     (∀ m ∈ b.due, 0 < m) ∧ b.g < 0 ∧ b.x < 0) := by decide +kernel
/-- An access is served while its bucket is not negative, and may take it below 0 by all it needs; the next one waits (R315). -/
theorem test_bucket_negative :
    let b := Reset.bucket.ask 3 1
    (b.g, b.x, b.due) = (-1024, 0, []) ∧ (let b := (b.ask 3 1).ask 3 1; (b.g, b.x, b.due)) = (-1024, -1024, [1]) := by decide +kernel
/-- SHARE may be all of a resource, 1,024, and no more. -/
theorem test_overcommit : up.overcommits 0 3 1024 1024 false = false ∧ up.overcommits 0 3 1025 1025 false = true := by decide +kernel
theorem test_hyp_Yields :
    (let d := dev0 (inState .active)
     d.accepts (eth 0x122 (zeros 8)) 0x122 partForm (req 0x122 (zeros 8)) ∧ (d.part 0).st = .active ∧ d.peeled 0 = false) ∧
    (let d := dev0 (inState .yielding)
     (d.part 0).st = .yielding ∧ (d.part 0).quiet = true ∧ d.coresUp = true ∧ ∀ g ∈ d.guestsOf 0, (d.part g).quiet = true ∨ (d.part g).yielding = false) ∧
    (let d := dev0 (inState .yielded)
     d.memOk ∧ (d.part 0).st = .yielded ∧ d.accepts (eth 0x123 (zeros 8)) 0x123 partForm (req 0x123 (zeros 8)) ∧
       d.accepts (eth 0x124 (zeros 8)) 0x124 partForm (req 0x124 (zeros 8))) ∧
    (let d := dev0 { inState .parked with entry := { part0.entry with tiles := 0 } }
     let b : List Byte := [0, 7, 0] ++ zeros 5 ++ natLe 12 128 ++ zeros 4
     let m := bodyTiles b
     d.memOk ∧ d.accepts (eth 0x125 b) 0x125 (fun b => tilesForm b && num b 2 1 == 0) (req 0x125 b) ∧ (d.part 0).st = .parked ∧
       (maskTiles m).length = (d.part 0).entry.ntile ∧ (maskTiles m).contains (num b 1 1) = true ∧ rankOf m (num b 1 1) = (d.part 0).leaderRank ∧
       d.tilesTaken 0 m = false ∧ m &&& d.err.peelFail = 0 ∧ 0 ∉ d.guestsOf 0) := by unfold Dev.accepts Dev.memOk; decide +kernel
theorem test_part_place :
    let t := runD (.partPlace (eth 0x125 ([0, 7, 0] ++ zeros 5 ++ natLe 12 128 ++ zeros 4))) (dev0 { inState .parked with entry := { part0.entry with tiles := 0 } })
    (t.part 0).st = .restoring ∧ (t.part 0).entry.leader = 7 := by decide +kernel
theorem test_hyp_SaveAndRestore :
    (let d := dev0 (inState .flushing)
     d.memOk ∧ (d.part 0).save = some (0, 2 ^ 25) ∧ (d.part 0).st = .flushing ∧ (d.part 0).reclaim = false ∧ d.coresUp = true) ∧
    (let d := dev0 (inState .restoring)
     (d.part 0).save = some (0, 2 ^ 25) ∧ (d.part 0).st = .restoring ∧ d.host.planParts = [] ∧ d.coresUp = true) := by unfold Dev.memOk; decide +kernel
/-- A flush copies the byte at offset 4 of the only tile to its save area. -/
theorem test_flush :
    Memory.read (runD (.flushComplete 0) { dev0 { inState .flushing with save := some (2 ^ 25, 2 ^ 25) } with sram := [(sramAt 0 4, 9)] }).mem.bytes
      (2 ^ 25 + 4) = 9 := by decide +kernel
/-- A PARKED partition 2 with one tile, and a plan entry with NEW 0 that places it on tile 0. -/
def placeBytes : List Byte := natLe 1 2 ++ [0] ++ zeros 6 ++ natLe 8 0 ++ natLe 8 1 ++ zeros 56
def parked2 (d : Dev) : Dev := d.setPart 2 { inState .parked with entry := { part0.entry with tiles := 0 }, save := some (2 ^ 25, 2 ^ 25) }
/-- A LENT partition 0, and a plan that sets partition 1 up on its tile. -/
def lentDev (S : PState) : Dev := dev0 { inState S with entry := { part0.entry with lent := true } }
def planBytes : List Byte := natLe 1 1 ++ [2] ++ zeros 6 ++ natLe 8 (3 * 2 ^ 58 + 2 ^ 33) ++ natLe 8 1 ++ zeros 56
def reclaimBody : List Byte := natLe 2 1 ++ zeros 14 ++ planBytes
theorem test_hyp_Reclaims :
    (let d := lentDev .active
     let b := reclaimBody
     d.accepts (eth 0x129 b) 0x129 (fun b => decide (16 ≤ b.length) && decide (1 ≤ num b 0 2) && decide (num b 0 2 ≤ 64) && decide (num b 2 1 < 2) &&
       zeroAt b 3 5 && (if bit (num b 2 1) 0 then bodyLen 16 b && d.dma else zeroAt b 8 8 && bodyLen (16 + 80 * num b 0 2) b)) (req 0x129 b) ∧
     d.host.planParts = [] ∧ (∀ q ∈ d.lent, d.peeled q = false) ∧
     (d.lent.foldl (fun d p => d.onPart p fun P => { P with entry := { P.entry with tiles := 0 } }) d).tryPlan
       ((List.range (num b 0 2)).map fun i => fit 80 (slice (b.drop 16) (80 * i) 80)) = true) ∧
    (let d := { up with host := { up.host with plan := [planBytes, setBody 2], planParts := [1, 2] } }
     (d.host.plan.find? fun e => num e 0 1 == 1) = some planBytes ∧ d.tilesTaken 1 (parseSet planBytes).entry.tiles = false ∧
       (d.planEntry planBytes).1 = 0 ∧ (d.planEntry planBytes).2.err = d.err ∧ d.coresUp = true ∧ ∃ f ∈ (d.planEntry planBytes).2.host.plan, num f 0 1 ≠ 1) := by unfold Dev.accepts; decide +kernel
theorem test_hyp_Reclaims_place :
    let q := parseSet placeBytes
    let m := q.entry.tiles
    let ok (d : Dev) : Bool :=
      !q.new && (d.part 2).st == .parked && (maskTiles m).length == (d.part 2).entry.ntile && (maskTiles m).contains q.entry.leader &&
      rankOf m q.entry.leader == (d.part 2).leaderRank && m &&& d.err.peelFail == 0
    let freed := (parked2 (lentDev .active)).lent.foldl
      (fun d p => d.onPart p fun P => { P with entry := { P.entry with tiles := 0 } }) (parked2 (lentDev .active))
    q.part = 2 ∧ fit 80 placeBytes = placeBytes ∧ ok freed = true ∧ freed.tilesTaken 2 m = false ∧
    (let d := parked2 { up with host := { up.host with plan := [placeBytes], planParts := [2] } }
     (d.host.plan.find? fun e => num e 0 1 == 2) = some placeBytes ∧ ok d = true ∧ d.tilesTaken 2 m = false ∧ 2 ∉ d.guestsOf 2 ∧ d.coresUp = true ∧ d.memOk) := by
  unfold Dev.memOk; decide +kernel
theorem test_reclaim : ((runD (.reclaim (eth 0x129 reclaimBody) []) (lentDev .active)).part 0).st = .yielding := by decide +kernel
/-- Two partitions with an NTILE that is not the number of their tiles. -/
def unbalanced : Dev :=
  let P (t : Nat) : Part := { part0 with entry := { part0.entry with ntile := 2, leader := t, tiles := BitVec.ofNat 96 (2 ^ t) } }
  { dev0 (P 0) with parts := [(0, P 0), (1, P 1)] }
theorem test_hyp_AuditAndSlowWindow :
    (let d := { dev0 part0 with lnk := { Reset.lnk with count := 4096 } }
     d.beat % 4096 = 0 ∧ (∀ p ∈ d.live, d.imbalances p = []) ∧ (∀ b < 16, d.sharedOk b = true) ∧ d.lnk.slowAt ≠ some d.beat) ∧
    (let d := dev0 { part0 with entry := { part0.entry with ntile := 2 } }
     d.beat % 4096 = 0 ∧ d.live = [0] ∧ d.imbalances 0 ≠ [] ∧ (d.part 0).st ≠ .faulted ∧ (d.part 0).st.hasTiles = true) ∧
    unbalanced.beat % 4096 = 0 ∧ 1 ∈ unbalanced.live ∧ unbalanced.imbalances 1 ≠ [] ∧ (unbalanced.part 1).st ≠ .faulted ∧
    (unbalanced.part 1).st.hasTiles = true := by decide +kernel
/-- A partition whose NTILE is not the number of its tiles is out of balance: LEDGER_MISMATCH (0211h). -/
theorem test_audit :
    (runD .ledgerAuditPeriodic (dev0 { part0 with entry := { part0.entry with ntile := 2 } })).err.detected.map (·.code) = [0x211] := by decide +kernel
/-- An audit stops every partition that it finds out of balance, not the first alone. -/
theorem test_audit_all :
    ((runD .ledgerAuditPeriodic unbalanced).part 0).st = .faulted ∧ ((runD .ledgerAuditPeriodic unbalanced).part 1).st = .faulted := by decide +kernel

/-! ## Trust, firmware, supplies, clocks -/

theorem test_hyp_DebugEnableClears :
    let d := (dev0 part0).setPart 2 (inState .parked)
    d.accepts (eth 0x205 []) 0x205 emptyForm (req 0x205 []) ∧ d.live = [0, 2] ∧ (d.part 0).st.hasTiles = true ∧ (d.part 2).st = .parked := by
  unfold Dev.accepts; decide +kernel
/-- DEBUG_ENABLE without PRES_N held low is refused with PRESENCE_REQUIRED. -/
theorem test_debug_presence :
    let t := runD (.debugEnable (eth 0x205 [])) { up with pins := { up.pins with presHeld := false } }
    t.sec.debug = false ∧ t.out = [.response .ethernet (envelope 0x205 0 7 Code.presenceRequired)] := by decide +kernel
/-- An inline piece of four bytes at an offset; `fl` 1 is not the last, 3 is. -/
def pieceBody (fl off : Nat) : List Byte := [0xFF] ++ natLe 1 fl ++ zeros 14 ++ natLe 8 4 ++ natLe 4 off ++ zeros 4 ++ [1, 2, 3, 4]
def onSec (f : Sec → Sec) : Dev := { up with sec := f up.sec }
def staging1 (roll : Bool) : Dev := onSec fun x => { x with staging := true, stageBank := true, stageRoll := roll, stageNext := 4, stageData := [9, 9, 9, 9] }
def stagesOk (d : Dev) (code fl off : Nat) : Prop :=
  let b := pieceBody fl off
  d.accepts (eth code b) code (fun b => stageForm b && (bit (num b 1 1) 0 || d.dma) &&
    (num b 0 1 == 0xFF || (decide (num b 0 1 < 2) && d.ckr.phase == 9))) (req code b)
theorem test_hyp_FirmwareStaging_pieces :
    (stagesOk up 0x206 1 0 ∧ up.sec.staging = false ∧ up.sec.staged = false ∧ num (pieceBody 1 0) 24 4 = 0) ∧
    (let d := staging1 true
     stagesOk d 0x209 3 4 ∧ d.sec.staging = true ∧ (∀ y ∈ d.host.replies, y.code ≠ 0x206 ∧ y.code ≠ 0x209) ∧ d.sec.stageRoll = (0x209 == 0x209) ∧
       (!d.ckr.bank) = d.sec.stageBank ∧ 4 = d.sec.stageNext ∧ 4 + 4 ≤ 2 ^ 25) ∧
    (let d := onSec fun x => { x with staged := true }
     stagesOk d 0x206 1 0 ∧ d.sec.staging = false ∧ d.sec.staged = true) := by unfold stagesOk Dev.accepts; decide +kernel
theorem test_stage_append :
    (runD (.fwRollback (eth 0x209 (pieceBody 1 4)) []) (staging1 true)).sec.stageData = [9, 9, 9, 9, 1, 2, 3, 4] := by decide +kernel
/-- A staging whose last piece is in. -/
def ending (image : List Byte) (roll : Bool) : Dev :=
  { staging1 roll with
    sec := { (staging1 roll).sec with stageData := image }
    host := { up.host with replies := [⟨if roll then 0x209 else 0x206, 0, .ethernet 1 [], 7⟩] } }
/-- An image without the magic number fails the first check. The checks of signatures and the outcome of the flash write rest on
functions without a body, so the other cases are met by any image for which those accept it: the next theorem. -/
theorem test_hyp_FirmwareStaging_bad :
    let d := ending [] false
    let k : Bank := ⟨d.sec.stageData, true, 0xFFFFFFFF⟩
    (k.check1 && k.check2 && cfgSigned k d.persist.creds (k.blob 2)) = false ∧ d.sec.staging = true ∧ d.coresUp = true ∧ ∃ y ∈ d.host.replies, y.code = 0x206 := by decide +kernel
theorem test_hyp_FirmwareStaging_signed (image : List Byte) (roll : Bool) :
    let d := ending image roll
    d.sec.stageData = image ∧ d.sec.staging = true ∧ d.sec.stageRoll = roll ∧ d.coresUp = true ∧ ∃ y ∈ d.host.replies, y.code = if roll then 0x209 else 0x206 :=
  ⟨rfl, rfl, rfl, rfl, _, List.mem_singleton_self _, rfl⟩
/-- FW_DISCARD in ROM recovery, which answers it not at all (R378). -/
theorem test_hyp_FirmwareStaging_recovery :
    let d := { up with ckr := { up.ckr with phase := 9 } }
    let ch : Chan := .recovery (natLe 2 0x207 ++ zeros 2 ++ natLe 4 7 ++ zeros 8)
    d.request ch 0x207 = some (req 0x207 []) ∧ isRecovery ch = true := by decide +kernel
theorem test_stage_complete_bad : (runD .fwStageComplete (ending [] false)).out = [.response .ethernet (envelope 0x206 0 7 Code.cmdInvalid)] := by decide +kernel
theorem test_hyp_FirmwareStaging_rest :
    up.accepts (eth 0x207 []) 0x207 emptyForm (req 0x207 []) ∧
    (let d := onSec fun x => { x with staged := true }
     d.accepts (eth 0x208 []) 0x208 emptyForm (req 0x208 []) ∧ d.sec.staged = true) ∧
    (let b : List Byte := zeros 8
     up.accepts (eth 0x20A b) 0x20A (fun b => bodyLen 8 b && zeroAt b 4 4) (req 0x20A b) ∧ num b 0 2 ≤ up.runBank.svnH ∧ up.persist.floorH ≤ num b 0 2 ∧
       num b 2 2 ≤ up.runBank.svnQ ∧ up.persist.floorQ ≤ num b 2 2) := by unfold Dev.accepts; decide +kernel
def creds (l : List (Option (BitVec 768))) : Dev := { up with persist := { up.persist with creds := l }, sec := { up.sec with sessions := [] } }
def eightSessions : Dev := onSec fun x => { x with sessions := (List.range 8).map fun i => (i, ⟨.pf0, none, 0, []⟩) }
theorem test_hyp_AttestationAndSessions :
    up.spdmUp .pf0 = true ∧ up.sec.aliasKey = some 0 ∧ (let d := onSec fun x => { x with aliasKey := none }; d.spdmUp .pf0 = true ∧ d.sec.aliasKey = none) ∧
    ((onSec fun x => { x with sessions := [(2, ⟨.pf0, none, 0, []⟩)] }).session 2 .pf0).isSome = true ∧
    (Tab.get? up.sec.sessions 9 = none ∧ up.spdmCount < 8) ∧
    (let d := creds [none, none, none, none, some 1, none, none, none]
     d.persist.slotOf 4 1 = some 4 ∧ d.persist.enrolled 4 = true ∧ d.persist.enrolled 0 = false ∧ d.herilUp = true) ∧
    (let d := creds [some 1, none, none, none, none, none, none, none]
     d.persist.slotOf 0 1 = some 0 ∧ d.persist.enrolled 0 = true) ∧
    (8 ≤ eightSessions.spdmCount ∧ Tab.get? eightSessions.sec.sessions 9 = none) ∧
    (let d := onSec fun x => { x with ides := [(3, ⟨0, true, 0, 0, true⟩)] }
     Tab.get? d.sec.ides 3 = some ⟨0, true, 0, 0, true⟩) ∧
    (up.sec.ides.filter fun x => x.1 != 3 && x.2.link == true).length < 1 := by decide +kernel
/-- The ninth SPDM session is refused with SessionLimitExceeded. -/
theorem test_ninth_session : (runD (.spdmKeyExchange .pf0 9 none 0) eightSessions).out = [.spdm .pf0 [0x7F, 0x0A]] := by decide +kernel
theorem test_ide_fail : ((runD (.ideIntegrityFail 3) { dev0 part0 with sec := { up.sec with ides := [(3, ⟨0, false, 1, 1, true⟩)] } }).part 0).vf.qerr = true := by
  decide +kernel
theorem test_hyp_SensorsAndPresence :
    up.spdmUp .sideband = true ∧ (up.pins.aux = true ∧ up.err.holdst = false ∧ up.ckr.clockWait = false) ∧
    (up.coresUp = true ∧ up.host.answering = true) ∧ up.sec.presCmd = none ∧
    (onSec fun x => { x with presCmd := some 0x209 }).sec.presCmd = some 0x209 := by decide +kernel
theorem test_hyp_JtagAnswers : up.sec.debug = false ∧ (onSec fun x => { x with debug := true }).sec.debug = true := by decide +kernel

/-! ## Supplies, resets, clocks, errors -/

def onCkr (f : Ckr → Ckr) : Dev := { up with ckr := f up.ckr }
/-- A FULL_RESET in mailbox 0. -/
def boxed : Dev := up.onMb 0 fun b => { b with busy := true, req := natLe 2 0x134 ++ natLe 2 1 ++ natLe 4 7 ++ zeros 9 }
theorem test_hyp_ResetAndPowerCommands :
    (∀ m < 3, let b : List Byte := oneByte m 7
      up.accepts (eth 0x134 b) 0x134 (byteForm 3) (req 0x134 b) ∧ up.accepts (eth 0x133 b) 0x133 (byteForm 3) (req 0x133 b) ∧ num b 0 1 = m) ∧
    (dev0 part0).pwrBusy = true ∧ up.pwrBusy = false ∧ up.ckr.pwr = 0 ∧ (onCkr fun c => { c with pwr := 2 }).ckr.pwr = 2 ∧
    (let d := onCkr fun c => { c with nowDue := true }
     d.ckr.nowDue = true ∧ d.err.holdst = false) ∧
    up.released = true ∧ Reset.dev.released = false ∧ (onCkr fun c => { c with perstArm := true }).ckr.perstArm = true ∧ up.ckr.perstArm = false ∧
    up.pins.pwrGood = true ∧ Reset.dev.pins.pwrGood = false ∧ up.err.holdst = false ∧
    boxed.request (.mailbox 0) 0x134 = some (parseReq (fit 4096 (natLe 2 0x134 ++ natLe 2 1 ++ natLe 4 7 ++ zeros 9))) ∧
    up.ckr.phase ≠ 0 ∧ Reset.dev.ckr.phase = 0 := by unfold Dev.accepts; decide +kernel
/-- RESET_N must be low for 10 microseconds. -/
theorem test_reset_n_bounds :
    (runD (.resetNAssert 9) up).pins.resetN = true ∧ (runD (.resetNAssert 10) up).ckr.cause = 1 := by decide +kernel
theorem test_pwr_set_busy : (runD (.pwrSet (eth 0x133 (oneByte 1 7))) (dev0 part0)).out = [.response .ethernet (envelope 0x133 0 7 Code.pwrBusy)] := by decide +kernel
/-- The part under its supplies with RESET_N still low. -/
def waiting : Dev :=
  { Reset.dev with ckr := { Reset.ckr with aonstb := true, aonRun := true, refOk := true, booting := true }, pins := { Reset.pins with aux := true, v48 := true, pwrGood := true } }
/-- That part with RESET_N released, at a junction maximum in tenths of a degree, before the root locks. -/
def booting (tmax : Nat) : Dev :=
  { waiting with ckr := { waiting.ckr with bootIn := ⟨true, false, false, tmax, 32000000⟩ }, pins := { waiting.pins with resetN := true } }
theorem test_hyp_SuppliesAndBoot :
    (waiting.pins.v48 = true ∧ waiting.pins.pwrGood = true ∧ waiting.released = false) ∧ up.released = true ∧ Reset.dev.pins.aux = false ∧ Reset.dev.pins.v48 = false ∧ Reset.dev.pins.resetN = false ∧
    (waiting.pins.aux = true ∧ waiting.pins.resetN = false ∧ waiting.ckr.aonstb = true ∧ waiting.pins.pwrGood = true ∧ waiting.ckr.phase = 0 ∧
      waiting.ckr.booting = true ∧ waiting.ckr.refOk = true ∧ waiting.ckr.pllLock = false ∧ waiting.pins.v48 = true) ∧
    (let d := { Reset.dev with pins := { Reset.pins with aux := true } }
     d.pins.aux = true ∧ d.ckr.aonstb = false ∧ d.pins.resetN = false) ∧
    (let d := booting 0
     d.ckr.pllLock = false ∧ d.ckr.refOk = true ∧ d.released = true ∧ d.err.holdst = false ∧ d.ckr.pwr ≠ 2 ∧ d.ckr.clockWait = false ∧
       d.ckr.phase = 0 ∧ d.ckr.booting = true ∧ (d.ckr.bootIn.presTmax : Int) ≤ d.therm.tthr - 100 ∧ d.persist.order = []) ∧
    (booting 901).therm.tthr - 100 < ((booting 901).ckr.bootIn.presTmax : Int) ∧ (booting 900).therm.tthr - 100 = ((booting 900).ckr.bootIn.presTmax : Int) ∧ (booting 900).ckr.hotReset = false ∧
    ((booting 0).ckr.bootIn.presTmax : Int) < (booting 0).therm.tthr - 100 ∧
    (let d := { waiting with pins := { waiting.pins with pwrGood := false } }
     d.pins.v48 = true ∧ d.pins.pwrGood = false ∧ d.ckr.phase = 0 ∧ d.err.deOpen = false ∧ d.pins.resetN = false) ∧
    (let d := { up with pins := { up.pins with pwrGood := false } }
     d.pins.v48 = true ∧ d.pins.pwrGood = false ∧ d.ckr.phase ≠ 0) ∧
    (let d := onCkr fun c => { c with phase := 1 }
     d.ckr.phase = 1 ∧ d.coresUp = true ∧ d.ckr.pllLock = true ∧ d.cfg.plan = []) ∧
    (let d := onCkr fun c => { c with phase := 2 }
     d.ckr.phase = 2 ∧ d.coresUp = true) := by decide +kernel
/-- With no candidate bank the boot ROM ends in recovery with REASON 6. -/
theorem test_boot_no_bank :
    let t := runD .pllLock (booting 0)
    (t.ckr.phase, t.ckr.reason) = (9, 6) ∧ (runD (.resetNRelease ⟨true, false, false, 0, 32000000⟩) waiting).pins.sbMode = true := by decide +kernel
theorem test_hyp_DeviceFatalEvents :
    (up.pins.pwrGood = true ∧ up.pins.resetN = true ∧ up.coresUp = true ∧ up.released = true ∧ up.ckr.aonstb = true ∧ up.ckr.aonRun = true ∧
      up.err.deOpen = false ∧ up.pins.v48 = true) ∧
    (onSec fun x => { x with loopRun := 1 }).sec.loopRun = 1 ∧ (onSec fun x => { x with loopRun := 2 }).sec.loopRun = 2 ∧
    (let d := { up with err := { up.err with deOpen := true } }
     d.err.deOpen = true ∧ d.err.deDone = false) := by decide +kernel
/-- One open check of the loop does not open the latch; the second in a row does. -/
theorem test_seal_twice :
    (runD (.sealCheck true) up).persist.sealed = false ∧
    (runD (.sealCheck true) (onSec fun x => { x with loopRun := 1 })).persist.sealed = true := by decide +kernel
/-- A power fault with RESET_N high is recorded, takes the keys and leaves the host link idle (R433, R437, R438). -/
theorem test_power_fault :
    let t := runD .powerFault up
    t.err.detected.map (·.code) = [Code.powerFault] ∧ t.sec.sessions = [] ∧ t.host.linkUp = false ∧ t.pins.faultN = true := by decide +kernel
/-- A second device-fatal error while the first is handled: the hold state, FAULT_N low. -/
theorem test_second_fatal :
    let t := runD (.fwWatchdog true) { up with err := { up.err with deOpen := true } }
    t.err.holdst = true ∧ t.pins.faultN = false := by decide +kernel
def onErr (f : ErrSt → ErrSt) : Dev := { dev0 part0 with err := f up.err }
theorem test_hyp_ErrorHandling :
    (onErr fun e => { e with detected := [recP 0x201 0] }).err.detected = [recP 0x201 0] ∧
    (let d := onErr fun e => { e with todo := [rec0 0x100, recP 0x201 0] }
     d.coresUp = true ∧ pickRec d.err.todo = some (recP 0x201 0) ∧ d.err.hclass < Code.cls 0x201) ∧
    (let d := onErr fun e => { e with todo := [recP 0x201 0], handling := [rec0 0x300] }
     pickRec d.err.todo = some (recP 0x201 0) ∧ Code.cls 0x201 ≤ d.err.hclass) ∧
    (onErr fun e => { e with handling := [recP 0x201 0] }).err.handling = [recP 0x201 0] := by decide +kernel
/-- The queue takes a 32nd record; a 33rd of class CE is dropped and counted. -/
theorem test_error_queue :
    let q (n : Nat) := (List.range n).map fun i => { rec0 0x201 with pv := true, index := i }
    (runD .errorRecordAccept (onErr fun e => { e with queue := q 31, detected := [rec0 0x100] })).err.queue.length = 32 ∧
    (runD .errorRecordAccept (onErr fun e => { e with queue := q 32, detected := [rec0 0x100] })).err.dropped = 1 := by decide +kernel
theorem test_hyp_ClocksAndLoupe :
    (let d := onCkr fun c => { c with pllLock := false }
     d.ckr.pllLock = false ∧ d.ckr.refOk = true ∧ d.released = true ∧ d.err.holdst = false ∧ d.ckr.pwr ≠ 2 ∧ d.ckr.clockWait = false ∧ d.ckr.booting = false) ∧
    (let d := onCkr fun c => { c with pllLock := false, clockWait := true }
     d.ckr.clockWait = true ∧ d.ckr.booting = false ∧ d.err.deOpen = false ∧ d.released = true ∧ ∀ p ∈ d.live, (d.part p).step = none) ∧
    (let d := { (onCkr fun c => { c with pllLock := false, pwr := 2 }) with host := { up.host with replies := [⟨0x133, 0, .ethernet 1 [], 7⟩] } }
     d.ckr.pwr = 2 ∧ (d.host.replies.find? fun x => x.code == 0x133) = some ⟨0x133, 0, .ethernet 1 [], 7⟩) ∧
    (up.ckr.refOk = true ∧ up.released = true ∧ up.ckr.pllLock = true ∧ up.ckr.pwr ≠ 2 ∧ up.pf0Open ∧ up.ckr.clockWait = false ∧ up.err.holdst = false) ∧
    (waiting.ckr.refOk = true ∧ waiting.released = false) ∧ (onCkr fun c => { c with pwr := 2 }).released = true ∧
    (let d (lost wait : Bool) := onCkr fun c => { c with refOk := false, clockLost := lost, clockWait := wait }
     (d true true).ckr.refOk = false ∧ (d true true).ckr.aonstb = true ∧ (d true true).ckr.clockLost = true ∧
       (d false false).ckr.phase ≠ 0 ∧ (d false false).ckr.clockLost = false ∧ (d false true).ckr.clockWait = true ∧ (d false true).err.holdst = false) ∧
    (let d := onCkr fun c => { c with loupeStart := true }
     d.ckr.loupeStart = true ∧ d.clockRuns d.ckr.rsel = true) ∧
    (let d := onCkr fun c => { c with loupeStart := true, pllLock := false }
     d.clockRuns d.ckr.rsel = false) := by unfold Dev.pf0Open; decide +kernel
/-- A loupe measurement with a gate of 0 is in error and does not start. -/
theorem test_loupe_gate :
    let t := runD (.loupeStart 0x8000000000000000) up
    (t.ckr.loupeErr, t.ckr.loupeStart) = (true, false) := by decide +kernel
theorem test_hyp_ThermalAndPeel :
    (up.pins.pwrGood = true ∧ up.ckr.booting = false ∧ up.err.deOpen = false) ∧
    (up.peelRuns = true ∧ up.err.peelFail.getLsbD 0 = false ∧ (up.tile 0).peelOn = false) ∧
    (let d := { up with tiles := [(0, { Reset.tile with peelOn := true })] }
     d.peelRuns = true ∧ d.peelable 0 = true ∧ (d.tile 0).peelOn = true ∧ (d.tile 0).peelWin.length < 40 ∧ (d.tile 0).peelWin.contains 0 = false) ∧
    ({ up.therm with hot := 1 }.hot = 1) := by decide +kernel
/-- At TTHR the duty falls by one; 3 degrees below it rises again, and not a tenth nearer. -/
theorem test_thermal_bounds :
    let hot := { up with therm := { up.therm with duty := 10 } }
    (runD (.thermalSample [1000, 0, 0, 0, 0]) hot).therm.duty = 9 ∧ (runD (.thermalSample [970, 0, 0, 0, 0]) hot).therm.duty = 11 ∧
    (runD (.thermalSample [971, 0, 0, 0, 0]) hot).therm.duty = 10 := by decide +kernel
/-- A test's last beat with a wrong signature is run again once; the second failure marks the tile. -/
theorem test_peel_fail :
    let d (again : Bool) := { up with tiles := [(0, { Reset.tile with peelOn := true, peelBeat := 3, peelRerun := again })] }
    (runD (.peelTestBeat 0 false) (d false)).err.peelFail = 0 ∧ (runD (.peelTestBeat 0 false) (d true)).err.peelFail = 1 := by decide +kernel

/-- A tile's beats of the last 4,096 are counted, and none before them: a beat used 4,095 ago leaves the count. -/
theorem test_peel_window : ({ Reset.tile with peelWin := [0, 4094, 4095] }.peelTick).peelWin = [1, 4095] := by decide +kernel

/-! ## Registers and queues -/

def vfDev (f : Vf → Vf) : Dev := dev0 { part0 with vf := f part0.vf }
theorem test_hyp_CounterClears : up.pf0Open ∧ up.viewOpen 0 ∧ ((dev0 distilling).part 0).entry.mode = .distil := by
  unfold Dev.pf0Open Dev.viewOpen; decide +kernel
def entryOf (cmd len : Nat) : List Byte := natLe 2 cmd ++ natLe 2 len ++ zeros 12 ++ [1] ++ zeros 111
theorem test_hyp_Queues :
    (let d := vfDev id
     d.viewOpen 0 ∧ 15 < 2 ^ (d.part 0).vf.sqsz ∧ 2 ^ (d.part 0).vf.sqsz ≤ 16 ∧ 15 < 2 ^ (d.part 0).vf.cqsz ∧ (d.part 0).vf.heldCqe = []) ∧
    (let d := vfDev fun v => { v with heldCqe := [[]], cqHead := 1 }
     (d.part 0).vf.heldCqe = [[]] ∧ ((d.part 0).vf.cqTail + 1) % 2 ^ (d.part 0).vf.cqsz ≠ 15 ∧ d.masters 1 = true ∧ d.servable 0 [4] = true) ∧
    (let d := vfDev fun v => { v with en := true, sqTail := 1 }
     d.mayFetch 0 = true ∧ d.err.deOpen = false ∧ d.ckr.pwr = 0 ∧ sqeForm (fit 128 (entryOf 2 32)) = true ∧ sqeForm (fit 128 (entryOf 7 32)) = false ∧ num (entryOf 7 32) 0 2 ≠ 2) ∧
    (let d := { up with host := { up.host with fns := [(0, ⟨true, true, false, 0, 4, 0, [], []⟩)] } }
     d.host.answering = true ∧ d.err.holdst = false ∧ (d.fn 0).pba.getLsbD 2 = true ∧ (d.fn 0).mask.getLsbD 2 = false ∧ d.host.b1 = true ∧
       (d.fn 0).withheld.getLsbD 2 = false ∧ d.readOpen .pf0 = true ∧ d.admits 0 ⟨true, false⟩ = true ∧ d.masters 0 = true ∧ d.ckr.clockWait = false ∧ d.host.linkUp = true) ∧
    (let d := { up with host := { up.host with b1 := false, fns := [(0, ⟨true, true, false, 0, 4, 4, [], []⟩)] } }
     (d.fn 0).pba.getLsbD 2 = true ∧ (d.fn 0).withheld.getLsbD 2 = true ∧ d.host.b1 = false) ∧ LinkMode.wf ⟨5, 16, true⟩ = true := by
  unfold Dev.viewOpen; decide +kernel
/-- A tail of 15 lies in a ring of 16 entries and one of 16 does not. -/
theorem test_sq_tail :
    ((runD (.sqTailWrite 0 15) (vfDev id)).part 0).vf.sqTail = 15 ∧ ((runD (.sqTailWrite 0 16) (vfDev id)).part 0).vf.qerr = true := by decide +kernel
/-- A fetch of the last entry of the ring wraps SQHEAD. -/
theorem test_sqe_fetch :
    let v := ((runD (.sqeFetch 0 (entryOf 2 32) true) (vfDev fun v => { v with en := true, sqHead := 15, sqTail := 0 })).part 0).vf
    (v.sqHead, v.cur.map (·.cmd)) = (0, some 2) := by decide +kernel
theorem test_hyp_RegisterWrites_lock :
    up.fnOpen .pf0 = true ∧ up.host.lock = false ∧ { up.host with lock := true }.lock = true := by decide +kernel
/-- LNK_ID takes a device number before GLB_CTL's LOCK is set, and none after. -/
theorem test_rwl :
    let w (a : Nat) (v : W64) (d : Dev) : Dev := runD (.registerWrite .pf0 a 8 (some v) ⟨false, false⟩) d
    let t := w 0x800000 5 up
    t.lnk.devid = 5 ∧ (w 0x800000 9 (w 0x20 0x8000000000000000 t)).lnk.devid = 5 := by decide +kernel
/-- A WO bit acts on an 8-byte write alone; a 4-byte write that sets it counts in BADACC. -/
theorem test_wo :
    let d := { up with err := { up.err with dropped := 3 } }
    (runD (.registerWrite .pf0 0x400008 8 (some 0x4000000000000000) ⟨false, false⟩) d).err.dropped = 0 ∧
    (let t := runD (.registerWrite .pf0 0x40000C 4 (some 0x40000000) ⟨false, false⟩) d
     (t.err.dropped, t.host.badacc) = (3, 1)) := by decide +kernel
theorem test_hyp_RegisterWrites :
    (up.fnOpen .pf0 = true ∧ up.admits 0 ⟨false, false⟩ = true) ∧ (up.fnOpen (.vf 0) = true ∧ up.admits 1 ⟨false, false⟩ = true) ∧
    up.regAt .pf0 (0x1FFFFF8 / 8 * 8) = none ∧ ¬((2 = 4 ∨ 2 = 8) ∧ 4 % 2 = 0) ∧
    (let d := dev0 distilling
     let P := (d.onPart 0 fun P => { P with sq := idle.sq }).part 0
     P.distIdle = true ∧ (P.dist.slots.all fun x => x.st == .free) = true ∧ d.pf0Open) ∧
    Reset.dev.fnOpen .pf0 = false ∧ (let d := { up with host := { up.host with idereq := true } }; d.fnOpen .pf0 = true ∧ d.admits 0 ⟨false, false⟩ = false ∧ up.admits 0 ⟨true, true⟩ = false) := by
  unfold Dev.pf0Open; decide +kernel
theorem test_hyp_RegisterReads :
    Reset.dev.host.answering = false ∧ (up.err.holdst = false ∧ up.host.answering = true ∧ up.admits 1 ⟨false, true⟩ = false ∧ up.readOpen (.vf 63) = true) ∧
    (let d := onCkr fun c => { c with phase := 9 }
     d.recovering = true ∧ d.host.answering = true ∧ d.ckr.clockWait = false ∧ (d.fn 0).d3hot = false ∧ d.err.holdst = false ∧ d.admits 0 ⟨false, false⟩ = true) ∧
    (let d := { up with err := { up.err with holdst := true } }; d.err.holdst = true ∧ d.host.answering = true) := by decide +kernel
/-- A read of 2 bytes returns all ones and counts in BADACC; one of GLB_INT's lower half returns it. -/
theorem test_reads :
    let d := { up with host := { up.host with int := 5 } }
    (runD (.registerWrite .pf0 0 2 none ⟨false, false⟩) d).out = [.regData 0 (some [0xFF, 0xFF])] ∧
    (runD (.registerWrite .pf0 0 2 none ⟨false, false⟩) d).host.badacc = 1 ∧
    (runD (.registerWrite .pf0 0x30 4 none ⟨false, false⟩) d).out = [.regData 0 (some [5, 0, 0, 0])] := by decide +kernel
/-- A code that the management command table does not list gets CMD_INVALID on the management Ethernet (R406). -/
theorem test_unlisted_code : (runD (.catMask (eth 0x1FF [])) up).out = [.response .ethernet (envelope 0x1FF 0 7 Code.cmdInvalid)] := by decide +kernel
/-- The upper half of SR_KEY of partition 3. -/
theorem test_half_write :
    ((runD (.registerWrite .pf0 (0x380000 + 0x20 * 3 + 4) 4 (some 7) ⟨false, false⟩) (up.onPart 3 fun P => { P with srKey := 1 })).part 3).srKey = 0x700000001 := by decide +kernel
theorem test_hyp_ArrayCounters : up.ownerOf 0 = none ∧ up.admits 0 ⟨false, false⟩ = true := by decide +kernel
theorem test_hyp_F32toX48 : (decodeElem 0 (0x00000001 : BitVec 32).toNat).isNaN = false := by decide +kernel
/-- A value of E2M1 (MX4) halfway between 1.0 (code 2) and 1.5 (code 3), one above the largest, 6.0, and draws either side of half. -/
theorem test_hyp_F32toX48_floats :
    (10, 7, 7, 7) ∈ floatCodes true ∧ roundingOf 10 .nearest ∧ roundingOf 10 (.stoch 32767) ∧ 2 + 1 ≤ 7 ∧
    decodeElem 10 2 = .fin false 2 (-1) ∧ decodeElem 10 3 = .fin false 3 (-1) ∧ decodeElem 10 7 = .fin false 3 1 ∧
    (let X := inUnits (-2) 5 (-2); let A := 1 * inUnits (-2) 2 (-1); let B := 1 * inUnits (-2) 3 (-1)
     A ≤ X ∧ X < B ∧ ¬writesNext .nearest 2 X A B ∧ writesNext (.stoch 32767) 2 X A B ∧ ¬writesNext (.stoch 32768) 2 X A B) ∧
    writesNext .nearest 3 7 6 8 ∧ inUnits 0 3 1 ≤ 7 ∧ writesNext .nearest 7 7 6 8 ∧ ¬writesNext .nearest 7 13 12 16 := by
  refine ⟨by decide, .inl rfl, .inr ⟨rfl, _, by decide, rfl⟩, ?_⟩; unfold writesNext; decide +kernel
theorem test_hyp_F32toX48_rest :
    (11, 8, -6, 127, 127) ∈ integerCodes ∧ (inUnits (-6) 5 (-6) ≤ 5 ∧ 5 < inUnits (-6) 6 (-6)) ∧ writesNext .nearest 5 11 10 12 ∧ ¬writesNext .nearest 4 9 8 10 ∧
    (inUnits 3 1 3 ≤ 1 ∧ 1 < 2 * inUnits 3 1 3) ∧
    (Val.scaled false 3 0 0 + Val.scaled true 3 0 0 = 0 ∧ Val.scaled false 3 0 0 + Val.scaled false 3 0 0 ≠ 0) ∧
    (let ps : List Val := [.fin false 3 0, .fin true 0 0]
     ps.length ≤ 32 ∧ (∀ v ∈ ps, v.isFinite = true) ∧ Val.fin false 3 0 ∈ ps ∧ 3 ≠ 0) ∧ [Val.zero].length ≤ 2048 ∧
    (Val.inf true ∈ [Val.inf true] ∧ Val.inf (!true) ∉ [Val.inf true]) := by unfold writesNext; decide +kernel
/-- 500.0 is 7Fh in F8A, 7Eh with SAT, 60h in F8B and 5FD0h in F16 (the worked example of
02). -/
theorem test_worked_500 :
    let x := (Val.ofNat 500).quo
    (encodeElem 4 .nearest false false false x).code = 0x7F ∧ (encodeElem 4 .nearest true false false x).code = 0x7E ∧
    (encodeElem 4 (.stoch 0) false false false x).code = 0x7F ∧ (encodeElem 5 .nearest false false false x).code = 0x60 ∧
    (encodeElem 2 .nearest false false false x).code = 0x5FD0 ∧ (encodeElem 3 .nearest false false false x).code = 0x43FA := by decide +kernel
/-- R41 at the smallest subnormal F32 and at negative infinity. -/
theorem test_f32_x48 :
    (encodeElem 1 .nearest false false false (decodeElem 0 1).quo).code = 0x10000 ∧
    (encodeElem 1 .nearest false false false (decodeElem 0 0xFF800000).quo).code = 0xFF8000000000 := by decide +kernel

/-- The largest finite magnitude of I8 is 127 (R46): -128 lies beyond it. -/
theorem test_i8_top :
    ((encodeElem 12 .nearest false true false (Val.fin true 1 7).quo).sat, (encodeElem 12 .nearest false true false (Val.fin true 127 0).quo).sat) = (true, false) := by decide +kernel

/-! ## Steps, reset, ill-formed terms -/

theorem test_hyp_StepKeepsMemoryCanonical : (st up).Inv ∧ (st up).pending = [] := by unfold State.Inv Dev.memOk; decide +kernel
theorem test_idle : step (st Reset.dev) = .next (st Reset.dev) := rfl
/-- Each check of well-formedness refuses a term. -/
theorem test_ill_formed :
    Instr.wf (.opStart 0 .sqf 0 [.sram 0 33554432 1]) = false ∧ Instr.wf (.opStart 0 .sqf 0 [.eccCorrected 32]) = false ∧
    Instr.wf (.opStart 0 .sqf 0 [.rereadClean 32]) = false ∧ Instr.wf (.shardRecheck 0 0 false [.rereadEcc 1]) = false ∧
    Instr.wf (.shardRecheck 0 0 false [.rereadParity 1 0]) = false ∧ Instr.wf (.bar2Access 0 (2 ^ 48) none 1 ⟨false, false⟩ []) = false ∧
    Instr.wf (.bar2Access 0 0 (some [0]) 2 ⟨false, false⟩ []) = false ∧ Instr.wf (.sqeFetch 0 (zeros 127) true) = false ∧
    Instr.wf (.frameReceived 0 (zeros 63) .clean true) = false ∧ Instr.wf (.cellReceived 0 125 (zeros 528) .clean true true) = false ∧
    Instr.wf (.cellReceived 0 0 (zeros 527) .clean true true) = false ∧ Instr.wf (.shardReceived 0 (zeros 63) []) = false ∧
    Instr.wf (.registerWrite .pf0 4 0 (some 0) ⟨false, false⟩) = false ∧ Instr.wf (.registerWrite .pf0 0 513 (some 0) ⟨false, false⟩) = false ∧
    Instr.wf (.registerWrite .pf0 0 4097 none ⟨false, false⟩) = false ∧ Instr.wf (.bar2Access 0 0 none 4097 ⟨false, false⟩ []) = false ∧
    Instr.wf (.functionMasterRestored ⟨.pf0, ⟨6, 16, true⟩, []⟩) = false ∧ Instr.wf (.functionMasterRestored ⟨.pf0, ⟨5, 16, true⟩, [0, 0, 0, 0]⟩) = false ∧
    Instr.wf (.msixVectorUnmask .pf0 ⟨0, 0, 2 ^ 32⟩) = false ∧
    Instr.wf (.keyPut 1 (zeros 63)) = false ∧ Instr.wf (.catMask (.ethernet 1 (zeros 15))) = false ∧
    Instr.wf (.fwDiscard (.sideband 1 (zeros 15))) = false ∧ Instr.wf (.fullReset (.recovery (zeros 15))) = false := by decide +kernel
/-- And the same checks accept their neighbours. -/
theorem test_well_formed :
    Instr.wf (.opStart 0 .sqf 0 [.sram 0 33554431 1, .rereadEcc 64]) = true ∧ Instr.wf (.registerWrite .pf0 4 512 (some 0) ⟨false, false⟩) = true ∧
    Instr.wf (.registerWrite .pf0 4 4096 none ⟨false, false⟩) = true ∧ Instr.wf (.functionMasterRestored ⟨.pf0, ⟨5, 16, true⟩, [0, 0, 0]⟩) = true ∧
    Instr.wf (.cellReceived 0 124 (zeros 528) .clean true true) = true ∧ Instr.wf (.catMask (.ethernet 1 (zeros 16))) = true := by decide +kernel

end Sys2Proof.Tests
end

section
/-! SUPPORT. Magnitudes num / den * 2^e against m * 2^a, compared in units of a power of two that both hold: what `quantum`, `ratLog2`,
`exceeds` and `roundMag` say of them, and the rounding of a magnitude between two neighbours of a grid (R46, R50, R54). -/

namespace Sys2Proof.Machine

variable {num den m n : Nat} {e a b g : Int}

/-! ## Units -/

theorem two_pow_toNat_sub {h : Int} (hg : g ≤ h) (he : h ≤ e) : 2 ^ (e - g).toNat = 2 ^ (e - h).toNat * 2 ^ (h - g).toNat := by
  rw [← Nat.pow_add]
  congr 1
  omega
/-- A smaller unit scales every magnitude alike. -/
theorem inUnits_rebase {h : Int} (hg : g ≤ h) (he : h ≤ e) : inUnits g m e = inUnits h m e * 2 ^ (h - g).toNat := by
  rw [inUnits, inUnits, two_pow_toNat_sub hg he, Nat.mul_assoc]
theorem inUnits_self (g : Int) (m : Nat) : inUnits g m g = m := by
  rw [inUnits, Int.sub_self]
  exact Nat.mul_one m
theorem inUnits_add_exp (k : Nat) (h : g ≤ a) : inUnits g m (a + k) = inUnits g (m * 2 ^ k) a := by
  rw [inUnits, inUnits, Nat.mul_assoc, ← Nat.pow_add]
  congr 2
  omega
theorem inUnits_mono (h : m ≤ n) : inUnits g m a ≤ inUnits g n a := Nat.mul_le_mul_right _ h
theorem inUnits_lt (h : m < n) : inUnits g m a < inUnits g n a := Nat.mul_lt_mul_of_pos_right h (Nat.two_pow_pos _)

/-! ## Comparing num / den * 2^e with m * 2^a -/

/-- num / den * 2^e ≥ m * 2^a. -/
def geMag (num den : Nat) (e : Int) (m : Nat) (a : Int) : Prop := den * inUnits (min e a) m a ≤ inUnits (min e a) num e
/-- num / den * 2^e > m * 2^a. -/
def gtMag (num den : Nat) (e : Int) (m : Nat) (a : Int) : Prop := den * inUnits (min e a) m a < inUnits (min e a) num e
/-- num / den * 2^e = m * 2^a. -/
def eqMag (num den : Nat) (e : Int) (m : Nat) (a : Int) : Prop := inUnits (min e a) num e = den * inUnits (min e a) m a

theorem mul_inUnits_rebase {h : Int} (hg : g ≤ h) (ha : h ≤ a) : den * inUnits g m a = den * inUnits h m a * 2 ^ (h - g).toNat := by
  rw [inUnits_rebase hg ha, Nat.mul_assoc]
theorem geMag_iff (he : g ≤ e) (ha : g ≤ a) : geMag num den e m a ↔ den * inUnits g m a ≤ inUnits g num e := by
  have hg : g ≤ min e a := by omega
  rw [geMag, mul_inUnits_rebase hg (Int.min_le_right e a), inUnits_rebase hg (Int.min_le_left e a)]
  exact ⟨Nat.mul_le_mul_right _, fun h => Nat.le_of_mul_le_mul_right h (Nat.two_pow_pos _)⟩
theorem gtMag_iff (he : g ≤ e) (ha : g ≤ a) : gtMag num den e m a ↔ den * inUnits g m a < inUnits g num e := by
  have hg : g ≤ min e a := by omega
  rw [gtMag, mul_inUnits_rebase hg (Int.min_le_right e a), inUnits_rebase hg (Int.min_le_left e a)]
  exact ⟨fun h => Nat.mul_lt_mul_of_pos_right h (Nat.two_pow_pos _), Nat.lt_of_mul_lt_mul_right⟩
theorem eqMag_iff (he : g ≤ e) (ha : g ≤ a) : eqMag num den e m a ↔ inUnits g num e = den * inUnits g m a := by
  have hg : g ≤ min e a := by omega
  rw [eqMag, mul_inUnits_rebase hg (Int.min_le_right e a), inUnits_rebase hg (Int.min_le_left e a)]
  exact ⟨fun h => by rw [h], Nat.eq_of_mul_eq_mul_right (Nat.two_pow_pos _)⟩
theorem gtMag.ge (h : gtMag num den e m a) : geMag num den e m a := Nat.le_of_lt h
theorem eqMag.ge (h : eqMag num den e m a) : geMag num den e m a := Nat.le_of_eq (Eq.symm h)
theorem geMag.mono (h : geMag num den e n a) (hm : m ≤ n) : geMag num den e m a := Nat.le_trans (Nat.mul_le_mul_left _ (inUnits_mono hm)) h
theorem geMag.trans (h : geMag num den e m a) (h' : geMag m 1 a n b) : geMag num den e n b := by
  obtain ⟨g, hge, hga, hgb⟩ : ∃ g, g ≤ e ∧ g ≤ a ∧ g ≤ b := ⟨min e (min a b), by omega, by omega, by omega⟩
  rw [geMag_iff hge hga] at h
  rw [geMag_iff hga hgb, Nat.one_mul] at h'
  exact (geMag_iff hge hgb).2 (Nat.le_trans (Nat.mul_le_mul_left _ h') h)
/-- Two dyadic magnitudes each at least the other are one. -/
theorem eqMag_of_ge (h : geMag m 1 a n b) (h' : geMag n 1 b m a) : eqMag m 1 a n b := by
  have hga : min a b ≤ a := Int.min_le_left a b
  have hgb : min a b ≤ b := Int.min_le_right a b
  rw [geMag_iff hga hgb, Nat.one_mul] at h
  rw [geMag_iff hgb hga, Nat.one_mul] at h'
  rw [eqMag, Nat.one_mul]
  exact Nat.le_antisymm h' h
theorem eqMag.symm (h : eqMag m 1 a n b) : eqMag n 1 b m a := by
  have hga : min a b ≤ a := Int.min_le_left a b
  have hgb : min a b ≤ b := Int.min_le_right a b
  rw [eqMag, Nat.one_mul] at h
  rw [eqMag_iff hgb hga, Nat.one_mul, h]
theorem eqMag.geMag_iff (h : eqMag m 1 a n b) : geMag num den e m a ↔ geMag num den e n b := ⟨fun h' => h'.trans h.ge, fun h' => h'.trans h.symm.ge⟩
theorem gtMag.not_ge_of_eq (h : gtMag num den e n b) (hx : eqMag num den e m a) : ¬geMag n 1 b m a := by
  obtain ⟨g, hge, hga, hgb⟩ : ∃ g, g ≤ e ∧ g ≤ a ∧ g ≤ b := ⟨min e (min a b), by omega, by omega, by omega⟩
  rw [gtMag_iff hge hgb, (eqMag_iff hge hga).1 hx] at h
  rw [geMag_iff hgb hga, Nat.one_mul]
  exact fun h' => Nat.not_lt.2 (Nat.mul_le_mul_left den h') h
theorem eqMag_refl (m : Nat) (a : Int) : eqMag m 1 a m a := by rw [eqMag, Nat.one_mul]
theorem not_geMag_succ_of_eqMag (hd : 0 < den) (h : eqMag num den e m a) : ¬geMag num den e (m + 1) a := by
  unfold eqMag at h
  rw [geMag, h, Nat.not_le]
  exact Nat.mul_lt_mul_of_pos_left (inUnits_lt (Nat.lt_succ_self m)) hd
theorem geMag_same_exp : geMag m 1 a n a ↔ n ≤ m := by
  rw [geMag_iff (g := a) (Int.le_refl a) (Int.le_refl a), inUnits_self, inUnits_self, Nat.one_mul]
theorem geMag_add_exp (k : Nat) : geMag num den e m (a + k) ↔ geMag num den e (m * 2 ^ k) a := by
  have hge : min e a ≤ e := Int.min_le_left e a
  have hga : min e a ≤ a := Int.min_le_right e a
  rw [geMag_iff hge (by omega : min e a ≤ a + k), geMag_iff hge hga, inUnits_add_exp k hga]
theorem eqMag_add_exp (k : Nat) : eqMag m 1 (a + k) (m * 2 ^ k) a := by
  rw [eqMag_iff (g := a) (by omega) (Int.le_refl a), inUnits_add_exp k (Int.le_refl a), Nat.one_mul]
theorem inUnits_add_both (j : Int) : inUnits (g + j) m (e + j) = inUnits g m e := by
  rw [inUnits, inUnits, Int.add_sub_add_right]
theorem gtMag_add_both (j : Int) : gtMag num den (e + j) m (a + j) ↔ gtMag num den e m a := by
  have hge : min e a ≤ e := Int.min_le_left e a
  have hga : min e a ≤ a := Int.min_le_right e a
  rw [gtMag_iff (g := min e a + j) (by omega) (by omega), inUnits_add_both, inUnits_add_both, gtMag]

/-! ## Quantum: the floor in units of 2^q, and what is left -/

variable {q : Int}

theorem quantum_rem_lt (hd : 0 < den) : (quantum num den e q).2.1 < (quantum num den e q).2.2 :=
  Nat.mod_lt _ (by rw [Nat.shiftLeft_eq]; exact Nat.mul_pos hd (Nat.two_pow_pos _))
/-- In units small enough, the magnitude is u * (k * d + r) where n units of 2^q are u * (n * d). -/
theorem quantum_units (num den : Nat) (he : g ≤ e) (hq : g ≤ q) : ∃ u, 0 < u ∧
    inUnits g num e = u * ((quantum num den e q).1 * (quantum num den e q).2.2 + (quantum num den e q).2.1) ∧
    ∀ n, den * inUnits g n q = u * (n * (quantum num den e q).2.2) := by
  have hdiv : (quantum num den e q).1 * (quantum num den e q).2.2 + (quantum num den e q).2.1 = num * 2 ^ (e - q).toNat := by
    rw [← Nat.shiftLeft_eq]
    exact Nat.div_add_mod' _ _
  have hd : (quantum num den e q).2.2 = den * 2 ^ (q - e).toNat := Nat.shiftLeft_eq ..
  refine ⟨2 ^ (min e q - g).toNat, Nat.two_pow_pos _, ?_, fun n => ?_⟩
  · rw [hdiv, inUnits, two_pow_toNat_sub (h := min e q) (by omega) (by omega), show e - min e q = ((e - q).toNat : Int) by omega, Int.toNat_natCast]
    ac_rfl
  · rw [hd, inUnits, two_pow_toNat_sub (h := min e q) (by omega) (by omega), show q - min e q = ((q - e).toNat : Int) by omega, Int.toNat_natCast]
    ac_rfl
theorem mul_le_mul_add_iff {n k r d : Nat} (hr : r < d) : n * d ≤ k * d + r ↔ n ≤ k := by
  constructor
  · intro h
    refine Nat.le_of_not_lt fun hlt => ?_
    have := Nat.mul_le_mul_right d hlt
    rw [Nat.succ_mul] at this
    omega
  · exact fun h => Nat.le_trans (Nat.mul_le_mul_right d h) (Nat.le_add_right _ _)
/-- The floor is the greatest number of units that the magnitude reaches. -/
theorem le_quantum_iff (hd : 0 < den) (n : Nat) : n ≤ (quantum num den e q).1 ↔ geMag num den e n q := by
  obtain ⟨u, hu, hX, hA⟩ := quantum_units (g := min e q) num den (Int.min_le_left e q) (Int.min_le_right e q)
  rw [geMag, hX, hA, ← mul_le_mul_add_iff (quantum_rem_lt hd)]
  exact ⟨Nat.mul_le_mul_left u, fun h => Nat.le_of_mul_le_mul_left h hu⟩
theorem quantum_eq_of_between (hd : 0 < den) (h1 : geMag num den e m q) (h2 : ¬geMag num den e (m + 1) q) : (quantum num den e q).1 = m := by
  rw [← le_quantum_iff hd] at h1 h2
  omega
theorem quantum_add (num den : Nat) (e q j : Int) : quantum num den (e + j) (q + j) = quantum num den e q := by
  rw [quantum, Int.add_sub_add_right, Int.add_sub_add_right]
  rfl

/-! ## Exceeding a bound before rounding (R49) -/

theorem mul_lt_mul_add_iff {n k r d : Nat} (hr : r < d) : n * d < k * d + r ↔ n < k ∨ (k = n ∧ 0 < r) := by
  rcases Nat.lt_trichotomy n k with h | h | h
  · have := Nat.mul_le_mul_right d h
    rw [Nat.succ_mul] at this
    omega
  · subst h
    omega
  · have := Nat.mul_le_mul_right d h
    rw [Nat.succ_mul] at this
    omega
theorem exceeds_iff (hd : 0 < den) (m : Nat) (q : Int) : exceeds num den e m q = true ↔ gtMag num den e m q := by
  have hgq : min q e ≤ q := Int.min_le_left q e
  have hge : min q e ≤ e := Int.min_le_right q e
  obtain ⟨u, hu, hX, hA⟩ := quantum_units (g := min q e) num den hge (Int.le_refl (min q e))
  have hm : inUnits (min q e) m q = inUnits (min q e) (m <<< (q - min q e).toNat) (min q e) := by rw [inUnits_self, Nat.shiftLeft_eq, inUnits]
  rw [gtMag_iff hge hgq, hX, hm, hA, Nat.mul_lt_mul_left hu, mul_lt_mul_add_iff (quantum_rem_lt hd)]
  simp only [exceeds, Bool.or_eq_true, Bool.and_eq_true, decide_eq_true_eq, beq_iff_eq]

/-! ## The exponent of a magnitude -/

/-- The exponents of the operands bound that of the quotient, for a numerator with the greater one. -/
theorem log2_quotient_bounds {x y k : Nat} (hx : x ≠ 0) (hk : x.log2 = y.log2 + k) : y * 2 ^ k < 2 * x ∧ (y ≠ 0 → x < 2 * (y * 2 ^ k)) := by
  have hx1 := Nat.log2_self_le hx
  have hx2 : x < 2 ^ (x.log2 + 1) := Nat.lt_log2_self
  have hy2 : y < 2 ^ (y.log2 + 1) := Nat.lt_log2_self
  rw [hk, Nat.pow_add] at hx1
  rw [hk, Nat.add_right_comm, Nat.pow_add, Nat.pow_succ] at hx2
  rw [Nat.pow_succ] at hy2
  have hpos := Nat.two_pow_pos k
  refine ⟨?_, fun hy => ?_⟩
  · have := Nat.mul_lt_mul_of_pos_right hy2 hpos
    rw [Nat.mul_right_comm] at this
    omega
  · have := Nat.mul_le_mul_right (2 ^ k) (Nat.log2_self_le hy)
    rw [Nat.mul_right_comm] at hx2
    omega
theorem ratLog2_of_ge {k : Nat} (e : Int) (h : num.log2 = den.log2 + k) :
    ratLog2 num den e = if den * 2 ^ k ≤ num then e + k else e + k - (1 : Nat) := by
  have hg : (num.log2 : Int) - den.log2 = k := by omega
  simp only [ratLog2, hg, Int.natCast_nonneg, if_true, Int.toNat_natCast, decide_eq_true_eq, Nat.shiftLeft_eq]
  split <;> omega
theorem ratLog2_of_lt {k : Nat} (e : Int) (h : den.log2 = num.log2 + (k + 1)) :
    ratLog2 num den e = if den ≤ num * 2 ^ (k + 1) then e - (k + 1 : Nat) else e - (k + 2 : Nat) := by
  have hg : (num.log2 : Int) - den.log2 = -(k + 1 : Nat) := by omega
  have hneg : ¬(0 : Int) ≤ -(k + 1 : Nat) := by omega
  simp only [ratLog2, hg, hneg, if_false, Int.neg_neg, Int.toNat_natCast, decide_eq_true_eq, Nat.shiftLeft_eq]
  split <;> omega
theorem geMag_sub_exp (k : Nat) : geMag num den e m (e - k) ↔ den * m ≤ num * 2 ^ k := by
  rw [geMag_iff (g := e - k) (by omega) (Int.le_refl _), inUnits_self, inUnits, show (e - (e - k)).toNat = k by omega]
theorem geMag_add_sub_exp (k j : Nat) : geMag num den e m (e + k - j) ↔ den * (m * 2 ^ k) ≤ num * 2 ^ j := by
  rw [show e + k - j = e - j + k by omega, geMag_add_exp, geMag_sub_exp]
theorem ratLog2_bounds (e : Int) (hn : num ≠ 0) (hd : 0 < den) :
    geMag num den e 1 (ratLog2 num den e) ∧ ¬geMag num den e 2 (ratLog2 num den e) := by
  rcases Nat.lt_or_ge num.log2 den.log2 with h | h
  · obtain ⟨k, hk⟩ := Nat.le.dest h
    have hk : den.log2 = num.log2 + (k + 1) := by omega
    obtain ⟨h1, h2⟩ := log2_quotient_bounds (Nat.ne_of_gt hd) hk
    have h2 := h2 hn
    rw [ratLog2_of_lt e hk]
    split
    · rw [geMag_sub_exp, geMag_sub_exp]
      omega
    · rw [geMag_sub_exp, geMag_sub_exp, Nat.pow_succ 2 (k + 1), ← Nat.mul_assoc]
      omega
  · obtain ⟨k, hk⟩ := Nat.le.dest h
    obtain ⟨h1, h2⟩ := log2_quotient_bounds hn hk.symm
    have h2 := h2 (Nat.ne_of_gt hd)
    rw [ratLog2_of_ge e hk.symm]
    split
    · rw [← Int.sub_zero (e + k), ← Int.natCast_zero, geMag_add_sub_exp, geMag_add_sub_exp, Nat.one_mul, Nat.mul_left_comm]
      omega
    · rw [geMag_add_sub_exp, geMag_add_sub_exp, Nat.one_mul, Nat.mul_left_comm]
      omega
theorem le_ratLog2_iff (hn : num ≠ 0) (hd : 0 < den) (k : Int) : k ≤ ratLog2 num den e ↔ geMag num den e 1 k := by
  obtain ⟨h1, h2⟩ := ratLog2_bounds e hn hd
  constructor
  · intro h
    obtain ⟨j, hj⟩ := Int.le.dest h
    rw [← hj, geMag_add_exp] at h1
    exact h1.mono (by rw [Nat.one_mul]; exact Nat.two_pow_pos j)
  · intro h
    refine Int.not_lt.1 fun hlt => h2 ?_
    obtain ⟨j, hj⟩ := Int.le.dest hlt
    rw [← hj, Int.add_assoc, ← Int.natCast_one, ← Int.natCast_add, geMag_add_exp, Nat.one_mul] at h
    exact h.mono (by rw [Nat.pow_add]; have := Nat.two_pow_pos j; omega)
theorem ratLog2_eq_of_bounds {l : Int} (hn : num ≠ 0) (hd : 0 < den) (h1 : geMag num den e 1 l) (h2 : ¬geMag num den e 2 l) : ratLog2 num den e = l := by
  refine Int.le_antisymm (Int.not_lt.1 fun h => h2 ?_) ((le_ratLog2_iff hn hd l).2 h1)
  have := (le_ratLog2_iff hn hd _).1 h
  rwa [← Int.natCast_one, geMag_add_exp] at this

/-! ## Rounding between the neighbours m and m + 1 of a grid -/

theorem roundsUp_no_rem {d : Nat} (md : Rounding) (k : Nat) (hd : 0 < d) : roundsUp md k 0 d = false := by
  cases md with
  | nearest => simp only [roundsUp, Nat.mul_zero, Nat.not_lt_zero, decide_false, Bool.false_or, Bool.and_eq_false_iff, beq_eq_false_iff_ne]; omega
  | up => rfl
  | down => rfl
  | stoch w => rfl
/-- `roundsUp` and R50, R54 agree on a magnitude k + r / d units, whatever the unit. -/
theorem roundsUp_iff_writesNext {md : Rounding} {k r d c u X A B : Nat} (hmd : md = .nearest ∨ ∃ w, md = .stoch w) (hu : 0 < u)
    (hX : X = u * (k * d + r)) (hA : A = u * (k * d)) (hB : B = u * ((k + 1) * d)) (hc : c % 2 = k % 2) :
    roundsUp md k r d = true ↔ writesNext md c X A B := by
  have hX' : X = A + u * r := by rw [hX, hA, Nat.mul_add]
  have hB' : B = A + u * d := by rw [hB, hA, Nat.succ_mul, Nat.mul_add]
  rcases hmd with rfl | ⟨w, rfl⟩
  · have hlt : A + B < 2 * X ↔ d < 2 * r := by
      have : d < 2 * r ↔ u * d < u * (2 * r) := (Nat.mul_lt_mul_left hu).symm
      rw [this, Nat.mul_left_comm]
      omega
    have heq : A + B = 2 * X ↔ 2 * r = d := by
      have : 2 * r = d ↔ u * (2 * r) = u * d := ⟨fun h => by rw [h], Nat.eq_of_mul_eq_mul_left hu⟩
      rw [this, Nat.mul_left_comm]
      omega
    simp only [roundsUp, writesNext, Bool.or_eq_true, Bool.and_eq_true, decide_eq_true_eq, beq_iff_eq, hlt, heq, hc]
  · have hquot : 65536 * (X - A) / (B - A) = 65536 * r / d := by
      rw [hX', hB', Nat.add_sub_cancel_left, Nat.add_sub_cancel_left, Nat.mul_left_comm, Nat.mul_div_mul_left _ _ hu]
    simp only [roundsUp, writesNext, hquot, Bool.and_eq_true, decide_eq_true_eq, and_iff_right_iff_imp]
    intro h
    refine Nat.pos_of_ne_zero fun hz => ?_
    rw [hz, Nat.mul_zero, Nat.zero_div] at h
    exact Nat.not_lt_zero _ h

end Sys2Proof.Machine
end

section
/-! SUPPORT. The binary formats (Table 02-2): their encodings as mantissa and exponent, the order of the magnitudes they hold, and what
rounding a magnitude into one gives. -/

namespace Sys2Proof.Machine

namespace FpFmt

/-- A mantissa and exponent as `decode` gives them: a normal has its leading one, and a subnormal the least exponent. -/
structure Normalized (p : FpFmt) (m : Nat) (a : Int) : Prop where
  lt : m < 2 ^ (p.fbits + 1)
  le : p.emin - p.fbits ≤ a
  low : a = p.emin - p.fbits ∨ 2 ^ p.fbits ≤ m

/-- The encoding of m * 2^a without its sign: exponents rise by one every 2^fbits codes, the subnormals sharing the least one. -/
def codeOf (p : FpFmt) (m : Nat) (a : Int) : Nat := (a - (p.emin - p.fbits)).toNat * 2 ^ p.fbits + m

theorem codeOf_succ (p : FpFmt) (m : Nat) (a : Int) : p.codeOf (m + 1) a = p.codeOf m a + 1 := rfl
theorem codeOf_mod_two {p : FpFmt} (hf : 1 ≤ p.fbits) (m : Nat) (a : Int) : p.codeOf m a % 2 = m % 2 := by
  obtain ⟨k, hk⟩ := Nat.le.dest hf
  rw [codeOf, ← hk, Nat.pow_add, Nat.pow_one, Nat.mul_left_comm, Nat.mul_add_mod]

/-! ## Fields of an encoding -/

theorem fld_frac {f : Nat} (hf : 1 ≤ f) (c : Nat) : fld c (f - 1) 0 = c % 2 ^ f := by
  rw [fld, Nat.shiftRight_zero, Nat.sub_zero, Nat.sub_add_cancel hf]
theorem fld_exponent {e : Nat} (he : 1 ≤ e) (f c : Nat) : fld c (f + e - 1) f = c / 2 ^ f % 2 ^ e := by
  rw [fld, Nat.shiftRight_eq_div_pow, show f + e - 1 + 1 - f = e by omega]
theorem bit_sign {c n : Nat} (hc : c < 2 ^ (n + 1)) : b2n (bit c n) = c / 2 ^ n := by
  have h : c / 2 ^ n < 2 := Nat.div_lt_of_lt_mul (by rwa [Nat.pow_succ] at hc)
  rw [bit, fld, Nat.shiftRight_eq_div_pow, show n + 1 - n = 1 by omega, Nat.pow_one, Nat.mod_eq_of_lt h]
  rcases Nat.le_one_iff_eq_zero_or_eq_one.1 (Nat.le_of_lt_succ h) with h | h <;> rw [h] <;> rfl
theorem code_fields (c f e : Nat) : c = c / 2 ^ (f + e) * 2 ^ (f + e) + (c / 2 ^ f % 2 ^ e * 2 ^ f + c % 2 ^ f) := by
  have h1 := Nat.div_add_mod' c (2 ^ f)
  have h2 := Nat.div_add_mod' (c / 2 ^ f) (2 ^ e)
  rw [Nat.div_div_eq_div_mul, ← Nat.pow_add] at h2
  calc c = (c / 2 ^ (f + e) * 2 ^ e + c / 2 ^ f % 2 ^ e) * 2 ^ f + c % 2 ^ f := by rw [h2, h1]
    _ = _ := by rw [Nat.add_mul, Nat.mul_assoc, ← Nat.pow_add, Nat.add_comm e f, Nat.add_assoc]

/-- What decodes to a finite value is the encoding of its mantissa and exponent. -/
theorem decode_fin {p : FpFmt} {c m : Nat} {s : Bool} {a : Int} (hf : 1 ≤ p.fbits) (he : 1 ≤ p.ebits) (hc : c < 2 ^ (p.ebits + p.fbits + 1))
    (h : p.decode c = .fin s m a) : p.Normalized m a ∧ c = b2n s * 2 ^ (p.ebits + p.fbits) + p.codeOf m a := by
  have hfr : c % 2 ^ p.fbits < 2 ^ p.fbits := Nat.mod_lt _ (Nat.two_pow_pos _)
  have hfields := code_fields c p.fbits p.ebits
  rw [Nat.add_comm p.ebits] at hc ⊢
  rw [← bit_sign hc] at hfields
  simp only [decode, fld_frac hf, fld_exponent he] at h
  generalize c / 2 ^ p.fbits % 2 ^ p.ebits = ex at h hfields
  have hpow : 2 ^ (p.fbits + 1) = 2 ^ p.fbits + 2 ^ p.fbits := by rw [Nat.pow_succ]; omega
  split at h
  · split at h <;> cases h
  split at h
  · next hex =>
    cases h
    refine ⟨⟨by omega, Int.le_refl _, .inl rfl⟩, ?_⟩
    rw [beq_iff_eq.1 hex, Nat.zero_mul, Nat.zero_add] at hfields
    rw [codeOf, Int.sub_self, Int.toNat_zero, Nat.zero_mul, Nat.zero_add]
    exact hfields
  · next hex =>
    have hex : ex ≠ 0 := fun h => hex (beq_iff_eq.2 h)
    cases h
    refine ⟨⟨by omega, by simp only [emin]; omega, .inr (by omega)⟩, ?_⟩
    obtain ⟨n, rfl⟩ := Nat.exists_eq_succ_of_ne_zero hex
    rw [codeOf, show (((n + 1 : Nat) : Int) - p.bias - p.fbits - (p.emin - p.fbits)).toNat = n by simp only [emin]; omega]
    rw [Nat.succ_mul] at hfields
    omega

/-! ## Packing -/

theorem log2_eq {m n : Nat} (h1 : 2 ^ n ≤ m) (h2 : m < 2 ^ (n + 1)) : m.log2 = n :=
  (Nat.log2_eq_iff (by have := Nat.two_pow_pos n; omega)).2 ⟨h1, h2⟩
/-- A mantissa that rounding has carried to 2^(fbits + 1) packs as the next exponent's least one. -/
theorem pack_eq {p : FpFmt} {m : Nat} {a : Int} (s : Bool) (hm : m ≤ 2 ^ (p.fbits + 1)) (ha : p.emin - p.fbits ≤ a)
    (hl : a = p.emin - p.fbits ∨ 2 ^ p.fbits ≤ m) : p.pack s m a = b2n s * 2 ^ (p.ebits + p.fbits) + p.codeOf m a := by
  have hpos : 0 < 2 ^ p.fbits := Nat.two_pow_pos _
  obtain ⟨n, hn⟩ : ∃ n : Nat, a = p.emin - p.fbits + n := ⟨(a - (p.emin - p.fbits)).toNat, by omega⟩
  have hcode : p.codeOf m a = n * 2 ^ p.fbits + m := by rw [codeOf, hn, show (p.emin - p.fbits + n - (p.emin - p.fbits)).toNat = n by omega]
  rw [hcode, pack, Nat.shiftLeft_eq]
  split
  · next h0 =>
    rw [h0, show n = 0 by omega, Nat.zero_mul]
    rfl
  dsimp only [Val.log2]
  rcases Nat.lt_or_ge m (2 ^ p.fbits) with hlt | hge
  · have hlog : m.log2 < p.fbits := (Nat.log2_lt (by omega)).2 hlt
    rw [if_pos (by omega), if_pos (by omega), show (p.emin - p.fbits - a).toNat = 0 by omega, show n = 0 by omega, Nat.zero_mul, Nat.zero_add,
      Nat.shiftRight_zero]
  · rcases Nat.lt_or_eq_of_le hm with hlt | heq
    · have hlog : m.log2 = p.fbits := log2_eq hge hlt
      rw [if_neg (by omega), if_pos (by omega), hlog, show ((p.fbits : Int) + a - p.fbits - a).toNat = 0 by omega,
        show ((p.fbits : Int) + a + p.bias).toNat = n + 1 by simp only [hn, emin]; omega, Nat.shiftLeft_eq, Nat.shiftRight_zero, Nat.succ_mul]
      omega
    · have hlog : m.log2 = p.fbits + 1 := heq ▸ Nat.log2_two_pow
      rw [if_neg (by omega), if_pos (by omega), hlog, show (((p.fbits + 1 : Nat) : Int) + a - p.fbits - a).toNat = 1 by omega,
        show (((p.fbits + 1 : Nat) : Int) + a + p.bias).toNat = n + 2 by simp only [hn, emin]; omega, Nat.shiftLeft_eq, heq,
        Nat.pow_succ, Nat.shiftRight_eq_div_pow, Nat.pow_one, Nat.mul_div_cancel _ (by omega), Nat.add_mul]
      omega

/-! ## The order of the magnitudes is that of the codes -/

theorem Normalized.value_le {p : FpFmt} {m m' : Nat} {a a' : Int} (h : p.Normalized m a) (h' : p.Normalized m' a')
    (hc : p.codeOf m a ≤ p.codeOf m' a') : geMag m' 1 a' m a := by
  have hlt := h.lt
  have hlt' := h'.lt
  have hle := h.le
  have hle' := h'.le
  rw [Nat.pow_succ] at hlt hlt'
  rcases Int.lt_trichotomy a a' with ha | rfl | ha
  · have hm' : 2 ^ p.fbits ≤ m' := h'.low.resolve_left (by omega)
    obtain ⟨k, hk⟩ := Int.le.dest ha
    have hle : m ≤ m' * 2 ^ (1 + k) := by
      rw [Nat.pow_add, ← Nat.mul_assoc]
      exact Nat.le_trans (by omega) (Nat.le_mul_of_pos_right (m' * 2 ^ 1) (Nat.two_pow_pos k))
    rw [← hk, Int.add_assoc, ← Int.natCast_one, ← Int.natCast_add]
    exact (eqMag_add_exp (1 + k)).ge.trans (geMag_same_exp.2 hle)
  · exact geMag_same_exp.2 (Nat.le_of_add_le_add_left hc)
  · have hm : 2 ^ p.fbits ≤ m := h.low.resolve_left (by omega)
    obtain ⟨n, hn⟩ : ∃ n : Nat, (a - (p.emin - p.fbits)).toNat = (a' - (p.emin - p.fbits)).toNat + 1 + n := ⟨(a - a' - 1).toNat, by omega⟩
    simp only [codeOf, hn, Nat.add_mul, Nat.one_mul] at hc
    omega
/-- A mantissa that is carried past fbits + 1 bits is that of a normal one exponent up. -/
theorem exists_normalized {p : FpFmt} {m : Nat} {a : Int} (hm : m ≤ 2 ^ (p.fbits + 1)) (ha : p.emin - p.fbits ≤ a)
    (hl : a = p.emin - p.fbits ∨ 2 ^ p.fbits ≤ m) : ∃ m' a', p.Normalized m' a' ∧ p.codeOf m' a' = p.codeOf m a ∧ eqMag m' 1 a' m a := by
  have hpos : 0 < 2 ^ p.fbits := Nat.two_pow_pos _
  rcases Nat.lt_or_eq_of_le hm with hlt | rfl
  · exact ⟨m, a, ⟨hlt, ha, hl⟩, rfl, eqMag_refl m a⟩
  · refine ⟨2 ^ p.fbits, a + (1 : Nat), ⟨by rw [Nat.pow_succ]; omega, by omega, .inr (Nat.le_refl _)⟩, ?_, eqMag_add_exp 1⟩
    rw [codeOf, codeOf, show (a + (1 : Nat) - (p.emin - p.fbits)).toNat = (a - (p.emin - p.fbits)).toNat + 1 by omega, Nat.succ_mul, Nat.pow_succ]
    omega
/-- The next code holds the next multiple of the unit. -/
theorem Normalized.value_succ {p : FpFmt} {m m' : Nat} {a b : Int} (h : p.Normalized m a) (h' : p.Normalized m' b)
    (hc : p.codeOf m' b = p.codeOf m a + 1) : eqMag m' 1 b (m + 1) a := by
  obtain ⟨m1, a1, h1, hc1, hv⟩ := exists_normalized (p := p) (m := m + 1) h.lt h.le (h.low.imp_right Nat.le_succ_of_le)
  rw [codeOf_succ] at hc1
  exact eqMag_of_ge ((h1.value_le h' (by omega)).trans hv.ge) (hv.symm.ge.trans (h'.value_le h1 (by omega)))
theorem beyond_iff (p : FpFmt) (k : Nat) (q : Int) : p.beyond k q = true ↔ ¬geMag p.topM 1 p.topE k q := by
  rw [geMag_iff (Int.min_le_right q p.topE) (Int.min_le_left q p.topE), Nat.one_mul, Nat.not_le, beyond, decide_eq_true_eq, Nat.shiftLeft_eq,
    Nat.shiftLeft_eq, inUnits, inUnits]

/-! ## Rounding into a format -/

variable {p : FpFmt} {md : Rounding} {num den m : Nat} {e a : Int}

/-- The rounding direction of a magnitude that lies from m to m + 1 units of 2^a. -/
def up (md : Rounding) (num den : Nat) (e : Int) (m : Nat) (a : Int) : Bool :=
  roundsUp md m (quantum num den e a).2.1 (quantum num den e a).2.2

theorem roundMag_of_ne_zero {f : Nat} {emin q : Int} (h : num ≠ 0) (hq : max (ratLog2 num den e) emin - f = q) :
    roundMag md f emin num den e = (if up md num den e (quantum num den e q).1 q then (quantum num den e q).1 + 1 else (quantum num den e q).1, q) := by
  subst hq
  exact if_neg h
theorem geMag_one_add (k : Nat) : geMag num den e 1 (k + a) ↔ geMag num den e (2 ^ k) a := by rw [Int.add_comm, geMag_add_exp, Nat.one_mul]
theorem roundMag_of_between (hd : 0 < den) (hn : p.Normalized m a) (h1 : geMag num den e m a) (h2 : ¬geMag num den e (m + 1) a) :
    roundMag md p.fbits p.emin num den e = (if up md num den e m a then m + 1 else m, a) := by
  have hfloor := quantum_eq_of_between hd h1 h2
  by_cases h0 : num = 0
  · have hq : (quantum num den e a).1 = 0 ∧ (quantum num den e a).2.1 = 0 := by
      rw [h0, quantum, Nat.zero_shiftLeft]
      exact ⟨Nat.zero_div _, Nat.zero_mod _⟩
    have hm : m = 0 := by omega
    have ha : a = p.emin - p.fbits := hn.low.resolve_right (by have := Nat.two_pow_pos p.fbits; omega)
    have hu : up md num den e m a = false := by
      rw [up, hq.2]
      exact roundsUp_no_rem md m (Nat.zero_lt_of_lt (quantum_rem_lt hd))
    rw [hu, roundMag, if_pos h0, hm, ha]
    rfl
  · have hq : max (ratLog2 num den e) p.emin - p.fbits = a := by
      have hle := hn.le
      have hhi : ¬(p.fbits + 1 : Nat) + a ≤ ratLog2 num den e := by
        rw [le_ratLog2_iff h0 hd, geMag_one_add]
        exact fun h => h2 (h.mono hn.lt)
      rcases hn.low with ha | hm
      · omega
      · have := (le_ratLog2_iff h0 hd _).2 ((geMag_one_add p.fbits).2 (h1.mono hm))
        omega
    rw [roundMag_of_ne_zero h0 hq, hfloor, up]
/-- A magnitude at or above m + 1 units rounds to no less than that. -/
theorem succ_le_roundMag (hd : 0 < den) (hn : p.Normalized m a) (h : geMag num den e (m + 1) a) :
    geMag (roundMag md p.fbits p.emin num den e).1 1 (roundMag md p.fbits p.emin num den e).2 (m + 1) a := by
  have h0 : num ≠ 0 := by
    rintro rfl
    rw [← le_quantum_iff hd, quantum, Nat.zero_shiftLeft, Nat.zero_div] at h
    omega
  obtain ⟨q, hq⟩ : ∃ q, max (ratLog2 num den e) p.emin - p.fbits = q := ⟨_, rfl⟩
  have hle := hn.le
  have hlt := hn.lt
  have hfloor : geMag (quantum num den e q).1 1 q (m + 1) a := by
    have haq : a ≤ q := by
      rcases hn.low with ha | hm
      · omega
      · have := (le_ratLog2_iff h0 hd _).2 ((geMag_one_add p.fbits).2 (h.mono (Nat.le_succ_of_le hm)))
        omega
    rcases Int.le_iff_eq_or_lt.1 haq with rfl | haq
    · exact geMag_same_exp.2 ((le_quantum_iff hd _).2 h)
    · have hk : 2 ^ p.fbits ≤ (quantum num den e q).1 := by
        rw [le_quantum_iff hd, ← geMag_one_add, ← le_ratLog2_iff h0 hd]
        omega
      obtain ⟨j, hj⟩ := Int.le.dest haq
      have hcarry : m + 1 ≤ (quantum num den e q).1 * 2 ^ (1 + j) := by
        rw [Nat.pow_succ] at hlt
        rw [Nat.pow_add, ← Nat.mul_assoc]
        exact Nat.le_trans (by omega) (Nat.le_mul_of_pos_right _ (Nat.two_pow_pos j))
      rw [show q = a + (1 + j : Nat) by omega] at hcarry ⊢
      exact (eqMag_add_exp (1 + j)).ge.trans (geMag_same_exp.2 hcarry)
  rw [roundMag_of_ne_zero h0 hq]
  refine (geMag_same_exp.2 ?_).trans hfloor
  dsimp only
  split
  · exact Nat.le_succ _
  · exact Nat.le_refl _

/-- Whether Table 02-6 has a magnitude out of range: under stochastic rounding it is tested before rounding (R49). -/
def outOfRange (p : FpFmt) (md : Rounding) (num den : Nat) (e : Int) : Bool :=
  (md.isStoch && exceeds num den e p.topM p.topE) ||
    p.beyond (roundMag md p.fbits p.emin num den e).1 (roundMag md p.fbits p.emin num den e).2

theorem outOfRange_eq_true : p.outOfRange md num den e = true ↔ (md.isStoch = true ∧ exceeds num den e p.topM p.topE = true) ∨
    p.beyond (roundMag md p.fbits p.emin num den e).1 (roundMag md p.fbits p.emin num den e).2 = true := by
  rw [outOfRange, Bool.or_eq_true, Bool.and_eq_true]
theorem outOfRange_of_succ_le (hd : 0 < den) (ht : p.Normalized p.topM p.topE) (h : geMag num den e (p.topM + 1) p.topE) :
    p.outOfRange md num den e = true := by
  refine outOfRange_eq_true.2 (.inr ((beyond_iff ..).2 fun hle => ?_))
  exact Nat.not_succ_le_self _ (geMag_same_exp.1 (hle.trans (succ_le_roundMag hd ht h)))
/-- Between two codes up to the largest one nothing is out of range. -/
theorem inRange_of_between (hd : 0 < den) (hn : p.Normalized m a) (h1 : geMag num den e m a) (h2 : ¬geMag num den e (m + 1) a)
    (htop : geMag p.topM 1 p.topE (m + 1) a) : p.outOfRange md num den e = false := by
  rw [← Bool.not_eq_true, outOfRange_eq_true, exceeds_iff hd, roundMag_of_between hd hn h1 h2, beyond_iff, not_or, Classical.not_not]
  refine ⟨fun hx => h2 (hx.2.ge.trans htop), htop.mono ?_⟩
  dsimp only
  split
  · exact Nat.le_refl _
  · exact Nat.le_succ _
/-- Above the largest magnitude and below the next multiple of its unit, the range ends at it before or after rounding. -/
theorem outOfRange_at_top (hd : 0 < den) (ht : p.Normalized p.topM p.topE) (h1 : geMag num den e p.topM p.topE)
    (h2 : ¬geMag num den e (p.topM + 1) p.topE) :
    p.outOfRange md num den e = true ↔ (md.isStoch = true ∧ gtMag num den e p.topM p.topE) ∨ up md num den e p.topM p.topE = true := by
  rw [outOfRange_eq_true, exceeds_iff hd, roundMag_of_between hd ht h1 h2, beyond_iff, geMag_same_exp]
  refine or_congr Iff.rfl ?_
  dsimp only
  split
  · next hu => exact ⟨fun _ => hu, fun _ => Nat.not_succ_le_self _⟩
  · next hu => exact ⟨fun h => absurd (Nat.le_refl _) h, fun h => absurd h hu⟩

end FpFmt

end Sys2Proof.Machine
end

section
/-! SUPPORT. The encodings of Table 02-6: what a binary format, an integer format and E8M0 write for a quotient (R50, R54). -/

namespace Sys2Proof.Machine

/-! ## Magnitudes in units of 2^g, over the denominator -/

variable {md : Rounding} {num den m : Nat} {e a g : Int}

theorem roundingOf.cases {f : Nat} (h : roundingOf f md) : md = .nearest ∨ ∃ w, md = .stoch w := h.imp_right fun ⟨_, w, _, h⟩ => ⟨w, h⟩
/-- Between m and m + 1 units of 2^a the encoder's rounding is the one of R50 and R54. -/
theorem up_iff_writesNext {c m' : Nat} {b : Int} (hmd : md = .nearest ∨ ∃ w, md = .stoch w) (hd : 0 < den) (he : g ≤ e) (ha : g ≤ a) (hb : g ≤ b)
    (hv : eqMag m' 1 b (m + 1) a) (h1 : geMag num den e m a) (h2 : ¬geMag num den e (m + 1) a) (hc : c % 2 = m % 2) :
    FpFmt.up md num den e m a = true ↔ writesNext md c (inUnits g num e) (den * inUnits g m a) (den * inUnits g m' b) := by
  obtain ⟨u, hu, hX, hA⟩ := quantum_units num den he ha
  rw [quantum_eq_of_between hd h1 h2] at hX
  rw [eqMag_iff hb ha, Nat.one_mul] at hv
  exact roundsUp_iff_writesNext hmd hu hX (hA m) (hv ▸ hA (m + 1)) hc

/-! ## Binary formats -/

/-- What Table 02-6 has a binary format write for a finite magnitude out of range, outside hot channels. -/
def overEnc (f : Nat) (sat bn s : Bool) : Enc :=
  if f == 8 || f == 9 || f == 10 then ⟨(fpOf f).topCode s, false, false, !bn, bn, false, bn⟩
  else if f == 4 || f == 6 then
    (if sat then ⟨(fpOf f).topCode s, false, false, true, false, false, false⟩ else ⟨if f == 4 || f == 6 then 127 + b2n s * 128 else (fpOf f).nanCode s, false, false, false, true, false, false⟩)
  else ⟨(fpOf f).infCode s, false, false, false, true, false, false⟩
theorem encFp_fin (f : Nat) (sat bn s : Bool) :
    encFp f md sat bn false (.fin s num den e) =
      let (k, u) := roundMag md (fpOf f).fbits (fpOf f).emin num den e
      if (fpOf f).outOfRange md num den e then overEnc f sat bn s
      else ⟨(fpOf f).pack s k u, k == 0, k != 0 && decide (Val.log2 k u < (fpOf f).emin), false, false, false, false⟩ := rfl
theorem encFp_of_outOfRange {f : Nat} (sat bn s : Bool) (h : (fpOf f).outOfRange md num den e = true) :
    encFp f md sat bn false (.fin s num den e) = overEnc f sat bn s := (encFp_fin f sat bn s).trans (if_pos h)
theorem encFp_of_inRange {f k : Nat} {u : Int} (sat bn s : Bool) (h : (fpOf f).outOfRange md num den e = false)
    (hr : roundMag md (fpOf f).fbits (fpOf f).emin num den e = (k, u)) :
    (encFp f md sat bn false (.fin s num den e)).code = (fpOf f).pack s k u ∧ (encFp f md sat bn false (.fin s num den e)).blockNan = false := by
  rw [encFp_fin, hr, h]
  exact ⟨rfl, rfl⟩

/-- What Table 02-6 gives a format, out of range and for infinities and NaNs, is what its encoder writes, and its largest finite code is
the one of its parameters. -/
structure FloatRow (sat : Bool) (f top out nan : Nat) : Prop where
  fbits_pos : 1 ≤ (fpOf f).fbits
  ebits_pos : 1 ≤ (fpOf f).ebits
  width : fmtWidth f - 1 = (fpOf f).ebits + (fpOf f).fbits
  top_lt : top < 2 ^ (fmtWidth f - 1)
  decode_top : (fpOf f).decode top = .fin false (fpOf f).topM (fpOf f).topE
  decode : ∀ c ≤ top, decodeElem f c = (fpOf f).decode c
  encode : ∀ md bn q, encodeElem f md sat bn false q = encFp f md sat bn false q
  nan_code : ∀ md bn s, (encFp f md sat bn false (.nan s)).code = nan + b2n s * 2 ^ (fmtWidth f - 1)
  inf_code : ∀ md bn s, (encFp f md sat bn false (.inf s)).code = out + b2n s * 2 ^ (fmtWidth f - 1)
  out_code : ∀ bn s, (overEnc f sat bn s).code = out + b2n s * 2 ^ (fmtWidth f - 1)
  out_block : ∀ bn s, (overEnc f sat bn s).blockNan = (bn && decide (8 ≤ f))

/-- F8A and MX8A read as E4M3 does, but for their NaN. -/
theorem decodeElem_e4m3 {f : Nat} (hf : f = 4 ∨ f = 6) {c : Nat} (hc : c ≤ 0x7E) : decodeElem f c = fmtE4M3.decode c := by
  have h : ¬(c % 128 == 127) = true := by rw [beq_iff_eq]; omega
  rcases hf with rfl | rfl <;> exact if_neg h
theorem decodeElem_float {sat : Bool} {y : Nat × Nat × Nat × Nat} (hy : y ∈ floatCodes sat) : ∀ c ≤ y.2.1, decodeElem y.1 c = (fpOf y.1).decode c := by
  simp only [floatCodes, List.mem_cons, List.not_mem_nil, or_false] at hy
  intro c hc
  rcases hy with rfl | rfl | rfl | rfl | rfl | rfl | rfl | rfl | rfl | rfl | rfl
  case inr.inr.inr.inr.inl => exact decodeElem_e4m3 (.inl rfl) hc
  case inr.inr.inr.inr.inr.inr.inl => exact decodeElem_e4m3 (.inr rfl) hc
  all_goals rfl
theorem floatRow {sat : Bool} {y : Nat × Nat × Nat × Nat} (hy : y ∈ floatCodes sat) : FloatRow sat y.1 y.2.1 y.2.2.1 y.2.2.2 := by
  have hdec := decodeElem_float hy
  cases sat
  all_goals
    simp only [floatCodes, List.mem_cons, List.not_mem_nil, or_false] at hy
    rcases hy with rfl | rfl | rfl | rfl | rfl | rfl | rfl | rfl | rfl | rfl | rfl
  all_goals
    exact ⟨by decide, by decide, rfl, by decide, rfl, hdec, fun _ _ _ => rfl, fun _ _ s => by cases s <;> rfl, fun _ bn s => by cases bn <;> cases s <;> rfl,
      by decide +kernel, by decide +kernel⟩

namespace FloatRow

variable {sat : Bool} {f top out nan : Nat}

/-- A code up to the largest one reads as its mantissa and exponent. -/
theorem fin (h : FloatRow sat f top out nan) {c m : Nat} {a : Int} (hc : c ≤ top) (hv : decodeElem f c = .fin false m a) :
    (fpOf f).Normalized m a ∧ c = (fpOf f).codeOf m a := by
  have hlt := h.top_lt
  rw [h.width] at hlt
  have hn := FpFmt.decode_fin h.fbits_pos h.ebits_pos (by rw [Nat.pow_succ]; omega) (h.decode c hc ▸ hv)
  rw [show b2n false = 0 from rfl, Nat.zero_mul, Nat.zero_add] at hn
  exact hn
theorem top_fin (h : FloatRow sat f top out nan) : (fpOf f).Normalized (fpOf f).topM (fpOf f).topE ∧ top = (fpOf f).codeOf (fpOf f).topM (fpOf f).topE :=
  h.fin (Nat.le_refl _) ((h.decode top (Nat.le_refl _)).trans h.decode_top)
theorem topM_eq (h : FloatRow sat f top out nan) {m : Nat} {a : Int} (hv : decodeElem f top = .fin false m a) : m = (fpOf f).topM ∧ a = (fpOf f).topE := by
  have := hv.symm.trans ((h.decode top (Nat.le_refl _)).trans h.decode_top)
  cases this
  exact ⟨rfl, rfl⟩
/-- A magnitude from m to m + 1 units that is in range is written as the code of m or as the next one. -/
theorem code_of_between (h : FloatRow sat f top out nan) (bn s : Bool) (hd : 0 < den) (hn : (fpOf f).Normalized m a)
    (h1 : geMag num den e m a) (h2 : ¬geMag num den e (m + 1) a) (hr : (fpOf f).outOfRange md num den e = false) :
    let x := encodeElem f md sat bn false (.fin s num den e)
    x.blockNan = false ∧
      x.code = (if FpFmt.up md num den e m a then (fpOf f).codeOf m a + 1 else (fpOf f).codeOf m a) + b2n s * 2 ^ (fmtWidth f - 1) := by
  intro x
  obtain ⟨hcode, hb⟩ := encFp_of_inRange sat bn s hr (FpFmt.roundMag_of_between hd hn h1 h2)
  rw [show x = _ from h.encode md bn _]
  refine ⟨hb, hcode.trans ?_⟩
  have hm := hn.lt
  rw [h.width, ← FpFmt.codeOf_succ]
  split
  · rw [FpFmt.pack_eq s hm hn.le (hn.low.imp_right (by omega)), Nat.add_comm]
  · rw [FpFmt.pack_eq s (Nat.le_of_lt hm) hn.le hn.low, Nat.add_comm]

end FloatRow

end Sys2Proof.Machine
end

section
/-! SUPPORT. Table 02-6 between two codes, at the largest one and beyond, in the integer formats and in E8M0 (R50, R54); R41. -/

namespace Sys2Proof.Machine

variable {md : Rounding} {num den m : Nat} {e a : Int}

theorem not_writesNext_self {c A B : Nat} (h : A < B) : ¬writesNext md c A A B := by
  cases md <;> simp only [writesNext, Nat.sub_self, Nat.mul_zero, Nat.zero_div] <;> omega
theorem writesNext_of_le {c X A B : Nat} (h : A < B) (hX : B ≤ X) : writesNext .nearest c X A B := .inl (by omega)

namespace FloatRow

variable {sat : Bool} {f top out nan : Nat}

/-- R50, R54: from the magnitude of a code up to that of the next one. -/
theorem writes_between (h : FloatRow sat f top out nan) (bn s : Bool) (hmd : roundingOf f md) (hd : 0 < den) {c m' : Nat} {b : Int} (hc : c + 1 ≤ top)
    (hv : decodeElem f c = .fin false m a) (hv' : decodeElem f (c + 1) = .fin false m' b) :
    let x := encodeElem f md sat bn false (.fin s num den e)
    let g := min e (min a b); let X := inUnits g num e; let A := den * inUnits g m a; let B := den * inUnits g m' b
    A ≤ X → X < B → x.blockNan = false ∧ (writesNext md c X A B → x.code = c + 1 + b2n s * 2 ^ (fmtWidth f - 1)) ∧
      (¬writesNext md c X A B → x.code = c + b2n s * 2 ^ (fmtWidth f - 1)) := by
  intro x g X A B hA hB
  have he : g ≤ e := by omega
  have ha : g ≤ a := by omega
  have hb : g ≤ b := by omega
  obtain ⟨hn, hcode⟩ := h.fin (by omega) hv
  obtain ⟨hn', hcode'⟩ := h.fin hc hv'
  obtain ⟨htn, htop⟩ := h.top_fin
  have hval := hn.value_succ hn' (by omega)
  have h1 := (geMag_iff he ha).2 hA
  have h2 : ¬geMag num den e (m + 1) a := by
    rw [← hval.geMag_iff, geMag_iff he hb, Nat.not_le]
    exact hB
  have hr := FpFmt.inRange_of_between (md := md) hd hn h1 h2 ((hn'.value_le htn (by omega)).trans hval.ge)
  obtain ⟨hblock, hx⟩ := h.code_of_between bn s hd hn h1 h2 hr
  have hup := up_iff_writesNext hmd.cases hd he ha hb hval h1 h2 (hcode ▸ FpFmt.codeOf_mod_two h.fbits_pos m a)
  rw [← hcode] at hx
  refine ⟨hblock, fun hw => ?_, fun hw => ?_⟩
  · exact hx.trans (by rw [if_pos (hup.2 hw)])
  · exact hx.trans (by rw [if_neg (mt hup.1 hw)])
theorem writes_out (h : FloatRow sat f top out nan) (bn s : Bool) (hr : (fpOf f).outOfRange md num den e = true) :
    let x := encodeElem f md sat bn false (.fin s num den e)
    x.code = out + b2n s * 2 ^ (fmtWidth f - 1) ∧ x.blockNan = (bn && decide (8 ≤ f)) := by
  intro x
  rw [show x = _ from (h.encode md bn _).trans (encFp_of_outOfRange sat bn s hr)]
  exact ⟨h.out_code bn s, h.out_block bn s⟩
/-- R49, R50: from the largest finite magnitude on. -/
theorem writes_from_top (h : FloatRow sat f top out nan) (bn s : Bool) (hmd : roundingOf f md) (hd : 0 < den) (hv : decodeElem f top = .fin false m a) :
    let x := encodeElem f md sat bn false (.fin s num den e)
    let g := min e a; let X := inUnits g num e; let A := den * inUnits g m a; let B := den * inUnits g (m + 1) a
    A ≤ X → ((md = .nearest ∧ ¬writesNext md top X A B) ∨ X = A → x.code = top + b2n s * 2 ^ (fmtWidth f - 1) ∧ x.blockNan = false) ∧
      (¬((md = .nearest ∧ ¬writesNext md top X A B) ∨ X = A) →
        x.code = out + b2n s * 2 ^ (fmtWidth f - 1) ∧ x.blockNan = (bn && decide (8 ≤ f))) := by
  intro x g X A B hA
  have he : g ≤ e := by omega
  have ha : g ≤ a := by omega
  obtain ⟨rfl, rfl⟩ := h.topM_eq hv
  obtain ⟨hn, hcode⟩ := h.top_fin
  have h1 := (geMag_iff he ha).2 hA
  have hAX : gtMag num den e (fpOf f).topM (fpOf f).topE ↔ A < X := gtMag_iff he ha
  have hAB : A < B := Nat.mul_lt_mul_of_pos_left (inUnits_lt (Nat.lt_succ_self _)) hd
  have hself : X = A → ¬writesNext md top X A B := fun h => by rw [h]; exact not_writesNext_self hAB
  rcases Nat.lt_or_ge X B with hB | hB
  · have h2 : ¬geMag num den e ((fpOf f).topM + 1) (fpOf f).topE := by
      rw [geMag_iff he ha, Nat.not_le]
      exact hB
    have hup := up_iff_writesNext (c := top) hmd.cases hd he ha ha (eqMag_refl _ _) h1 h2
      (by rw [hcode]; exact FpFmt.codeOf_mod_two h.fbits_pos _ _)
    have hout : (fpOf f).outOfRange md num den e = true ↔ ¬((md = .nearest ∧ ¬writesNext md top X A B) ∨ X = A) := by
      rw [FpFmt.outOfRange_at_top hd hn h1 h2, hAX, hup]
      rcases hmd.cases with rfl | ⟨w, rfl⟩
      · simp only [Rounding.isStoch, Bool.false_eq_true, false_and, false_or, true_and, not_or, Classical.not_not]
        exact ⟨fun hw => ⟨hw, fun he => hself he hw⟩, And.left⟩
      · simp only [Rounding.isStoch, true_and, reduceCtorEq, false_and, false_or]
        constructor
        · rintro (h | h) heq
          · omega
          · exact hself heq h
        · exact fun h => .inl (by omega)
    refine ⟨fun hw => ?_, fun hw => ?_⟩
    · have hr : (fpOf f).outOfRange md num den e = false := by rw [← Bool.not_eq_true, hout]; exact Classical.not_not.2 hw
      obtain ⟨hb, hx⟩ := h.code_of_between bn s hd hn h1 h2 hr
      have hnup : ¬FpFmt.up md num den e (fpOf f).topM (fpOf f).topE = true := fun hu =>
        Bool.eq_false_iff.1 hr ((FpFmt.outOfRange_at_top hd hn h1 h2).2 (.inr hu))
      rw [if_neg hnup, ← hcode] at hx
      exact ⟨hx, hb⟩
    · exact h.writes_out bn s (hout.2 hw)
  · have hr : (fpOf f).outOfRange md num den e = true := FpFmt.outOfRange_of_succ_le hd hn ((geMag_iff he ha).2 hB)
    refine ⟨?_, fun _ => h.writes_out bn s hr⟩
    rintro (⟨rfl, hw⟩ | heq)
    · exact absurd (writesNext_of_le hAB hB) hw
    · omega

end FloatRow

/-! ## Integer formats -/

/-- The code of an integer format of w bits for a magnitude of k steps, held within hi above zero and lo below it. -/
def intCode (w hi lo : Nat) (s : Bool) (k : Nat) : Nat := if s then (2 ^ w - min k lo) % 2 ^ w else min k hi

theorem twos_ofNat {w k : Nat} (h : k < 2 ^ w) : twos w k = k := by
  rw [twos, ← Int.natCast_emod, Int.toNat_natCast, Nat.mod_eq_of_lt h]
theorem twos_neg {w k : Nat} (h : k ≤ 2 ^ w) : twos w (-k) = (2 ^ w - k) % 2 ^ w := by
  have hsub : -(k : Int) + (2 ^ w : Nat) = (2 ^ w - k : Nat) := by omega
  rw [twos, ← Int.add_emod_right, hsub, ← Int.natCast_emod, Int.toNat_natCast]
theorem roundInt_eq : roundInt md num den e =
    if FpFmt.up md num den e (quantum num den e 0).1 0 then (quantum num den e 0).1 + 1 else (quantum num den e 0).1 := rfl
theorem roundInt_of_between (hd : 0 < den) {j : Int} {k : Nat} (h1 : geMag num den e k (-j)) (h2 : ¬geMag num den e (k + 1) (-j)) :
    roundInt md num den (e + j) = if FpFmt.up md num den e k (-j) then k + 1 else k := by
  have hq : quantum num den (e + j) 0 = quantum num den e (-j) := by rw [← quantum_add num den e (-j) j, Int.add_left_neg]
  rw [roundInt_eq, FpFmt.up, hq, quantum_eq_of_between hd h1 h2, FpFmt.up]
/-- R50 in I8 and I32: a magnitude above `top` is held at `lo` or `hi`. -/
theorem encInt_code {w hi lo top : Nat} (s : Bool) (hhi : hi < 2 ^ w) (hlo : lo ≤ 2 ^ w) (hpos : 0 < lo) (htop : lo ≤ top + 1) :
    (encInt w (-lo) hi top (.fin s num den e)).code = intCode w hi lo s (roundInt .nearest num den e) := by
  simp only [encInt, intCode, Bool.or_eq_true, decide_eq_true_eq]
  generalize roundInt .nearest num den e = k
  cases s
  · simp only [Bool.false_eq_true, if_false]
    rw [if_neg (by omega)]
    split
    · rw [twos_ofNat hhi, Nat.min_eq_right (by omega)]
    · rw [Nat.min_eq_left (by omega), twos_ofNat (by omega)]
  · simp only [if_true]
    split
    · rw [twos_neg hlo, Nat.min_eq_right (by omega)]
    · rw [if_neg (by omega), Nat.min_eq_left (by omega), twos_neg (by omega)]
/-- R50 in MXI8: under stochastic rounding a magnitude above 127 steps is out of range before it is rounded (R49). -/
theorem encMxi8_code (s : Bool) : (encMxi8 md (.fin s num den e)).code =
    intCode 8 127 127 s (if md.isStoch && exceeds num den (e + 6) 127 0 then 128 else roundInt md num den (e + 6)) := by
  simp only [encMxi8, intCode]
  generalize (if md.isStoch && exceeds num den (e + 6) 127 0 then 128 else roundInt md num den (e + 6)) = k
  split
  · exact congrArg (fun j => if s then (2 ^ 8 - j) % 2 ^ 8 else j) (show 127 = min k 127 by omega)
  · rw [Nat.min_eq_left (by omega)]
    cases s
    · exact twos_ofNat (by omega)
    · exact twos_neg (by omega)
theorem encMxi8_code_of_between (s : Bool) (hd : 0 < den) {k : Nat} (h1 : geMag num den e k (-6)) (h2 : ¬geMag num den e (k + 1) (-6)) :
    (encMxi8 md (.fin s num den e)).code = intCode 8 127 127 s (if FpFmt.up md num den e k (-6) then k + 1 else k) := by
  rw [encMxi8_code, ← roundInt_of_between hd h1 h2]
  split
  · next hbig =>
    rw [Bool.and_eq_true, exceeds_iff hd, show (0 : Int) = -6 + 6 from rfl, gtMag_add_both] at hbig
    have hk : 127 ≤ k := Nat.not_lt.1 fun h => h2 (hbig.2.ge.mono h)
    have hr : 127 ≤ roundInt md num den (e + 6) := by
      rw [roundInt_of_between hd h1 h2]; split <;> omega
    rw [intCode, intCode, Nat.min_eq_right hr]
    rfl
  · rfl

/-! ## E8M0 -/

theorem encE8m0_code (s : Bool) (h : num ≠ 0) : (encE8m0 (.fin s num den e)).code = (min (max (ratLog2 num den e + 127) 0) 254).toNat := by
  simp only [encE8m0, h, if_false]
  split
  · dsimp only; omega
  split
  · dsimp only; omega
  · dsimp only; omega

end Sys2Proof.Machine
end

section
/-! SUPPORT. The integer formats of Table 02-6, magnitudes that a format holds, R41, block scales, F32 steps (R76, R127) and the
generator of R55. -/

namespace Sys2Proof.Machine

variable {md : Rounding} {num den m : Nat} {e a : Int}

theorem integer_code_of_between {y : Nat × Nat × Int × Nat × Nat} (hy : y ∈ integerCodes) (sat bn s : Bool) (hmd : roundingOf y.1 md) (hd : 0 < den)
    {k : Nat} (h1 : geMag num den e k y.2.2.1) (h2 : ¬geMag num den e (k + 1) y.2.2.1) :
    (encodeElem y.1 md sat bn false (.fin s num den e)).code =
      intCode y.2.1 y.2.2.2.1 y.2.2.2.2 s (if FpFmt.up md num den e k y.2.2.1 then k + 1 else k) := by
  simp only [integerCodes, List.mem_cons, List.not_mem_nil, or_false] at hy
  have nearest (h : srFmt y.1 = false) : md = .nearest := hmd.resolve_right fun ⟨h', _⟩ => Bool.eq_false_iff.1 h h'
  rcases hy with rfl | rfl | rfl
  case inl => exact encMxi8_code_of_between s hd h1 h2
  all_goals
    obtain rfl := nearest rfl
    have hround := roundInt_of_between (md := .nearest) (j := 0) hd h1 h2
    rw [Int.add_zero] at hround
  · exact (encInt_code (w := 8) (lo := 128) (hi := 127) (top := 127) s (by decide) (by decide) (by decide) (by decide)).trans (congrArg _ hround)
  · exact (encInt_code (w := 32) (lo := 2 ^ 31) (hi := 2 ^ 31 - 1) (top := 2 ^ 31) s (by decide) (by decide) (by decide) (by decide)).trans
      (congrArg _ hround)
/-- R50, R54 in the integer formats. -/
theorem integer_writes {y : Nat × Nat × Int × Nat × Nat} (hy : y ∈ integerCodes) (sat bn s : Bool) (hmd : roundingOf y.1 md) (hd : 0 < den) (k : Nat) :
    let x := encodeElem y.1 md sat bn false (.fin s num den e)
    let put := intCode y.2.1 y.2.2.2.1 y.2.2.2.2 s
    let g := min e y.2.2.1; let X := inUnits g num e; let A := den * inUnits g k y.2.2.1; let B := den * inUnits g (k + 1) y.2.2.1
    A ≤ X → X < B → (writesNext md k X A B → x.code = put (k + 1)) ∧ (¬writesNext md k X A B → x.code = put k) := by
  intro x put g X A B hA hB
  have he : g ≤ e := by omega
  have ha : g ≤ y.2.2.1 := by omega
  have h1 := (geMag_iff he ha).2 hA
  have h2 : ¬geMag num den e (k + 1) y.2.2.1 := by
    rw [geMag_iff he ha, Nat.not_le]
    exact hB
  have hx := integer_code_of_between hy sat bn s hmd hd h1 h2
  have hup := up_iff_writesNext (c := k) hmd.cases hd he ha ha (eqMag_refl _ _) h1 h2 rfl
  refine ⟨fun hw => ?_, fun hw => ?_⟩
  · exact hx.trans (by rw [if_pos (hup.2 hw)])
  · exact hx.trans (by rw [if_neg (mt hup.1 hw)])
theorem integer_inf_code {y : Nat × Nat × Int × Nat × Nat} (hy : y ∈ integerCodes) (sat bn s : Bool) :
    (encodeElem y.1 md sat bn false (.inf s)).code = intCode y.2.1 y.2.2.2.1 y.2.2.2.2 s (2 ^ y.2.1) := by
  simp only [integerCodes, List.mem_cons, List.not_mem_nil, or_false] at hy
  rcases hy with rfl | rfl | rfl <;> cases s <;> rfl
theorem integer_nan_code {y : Nat × Nat × Int × Nat × Nat} (hy : y ∈ integerCodes) (sat bn s : Bool) :
    (y.1 = 11 → (encodeElem y.1 md sat bn false (.nan s)).code = intCode y.2.1 y.2.2.2.1 y.2.2.2.2 s (2 ^ y.2.1)) ∧
      (y.1 ≠ 11 → (encodeElem y.1 md sat bn false (.nan s)).code = 0) := by
  simp only [integerCodes, List.mem_cons, List.not_mem_nil, or_false] at hy
  rcases hy with rfl | rfl | rfl
  · exact ⟨fun _ => by cases s <;> rfl, fun h => absurd rfl h⟩
  · exact ⟨fun h => absurd h (by decide), fun _ => rfl⟩
  · exact ⟨fun h => absurd h (by decide), fun _ => rfl⟩
/-- R50: E8M0 takes the exponent, truncated. -/
theorem e8m0_writes (sat bn s : Bool) (hd : 0 < den) (k : Int) :
    let g := min e k; let X := inUnits g num e; let A := den * inUnits g 1 k
    A ≤ X → X < 2 * A → (encodeElem 14 md sat bn false (.fin s num den e)).code = (min (max (k + 127) 0) 254).toNat := by
  intro g X A hA hB
  have he : g ≤ e := by omega
  have hk : g ≤ k := by omega
  have h1 : geMag num den e 1 k := (geMag_iff he hk).2 hA
  have h2 : ¬geMag num den e 2 k := by
    rw [geMag_iff he hk, Nat.not_le, show den * inUnits g 2 k = 2 * A by simp only [A, inUnits, Nat.one_mul, Nat.mul_left_comm]]
    exact hB
  have h0 : num ≠ 0 := by
    rintro rfl
    rw [← le_quantum_iff hd, quantum, Nat.zero_shiftLeft, Nat.zero_div] at h1
    omega
  rw [← ratLog2_eq_of_bounds h0 hd h1 h2]
  exact encE8m0_code s h0

/-! ## Magnitudes that a format holds -/

namespace FpFmt

variable {p : FpFmt}

theorem up_exact (hd : 0 < den) (hx : eqMag num den e m a) : up md num den e m a = false := by
  have hr := quantum_rem_lt (num := num) (e := e) (q := a) hd
  obtain ⟨u, hu, hX, hA⟩ := quantum_units num den (Int.min_le_left e a) (Int.min_le_right e a)
  unfold eqMag at hx
  rw [hx, hA, quantum_eq_of_between hd (eqMag.ge hx) (not_geMag_succ_of_eqMag hd hx)] at hX
  have h0 : (quantum num den e a).2.1 = 0 := by
    have := Nat.eq_of_mul_eq_mul_left hu hX
    omega
  rw [up, h0]
  exact roundsUp_no_rem md m (by omega)
theorem roundMag_exact (hd : 0 < den) (hn : p.Normalized m a) (hx : eqMag num den e m a) : roundMag md p.fbits p.emin num den e = (m, a) := by
  rw [roundMag_of_between hd hn hx.ge (not_geMag_succ_of_eqMag hd hx), up_exact hd hx]
  rfl
theorem inRange_exact (hd : 0 < den) (hn : p.Normalized m a) (hx : eqMag num den e m a) (ht : geMag p.topM 1 p.topE m a) :
    p.outOfRange md num den e = false := by
  rw [← Bool.not_eq_true, outOfRange_eq_true, exceeds_iff hd, roundMag_exact hd hn hx, beyond_iff, not_or, Classical.not_not]
  exact ⟨fun h => h.2.not_ge_of_eq hx ht, ht⟩
theorem decode_inf {c : Nat} {s : Bool} (hf : 1 ≤ p.fbits) (he : 1 ≤ p.ebits) (hc : c < 2 ^ (p.ebits + p.fbits + 1)) (h : p.decode c = .inf s) :
    c = p.infCode s := by
  have hfields := code_fields c p.fbits p.ebits
  rw [Nat.add_comm p.ebits] at hc
  rw [← bit_sign hc] at hfields
  simp only [decode, fld_frac hf, fld_exponent he] at h
  split at h
  · next hex =>
    simp only [Bool.and_eq_true, beq_iff_eq] at hex
    split at h
    · next h0 =>
      cases h
      rw [hex.2, beq_iff_eq.1 h0, Nat.add_zero] at hfields
      rw [infCode, Nat.shiftLeft_eq, Nat.shiftLeft_eq, Nat.add_comm p.ebits]
      exact hfields
    · cases h
  · split at h <;> cases h

end FpFmt

/-- A format's code for a magnitude it holds. -/
theorem FloatRow.code_exact {sat : Bool} {f top out nan : Nat} (h : FloatRow sat f top out nan) (bn s : Bool) (hn : (fpOf f).Normalized m a)
    (ht : (fpOf f).codeOf m a ≤ top) (hd : 0 < den) (hx : eqMag num den e m a) :
    (encodeElem f md sat bn false (.fin s num den e)).code = (fpOf f).codeOf m a + b2n s * 2 ^ (fmtWidth f - 1) := by
  obtain ⟨htn, htop⟩ := h.top_fin
  have hr := FpFmt.inRange_exact (md := md) hd hn hx (hn.value_le htn (by omega))
  rw [(h.code_of_between bn s hd hn hx.ge (not_geMag_succ_of_eqMag hd hx) hr).2, FpFmt.up_exact hd hx]
  rfl

/-! ## R41 -/

/-- A value in X48, its fraction lengthened by 16 bits. -/
def Val.toX48 : Val → Val
  | .fin s m e => .fin s (m * 2 ^ 16) (e - 16)
  | v => v
theorem Val.toX48_eq (v : Val) (h : v.isNaN = false) : Val.eq v.toX48 v = true := by
  cases v with
  | fin s m e =>
    have hs : scaled s (m * 2 ^ 16) (e - 16) (min (e - 16) e) = scaled s m e (min (e - 16) e) := by
      simp only [scaled, Nat.shiftLeft_eq]
      rw [show (e - 16 - min (e - 16) e).toNat = 0 by omega, show (e - min (e - 16) e).toNat = 16 by omega, Nat.pow_zero, Nat.mul_one]
    rw [toX48, Val.eq, cmp, hs]
    exact beq_iff_eq.2 (congrArg some (Std.ReflOrd.compare_self))
  | inf s => cases s <;> rfl
  | nan s => cases h
theorem decode_f32_eq (c : Nat) : fmtF32.decode c =
    if fld c 30 23 == 255 then (if fld c 22 0 == 0 then .inf (bit c 31) else .nan (bit c 31))
    else if fld c 30 23 == 0 then .fin (bit c 31) (fld c 22 0) (-149)
    else .fin (bit c 31) (fld c 22 0 + 2 ^ 23) ((fld c 30 23 : Int) - 127 - 23) := rfl
theorem decode_x48_eq (c : Nat) : fmtX48.decode c =
    if fld c 46 39 == 255 then (if fld c 38 0 == 0 then .inf (bit c 47) else .nan (bit c 47))
    else if fld c 46 39 == 0 then .fin (bit c 47) (fld c 38 0) (-165)
    else .fin (bit c 47) (fld c 38 0 + 2 ^ 39) ((fld c 46 39 : Int) - 127 - 39) := rfl
theorem decode_x48_shift (n : Nat) : fmtX48.decode (n * 2 ^ 16) = (fmtF32.decode n).toX48 := by
  have hfrac : fld (n * 2 ^ 16) 38 0 = fld n 22 0 * 2 ^ 16 := by simp only [fld, Nat.shiftRight_eq_div_pow]; omega
  have hexp : fld (n * 2 ^ 16) 46 39 = fld n 30 23 := by simp only [fld, Nat.shiftRight_eq_div_pow]; omega
  have hsign : bit (n * 2 ^ 16) 47 = bit n 31 := by simp only [bit, fld, Nat.shiftRight_eq_div_pow]; congr 1; omega
  have hzero : (fld n 22 0 * 2 ^ 16 == 0) = (fld n 22 0 == 0) := by rw [Bool.eq_iff_iff, beq_iff_eq, beq_iff_eq]; omega
  rw [decode_f32_eq, decode_x48_eq, hfrac, hexp, hsign, hzero]
  split
  · split <;> rfl
  split
  · rfl
  · simp only [Val.toX48, Val.fin.injEq, true_and]
    omega
theorem decode_f32_fin {n m : Nat} {s : Bool} {a : Int} (hn : n < 2 ^ 32) (h : fmtF32.decode n = .fin s m a) :
    fmtF32.Normalized m a ∧ n = b2n s * 2 ^ 31 + fmtF32.codeOf m a ∧ fmtF32.codeOf m a ≤ 0x7F7FFFFF := by
  obtain ⟨hnorm, hc⟩ := FpFmt.decode_fin (p := fmtF32) (by decide) (by decide) hn h
  refine ⟨hnorm, hc, ?_⟩
  rw [decode_f32_eq] at h
  split at h
  · split at h <;> cases h
  · next hex =>
    have hs : b2n s = n / 2 ^ 31 := by
      split at h <;> (cases h; exact FpFmt.bit_sign hn)
    have hc' : n = b2n s * 2 ^ 31 + fmtF32.codeOf m a := hc
    rw [beq_iff_eq, fld, Nat.shiftRight_eq_div_pow] at hex
    omega
theorem normalized_toX48 {m : Nat} {a : Int} (h : fmtF32.Normalized m a) : fmtX48.Normalized (m * 2 ^ 16) (a - 16) := by
  obtain ⟨hlt, hle, hlow⟩ := h
  simp only [show fmtF32.fbits = 23 from rfl, show fmtF32.emin = -126 from rfl] at hlt hle hlow
  refine ⟨?_, ?_, ?_⟩ <;> simp only [show fmtX48.fbits = 39 from rfl, show fmtX48.emin = -126 from rfl] <;> omega
theorem codeOf_toX48 (m : Nat) (a : Int) : fmtX48.codeOf (m * 2 ^ 16) (a - 16) = fmtF32.codeOf m a * 2 ^ 16 := by
  have h0 : a - 16 - (fmtX48.emin - fmtX48.fbits) = a - (fmtF32.emin - fmtF32.fbits) := by
    rw [show fmtX48.emin - fmtX48.fbits = -165 from rfl, show fmtF32.emin - fmtF32.fbits = -149 from rfl]; omega
  rw [FpFmt.codeOf, FpFmt.codeOf, h0, show fmtX48.fbits = fmtF32.fbits + 16 from rfl, Nat.pow_add, Nat.add_mul, Nat.mul_assoc]
/-- R41: the encoding in X48 is the one in F32 with 16 zero fraction bits appended. -/
theorem encode_x48_of_f32 {n : Nat} (hn : n < 2 ^ 32) (h : (fmtF32.decode n).isNaN = false) :
    (encodeElem 1 .nearest false false false (fmtF32.decode n).quo).code = n * 2 ^ 16 := by
  cases hv : fmtF32.decode n with
  | nan s => rw [hv] at h; cases h
  | inf s =>
    rw [FpFmt.decode_inf (p := fmtF32) (by decide) (by decide) hn hv]
    cases s <;> rfl
  | fin s m a =>
    obtain ⟨hnorm, hc, htop⟩ := decode_f32_fin hn hv
    have hrow : FloatRow false 1 0x7F7FFFFFFFFF 0x7F8000000000 0x7FC000000000 := floatRow (y := (1, _, _, _)) (by simp [floatCodes])
    have hnorm' := normalized_toX48 hnorm
    have hcode := codeOf_toX48 m a
    have hmag : eqMag m 1 a (m * 2 ^ 16) (a - 16) := by
      have := eqMag_add_exp (m := m) (a := a - 16) 16
      rwa [show a - 16 + (16 : Nat) = a by omega] at this
    have hx := hrow.code_exact (md := .nearest) false s hnorm' (show fmtX48.codeOf _ _ ≤ _ by omega) Nat.one_pos hmag
    refine hx.trans ?_
    rw [show (fpOf 1).codeOf _ _ = _ from hcode, hc, show fmtWidth 1 - 1 = 31 + 16 from rfl, Nat.pow_add, ← Nat.mul_assoc, ← Nat.add_mul,
      Nat.add_comm]

/-! ## Block scales -/

/-- The scale of a block of one element: FFh when the element makes it a NaN. -/
theorem block_scale_of_blockNan {f key st c0 : Nat} {sr sat bn : Bool} {x : Elem}
    (h : ∀ md, ∀ sc : Nat, (encodeElem f md sat bn false (scaleQuo x.v (.fin false 1 (sc - 127)))).blockNan = true) :
    (convert ⟨f, 5, sr, sat, bn⟩ [0] [] [] key st c0 [x]).scales = [(0, 255)] := by
  simp [convert, groupsOf, h, groupScale, Tab.get?]

/-- R50: a NaN in an MX format that has none makes its block a NaN. -/
theorem block_scale_nan {f : Nat} (hf : f ∈ [8, 9, 10, 11]) (sr sat bn s o : Bool) (key st c0 : Nat) :
    (convert ⟨f, 5, sr, sat, bn⟩ [0] [] [] key st c0 [⟨.nan s, o⟩]).scales = [(0, 255)] := by
  refine block_scale_of_blockNan fun md sc => ?_
  simp only [List.mem_cons, List.not_mem_nil, or_false] at hf
  rcases hf with rfl | rfl | rfl | rfl <;> rfl
/-- R50: under BLOCKNAN so does an infinity. -/
theorem block_scale_inf {f : Nat} (hf : f ∈ [8, 9, 10]) (sr sat s o : Bool) (key st c0 : Nat) :
    (convert ⟨f, 5, sr, sat, true⟩ [0] [] [] key st c0 [⟨.inf s, o⟩]).scales = [(0, 255)] := by
  refine block_scale_of_blockNan fun md sc => ?_
  simp only [List.mem_cons, List.not_mem_nil, or_false] at hf
  rcases hf with rfl | rfl | rfl <;> rfl

/-! ## F32 steps -/

/-- An F32 step on finite values encodes its exact result once rounded. -/
theorem to32_roundIeee (s : Bool) (num den : Nat) (e : Int) :
    (roundIeee fmtF32 .nearest (.fin s num den e)).pos.to32 = BitVec.ofNat 32 (encodeElem 0 .nearest false false false (.fin s num den e)).code := by
  rw [show encodeElem 0 .nearest false false false (.fin s num den e) = _ from encFp_fin 0 false false s]
  have h : fmtF32.outOfRange .nearest num den e = fmtF32.beyond (roundMag .nearest fmtF32.fbits fmtF32.emin num den e).1
    (roundMag .nearest fmtF32.fbits fmtF32.emin num den e).2 := Bool.false_or _
  simp only [roundIeee, fpOf, h]
  split
  · rfl
  · rfl
theorem add_fin (s t : Bool) (m n : Nat) (e f : Int) : Val.add (.fin s m e) (.fin t n f) =
    let i := Val.scaled s m e (min e f) + Val.scaled t n f (min e f)
    if i = 0 then .fin (s && t) 0 0 else .fin (decide (i < 0)) i.natAbs (min e f) := rfl
theorem addF_to32 (s t : Bool) (m n : Nat) (e f : Int) :
    let i := Val.scaled s m e (min e f) + Val.scaled t n f (min e f)
    let f32 (q : Quo) : BitVec 32 := BitVec.ofNat 32 (encodeElem 0 .nearest false false false q).code
    (i ≠ 0 → (Val.addF (.fin s m e) (.fin t n f)).to32 = f32 (.fin (decide (i < 0)) i.natAbs 1 (min e f))) ∧
      (i = 0 → (Val.addF (.fin s m e) (.fin t n f)).to32 = f32 (.fin (s && t) 0 1 0)) := by
  intro i f32
  refine ⟨fun h => ?_, fun h => ?_⟩
  · rw [Val.addF, add_fin, if_neg h]
    exact to32_roundIeee ..
  · rw [Val.addF, add_fin, if_pos h]
    exact to32_roundIeee ..
theorem mulF_to32 (s t : Bool) (m n : Nat) (e f : Int) : (Val.mulF (.fin s m e) (.fin t n f)).to32 =
    BitVec.ofNat 32 (encodeElem 0 .nearest false false false (.fin (s != t) (m * n) 1 (e + f))).code := to32_roundIeee ..
theorem divF_to32 (s t : Bool) (m : Nat) {n : Nat} (e f : Int) (h : n ≠ 0) : (Val.divF (.fin s m e) (.fin t n f)).to32 =
    BitVec.ofNat 32 (encodeElem 0 .nearest false false false (.fin (s != t) m n (e - f))).code := by
  rw [Val.divF, Val.divBy, if_neg h]
  exact to32_roundIeee ..

/-! ## The generator -/

/-- R55 in 64-bit words. -/
def srWord (K : BitVec 64) (s : Nat) (c : BitVec 64) : BitVec 64 :=
  let k := K ^^^ (BitVec.ofNat 64 s * 0xD6E8FEB86659FD93)
  let v := k + c * 0x9E3779B97F4A7C15
  let v := (v ^^^ (v >>> 30)) * 0xBF58476D1CE4E5B9
  let v := (v ^^^ (v >>> 27)) * 0x94D049BB133111EB
  v ^^^ (v >>> 31)
theorem m64_mul_toNat (V C : BitVec 64) : m64 (V.toNat * C.toNat) = (V * C).toNat := rfl
theorem xor_shift_toNat (V : BitVec 64) (n : Nat) : Nat.xor V.toNat (V.toNat >>> n) = (V ^^^ (V >>> n)).toNat := by
  rw [BitVec.toNat_xor, BitVec.toNat_ushiftRight]; rfl
theorem srGen_eq_srWord (K c : BitVec 64) (s : Nat) : srGen K.toNat s c.toNat = (srWord K s c).toNat := by
  have hs : m64 (s * 0xd6e8feb86659fd93) = (BitVec.ofNat 64 s * 0xD6E8FEB86659FD93).toNat := by
    rw [BitVec.toNat_mul, BitVec.toNat_ofNat, Nat.mod_mul_mod]; rfl
  have hk : Nat.xor K.toNat (BitVec.ofNat 64 s * 0xD6E8FEB86659FD93).toNat = (K ^^^ (BitVec.ofNat 64 s * 0xD6E8FEB86659FD93)).toNat :=
    (BitVec.toNat_xor ..).symm
  have hc (k : BitVec 64) : m64 (k.toNat + c.toNat * 0x9e3779b97f4a7c15) = (k + c * 0x9E3779B97F4A7C15).toNat := by
    rw [BitVec.toNat_add, BitVec.toNat_mul, Nat.add_mod_mod]; rfl
  have h1 (v : BitVec 64) : m64 (v.toNat * 0xbf58476d1ce4e5b9) = (v * 0xBF58476D1CE4E5B9).toNat := m64_mul_toNat v 0xBF58476D1CE4E5B9
  have h2 (v : BitVec 64) : m64 (v.toNat * 0x94d049bb133111eb) = (v * 0x94D049BB133111EB).toNat := m64_mul_toNat v 0x94D049BB133111EB
  simp only [srGen, srWord, hs, hk, hc, xor_shift_toNat, h1, h2]
theorem srDraw_eq_srWord (K c0 : BitVec 64) (s i : Nat) :
    srDraw K.toNat s c0.toNat i = ((srWord K s (c0 + BitVec.ofNat 64 (i / 4)) >>> (16 * (i % 4))).setWidth 16).toNat := by
  have hc : m64 (c0.toNat + i / 4) = (c0 + BitVec.ofNat 64 (i / 4)).toNat := by simp [m64, BitVec.toNat_add]
  rw [srDraw, hc, srGen_eq_srWord]
  simp only [fld, BitVec.toNat_setWidth, BitVec.toNat_ushiftRight]
  congr 2
  omega

end Sys2Proof.Machine
end

section
/-! SUPPORT. The value of a chunk of products (R74, R75, R77). -/

namespace Sys2Proof.Machine

/-- The products of a chunk with the padding that a short one gets (R77). -/
def padded (ps : List Val) : List Val := if ps.length < 32 then ps ++ [Val.zero] else ps
/-- The value of a chunk of finite products, of the greatest exponent given. -/
def chunkFinite (ps : List Val) : Option Int → Fl
  | none => .of (.fin (ps.all Val.sign) 0 0)
  | some e =>
    let sum := ps.foldl (fun a p => a + aligned (e - 27) p) (0 : Int)
    let r := if sum = 0 then Val.zero else (Val.fin (decide (sum < 0)) sum.natAbs (e - 27)).r32
    ⟨r, r.isInf⟩
theorem chunk_eq (ps : List Val) : chunk ps =
    if (padded ps).any Val.isNaN then .of Val.qnan
    else if (padded ps).contains (.inf false) && (padded ps).contains (.inf true) then .of Val.qnan
    else if (padded ps).contains (.inf false) then .of (.inf false)
    else if (padded ps).contains (.inf true) then .of (.inf true)
    else chunkFinite (padded ps) (maxExp (padded ps)) := by
  unfold chunk chunkFinite
  rfl

theorem mem_padded {ps : List Val} {v : Val} (h : v ∈ padded ps) : v ∈ ps ∨ v = .zero := by
  unfold padded at h
  split at h
  · simpa using h
  · exact .inl h
theorem mem_padded_of_mem {ps : List Val} {v : Val} (h : v ∈ ps) : v ∈ padded ps := by
  unfold padded
  split
  · exact List.mem_append_left _ h
  · exact h
theorem padded_any_isNaN (ps : List Val) : (padded ps).any Val.isNaN = true ↔ ∃ s, Val.nan s ∈ ps := by
  rw [List.any_eq_true]
  constructor
  · rintro ⟨v, hv, hn⟩
    cases v with
    | nan s => exact ⟨s, (mem_padded hv).resolve_right (by simp [Val.zero])⟩
    | inf s => cases hn
    | fin s m e => cases hn
  · exact fun ⟨s, hs⟩ => ⟨.nan s, mem_padded_of_mem hs, rfl⟩
theorem padded_contains_inf (ps : List Val) (s : Bool) : (padded ps).contains (.inf s) = true ↔ Val.inf s ∈ ps := by
  rw [List.contains_iff_mem]
  exact ⟨fun h => (mem_padded h).resolve_right (by simp [Val.zero]), mem_padded_of_mem⟩

/-- R74: a NaN, or infinities of both signs. -/
theorem chunk_nan {ps : List Val} (h : (∃ s, Val.nan s ∈ ps) ∨ (Val.inf true ∈ ps ∧ Val.inf false ∈ ps)) : (chunk ps).v = .qnan := by
  rw [chunk_eq]
  split
  · rfl
  · next hn =>
    rw [padded_any_isNaN] at hn
    obtain ⟨ht, hf⟩ := h.resolve_left hn
    rw [if_pos (by simp only [Bool.and_eq_true, padded_contains_inf]; exact ⟨hf, ht⟩)]
    rfl
/-- R74: infinities of one sign. -/
theorem chunk_inf {ps : List Val} {s : Bool} (hn : ¬∃ s, Val.nan s ∈ ps) (h : Val.inf s ∈ ps) (h' : Val.inf (!s) ∉ ps) : (chunk ps).v = .inf s := by
  rw [← padded_any_isNaN] at hn
  rw [← padded_contains_inf] at h h'
  rw [chunk_eq, if_neg hn]
  cases s
  · simp only [Bool.not_false, Bool.not_eq_true] at h'
    simp only [h, h', Bool.true_and, Bool.false_eq_true, if_false, if_true]
    rfl
  · simp only [Bool.not_true, Bool.not_eq_true] at h'
    simp only [h, h', Bool.false_and, Bool.false_eq_true, if_false, if_true]
    rfl
/-- Finite products reach the aligned sum. -/
theorem chunk_of_finite {ps : List Val} (h : ∀ v ∈ ps, v.isFinite = true) : chunk ps = chunkFinite (padded ps) (maxExp (padded ps)) := by
  have hn : ¬(padded ps).any Val.isNaN = true := by
    rw [padded_any_isNaN]
    exact fun ⟨s, hs⟩ => absurd (h _ hs) Bool.false_ne_true
  have hi (s : Bool) : ¬(padded ps).contains (.inf s) = true := by
    rw [padded_contains_inf]
    exact fun hs => absurd (h _ hs) Bool.false_ne_true
  rw [chunk_eq, if_neg hn, if_neg (by simp only [Bool.and_eq_true, not_and]; exact fun h => absurd h (hi false)), if_neg (hi false), if_neg (hi true)]

/-! ## The greatest exponent -/

/-- The greater of an exponent and that of a product. -/
def maxExpStep (a : Option Int) (p : Val) : Option Int :=
  match a, expOf p with
  | some x, some y => some (Max.max x y)
  | none, y => y
  | x, none => x
theorem maxExp_eq_foldl (ps : List Val) : maxExp ps = ps.foldl maxExpStep none := rfl
theorem maxExpStep_none {a : Option Int} {p : Val} (h : expOf p = none) : maxExpStep a p = a := by
  unfold maxExpStep
  rw [h]
  cases a <;> rfl
theorem maxExp_of_zeros {ps : List Val} (h : ∀ p ∈ ps, expOf p = none) : maxExp ps = none := by
  rw [maxExp_eq_foldl]
  induction ps with
  | nil => rfl
  | cons p ps ih =>
    rw [List.foldl_cons, maxExpStep_none (h p List.mem_cons_self)]
    exact ih fun q hq => h q (List.mem_cons_of_mem _ hq)
theorem foldl_maxExpStep {top : Int} (ps : List Val) (a : Option Int) (ha : ∀ x, a = some x → x ≤ top) (hle : ∀ p ∈ ps, ∀ y, expOf p = some y → y ≤ top)
    (hex : a = some top ∨ ∃ p ∈ ps, expOf p = some top) : ps.foldl maxExpStep a = some top := by
  induction ps generalizing a with
  | nil => simpa using hex
  | cons p ps ih =>
    rw [List.foldl_cons]
    have hp := hle p List.mem_cons_self
    have hps := fun q hq => hle q (List.mem_cons_of_mem p hq)
    cases he : expOf p with
    | none =>
      rw [maxExpStep_none he]
      refine ih a ha hps (hex.imp_right fun ⟨q, hq, hqe⟩ => ?_)
      rcases List.mem_cons.1 hq with rfl | hq
      · simp [he] at hqe
      · exact ⟨q, hq, hqe⟩
    | some y =>
      have hy := hp y he
      obtain ⟨z, hz, hzt, hz'⟩ : ∃ z, maxExpStep a p = some z ∧ z ≤ top ∧ (a = some top ∨ y = top → z = top) := by
        unfold maxExpStep
        rw [he]
        cases a with
        | none => exact ⟨y, rfl, hy, by simp⟩
        | some x => exact ⟨max x y, rfl, Int.max_le.2 ⟨ha x rfl, hy⟩, by have := ha x rfl; simp only [Option.some.injEq]; omega⟩
      rw [hz]
      refine ih _ (by simpa using hzt) hps ?_
      rcases hex with h | ⟨q, hq, hqe⟩
      · exact .inl (congrArg some (hz' (.inl h)))
      · rcases List.mem_cons.1 hq with rfl | hq
        · exact .inl (congrArg some (hz' (.inr (by simpa [he] using hqe))))
        · exact .inr ⟨q, hq, hqe⟩
theorem expOf_of_isZero {v : Val} (h : v.isZero = true) : expOf v = none := by
  cases v with
  | fin s m e => exact if_pos (by simpa [Val.isZero] using h)
  | inf s => cases h
  | nan s => cases h

/-! ## The sum -/

/-- A finite product in units of 2^q, truncated toward zero (R75). -/
def truncated (q : Int) : Val → Int
  | .fin s m e =>
    let t : Int := (m * 2 ^ (e - q).toNat / 2 ^ (q - e).toNat : Nat)
    if s then -t else t
  | _ => 0
theorem aligned_eq_truncated (q : Int) (v : Val) : aligned q v = truncated q v := by
  cases v with
  | fin s m e =>
    have h : (if q ≤ e then m <<< (e - q).toNat else m >>> (q - e).toNat) = m * 2 ^ (e - q).toNat / 2 ^ (q - e).toNat := by
      split
      · next h => simp [Nat.shiftLeft_eq, show (q - e).toNat = 0 by omega]
      · next h => simp [Nat.shiftRight_eq_div_pow, show (e - q).toNat = 0 by omega]
    simp only [aligned, truncated, h]
  | inf s => rfl
  | nan s => rfl
theorem foldl_aligned (q : Int) (ps : List Val) : (padded ps).foldl (fun a p => a + aligned q p) 0 = (ps.map (truncated q)).sum := by
  have h : ∀ l : List Val, l.foldl (fun a p => a + aligned q p) 0 = (l.map (truncated q)).sum := fun l => by
    rw [List.sum_eq_foldl, List.foldl_map]
    simp only [aligned_eq_truncated]
  rw [h]
  unfold padded
  split
  · have h0 : truncated q .zero = 0 := by simp [truncated, Val.zero]
    simp [h0]
  · rfl

/-- R74, R77: a chunk of zeros, padding being +0. -/
theorem chunk_zero {ps : List Val} (hlen : ps.length ≤ 32) (h : ∀ v ∈ ps, v.isZero = true) :
    (chunk ps).v = .fin (decide (ps.length = 32) && ps.all Val.sign) 0 0 := by
  have hz : ∀ v ∈ padded ps, v.isZero = true := fun v hv => (mem_padded hv).elim (h v) fun h => h ▸ rfl
  have hfin : ∀ v ∈ ps, v.isFinite = true := fun v hv => by
    have := h v hv
    cases v with
    | fin s m e => rfl
    | inf s => cases this
    | nan s => cases this
  rw [chunk_of_finite hfin, maxExp_of_zeros fun v hv => expOf_of_isZero (hz v hv)]
  have hsign : (padded ps).all Val.sign = (decide (ps.length = 32) && ps.all Val.sign) := by
    unfold padded
    split
    · next hl => rw [decide_eq_false (by omega)]; simp [Val.sign, Val.zero]
    · next hl => rw [decide_eq_true (by omega)]; rfl
  exact congrArg (Val.fin · 0 0) hsign
/-- R75: the aligned sum, rounded once. -/
theorem chunk_sum {ps : List Val} {s : Bool} {m : Nat} {e : Int} (hfin : ∀ v ∈ ps, v.isFinite = true) (hmem : Val.fin s m e ∈ ps) (hm : m ≠ 0)
    (htop : ∀ t n f, Val.fin t n f ∈ ps → n ≠ 0 → Val.log2 n f ≤ Val.log2 m e) :
    let q := Val.log2 m e - 27
    let sum := (ps.map (truncated q)).sum
    (chunk ps).v = if sum = 0 then .zero else (Val.fin (decide (sum < 0)) sum.natAbs q).r32 := by
  intro q sum
  have hmax : maxExp (padded ps) = some (Val.log2 m e) := by
    rw [maxExp_eq_foldl]
    refine foldl_maxExpStep _ _ (by simp) (fun p hp y hy => ?_) (.inr ⟨_, mem_padded_of_mem hmem, if_neg hm⟩)
    rcases mem_padded hp with hp | rfl
    · cases p with
      | fin t n f =>
        by_cases hn : n = 0
        · simp [expOf, hn] at hy
        · simp only [expOf, hn, if_false, Option.some.injEq] at hy
          exact hy ▸ htop t n f hp hn
      | inf t => cases hy
      | nan t => cases hy
    · cases hy
  rw [chunk_of_finite hfin, hmax]
  simp only [chunkFinite, foldl_aligned]
  rfl

end Sys2Proof.Machine
end

section
/-! SUPPORT. Cutting a list into pieces, and the tree over them (R78). -/

namespace Sys2Proof.Machine

section pieces

variable {α β : Type}

theorem cdiv_of_pos {n k : Nat} (hn : 0 < n) (hk : 0 < k) : cdiv k n = cdiv (k - n) n + 1 := by
  unfold cdiv
  rw [← Nat.add_div_right _ hn]
  rcases Nat.lt_or_ge k n with h | h
  · rw [show k - n + n - 1 + n = n - 1 + n by omega, Nat.add_div_right _ hn, Nat.div_eq_of_lt (by omega : n - 1 < n)]
    exact Nat.div_eq_of_lt_le (by omega) (by omega)
  · congr 1; omega
theorem piecesGo_eq_map {n : Nat} (hn : 0 < n) (k : Nat) (l : List α) (h : l.length ≤ n * k) :
    piecesGo n k l = (List.range (cdiv l.length n)).map fun i => (l.drop (n * i)).take n := by
  have hnil : cdiv (List.length ([] : List α)) n = 0 := Nat.div_eq_of_lt (by simp; omega)
  induction k generalizing l with
  | zero =>
    obtain rfl : l = [] := List.eq_nil_of_length_eq_zero (by simpa using h)
    rw [hnil]; rfl
  | succ k ih =>
    rw [piecesGo]
    split
    · next he =>
      obtain rfl := List.isEmpty_iff.1 he
      rw [hnil]; rfl
    · next he =>
      have hpos : 0 < l.length := List.length_pos_iff.2 fun h => he (by simp [h])
      rw [ih _ (by rw [List.length_drop]; rw [Nat.mul_succ] at h; omega), List.length_drop, cdiv_of_pos hn hpos, List.range_succ_eq_map]
      simp [List.drop_drop, Nat.mul_add, Nat.add_comm, Function.comp_def]
/-- Piece i holds the elements from n * i on. -/
theorem pieces_eq_map {n : Nat} (hn : 0 < n) (l : List α) :
    pieces n l = (List.range (cdiv l.length n)).map fun i => (l.drop (n * i)).take n :=
  piecesGo_eq_map hn _ l (by rw [Nat.mul_add, Nat.mul_one]; exact Nat.le_of_lt (Nat.lt_mul_div_succ _ hn))
theorem length_pieces {n : Nat} (hn : 0 < n) (l : List α) : (pieces n l).length = cdiv l.length n := by simp [pieces_eq_map hn]
/-- A cut at a multiple of n cuts no piece. -/
theorem pieces_split {n j : Nat} (hn : 0 < n) (l : List α) (h : n * j ≤ l.length) :
    pieces n l = pieces n (l.take (n * j)) ++ pieces n (l.drop (n * j)) := by
  have hj : cdiv (n * j) n = j := by
    unfold cdiv
    exact Nat.div_eq_of_lt_le (by rw [Nat.mul_comm]; omega) (by rw [Nat.succ_mul, Nat.mul_comm]; omega)
  have hk : cdiv l.length n = j + cdiv (l.length - n * j) n := by
    unfold cdiv
    rw [Nat.add_comm j, ← Nat.add_mul_div_left _ _ hn]; congr 1; omega
  rw [pieces_eq_map hn, pieces_eq_map hn, pieces_eq_map hn, List.length_take, List.length_drop, Nat.min_eq_left h, hj, hk, List.range_add, List.map_append,
    List.map_map]
  congr 1
  · refine List.map_congr_left fun i hi => ?_
    have : n * i + n ≤ n * j := by rw [← Nat.mul_succ]; exact Nat.mul_le_mul_left n (List.mem_range.1 hi)
    rw [List.drop_take, List.take_take, Nat.min_eq_left (by omega)]
  · refine List.map_congr_left fun i _ => ?_
    simp only [Function.comp, List.drop_drop, Nat.mul_add]
theorem pieces_append {n j : Nat} (hn : 0 < n) (l l' : List α) (h : l.length = n * j) : pieces n (l ++ l') = pieces n l ++ pieces n l' := by
  rw [pieces_split (j := j) hn (l ++ l') (by rw [List.length_append]; omega), List.take_left' h, List.drop_left' h]
theorem pieces_of_length_le {n : Nat} {l : List α} (hl : 0 < l.length) (h : l.length ≤ n) : pieces n l = [l] := by
  have h1 : cdiv l.length n = 1 := Nat.div_eq_of_lt_le (by omega) (by omega)
  simp [pieces_eq_map (by omega : 0 < n), h1, List.take_of_length_le h]

end pieces

section tree

variable {α : Type} {f : α → α → α}

theorem pairUp_append (j : Nat) (l l' : List α) (h : l.length = 2 * j) : pairUp f (l ++ l') = pairUp f l ++ pairUp f l' := by
  induction j generalizing l with
  | zero =>
    obtain rfl : l = [] := List.eq_nil_of_length_eq_zero (by omega)
    rfl
  | succ j ih =>
    match l, h with
    | a :: b :: t, h =>
      simp only [List.cons_append, pairUp]
      rw [ih t (by simp only [List.length_cons] at h; omega)]
theorem length_pairUp (l : List α) : (pairUp f l).length = (l.length + 1) / 2 := by
  fun_induction pairUp f l with
  | case1 a b t ih => simp only [List.length_cons, ih]; omega
  | case2 l h =>
    match l, h with
    | [], _ => simp
    | [_], _ => simp
    | a :: b :: t, h => exact absurd rfl (h a b t)
theorem treeGo_append (h j : Nat) (l l' : List α) (hl : l.length = 2 ^ h * j) : treeGo f h (l ++ l') = treeGo f h l ++ treeGo f h l' := by
  induction h generalizing l l' with
  | zero => rfl
  | succ h ih =>
    rw [Nat.pow_succ, Nat.mul_comm (2 ^ h), Nat.mul_assoc] at hl
    simp only [treeGo]
    rw [pairUp_append _ l l' hl, ih _ _ (by rw [length_pairUp]; omega)]
theorem treeGo_add (h k : Nat) (l : List α) : treeGo f (h + k) l = treeGo f k (treeGo f h l) := by
  induction h generalizing l with
  | zero => rw [Nat.zero_add]; rfl
  | succ h ih => rw [Nat.succ_add]; exact ih _
theorem treeGo_singleton (k : Nat) (a : α) : treeGo f k [a] = [a] := by
  induction k with
  | zero => rfl
  | succ k ih => exact ih
/-- A row of at most 2^h nodes has one root at height h. -/
theorem treeGo_root {h : Nat} {l : List α} (hpos : 0 < l.length) (hl : l.length ≤ 2 ^ h) : ∃ a, treeGo f h l = [a] := by
  induction h generalizing l with
  | zero => exact List.length_eq_one_iff.1 (by simp at hl; exact Nat.le_antisymm hl hpos)
  | succ h ih =>
    rw [Nat.pow_succ] at hl
    exact ih (by rw [length_pairUp]; omega) (by rw [length_pairUp]; omega)
theorem treeOf_of_root {h : Nat} {l : List α} {a : α} (hpos : 0 < l.length) (hr : treeGo f h l = [a]) : treeOf f l = some a := by
  obtain ⟨b, hb⟩ := treeGo_root (f := f) hpos (Nat.le_of_lt (Nat.lt_log2_self (n := l.length)))
  have hab : a = b := by
    rcases Nat.le_total h (l.length.log2 + 1) with hle | hle
    · obtain ⟨k, hk⟩ := Nat.le.dest hle
      rw [← hk, treeGo_add, hr, treeGo_singleton] at hb
      simpa using hb
    · obtain ⟨k, rfl⟩ := Nat.le.dest hle
      rw [treeGo_add, hb, treeGo_singleton] at hr
      simpa using hr.symm
  rw [treeOf, hb, hab]
  rfl
/-- R78: the left child of the root holds the greatest power of two of leaves that leaves some to the right one. -/
theorem treeOf_split {h : Nat} {l : List α} (h1 : 2 ^ h < l.length) (h2 : l.length ≤ 2 ^ (h + 1)) :
    ∃ a b, treeOf f (l.take (2 ^ h)) = some a ∧ treeOf f (l.drop (2 ^ h)) = some b ∧ treeOf f l = some (f a b) := by
  have hpow := Nat.two_pow_pos h
  have hlt : (l.take (2 ^ h)).length = 2 ^ h := by rw [List.length_take]; omega
  have hld : (l.drop (2 ^ h)).length = l.length - 2 ^ h := List.length_drop
  rw [Nat.pow_succ] at h2
  obtain ⟨a, ha⟩ := treeGo_root (f := f) (h := h) (l := l.take (2 ^ h)) (by omega) (by omega)
  obtain ⟨b, hb⟩ := treeGo_root (f := f) (h := h) (l := l.drop (2 ^ h)) (by omega) (by omega)
  refine ⟨a, b, treeOf_of_root (by omega) ha, treeOf_of_root (by omega) hb, treeOf_of_root (h := h + 1) (by omega) ?_⟩
  rw [treeGo_add, ← List.take_append_drop (2 ^ h) l, treeGo_append h 1 _ _ (by omega), ha, hb]
  rfl

end tree

end Sys2Proof.Machine
end

section
/-! SUPPORT. Canonical sums (R78): adding the padding of a span once is adding it as often as it stands, and the tree over spans. -/

namespace Sys2Proof.Machine

/-! ## Values that F32 holds -/

namespace FpFmt

variable {p : FpFmt} {md : Rounding} {num den : Nat} {e : Int}

/-- The magnitude m * 2^a is one that the format holds. -/
def Holds (p : FpFmt) (m : Nat) (a : Int) : Prop := ∃ m' a', p.Normalized m' a' ∧ eqMag m 1 a m' a' ∧ geMag p.topM 1 p.topE m' a'

/-- What rounding gives is a multiple of its unit within one of the format's binades. -/
theorem roundMag_bounds (hd : 0 < den) : (roundMag md p.fbits p.emin num den e).1 ≤ 2 ^ (p.fbits + 1) ∧
    p.emin - p.fbits ≤ (roundMag md p.fbits p.emin num den e).2 ∧
    ((roundMag md p.fbits p.emin num den e).2 = p.emin - p.fbits ∨ 2 ^ p.fbits ≤ (roundMag md p.fbits p.emin num den e).1) := by
  by_cases h0 : num = 0
  · rw [roundMag, if_pos h0]
    exact ⟨Nat.zero_le _, Int.le_refl _, .inl rfl⟩
  obtain ⟨q, hq⟩ : ∃ q, max (ratLog2 num den e) p.emin - p.fbits = q := ⟨_, rfl⟩
  rw [roundMag_of_ne_zero h0 hq]
  have hlt : (quantum num den e q).1 < 2 ^ (p.fbits + 1) := by
    rw [← Nat.not_le, le_quantum_iff hd, ← geMag_one_add, ← le_ratLog2_iff h0 hd]
    omega
  have hlow : q = p.emin - p.fbits ∨ 2 ^ p.fbits ≤ (quantum num den e q).1 := by
    rcases Int.le_total (ratLog2 num den e) p.emin with h | h
    · exact .inl (by omega)
    · rw [le_quantum_iff hd, ← geMag_one_add, ← le_ratLog2_iff h0 hd]
      omega
  refine ⟨?_, by omega, hlow.imp_right fun h => ?_⟩
  · dsimp only; split <;> omega
  · dsimp only; split <;> omega

end FpFmt

/-- An infinity, a NaN, or a finite value that F32 holds. -/
def Val.InF32 : Val → Prop
  | .fin _ m e => fmtF32.Holds m e
  | _ => True
theorem zero_inF32 (s : Bool) (e : Int) : (Val.fin s 0 e).InF32 :=
  by
  have h0 (g a : Int) : inUnits g 0 a = 0 := Nat.zero_mul _
  refine ⟨0, fmtF32.emin - fmtF32.fbits, ⟨by decide, Int.le_refl _, .inl rfl⟩, ?_, ?_⟩
  · rw [eqMag, h0, h0]
  · rw [geMag, h0]
    exact Nat.zero_le _
theorem roundIeee_fin (f : FpFmt) (md : Rounding) (s : Bool) (num den : Nat) (e : Int) : roundIeee f md (.fin s num den e) =
    let (k, q) := roundMag md f.fbits f.emin num den e
    if f.beyond k q then .inf s else .fin s k q := rfl
theorem roundIeee_inF32 {md : Rounding} {s : Bool} {num den : Nat} {e : Int} (hd : 0 < den) : (roundIeee fmtF32 md (.fin s num den e)).InF32 := by
  obtain ⟨h1, h2, h3⟩ := FpFmt.roundMag_bounds (p := fmtF32) (md := md) (num := num) (e := e) hd
  obtain ⟨m', a', hn, -, hv⟩ := FpFmt.exists_normalized h1 h2 h3
  rw [roundIeee_fin]
  dsimp only
  split
  · trivial
  · next hb =>
    rw [FpFmt.beyond_iff, Classical.not_not] at hb
    exact ⟨m', a', hn, hv.symm, hb.trans hv.symm.ge⟩
theorem pos_inF32 {v : Val} (h : v.InF32) : v.pos.InF32 := by
  cases v with
  | fin s m e => exact h
  | inf s => trivial
  | nan s => trivial
theorem r32_inF32 (v : Val) : v.r32.InF32 := by
  cases v with
  | fin s m e => exact roundIeee_inF32 Nat.one_pos
  | inf s => trivial
  | nan s => trivial
theorem chunk_inF32 (ps : List Val) : (chunk ps).v.InF32 := by
  rw [chunk_eq]
  split
  · trivial
  split
  · trivial
  split
  · trivial
  split
  · trivial
  unfold chunkFinite
  split
  · exact zero_inF32 _ 0
  · dsimp only
    split
    · exact zero_inF32 _ 0
    · exact r32_inF32 _
theorem foldl_add_inF32 (l : List Fl) (x : Fl) (h : x.v.InF32) : (l.foldl Fl.add x).v.InF32 := by
  induction l generalizing x with
  | nil => exact h
  | cons y l ih => exact ih _ (pos_inF32 (r32_inF32 _))

/-! ## Adding +0 -/

theorem roundIeee_exact {md : Rounding} {s : Bool} {num den m : Nat} {e a : Int} (hd : 0 < den) (hn : fmtF32.Normalized m a)
    (hx : eqMag num den e m a) (ht : geMag fmtF32.topM 1 fmtF32.topE m a) : roundIeee fmtF32 md (.fin s num den e) = .fin s m a := by
  rw [roundIeee_fin, FpFmt.roundMag_exact hd hn hx]
  exact if_neg (by rw [FpFmt.beyond_iff, Classical.not_not]; exact ht)
theorem scaled_zero (t : Bool) (f g : Int) : Val.scaled t 0 f g = 0 := by
  rw [Val.scaled, Nat.zero_shiftLeft]
  cases t <;> rfl
theorem addF_zero_eq {s : Bool} {m : Nat} {e : Int} (hm : m ≠ 0) :
    Val.addF (.fin s m e) .zero = (roundIeee fmtF32 .nearest (.fin s (m <<< (e - min e 0).toNat) 1 (min e 0))).pos := by
  have hpos : 0 < m <<< (e - min e 0).toNat := by
    rw [Nat.shiftLeft_eq]
    exact Nat.mul_pos (Nat.pos_of_ne_zero hm) (Nat.two_pow_pos _)
  rw [Val.addF, Val.zero, add_fin, scaled_zero, Int.add_zero]
  unfold Val.scaled
  generalize m <<< (e - min e 0).toNat = n at hpos ⊢
  cases s
  · simp only [Bool.false_eq_true, if_false]
    rw [if_neg (by omega), Int.natAbs_natCast, decide_eq_false (by omega)]
    rfl
  · simp only [if_true]
    rw [if_neg (by omega), Int.natAbs_neg, Int.natAbs_natCast, decide_eq_true (by omega)]
    rfl
/-- Adding +0 to a nonzero value that F32 holds writes it with its own mantissa and exponent. -/
theorem addF_zero_of_fin {s : Bool} {m m' : Nat} {e a : Int} (hm : m ≠ 0) (hn : fmtF32.Normalized m' a) (hv : eqMag m 1 e m' a)
    (ht : geMag fmtF32.topM 1 fmtF32.topE m' a) : Val.addF (.fin s m e) .zero = .fin s m' a := by
  have hx : eqMag (m <<< (e - min e 0).toNat) 1 (min e 0) m' a := by
    have := eqMag_add_exp (m := m) (a := min e 0) (e - min e 0).toNat
    rw [← Nat.shiftLeft_eq, show min e 0 + ((e - min e 0).toNat : Int) = e by omega] at this
    exact eqMag_of_ge (this.symm.ge.trans hv.ge) (hv.symm.ge.trans this.ge)
  rw [addF_zero_eq hm, roundIeee_exact Nat.one_pos hn hx ht]
  rfl
theorem addF_zero_zero (s : Bool) (e : Int) : Val.addF (.fin s 0 e) .zero = .fin false 0 (-149) := by
  rw [Val.addF, Val.zero, add_fin, scaled_zero, scaled_zero, Bool.and_false]
  rfl
theorem addF_zero_idem {v : Val} (h : v.InF32) : Val.addF (Val.addF v .zero) .zero = Val.addF v .zero := by
  cases v with
  | inf s => rfl
  | nan s => rfl
  | fin s m e =>
    by_cases hm : m = 0
    · rw [hm, addF_zero_zero, addF_zero_zero]
    · obtain ⟨m', a, hn, hv, ht⟩ := h
      have hm' : m' ≠ 0 := by
        rintro rfl
        unfold eqMag inUnits at hv
        rw [Nat.zero_mul, Nat.mul_zero] at hv
        exact Nat.ne_of_gt (Nat.mul_pos (Nat.pos_of_ne_zero hm) (Nat.two_pow_pos _)) hv
      rw [addF_zero_of_fin hm hn hv ht, addF_zero_of_fin hm' hn (eqMag_refl _ _) ht]
/-- A padding chunk after the first changes neither the value nor whether a step overflowed. -/
theorem add_zero_idem {x : Fl} (h : x.v.InF32) : Fl.add (Fl.add x .zero) .zero = Fl.add x .zero := by
  have hv : Val.addF (Val.addF x.v .zero) .zero = Val.addF x.v .zero := addF_zero_idem h
  have ho (v : Val) : (v.isInf && v.isFinite) = false := by cases v <;> rfl
  simp only [Fl.add, Fl.step, show Fl.zero.v = Val.zero from rfl, hv, ho, show Fl.zero.o = false from rfl, Bool.false_and, Bool.or_false]
theorem foldl_add_zero {α : Type} (l : List α) {x : Fl} (h : x.v.InF32) : l.foldl (fun y _ => Fl.add y .zero) x = if l.isEmpty then x else x.add .zero := by
  induction l generalizing x with
  | nil => rfl
  | cons b l ih =>
    have hx : (Fl.add x .zero).v.InF32 := foldl_add_inF32 [.zero] x h
    rw [List.foldl_cons, ih hx, add_zero_idem h, ite_self]
    rfl

/-! ## Spans and their tree -/

/-- Chunk i of a list of products. -/
def chunkAt (ps : List Val) (i : Nat) : Fl := chunk ((ps.drop (32 * i)).take 32)

theorem chunks_eq_map (ps : List Val) : (pieces 32 ps).map chunk = (List.range (cdiv ps.length 32)).map (chunkAt ps) := by
  rw [pieces_eq_map (by decide), List.map_map]
  rfl
theorem chunkAt_of_length_le {ps : List Val} {i : Nat} (h : ps.length ≤ 32 * i) : chunkAt ps i = .zero := by
  rw [chunkAt, List.drop_of_length_le h]
  rfl
theorem length_spanPartials (ps : List Val) : (spanPartials ps).length = cdiv ps.length 2048 := by
  rw [spanPartials, List.length_map, length_pieces (by decide), List.length_map, length_pieces (by decide)]
  unfold cdiv
  omega
/-- The chunks of a list that one span holds. -/
theorem spanSum_chunks {ps : List Val} (h0 : 0 < ps.length) (h : ps.length ≤ 2048) :
    spanSum ((pieces 32 ps).map chunk) = (List.range 63).foldl (fun x i => Fl.add x (chunkAt ps (i + 1))) (chunkAt ps 0) := by
  obtain ⟨k, hk⟩ : ∃ k, cdiv ps.length 32 = k + 1 := ⟨_, cdiv_of_pos (by decide) h0⟩
  have hlen : ps.length ≤ 32 * (k + 1) ∧ k ≤ 63 := by unfold cdiv at hk; omega
  have hfold : (List.range 63).foldl (fun x i => Fl.add x (chunkAt ps (i + 1))) (chunkAt ps 0) =
      (List.range (63 - k)).foldl (fun x _ => Fl.add x .zero) ((List.range k).foldl (fun x i => Fl.add x (chunkAt ps (i + 1))) (chunkAt ps 0)) := by
    rw [show List.range 63 = List.range (k + (63 - k)) by congr 1; omega, List.range_add, List.foldl_append, List.foldl_map]
    have hz (i : Nat) : chunkAt ps (k + i + 1) = .zero := chunkAt_of_length_le (by omega)
    simp only [hz]
  have hin : ((List.range k).foldl (fun x i => Fl.add x (chunkAt ps (i + 1))) (chunkAt ps 0)).v.InF32 := by
    rw [← List.foldl_map (f := fun i => chunkAt ps (i + 1)) (g := Fl.add)]
    exact foldl_add_inF32 _ _ (chunk_inF32 _)
  rw [hfold, foldl_add_zero _ hin, chunks_eq_map, hk, List.range_succ_eq_map, List.map_cons, List.map_map]
  simp only [spanSum, List.foldl_map, List.length_cons, List.length_map, List.length_range, Function.comp_apply]
  by_cases hk' : k = 63
  · subst hk'; rfl
  · rw [if_pos (by omega), if_neg (by rw [List.isEmpty_iff, List.range_eq_nil]; omega)]
theorem canon_of_root {ps : List Val} {x : Fl} (h : treeOf Fl.add (spanPartials ps) = some x) : canon ps = x := by rw [canon, h]; rfl
/-- R78: one span. -/
theorem canon_span {ps : List Val} (h0 : 0 < ps.length) (h : ps.length ≤ 2048) :
    canon ps = (List.range 63).foldl (fun x i => Fl.add x (chunkAt ps (i + 1))) (chunkAt ps 0) := by
  have hlen : 0 < ((pieces 32 ps).map chunk).length ∧ ((pieces 32 ps).map chunk).length ≤ 64 := by
    rw [List.length_map, length_pieces (by decide)]; unfold cdiv; omega
  have hpart : spanPartials ps = [spanSum ((pieces 32 ps).map chunk)] := by rw [spanPartials, pieces_of_length_le hlen.1 hlen.2]; rfl
  rw [← spanSum_chunks h0 h]
  exact canon_of_root (hpart ▸ treeOf_of_root (h := 0) Nat.one_pos rfl)
theorem spanPartials_append (j : Nat) (l l' : List Val) (h : l.length = 2048 * j) : spanPartials (l ++ l') = spanPartials l ++ spanPartials l' := by
  have hl : ((pieces 32 l).map chunk).length = 64 * j := by rw [List.length_map, length_pieces (by decide), h]; unfold cdiv; omega
  rw [spanPartials, pieces_append (j := 64 * j) (by decide) l l' (by omega), List.map_append, pieces_append (j := j) (by decide) _ _ hl, List.map_append]
  rfl
/-- R78: the root over more than one span. -/
theorem canon_split {ps : List Val} (h : 2048 < ps.length) :
    let n := 2048 * 2 ^ (cdiv ps.length 2048 - 1).log2
    canon ps = Fl.add (canon (ps.take n)) (canon (ps.drop n)) := by
  have hN : cdiv ps.length 2048 - 1 ≠ 0 := by unfold cdiv; omega
  have h1 := Nat.log2_self_le hN
  have h2 := Nat.lt_log2_self (n := cdiv ps.length 2048 - 1)
  intro n
  obtain ⟨t, ht⟩ : ∃ t, (cdiv ps.length 2048 - 1).log2 = t := ⟨_, rfl⟩
  have hn2 : n = 2048 * 2 ^ t := by rw [← ht]
  rw [ht] at h1 h2
  have hn : n ≤ ps.length := by unfold cdiv at h1; omega
  have htake : (ps.take n).length = 2048 * 2 ^ t := by rw [List.length_take, Nat.min_eq_left hn, hn2]
  have hsplit := spanPartials_append (2 ^ t) (ps.take n) (ps.drop n) htake
  rw [List.take_append_drop] at hsplit
  have hleft : (spanPartials (ps.take n)).length = 2 ^ t := by rw [length_spanPartials, htake]; unfold cdiv; omega
  obtain ⟨a, b, ha, hb, hab⟩ := treeOf_split (f := Fl.add) (h := t) (l := spanPartials ps) (by rw [length_spanPartials]; omega)
    (by rw [length_spanPartials]; omega)
  rw [hsplit, List.take_left' hleft] at ha
  rw [hsplit, List.drop_left' hleft] at hb
  rw [canon_of_root hab, canon_of_root ha, canon_of_root hb]

end Sys2Proof.Machine
end

section
/-! ## R41, R50, R54, R55, R74 to R78 -/

open Sys2Proof Sys2Proof.Machine

/-- Settles O60: part by part from the encodings of Table 02-6, the generator in 64-bit words, and the values of chunks and spans. -/
theorem f32toX48 : Obligations.F32toX48 := by
  unfold Obligations.F32toX48
  refine ⟨fun w h => ⟨encode_x48_of_f32 w.isLt h, ?_⟩, ?_, ?_, ?_, ?_, ?_, ?_⟩
  · rw [show decodeElem 1 (w.toNat * 2 ^ 16) = (decodeElem 0 w.toNat).toX48 from decode_x48_shift w.toNat]
    exact Val.toX48_eq _ h
  · intro md sat bn s num den e x hd
    refine ⟨fun y hy => ?_, fun y hy => ?_, ?_⟩
    · intro f sg enc code hmd
      have hrow := floatRow hy
      refine ⟨?_, ?_, fun c m m' a b hc hv hv' => ?_, fun m a hv => ?_⟩
      · exact (congrArg Enc.code (hrow.encode md bn _)).trans (hrow.nan_code md bn s)
      · exact (congrArg Enc.code (hrow.encode md bn _)).trans (hrow.inf_code md bn s)
      · exact hrow.writes_between bn s hmd hd hc hv hv'
      · exact hrow.writes_from_top bn s hmd hd hv
    · intro f w code put hmd
      obtain ⟨hnan, hnan'⟩ := integer_nan_code (md := md) hy sat bn s
      exact ⟨integer_inf_code hy sat bn s, hnan, hnan', integer_writes hy sat bn s hmd hd⟩
    · exact ⟨rfl, rfl, fun h => congrArg Enc.code (if_pos h), e8m0_writes sat bn s hd⟩
  · intro sr sat bn s o key st c0 f scale
    exact ⟨fun hf => block_scale_nan hf .., fun hf hbn => by subst hbn; exact block_scale_inf hf ..⟩
  · intro s t m n e f a b f32 i
    obtain ⟨hadd, hadd0⟩ := addF_to32 s t m n e f
    obtain ⟨hsub, hsub0⟩ := addF_to32 s (!t) m n e f
    exact ⟨hadd, hadd0, hsub, hsub0, mulF_to32 s t m n e f, divF_to32 s t m e f⟩
  · exact srDraw_eq_srWord
  · intro ps hlen inf nan term
    exact ⟨chunk_nan, fun s => chunk_inf, chunk_zero hlen, fun s m e => chunk_sum⟩
  · intro ps h0 at' n
    exact ⟨canon_span h0, canon_split⟩
end

section
/-! SUPPORT. Where the registers of a tile's window lie, and host writes of registers that hold nothing writable. -/

namespace Sys2Proof.Machine

variable {d : Dev}

/-! ## Where a register lies -/

theorem wordIn_word (base : Nat) {n k : Nat} (hk : k < n) : wordIn base n (base + 8 * k) = some k := by
  have hin : (base ≤ base + 8 * k && base + 8 * k < base + 8 * n : Bool) = true := by simp only [Bool.and_eq_true, decide_eq_true_eq]; omega
  rw [wordIn, if_pos hin, Nat.add_sub_cancel_left, Nat.mul_div_cancel_left k (by decide)]
theorem wordIn_of_ge {base n o : Nat} (h : base + 8 * n ≤ o) : wordIn base n o = none := by
  rw [wordIn, decide_eq_false (Nat.not_lt.2 h), Bool.and_false]
  rfl
theorem blockOf_block (base : Nat) {size n k r : Nat} (hk : k < n) (hr : r < size) : blockOf base size n (base + (size * k + r)) = some (k, r) := by
  have hlt : size * k + r < size * n := by
    have := Nat.mul_le_mul_left size hk
    rw [Nat.mul_succ] at this
    omega
  have hin : (base ≤ base + (size * k + r) && base + (size * k + r) < base + size * n : Bool) = true := by
    simp only [Bool.and_eq_true, decide_eq_true_eq]; omega
  rw [blockOf, if_pos hin, Nat.add_sub_cancel_left, Nat.mul_add_div (by omega), Nat.mul_add_mod, Nat.div_eq_of_lt hr, Nat.mod_eq_of_lt hr, Nat.add_zero]

/-- Table 16-4: the window of tile t. -/
theorem Dev.pfReg_tile (d : Dev) {t r : Nat} (ht : t < 96) (hr : r < 0x40000) : d.pfReg (0x2000000 + (0x40000 * t + r)) = d.tileReg t r := by
  rw [Dev.pfReg, if_neg (by omega), if_neg (by omega), if_neg (by omega), if_neg (by omega), if_neg (by omega), if_neg (by omega), blockOf_block _ ht hr]

/-- The four array counters of a tile in the order of their offsets from 1008h: ARR_CYC_FA, ARR_CYC_BX, ARR_CYC_BW and ARR_LEND. -/
def arrCounter (t i : Nat) : Reg := if i < 3 then .arrCyc t i else .arrLend t

theorem Dev.tileReg_arrCounter (d : Dev) (t : Nat) {i : Nat} (hi : i < 4) : d.tileReg t (0x1008 + 8 * i) = some (arrCounter t i) := by
  have h0 : (0x1008 + 8 * i == 0x1000) = false := beq_eq_false_iff_ne.2 (by omega)
  rw [Dev.tileReg, h0, arrCounter]
  by_cases h3 : i < 3
  · rw [wordIn_word _ h3, if_pos h3]
    rfl
  · obtain rfl : i = 3 := by omega
    rw [wordIn_of_ge (by decide)]
    rfl

/-! ## What an unowned tile's counters read as (R96) -/

theorem Dev.readReg_arrCyc_of_unowned {t : Nat} (h : d.ownerOf t = none) (i : Nat) : d.readReg (.arrCyc t i) = 0 := by
  have hread : d.readTile (.arrCyc t i) = 0 := by rw [Dev.readTile, h]; rfl
  rw [Dev.readReg, hread]
  rfl
theorem Dev.readReg_arrLend_of_unowned {t : Nat} (h : d.ownerOf t = none) : d.readReg (.arrLend t) = 0 := by
  have hread : d.readTile (.arrLend t) = 0 := by rw [Dev.readTile, h]; rfl
  rw [Dev.readReg, hread]
  rfl

/-! ## Writes without an effect -/

/-- No write of r has an effect: nothing of it is stored, cleared by a 1, or acts. -/
structure Reg.Inert (r : Reg) : Prop where
  storeCtl : ∀ (d : Dev) (m v : W64), d.storeCtl r m v = d
  storeRest : ∀ (d : Dev) (m v : W64), d.storeRest r m v = d
  act : ∀ (d : Dev) (v : W64), d.act r v = d
  wo : r.wo = 0#64

theorem inert_arrCounter (t i : Nat) : (arrCounter t i).Inert := by
  unfold arrCounter
  split
  · exact ⟨fun _ _ _ => rfl, fun _ _ _ => rfl, fun _ _ => rfl, rfl⟩
  · exact ⟨fun _ _ _ => rfl, fun _ _ _ => rfl, fun _ _ => rfl, rfl⟩
theorem Dev.regWrite_inert {r : Reg} (h : r.Inert) (d : Dev) (whole : Bool) (m v : W64) : d.regWrite r whole m v = d := by
  have hwo : (v &&& m &&& r.wo == 0) = true := by rw [h.wo, BitVec.and_zero]; rfl
  rw [Dev.regWrite, h.storeCtl, h.storeRest, h.act, hwo]
  exact ite_self d
/-- A write of the right size and alignment that is let in leaves the device as it was where it finds an inert register. -/
theorem Dev.hostWrite_inert {f : Fn} {off size : Nat} {via : Via} {r : Reg} (hr : r.Inert) (hadm : d.admits (fnIx f) via = true)
    (hsize : size = 4 ∨ size = 8) (halign : off % size = 0) (hreg : d.regAt f (off / 8 * 8) = some r) (v : W64) :
    d.hostWrite f off size v via = d := by
  have hform : ((size == 4 || size == 8) && off % size == 0) = true := by
    simp only [Bool.and_eq_true, Bool.or_eq_true, beq_iff_eq]
    exact ⟨hsize, halign⟩
  simp only [Dev.hostWrite, hadm, hform, hreg, Dev.regWrite_inert hr, Bool.not_true, Bool.false_eq_true, if_false, ite_self]

/-- A host write that detects no error leaves the device as the write makes it. -/
theorem leaves_registerWrite {s : State} {t : Dev} {f : Fn} {off size : Nat} {v : W64} {via : Via} (h : s.dev.hostWrite f off size v via = t)
    (hdet : t.err.detected = s.dev.err.detected) : Leaves (.registerWrite f off size (some v) via) s t := by
  subst h
  have hexec : exec (.registerWrite f off size (some v) via) s = .next { s with dev := s.dev.oneCycle (s.dev.hostWrite f off size v via) } := rfl
  rw [Leaves, hexec, Dev.oneCycle_same hdet]

/-- R96: an admitted write of a place in an array counter changes nothing. -/
theorem leaves_arrCounter_write {s : State} {t i off size : Nat} {via : Via} (ht : t < 96) (hi : i < 4) (hadm : s.dev.admits 0 via = true)
    (hsize : size = 4 ∨ size = 8) (halign : off % size = 0) (hoff : off / 8 * 8 = 0x2000000 + (0x40000 * t + (0x1008 + 8 * i))) (v : W64) :
    Leaves (.registerWrite .pf0 off size (some v) via) s s.dev := by
  have hreg : s.dev.regAt .pf0 (off / 8 * 8) = some (arrCounter t i) := by
    rw [hoff, Dev.regAt, Dev.pfReg_tile _ ht (by omega), Dev.tileReg_arrCounter _ _ hi]
  exact leaves_registerWrite (Dev.hostWrite_inert (inert_arrCounter t i) hadm hsize halign hreg v) rfl

end Sys2Proof.Machine
end

section
/-! ## R96 -/

open Sys2Proof Sys2Proof.Machine

/-- Settles O58: the reads by the branch for a tile without an owner, the writes since each of the three finds an inert register. -/
theorem arrayCounters : Obligations.ArrayCounters := by
  unfold Obligations.ArrayCounters
  intro s u i v via d o
  have hu : u.val < 96 := u.isLt
  have hi : i.val < 4 := i.isLt
  have ho : o = 0x2000000 + (0x40000 * u.val + (0x1008 + 8 * i.val)) := by omega
  refine ⟨fun hfree => ⟨fun k _ => Dev.readReg_arrCyc_of_unowned hfree k, Dev.readReg_arrLend_of_unowned hfree⟩, fun hadm => ⟨?_, ?_, ?_⟩⟩
  · exact leaves_arrCounter_write hu hi hadm (.inr rfl) (by omega) (by omega) v
  · exact leaves_arrCounter_write hu hi hadm (.inl rfl) (by omega) (by omega) v
  · exact leaves_arrCounter_write hu hi hadm (.inl rfl) (by omega) (by omega) v
end
